-- ==== Sys2Proof/Word.lean ====
section
/-! DEFINITION. The word and byte types of the block (spec/00_scope.md R7, R8): a descriptor word and a register are
32 bits, every quantity is unsigned, bit 0 is the least significant. -/

namespace Sys2Proof

/-- A descriptor word, a register, an address of either address space, a count (R7: `WORD`, `AW`, `VAW` are 32). -/
abbrev Word := BitVec 32

/-- The smallest unit the memory list holds. -/
abbrev Byte := BitVec 8

end Sys2Proof
end

