-- ==== Sys2Proof/Config.lean ====
section
/-! DEFINITION. The configuration record `Cfg` of spec/00_scope.md R7 (the OPEN parameters) and the free values
(the `draw`s that a command makes). The record is an argument of the model: State carries it, no step changes it, and a
statement about every state is a statement about every configuration. -/

namespace Sys2Proof

/-- R7 `COALESCE_UNIT`: which completed descriptor counts as one coalescing unit. -/
inductive CoalesceUnit where
  | eop
  | ioe
  | any
deriving DecidableEq, Repr

/-- R7, R83 `BYTE_ORDER`: how the four bytes of a word lie in byte-addressed memory. No rule depends on it. -/
inductive ByteOrder where
  | little
  | big
deriving DecidableEq, Repr

/-- The parameters R7 marks OPEN. The widths (32 bits, nine words of a descriptor, two channels) are fixed by the types. -/
structure Cfg where
  /-- `MIN_ALIGN`: the hardware minimum alignment; a power of two, at least 4. -/
  minAlign : Word
  /-- `CACHED`: descriptors live in cached, non-coherent memory. -/
  cached : Bool
  /-- `CACHE_LINE`: read only by the caller obligation R345 (Safety.lean). -/
  cacheLine : Nat
  /-- `WDOG_WORD`: index of the receive watchdog word, 4 to 7. -/
  wdogWord : Nat
  /-- `WDOG_SENTINEL`: the "not yet updated" value. -/
  wdogSentinel : Word
  /-- `NO_CHANGE`: the "no change" operand of SET_COALESCE; outside [0,255]. -/
  noChange : Word
  /-- `SPIN_BUDGET`: polls a busy-wait makes before giving up; `none` is `inf`. -/
  spinBudget : Option Nat
  /-- `COALESCE_UNIT`. -/
  coalesceUnit : CoalesceUnit
  /-- `COAL_EVT_BITS`: width of the pending coalesce-event counter. -/
  coalEvtBits : Nat
  /-- `DLY_EVT_BITS`: width of the pending delay-event counter. -/
  dlyEvtBits : Nat
  /-- `BYTE_ORDER`. -/
  byteOrder : ByteOrder
  /-- `ENGINE_BASE`: address of the register block; read only by the caller obligation R340 (Machine/Platform.lean), which
  counts the block from it without wrapping (assumption 19). -/
  engineBase : Word
deriving DecidableEq, Repr

/-- The default R7 gives every OPEN parameter (the configuration of the spec's test vectors). `BYTE_ORDER` has no
default in the spec: DESIGN CHOICE `little`, assumption 3. -/
def Cfg.standard : Cfg where
  minAlign := 64
  cached := false
  cacheLine := 32
  wdogWord := 7
  wdogSentinel := 0xFFFFFFFF
  noChange := 0xFFFFFFFF
  spinBudget := none
  coalesceUnit := .eop
  coalEvtBits := 4
  dlyEvtBits := 2
  byteOrder := .little
  engineBase := 0x80000000

/-- FREE VALUE (assumption 4): the word of the n-th `draw` a command makes. Uninterpreted. -/
opaque Config.freeWord : Nat → Word

/-- FREE VALUE (assumption 4): the yes-or-no of the n-th `draw` a command makes (the cache's choices). Uninterpreted. -/
opaque Config.freeBool : Nat → Bool

end Sys2Proof
end

