-- ==== Sys2Proof/Syntax.lean ====
section
/-! DEFINITION. The commands as syntax: channels, the 25 opcodes of spec/30_encoding.md R125 with their scope and
format, a parsed but unchecked command, and `Instr`, one constructor per row of spec/opcode_table.json. -/

namespace Sys2Proof

/-- R7, R121, D44: channel 0 is send (`tx`), channel 1 is receive (`rx`). -/
inductive Channel where
  | tx
  | rx
deriving DecidableEq, Repr

/-- R125: one name per row of the opcode map. -/
inductive Opcode where
  | nop | create | clone
  | alloc | unalloc | toHw | fromHw | free
  | start | pause | resume | reset
  | setCoalesce | getCoalesce | irqEnable | irqDisable | irqGet | irqAck
  | bdRd | bdWr | bdNext | bdPrev | ringStat
  | regRd | regWr
deriving DecidableEq, Repr

/-- R125, "scope" column. -/
inductive Scope where
  | channel
  | engineWide
deriving DecidableEq, Repr

/-- R122: the six formats. -/
inductive Format where
  | N | A1 | A2 | A3 | A4 | T9
deriving DecidableEq, Repr

/-- R122: operand words after the header. -/
def Format.operandWords : Format → Nat
  | .N => 0
  | .A1 => 1
  | .A2 => 2
  | .A3 => 3
  | .A4 => 4
  | .T9 => 9

/-- R125: the scope of each opcode. -/
def Opcode.scope : Opcode → Scope
  | .nop | .pause | .resume | .reset | .regRd | .regWr => .engineWide
  | .create | .clone | .alloc | .unalloc | .toHw | .fromHw | .free | .start | .setCoalesce | .getCoalesce
  | .irqEnable | .irqDisable | .irqGet | .irqAck | .bdRd | .bdWr | .bdNext | .bdPrev | .ringStat => .channel

/-- R122, R125: the format of each opcode. -/
def Opcode.format : Opcode → Format
  | .nop | .start | .pause | .resume | .reset | .getCoalesce | .irqGet => .N
  | .alloc | .fromHw | .irqEnable | .irqDisable | .irqAck | .bdNext | .bdPrev | .ringStat | .regRd => .A1
  | .unalloc | .toHw | .free | .setCoalesce | .bdRd | .regWr => .A2
  | .bdWr => .A3
  | .create => .A4
  | .clone => .T9

/-- A command as parsed from its words, before its checks: opcode, channel bit, operand words. -/
structure RawCommand where
  opcode : Opcode
  ch : Channel
  operands : List Word
deriving DecidableEq, Repr

/-- The commands (R125), operands in the table's order. Every operand is a whole 32-bit unsigned word (R123).
An engine-wide command has no channel field. -/
inductive Instr where
  /-- 0x00 NOP -/
  | nop
  /-- 0x01 CREATE -/
  | create (ch : Channel) (physBase virtBase alignment count : Word)
  /-- 0x02 CLONE -/
  | clone (ch : Channel) (t0 t1 t2 t3 t4 t5 t6 t7 t8 : Word)
  /-- 0x10 ALLOC -/
  | alloc (ch : Channel) (n : Word)
  /-- 0x11 UNALLOC -/
  | unalloc (ch : Channel) (n set : Word)
  /-- 0x12 TO_HW -/
  | toHw (ch : Channel) (n set : Word)
  /-- 0x13 FROM_HW -/
  | fromHw (ch : Channel) (limit : Word)
  /-- 0x14 FREE -/
  | free (ch : Channel) (n set : Word)
  /-- 0x20 START -/
  | start (ch : Channel)
  /-- 0x21 PAUSE -/
  | pause
  /-- 0x22 RESUME -/
  | resume
  /-- 0x23 RESET -/
  | reset
  /-- 0x30 SET_COALESCE -/
  | setCoalesce (ch : Channel) (counter timer : Word)
  /-- 0x31 GET_COALESCE -/
  | getCoalesce (ch : Channel)
  /-- 0x32 IRQ_ENABLE -/
  | irqEnable (ch : Channel) (mask : Word)
  /-- 0x33 IRQ_DISABLE -/
  | irqDisable (ch : Channel) (mask : Word)
  /-- 0x34 IRQ_GET -/
  | irqGet (ch : Channel)
  /-- 0x35 IRQ_ACK -/
  | irqAck (ch : Channel) (mask : Word)
  /-- 0x40 BD_RD -/
  | bdRd (ch : Channel) (bd w : Word)
  /-- 0x41 BD_WR -/
  | bdWr (ch : Channel) (bd w value : Word)
  /-- 0x42 BD_NEXT -/
  | bdNext (ch : Channel) (bd : Word)
  /-- 0x43 BD_PREV -/
  | bdPrev (ch : Channel) (bd : Word)
  /-- 0x44 RING_STAT -/
  | ringStat (ch : Channel) (sel : Word)
  /-- 0x50 REG_RD -/
  | regRd (off : Word)
  /-- 0x51 REG_WR -/
  | regWr (off value : Word)
deriving DecidableEq, Repr

/-- The parsed form of a command: its opcode, its channel bit (`tx` for an engine-wide command, R121) and its operand
words in format order (R123). -/
def Instr.raw : Instr → RawCommand
  | .nop => ⟨.nop, .tx, []⟩
  | .create ch p v a n => ⟨.create, ch, [p, v, a, n]⟩
  | .clone ch t0 t1 t2 t3 t4 t5 t6 t7 t8 => ⟨.clone, ch, [t0, t1, t2, t3, t4, t5, t6, t7, t8]⟩
  | .alloc ch n => ⟨.alloc, ch, [n]⟩
  | .unalloc ch n set => ⟨.unalloc, ch, [n, set]⟩
  | .toHw ch n set => ⟨.toHw, ch, [n, set]⟩
  | .fromHw ch limit => ⟨.fromHw, ch, [limit]⟩
  | .free ch n set => ⟨.free, ch, [n, set]⟩
  | .start ch => ⟨.start, ch, []⟩
  | .pause => ⟨.pause, .tx, []⟩
  | .resume => ⟨.resume, .tx, []⟩
  | .reset => ⟨.reset, .tx, []⟩
  | .setCoalesce ch counter timer => ⟨.setCoalesce, ch, [counter, timer]⟩
  | .getCoalesce ch => ⟨.getCoalesce, ch, []⟩
  | .irqEnable ch mask => ⟨.irqEnable, ch, [mask]⟩
  | .irqDisable ch mask => ⟨.irqDisable, ch, [mask]⟩
  | .irqGet ch => ⟨.irqGet, ch, []⟩
  | .irqAck ch mask => ⟨.irqAck, ch, [mask]⟩
  | .bdRd ch bd w => ⟨.bdRd, ch, [bd, w]⟩
  | .bdWr ch bd w value => ⟨.bdWr, ch, [bd, w, value]⟩
  | .bdNext ch bd => ⟨.bdNext, ch, [bd]⟩
  | .bdPrev ch bd => ⟨.bdPrev, ch, [bd]⟩
  | .ringStat ch sel => ⟨.ringStat, ch, [sel]⟩
  | .regRd off => ⟨.regRd, .tx, [off]⟩
  | .regWr off value => ⟨.regWr, .tx, [off, value]⟩

end Sys2Proof
end

