-- ==== Sys2Proof/WellFormed.lean ====
section
/-! DEFINITION. What is well formed: a parsed command (spec/30_encoding.md R121, R122), an instruction, and a
configuration (spec/00_scope.md R7, spec/93_implementation_defined.md U16). -/

namespace Sys2Proof

/-- R121: "For engine-wide commands it must be 0": the channel bit. -/
def RawCommand.channelAllowed (r : RawCommand) : Bool :=
  r.opcode.scope == .channel || r.ch == .tx

/-- R122: as many operand words as the opcode's format has. -/
def RawCommand.operandsComplete (r : RawCommand) : Bool :=
  r.operands.length == r.opcode.format.operandWords

/-- Both checks of a parsed command. -/
def RawCommand.wf (r : RawCommand) : Bool :=
  r.channelAllowed && r.operandsComplete

/-- An instruction is well formed when its parsed form passes the two checks. -/
def Instr.WellFormed (i : Instr) : Prop := i.raw.wf = true

/-- R7, U16: `MIN_ALIGN` is a power of two and at least 4. -/
def Cfg.minAlignOk (c : Cfg) : Bool :=
  decide (4 ≤ c.minAlign.toNat) && (c.minAlign &&& (c.minAlign - 1)) == 0

/-- R7, U16: `WDOG_WORD` is one of 4..7. -/
def Cfg.wdogWordOk (c : Cfg) : Bool :=
  decide (4 ≤ c.wdogWord) && decide (c.wdogWord ≤ 7)

/-- R7, U16: `NO_CHANGE` lies outside [0,255]. -/
def Cfg.noChangeOk (c : Cfg) : Bool :=
  decide (255 < c.noChange.toNat)

/-- U16: the constraints on the parameters; a configuration that breaks one is refused (Machine/Turn.lean). -/
def Cfg.wf (c : Cfg) : Bool :=
  c.minAlignOk && c.wdogWordOk && c.noChangeOk

end Sys2Proof
end

