-- ==== Sys2Proof/Decode.lean ====
section
/-! DEFINITION. The decoder of the command stream (spec/30_encoding.md R121 to R127): total on any list of words,
rejecting by name; and after it the encoder, written from the same tables. -/

namespace Sys2Proof

/-- R125: the opcode number, header bits 7:0. -/
def Opcode.byte : Opcode → BitVec 8
  | .nop => 0x00
  | .create => 0x01
  | .clone => 0x02
  | .alloc => 0x10
  | .unalloc => 0x11
  | .toHw => 0x12
  | .fromHw => 0x13
  | .free => 0x14
  | .start => 0x20
  | .pause => 0x21
  | .resume => 0x22
  | .reset => 0x23
  | .setCoalesce => 0x30
  | .getCoalesce => 0x31
  | .irqEnable => 0x32
  | .irqDisable => 0x33
  | .irqGet => 0x34
  | .irqAck => 0x35
  | .bdRd => 0x40
  | .bdWr => 0x41
  | .bdNext => 0x42
  | .bdPrev => 0x43
  | .ringStat => 0x44
  | .regRd => 0x50
  | .regWr => 0x51

/-- The 25 opcodes, in the table's order. -/
def Opcode.all : List Opcode :=
  [.nop, .create, .clone, .alloc, .unalloc, .toHw, .fromHw, .free, .start, .pause, .resume, .reset, .setCoalesce,
   .getCoalesce, .irqEnable, .irqDisable, .irqGet, .irqAck, .bdRd, .bdWr, .bdNext, .bdPrev, .ringStat, .regRd, .regWr]

/-- R126: the opcode a number names, if it is one of the 25. -/
def Opcode.ofByte (b : BitVec 8) : Option Opcode :=
  Opcode.all.find? (fun o => o.byte == b)

/-- R125: the `mask` of the row: bit 8 is free for a channel command, fixed for an engine-wide one. -/
def Opcode.mask (o : Opcode) : Word :=
  match o.scope with
  | .channel => 0xFFFFFEFF
  | .engineWide => 0xFFFFFFFF

/-- R125: the `match` of the row. -/
def Opcode.matchWord (o : Opcode) : Word := o.byte.setWidth 32

/-- R121, bits 31:9. -/
def headerReserved (h : Word) : BitVec 23 := h.extractLsb' 9 23

/-- R121, bits 7:0. -/
def headerOpc (h : Word) : BitVec 8 := h.extractLsb' 0 8

/-- R121, bit 8. -/
def headerChannel (h : Word) : Channel := if h.getLsbD 8 then .rx else .tx

/-- Why the words at the head of the stream are no command. -/
inductive DecodeError where
  /-- R126: one of bits 31:9 of the header is 1. -/
  | reservedBits
  /-- R126: bits 7:0 are none of the 25 opcodes. -/
  | unknownOpcode
  /-- R126: an engine-wide opcode with the channel bit 1. -/
  | channelOnEngineWide
  /-- No header has been presented: no command yet. -/
  | noHeader
  /-- A legal header whose operand words have not all been presented: no command yet. -/
  | operandsMissing
deriving DecidableEq, Repr

/-- R126: the three cases in which a header is illegal (the other two are an incomplete presentation). -/
def DecodeError.illegal : DecodeError → Bool
  | .reservedBits | .unknownOpcode | .channelOnEngineWide => true
  | .noHeader | .operandsMissing => false

/-- What the decoder answers: the command and the words after it, or the reason there is none. -/
inductive Decoded where
  | instr (i : Instr) (rest : List Word)
  | rejected (why : DecodeError)
deriving DecidableEq, Repr

/-- The typed command of a parsed one, where its checks hold. -/
def Instr.ofRaw (o : Opcode) (ch : Channel) (ops : List Word) : Option Instr :=
  match o, ops with
  | .nop, [] => some .nop
  | .create, [p, v, a, n] => some (.create ch p v a n)
  | .clone, [t0, t1, t2, t3, t4, t5, t6, t7, t8] => some (.clone ch t0 t1 t2 t3 t4 t5 t6 t7 t8)
  | .alloc, [n] => some (.alloc ch n)
  | .unalloc, [n, set] => some (.unalloc ch n set)
  | .toHw, [n, set] => some (.toHw ch n set)
  | .fromHw, [limit] => some (.fromHw ch limit)
  | .free, [n, set] => some (.free ch n set)
  | .start, [] => some (.start ch)
  | .pause, [] => some .pause
  | .resume, [] => some .resume
  | .reset, [] => some .reset
  | .setCoalesce, [counter, timer] => some (.setCoalesce ch counter timer)
  | .getCoalesce, [] => some (.getCoalesce ch)
  | .irqEnable, [mask] => some (.irqEnable ch mask)
  | .irqDisable, [mask] => some (.irqDisable ch mask)
  | .irqGet, [] => some (.irqGet ch)
  | .irqAck, [mask] => some (.irqAck ch mask)
  | .bdRd, [bd, w] => some (.bdRd ch bd w)
  | .bdWr, [bd, w, value] => some (.bdWr ch bd w value)
  | .bdNext, [bd] => some (.bdNext ch bd)
  | .bdPrev, [bd] => some (.bdPrev ch bd)
  | .ringStat, [sel] => some (.ringStat ch sel)
  | .regRd, [off] => some (.regRd off)
  | .regWr, [off, value] => some (.regWr off value)
  | _, _ => none

/-- R121 to R127: the command at the head of the stream. The header's checks come before its operands are counted
(R126: an illegal header consumes one word only). -/
def decode (ws : List Word) : Decoded :=
  match ws with
  | [] => .rejected .noHeader
  | h :: rest =>
    if headerReserved h ≠ 0 then .rejected .reservedBits
    else
      match Opcode.ofByte (headerOpc h) with
      | none => .rejected .unknownOpcode
      | some o =>
        let n := o.format.operandWords
        if (RawCommand.mk o (headerChannel h) []).channelAllowed = false then .rejected .channelOnEngineWide
        else
          match Instr.ofRaw o (headerChannel h) (rest.take n) with
          | none => .rejected .operandsMissing
          | some i => .instr i (rest.drop n)

/-- R121: the header word of an opcode and a channel. -/
def encodeHeader (o : Opcode) (ch : Channel) : Word :=
  o.matchWord ||| (match ch with | .tx => 0 | .rx => 0x100)

/-- R120 to R123: the words of a command, header first. -/
def encode (i : Instr) : List Word :=
  encodeHeader i.raw.opcode i.raw.ch :: i.raw.operands

/-- R122: the words of the longest command (T9). -/
def longestCommandWords : Nat := 10

/-- The words of an instruction given as a number whose bit 0 is bit 0 of the header word; every bit from `nbits` up is
0, up to the longest command. -/
def tableWords (nbits w : Nat) : List Word :=
  (List.range longestCommandWords).map (fun k => BitVec.ofNat 32 ((w % 2 ^ nbits) >>> (32 * k)))

/-- The instruction the decoder reads from an opcode-table word (the host's question). -/
def decodeTableWord (nbits w : Nat) : Option Instr :=
  match decode (tableWords nbits w) with
  | .instr i _ => some i
  | .rejected _ => none

end Sys2Proof
end

