-- ==== Sys2Proof/Machine/State.lean ====
section
/-! DEFINITION. The state of the block as plain data: the two rings' bookkeeping (spec/10_state.md section 2), the
engine's registers and hidden state (sections 4, 5), descriptor memory and the host's cache (section 6,
spec/20_memory.md), the command stream and the command that waits (spec/30_encoding.md R120, spec/42_engine_control.md
R206), and the environment's choices as an input list. The reasons a step can stop, and power-on (R78). -/

namespace Sys2Proof.Machine

/-- R42: the manager's record of a channel. -/
inductive RunState where
  | stopped
  | started
deriving DecidableEq, Repr

/-- R67: the engine's run state. -/
inductive EngState where
  | idle
  | run
  | halt
deriving DecidableEq, Repr

/-- R248: the four ownership groups. -/
inductive Group where
  | free
  | pre
  | hw
  | post
deriving DecidableEq, Repr

/-- R301: the status codes 0 to 19, in the order of their numbers. -/
inductive Status where
  | ok | alignMin | alignPow2 | baseAlign | countZero | regionWrap | notAllFree | started | coalesceRange | noSpace
  | seq | noSop | noEop | zeroLen | noRing | timeout | illegalCmd | badHandle | ownership | exists_
deriving DecidableEq, Repr

/-- The bookkeeping of one ring (spec/10_state.md section 2; the comment gives the RING_STAT selector). -/
structure Ring where
  /-- 0, R25 -/
  count : Word
  /-- 1, R26 -/
  separation : Word
  /-- 2, R27: 33 bits, a value up to 2^32 -/
  length : BitVec 33
  /-- 3, R28 -/
  firstPhys : Word
  /-- 4, R28 -/
  firstVirt : Word
  /-- 5, R28 -/
  lastPhys : Word
  /-- 6, R28 -/
  lastVirt : Word
  /-- 7, R32 -/
  freeHead : Word
  /-- 8, R32 -/
  preHead : Word
  /-- 9, R32 -/
  hwHead : Word
  /-- 10, R32 -/
  postHead : Word
  /-- 11, R36 -/
  freeCount : Word
  /-- 12, R36 -/
  preCount : Word
  /-- 13, R36 -/
  hwCount : Word
  /-- 14, R36 -/
  postCount : Word
  /-- 15, R40 -/
  hwTail : Word
  /-- 16, R41 -/
  restart : Word
  /-- 17, R42 -/
  runState : RunState
  /-- 18, R44 -/
  irqMask : Word
  /-- 19, R43 -/
  isRx : Bool
deriving DecidableEq, Repr

/-- One channel of the engine: its registers that hold state (R61 to R63) and its hidden state (R67, R70 to R73).
`NDESC`, `BUFA`, `BUFL` hold none (R60); `IRQ` and `SR` are computed (R64, R65). -/
structure EngineChannel where
  /-- R61 `CDESC` -/
  cdesc : Word
  /-- R62 `TDESC` -/
  tdesc : Word
  /-- R63 `CR`; bit 8 is never stored (R271) -/
  cr : Word
  /-- R67 `eng_state` -/
  engState : EngState
  /-- R70 `coal_ctr` -/
  coalCtr : BitVec 8
  /-- R71 `dly_armed` -/
  dlyArmed : Bool
  /-- R72 `coal_evt`, `COAL_EVT_BITS` wide: a count, at most `2^COAL_EVT_BITS - 1` (R274) -/
  coalEvt : Nat
  /-- R72 `dly_evt`, `DLY_EVT_BITS` wide -/
  dlyEvt : Nat
  /-- R73 `err_latch` -/
  errLatch : Bool
deriving DecidableEq, Repr

/-- R93: the host's cached copy of one descriptor's words 0 to 7. -/
structure CacheLine where
  addr : Word
  words : Vector Word 8
  dirty : Bool
deriving DecidableEq, Repr

/-- Descriptor memory (R77): (physical byte address, byte), addresses rising, no byte equal to what an unlisted address
reads as (Machine/Memory.lean). -/
abbrev Memory := List Host.Cell

/-- R206: the two commands that contain a `wait until`. -/
inductive WaitKind where
  | pause
  | reset
deriving DecidableEq, Repr

/-- R206: a command that waits: which one, and how many polls have found its predicate false. -/
structure Waiting where
  kind : WaitKind
  polls : Nat
deriving DecidableEq, Repr

/-- The draws of one `EngStep` (R265, R267); on the send channel only `err` is read. -/
structure EngDraws where
  err : Bool
  len : Word
  sop : Bool
  eop : Bool
  usr0 : BitVec 24
  acc4 : Word
  acc5 : Word
  acc6 : Word
  acc7 : Word
deriving DecidableEq, Repr

/-- R260: the engine's steps with their draws. -/
inductive EngineEvent where
  /-- `EngStep(c)`, R264 -/
  | step (c : Channel) (d : EngDraws)
  /-- `EngRxFinish`, R268, with the watchdog value -/
  | rxFinish (v : Word)
  /-- `EngError(c)`, R270 -/
  | error (c : Channel)
  /-- `EngDelay(c)`, R273 -/
  | delay (c : Channel)
  /-- `EngResetDone`, R277 -/
  | resetDone
deriving DecidableEq, Repr

/-- R94: the cache agent's steps. -/
inductive CacheEvent where
  | writeBack (c : Channel) (d : Word)
  | evict (c : Channel) (d : Word)
deriving DecidableEq, Repr

/-- What the host does outside the commands: present words of the command stream (R120), or reach descriptor memory
directly (R342). -/
inductive HostEvent where
  | present (ws : List Word)
  | directRead (addr : Word) (bytes : Nat)
  | directWrite (addr : Word) (bytes : Nat) (v : Word)
deriving DecidableEq, Repr

/-- R98: the agent that takes the next step. -/
inductive Turn where
  | manager
  | engine (e : EngineEvent)
  | cache (e : CacheEvent)
  | host (e : HostEvent)
deriving DecidableEq, Repr

/-- The whole state (R98: "The state of 10_state.md plus descriptor memory is one global state"). -/
structure State where
  /-- R7: the configuration; no step changes it -/
  cfg : Cfg
  /-- `ring[0]` -/
  txRing : Ring
  /-- `ring[1]` -/
  rxRing : Ring
  /-- engine channel 0 -/
  txEng : EngineChannel
  /-- engine channel 1 -/
  rxEng : EngineChannel
  /-- R69 `DMACR` -/
  dmacr : Word
  /-- R74 `resetting` -/
  resetting : Bool
  /-- R68 `wb_pending[1]` -/
  wbPending : Option Word
  /-- descriptor memory -/
  mem : Memory
  /-- R76, R93: cached copies of channel 0's descriptors -/
  txCache : List CacheLine
  /-- R76, R93: cached copies of channel 1's descriptors -/
  rxCache : List CacheLine
  /-- R206: the command that waits, if one does -/
  waiting : Option Waiting
  /-- R120: the command words presented and not yet consumed -/
  stream : List Word
  /-- R124: the response of the last command; empty while none is complete -/
  response : List Word
  /-- the word the host's last direct read returned (R342) -/
  hostData : Word
  /-- MODEL's own: which agent steps next and with which draws (assumption 5); when empty, the manager -/
  sched : List Turn
  /-- MODEL's own: how many free values have been drawn (assumption 4) -/
  drawCtr : Nat
deriving DecidableEq, Repr

/-- Why a step stops with a fault. -/
inductive Fault where
  /-- A direct host access (no command) to an address that is no descriptor word of a created ring (R88: "`addr` is a
  host address of a word inside a created ring region"). Raised by Machine/Host.lean only. Safe: nothing can be proved of
  what follows. -/
  | hostUnmapped
deriving DecidableEq, Repr

/-- Why a step is refused. -/
inductive Refusal where
  /-- An instruction that has no meaning yet; no arm of `exec` answers it. Safe. -/
  | notModelled (mnemonic : String)
  /-- A configuration that breaks a constraint of R7 (U16: "refuse the configuration"). Raised by Machine/Turn.lean.
  Safe. -/
  | illFormedConfiguration
  /-- A direct host write that violates the ownership table (R342, U8: "write: refuse"). Raised by Machine/Host.lean.
  Safe. -/
  | hostOwnershipWrite
  /-- A direct host access to a ring region narrower or wider than a word, or misaligned (R83, U14: "refuse"). Raised by
  Machine/Host.lean. Safe. -/
  | hostNarrowAccess
  /-- Overlapping regions, a physical region that wraps, an alignment below the cache line, or a data buffer over a ring
  (R340, R341, R345; U11, U12: "refuse"). Raised by Machine/Turn.lean, by no command. Safe. -/
  | callerObligation
deriving DecidableEq, Repr

/-- R78: a ring that was never created: every field 0 but `is_rx`, Stopped. -/
def Ring.powerOn (isRx : Bool) : Ring where
  count := 0
  separation := 0
  length := 0
  firstPhys := 0
  firstVirt := 0
  lastPhys := 0
  lastVirt := 0
  freeHead := 0
  preHead := 0
  hwHead := 0
  postHead := 0
  freeCount := 0
  preCount := 0
  hwCount := 0
  postCount := 0
  hwTail := 0
  restart := 0
  runState := .stopped
  irqMask := 0
  isRx := isRx

/-- R78: an engine channel at power-on. -/
def EngineChannel.powerOn : EngineChannel where
  cdesc := 0
  tdesc := 0
  cr := 0
  engState := .idle
  coalCtr := 0
  dlyArmed := false
  coalEvt := 0
  dlyEvt := 0
  errLatch := false

/-- R78, R330: power-on. Descriptor memory lists nothing, the caches are empty (assumptions 6, 7), no command is
presented and no agent but the manager is scheduled (assumption 5); the configuration is R7's defaults (assumption 2). -/
def State.reset : State where
  cfg := Cfg.standard
  txRing := Ring.powerOn false
  rxRing := Ring.powerOn true
  txEng := EngineChannel.powerOn
  rxEng := EngineChannel.powerOn
  dmacr := 0
  resetting := false
  wbPending := none
  mem := []
  txCache := []
  rxCache := []
  waiting := none
  stream := []
  response := []
  hostData := 0
  sched := []
  drawCtr := 0

end Sys2Proof.Machine
end

