-- ==== Sys2Proof/Machine/Cache.lean ====
section
/-! DEFINITION. The host cache as a list of lines, one per descriptor address, addresses rising
(spec/20_memory.md R93). -/

namespace Sys2Proof.Machine

/-- The copy of descriptor `d`, if the cache holds one. -/
def cacheFind : List CacheLine → Word → Option CacheLine
  | [], _ => none
  | l :: c, d => if l.addr = d then some l else cacheFind c d

/-- The cache with line `l` in place of any line of the same address. -/
def cacheInsert : List CacheLine → CacheLine → List CacheLine
  | [], l => [l]
  | x :: c, l =>
    if l.addr < x.addr then l :: x :: c
    else if l.addr = x.addr then l :: c
    else x :: cacheInsert c l

/-- The cache without descriptor `d`. -/
def cacheErase (c : List CacheLine) (d : Word) : List CacheLine :=
  c.filter (fun l => l.addr ≠ d)

/-- Word `w` of a copy; a copy has words 0 to 7 only. -/
def CacheLine.word (l : CacheLine) (w : Nat) : Word := l.words.toList.getD w 0

/-- The copy with word `w` replaced and marked dirty. -/
def CacheLine.write (l : CacheLine) (w : Nat) (v : Word) : CacheLine :=
  { l with words := l.words.setIfInBounds w v, dirty := true }

end Sys2Proof.Machine
end

