-- ==== Sys2Proof/Machine/Memory.lean ====
section
/-! DEFINITION. Descriptor memory as a list of bytes in one canonical form, and the aligned word built from four bytes
in one place (spec/20_memory.md R83, R85, R88). -/

namespace Sys2Proof.Machine

/-- What a byte nothing has written reads as (R78, U10: unspecified; DESIGN CHOICE, assumption 6). -/
def unlistedByte : Byte := 0

/-- One byte. -/
def Memory.readByte : Memory → Nat → Byte
  | [], _ => unlistedByte
  | (k, b) :: m, a => if k = a then b else Memory.readByte m a

/-- The list with the byte at `a` put in its place by address. -/
def Memory.insertByte : Memory → Nat → Byte → Memory
  | [], a, v => [(a, v)]
  | (k, b) :: m, a, v =>
    if a < k then (a, v) :: (k, b) :: m
    else if a = k then (a, v) :: m
    else (k, b) :: Memory.insertByte m a v

/-- A byte write; a byte that reads as an unlisted one is not listed. -/
def Memory.writeByte (m : Memory) (a : Nat) (v : Byte) : Memory :=
  if v = unlistedByte then m.filter (fun c => c.1 ≠ a) else m.insertByte a v

/-- The canonical form: addresses strictly rising and inside the address space (R7: `AW = 32`), no entry equal to what
an unlisted address reads as. -/
def Memory.wf (m : Memory) : Bool :=
  decide (m.Pairwise (fun x y => x.1 < y.1)) && m.all (fun c => c.2 != unlistedByte && decide (c.1 < 2 ^ 32))

/-- The address of byte `i` of the word at `a`. -/
def byteAddr (a : Word) (i : Nat) : Nat := (a + BitVec.ofNat 32 i).toNat

/-- Where, counted from the word's address, the byte of significance `i` (0 lowest) lies under a byte order. -/
def byteLane (o : ByteOrder) (i : Nat) : Nat :=
  match o with
  | .little => i
  | .big => 3 - i

/-- The word whose first byte lies at `a`. -/
def Memory.readWord (o : ByteOrder) (m : Memory) (a : Word) : Word :=
  m.readByte (byteAddr a (byteLane o 3)) ++ m.readByte (byteAddr a (byteLane o 2))
    ++ m.readByte (byteAddr a (byteLane o 1)) ++ m.readByte (byteAddr a (byteLane o 0))

/-- The byte of significance `i` of a word. -/
def wordByte (v : Word) (i : Nat) : Byte := v.extractLsb' (8 * i) 8

/-- A word write: its four bytes. -/
def Memory.writeWord (o : ByteOrder) (m : Memory) (a v : Word) : Memory :=
  (((m.writeByte (byteAddr a (byteLane o 0)) (wordByte v 0)).writeByte
    (byteAddr a (byteLane o 1)) (wordByte v 1)).writeByte
    (byteAddr a (byteLane o 2)) (wordByte v 2)).writeByte
    (byteAddr a (byteLane o 3)) (wordByte v 3)

/-- Byte address `k` lies in the `len` bytes that start at `base`, counted modulo the address space. -/
def inRegion (base : Word) (len k : Nat) : Bool := decide ((BitVec.ofNat 32 k - base).toNat < len)

/-- Every byte of a region set to 0 (R150, "Zeroes the entire region"). -/
def Memory.zeroRegion (m : Memory) (base : Word) (len : Nat) : Memory :=
  m.filter (fun c => !inRegion base len c.1)

end Sys2Proof.Machine
end

