-- ==== Sys2Proof/Machine/Cyclic.lean ====
section
/-! DEFINITION. Cyclic address arithmetic, descriptor addresses, ownership groups and address translation, all functions
of one ring's bookkeeping (spec/20_memory.md R86, R100 to R104, R107, spec/44_access.md R248). -/

namespace Sys2Proof.Machine

/-- R100: `adv(a, n)`, on unbounded integers: `t - length` if `t > last_virt`, else `t`, with `t = a + n*separation`. -/
def Ring.adv (r : Ring) (a : Word) (n : Nat) : Word :=
  let t : Int := a.toNat + n * r.separation.toNat
  BitVec.ofInt 32 (if t > r.lastVirt.toNat then t - r.length.toNat else t)

/-- R101: `ret(a, n)`, on unbounded integers: `t + length` if `t < first_virt`, else `t`, with `t = a - n*separation`. -/
def Ring.ret (r : Ring) (a : Word) (n : Nat) : Word :=
  let t : Int := a.toNat - n * r.separation.toNat
  BitVec.ofInt 32 (if t < r.firstVirt.toNat then t + r.length.toNat else t)

/-- R107, first line: `adv` in 32-bit arithmetic, with the second test that detects a wrapped addition. -/
def Ring.advFixed (r : Ring) (a : Word) (n : Nat) : Word :=
  let t : Word := a + BitVec.ofNat 32 n * r.separation
  if r.lastVirt < t ∨ t < a then t - r.length.setWidth 32 else t

/-- R107, second line: `ret` in 32-bit arithmetic, with the second test that detects a wrapped subtraction. -/
def Ring.retFixed (r : Ring) (a : Word) (n : Nat) : Word :=
  let t : Word := a - BitVec.ofNat 32 n * r.separation
  if t < r.firstVirt ∨ a < t then t + r.length.setWidth 32 else t

/-- R102: `nxt(a) = adv(a, 1)`. -/
def Ring.nxt (r : Ring) (a : Word) : Word := r.adv a 1

/-- R103: `prv(a) = ret(a, 1)`. -/
def Ring.prv (r : Ring) (a : Word) : Word := r.ret a 1

/-- R104: `idx(a)`. -/
def Ring.idx (r : Ring) (a : Word) : Nat := (a.toNat - r.firstVirt.toNat) / r.separation.toNat

/-- R104: `isbd(a)`; false for every `a` of a ring that was never created. -/
def Ring.isBd (r : Ring) (a : Word) : Bool :=
  r.count != 0 && decide (r.firstVirt ≤ a) && decide (a ≤ r.lastVirt)
    && (a.toNat - r.firstVirt.toNat) % r.separation.toNat == 0

/-- R248: `d(h)`, the distance from head `h` forward to descriptor `a`, modulo N. -/
def Ring.distance (r : Ring) (h a : Word) : Nat :=
  (((r.idx a : Int) - r.idx h) % r.count.toNat).toNat

/-- R248: the ownership group that holds descriptor `a`. -/
def Ring.group (r : Ring) (a : Word) : Group :=
  if r.distance r.postHead a < r.postCount.toNat then .post
  else if r.distance r.hwHead a < r.hwCount.toNat then .hw
  else if r.distance r.preHead a < r.preCount.toNat then .pre
  else .free

/-- R86: `phys(v)`. -/
def Ring.phys (r : Ring) (v : Word) : Word := v - r.firstVirt + r.firstPhys

/-- R86: `virt(p)`. -/
def Ring.virt (r : Ring) (p : Word) : Word := p - r.firstPhys + r.firstVirt

/-- R260, guard of `EngStep`: `p` is the physical address of a descriptor of the ring. -/
def Ring.isPhysBd (r : Ring) (p : Word) : Bool := r.isBd (r.virt p)

/-- The host address of descriptor `k` (R28). -/
def Ring.bdAddr (r : Ring) (k : Nat) : Word := r.firstVirt + BitVec.ofNat 32 k * r.separation

/-- Byte offset of word `w` of a descriptor (R9: `bd + 4*w`). -/
def wordOffset (w : Nat) : Word := BitVec.ofNat 32 (4 * w)

/-- The descriptor and the word index a host byte address names, if it is the address of one of the nine words of a
descriptor of the ring (R49, R80). -/
def Ring.locate (r : Ring) (addr : Word) : Option (Word × Nat) :=
  let off := addr.toNat - r.firstVirt.toNat
  let inStride := off % r.separation.toNat
  let bd := addr - BitVec.ofNat 32 inStride
  if decide (r.firstVirt ≤ addr) && r.isBd bd && decide (inStride < 36) then some (bd, inStride / 4) else none

end Sys2Proof.Machine
end

