-- ==== Sys2Proof/Machine/Flags.lean ====
section
/-! DEFINITION. Every flag and bit field: the descriptor status word (spec/10_state.md R53), the engine registers (R63,
R64, R65, R69), the status codes (spec/60_exceptions.md R301) and the interrupt line (R75, R305). -/

namespace Sys2Proof.Machine

/-! ## The descriptor status word (R53) -/

/-- Bit 31: the engine reports a transfer error. -/
def flagErr : Word := 0x80000000
/-- Bit 30: interrupt on end. -/
def flagIoe : Word := 0x40000000
/-- Bit 29: stop on end. -/
def flagSoe : Word := 0x20000000
/-- Bit 28: completed. -/
def flagCmp : Word := 0x10000000
/-- Bit 27: start of packet. -/
def flagSop : Word := 0x08000000
/-- Bit 26: end of packet. -/
def flagEop : Word := 0x04000000

/-- `v & m != 0`. -/
def hasFlag (v m : Word) : Bool := (v &&& m) != 0

/-- R176 lines 8, 15: `sts & ~(CMP | SOE)`. -/
def clearForSubmit (sts : Word) : Word := sts &&& ~~~(flagCmp ||| flagSoe)

/-- `m` where `b`, 0 elsewhere. -/
def flagIf (b : Bool) (m : Word) : Word := if b then m else 0

/-- R265: the status word the send engine writes back. -/
def sendStatus (st : Word) (err : Bool) : Word := st ||| flagCmp ||| flagIf err flagErr

/-- R267: the status word the receive engine writes. -/
def recvStatus (st : Word) (d : EngDraws) : Word :=
  (st &&& 0x63000000) ||| flagCmp ||| flagIf d.sop flagSop ||| flagIf d.eop flagEop ||| d.usr0.setWidth 32
    ||| flagIf d.err flagErr

/-! ## `DMACR` (R69) -/

/-- `PAUSE_MASK`, bits 29 and 28. -/
def pauseMask : Word := 0x30000000
/-- `RESET_DEFAULT = TAIL_PTR_EN | RX_OVF_ERR_DIS | TX_OVF_ERR_DIS`. -/
def resetDefault : Word := 0x0000001C

/-- R264: `DMACR[29]` pauses channel 0, `DMACR[28]` channel 1. -/
def pausedIn (dmacr : Word) : Channel → Bool
  | .tx => dmacr.getLsbD 29
  | .rx => dmacr.getLsbD 28

/-- R274: `ovf_err_dis(0) = DMACR[3]`, `ovf_err_dis(1) = DMACR[4]`. -/
def ovfErrDisIn (dmacr : Word) : Channel → Bool
  | .tx => dmacr.getLsbD 3
  | .rx => dmacr.getLsbD 4

/-- `DMACR[2]`, `TAIL_PTR_EN`. -/
def tailPtrEnIn (dmacr : Word) : Bool := dmacr.getLsbD 2

/-! ## `CR[c]` (R63) -/

/-- `ALL_EN`: the four enable bits, "all interrupt sources". -/
def allEnable : Word := 0x00000087
/-- `LD_IRQ_CNT`, the strobe. -/
def strobe : Word := 0x00000100

/-- `CR[23:16]`, `IRQ_COUNT`. -/
def crCount (v : Word) : BitVec 8 := v.extractLsb' 16 8
/-- `CR[31:24]`, `IRQ_TIMEOUT`. -/
def crTimeout (v : Word) : BitVec 8 := v.extractLsb' 24 8

/-! ## `IRQ[c]` and `SR[c]` (R64, R65) -/

/-- `IRQ_ACK_MASK`. -/
def irqAckMask : Word := 0x00000007

/-- R64: the read value of `IRQ[c]`; `wrqEmpty` is bit 14. -/
def irqView (e : EngineChannel) (wrqEmpty : Bool) : Word :=
  flagIf (e.coalEvt != 0) 0x1 ||| flagIf (e.dlyEvt != 0) 0x2 ||| flagIf e.errLatch 0x4
    ||| ((BitVec.ofNat 2 e.dlyEvt).setWidth 32 <<< 8) ||| ((BitVec.ofNat 4 e.coalEvt).setWidth 32 <<< 10)
    ||| flagIf wrqEmpty 0x4000

/-- R64, "effect of writing 1": each of bits 0 and 1 removes one event, bit 2 clears the error latch. -/
def irqAcknowledge (e : EngineChannel) (v : Word) : EngineChannel :=
  { e with
    coalEvt := if v.getLsbD 0 then e.coalEvt - 1 else e.coalEvt
    dlyEvt := if v.getLsbD 1 then e.dlyEvt - 1 else e.dlyEvt
    errLatch := if v.getLsbD 2 then false else e.errLatch }

/-- R65: bit 1 `BUSY`, every other bit that of the draw. -/
def srView (e : EngineChannel) (draw : Word) : Word :=
  (draw &&& ~~~0x00000002) ||| flagIf (e.engState == .run) 0x00000002

/-- R305: the channel's interrupt line as a function of its two registers. -/
def irqLineOf (cr irq : Word) : Bool :=
  cr.getLsbD 7 &&
    ((irq.getLsbD 0 && cr.getLsbD 0) || (irq.getLsbD 1 && cr.getLsbD 1) || (irq.getLsbD 2 && cr.getLsbD 2))

/-! ## Status codes (R301) -/

/-- The number of a status. -/
def Status.code : Status → Word
  | .ok => 0
  | .alignMin => 1
  | .alignPow2 => 2
  | .baseAlign => 3
  | .countZero => 4
  | .regionWrap => 5
  | .notAllFree => 6
  | .started => 7
  | .coalesceRange => 8
  | .noSpace => 9
  | .seq => 10
  | .noSop => 11
  | .noEop => 12
  | .zeroLen => 13
  | .noRing => 14
  | .timeout => 15
  | .illegalCmd => 16
  | .badHandle => 17
  | .ownership => 18
  | .exists_ => 19

end Sys2Proof.Machine
end

