-- ==== Sys2Proof/Machine/Operands.lean ====
section
/-! DEFINITION. Every operand form the commands have beyond a whole number or address: the register offset, the ring
selector, the descriptor word index, the coalescing value, the interrupt masks, and CREATE's layout operands. -/

namespace Sys2Proof.Machine

/-- R59: the registers at `ENGINE_BASE`. -/
inductive Reg where
  | ndesc (c : Channel)
  | bufa (c : Channel)
  | bufl (c : Channel)
  | cdesc (c : Channel)
  | tdesc (c : Channel)
  | cr (c : Channel)
  | irq (c : Channel)
  | sr (c : Channel)
  | dmacr
deriving DecidableEq, Repr

/-- R59: `chan_base[c]`, from `ENGINE_BASE`. -/
def chanBase : Channel → Word
  | .tx => 0x00
  | .rx => 0x20

/-- R59: the offset of each register from `ENGINE_BASE`. -/
def Reg.offset : Reg → Word
  | .ndesc c => chanBase c + 0x00
  | .bufa c => chanBase c + 0x04
  | .bufl c => chanBase c + 0x08
  | .cdesc c => chanBase c + 0x0C
  | .tdesc c => chanBase c + 0x10
  | .cr c => chanBase c + 0x14
  | .irq c => chanBase c + 0x18
  | .sr c => chanBase c + 0x1C
  | .dmacr => 0x40

/-- The eight registers of a channel, in R59's order. -/
def Reg.ofChannel (c : Channel) : List Reg :=
  [.ndesc c, .bufa c, .bufl c, .cdesc c, .tdesc c, .cr c, .irq c, .sr c]

/-- The 17 registers. -/
def Reg.all : List Reg := Reg.ofChannel .tx ++ Reg.ofChannel .rx ++ [.dmacr]

/-- R59, R245, R246: the register an offset names; none for an offset that is no multiple of 4 or is above 0x40. -/
def Reg.ofOffset (off : Word) : Option Reg := Reg.all.find? (fun r => r.offset == off)

/-- The number RING_STAT returns for `run_state` (R244: 0 Stopped, 1 Started). -/
def RunState.code : RunState → Word
  | .stopped => 0
  | .started => 1

/-- R244: the field a selector names; none above 19. -/
def Ring.field (r : Ring) (sel : Word) : Option Word :=
  [r.count, r.separation, r.length.setWidth 32, r.firstPhys, r.firstVirt, r.lastPhys, r.lastVirt, r.freeHead, r.preHead,
   r.hwHead, r.postHead, r.freeCount, r.preCount, r.hwCount, r.postCount, r.hwTail, r.restart, r.runState.code,
   r.irqMask, flagIf r.isRx 1][sel.toNat]?

/-- R240, R241: a descriptor word index is 0 to 8. -/
def wordIndexOk (w : Word) : Bool := decide (w.toNat ≤ 8)

/-- R220: a coalescing operand is `NO_CHANGE` or lies in [1,255]. -/
def coalesceOperandOk (cfg : Cfg) (v : Word) : Bool :=
  v == cfg.noChange || (decide (1 ≤ v.toNat) && decide (v.toNat ≤ 255))

/-- R26, R150: `ceil(36 / alignment) * alignment`. -/
def separationFor (alignment : Word) : Nat :=
  (36 + (alignment.toNat - 1)) / alignment.toNat * alignment.toNat

/-- R150: CREATE's checks 0 to 5 in order; none where all pass. -/
def createCheck (cfg : Cfg) (r : Ring) (physBase virtBase alignment count : Word) : Option Status :=
  if r.count ≠ 0 then some .exists_
  else if alignment < cfg.minAlign then some .alignMin
  else if alignment &&& (alignment - 1) ≠ 0 then some .alignPow2
  else if physBase.toNat % alignment.toNat ≠ 0 ∨ virtBase.toNat % alignment.toNat ≠ 0 then some .baseAlign
  else if count = 0 then some .countZero
  else if virtBase.toNat + separationFor alignment * count.toNat > 2 ^ 32 then some .regionWrap
  else none

/-- R150: the bookkeeping CREATE leaves; `irq_mask` and `is_rx` are kept. -/
def Ring.created (r : Ring) (physBase virtBase alignment count : Word) : Ring :=
  let sep := separationFor alignment
  { count := count
    separation := BitVec.ofNat 32 sep
    length := BitVec.ofNat 33 (sep * count.toNat)
    firstPhys := physBase
    firstVirt := virtBase
    lastPhys := physBase + BitVec.ofNat 32 ((count.toNat - 1) * sep)
    lastVirt := virtBase + BitVec.ofNat 32 ((count.toNat - 1) * sep)
    freeHead := virtBase
    preHead := virtBase
    hwHead := virtBase
    postHead := virtBase
    freeCount := count
    preCount := 0
    hwCount := 0
    postCount := 0
    hwTail := virtBase
    restart := physBase
    runState := .stopped
    irqMask := r.irqMask
    isRx := r.isRx }

end Sys2Proof.Machine
end

