-- ==== Sys2Proof/Machine/Ops.lean ====
section
/-! DEFINITION. The named operations over the state that the commands and the engine share: channel accessors, free
values, the response (the block's whole "exception" mechanism, spec/60_exceptions.md R300: a failure is a status code in
the response, nothing is saved and control goes nowhere), descriptor words through the host's path and the engine's path
(spec/20_memory.md R88, R89, R93), the cache hooks (R95, R96), and the engine registers
(spec/10_state.md R60 to R69, spec/45_engine_agent.md R262, R263, R271, R276). -/

namespace Sys2Proof.Machine

/-- The outcome of a step of this machine. -/
abbrev Result := Host.Outcome State Fault Refusal

/-! ## Channels -/

/-- `ring[c]`. -/
def State.ring (s : State) : Channel → Ring
  | .tx => s.txRing
  | .rx => s.rxRing

/-- `ring[c] <- r`. -/
def State.setRing (s : State) (c : Channel) (r : Ring) : State :=
  match c with
  | .tx => { s with txRing := r }
  | .rx => { s with rxRing := r }

/-- The engine's channel `c`. -/
def State.eng (s : State) : Channel → EngineChannel
  | .tx => s.txEng
  | .rx => s.rxEng

/-- The engine's channel `c` replaced. -/
def State.setEng (s : State) (c : Channel) (e : EngineChannel) : State :=
  match c with
  | .tx => { s with txEng := e }
  | .rx => { s with rxEng := e }

/-- The cached copies of channel `c`'s descriptors. -/
def State.cacheOf (s : State) : Channel → List CacheLine
  | .tx => s.txCache
  | .rx => s.rxCache

/-- Those copies replaced. -/
def State.setCache (s : State) (c : Channel) (l : List CacheLine) : State :=
  match c with
  | .tx => { s with txCache := l }
  | .rx => { s with rxCache := l }

/-! ## Free values (assumption 4) -/

/-- A fresh word nothing constrains. -/
def State.drawWord (s : State) : Word × State :=
  (Config.freeWord s.drawCtr, { s with drawCtr := s.drawCtr + 1 })

/-- A fresh yes or no nothing constrains. -/
def State.drawBool (s : State) : Bool × State :=
  (Config.freeBool s.drawCtr, { s with drawCtr := s.drawCtr + 1 })

/-! ## The response (R124, R300, R303) -/

/-- `return (S, r1, r2, ...)`. -/
def State.respond (s : State) (st : Status) (results : List Word) : State :=
  { s with response := st.code :: results }

/-- `return (OK)` with no result words. -/
def State.ok (s : State) : State := s.respond .ok []

/-- A failure: the status, and as many result words as the command has, all 0 (R124). -/
def State.failWith (s : State) (st : Status) (resultWords : Nat) : State :=
  s.respond st (List.replicate resultWords 0)

/-! ## Descriptor words -/

/-- Physical address of word `w` of the descriptor at host address `bd` of channel `c` (R86). -/
def State.wordAddr (s : State) (c : Channel) (bd : Word) (w : Nat) : Word :=
  (s.ring c).phys bd + wordOffset w

/-- Word `w` of a descriptor as descriptor memory holds it. -/
def State.memWord (s : State) (c : Channel) (bd : Word) (w : Nat) : Word :=
  s.mem.readWord s.cfg.byteOrder (s.wordAddr c bd w)

/-- That word written in descriptor memory. -/
def State.setMemWord (s : State) (c : Channel) (bd : Word) (w : Nat) (v : Word) : State :=
  { s with mem := s.mem.writeWord s.cfg.byteOrder (s.wordAddr c bd w) v }

/-- R89: `EngRead(pa, w)`, on descriptor memory itself. -/
def State.engRead (s : State) (pa : Word) (w : Nat) : Word :=
  s.mem.readWord s.cfg.byteOrder (pa + wordOffset w)

/-- R89: `EngWrite(pa, w, v)`, on descriptor memory itself. -/
def State.engWrite (s : State) (pa : Word) (w : Nat) (v : Word) : State :=
  { s with mem := s.mem.writeWord s.cfg.byteOrder (pa + wordOffset w) v }

/-- R93: a clean copy of descriptor `d`'s words 0 to 7 as they are in memory. -/
def State.cleanCopy (s : State) (c : Channel) (d : Word) : CacheLine :=
  { addr := d, words := Vector.ofFn (fun i => s.memWord c d i.val), dirty := false }

/-- The cache with a line put in. -/
def State.putLine (s : State) (c : Channel) (l : CacheLine) : State :=
  s.setCache c (cacheInsert (s.cacheOf c) l)

/-- R88, R93: `BdRead(bd, w)`. With `CACHED` false the word of memory; with it true, for words 0 to 7, the cached copy's
word, or the word of memory with a copy allocated or not as the draw says. -/
def State.bdRead (s : State) (c : Channel) (bd : Word) (w : Nat) : Word × State :=
  if s.cfg.cached && decide (w < 8) then
    match cacheFind (s.cacheOf c) bd with
    | some l => (l.word w, s)
    | none =>
      let d := s.drawBool
      (s.memWord c bd w, if d.1 then d.2.putLine c (s.cleanCopy c bd) else d.2)
  else (s.memWord c bd w, s)

/-- R88, R93: `BdWrite(bd, w, v)`. -/
def State.bdWrite (s : State) (c : Channel) (bd : Word) (w : Nat) (v : Word) : State :=
  if s.cfg.cached && decide (w < 8) then
    s.putLine c (((cacheFind (s.cacheOf c) bd).getD (s.cleanCopy c bd)).write w v)
  else s.setMemWord c bd w v

/-- `f 0`, then `f 1`, ..., then `f (n-1)`. -/
def State.forEach (n : Nat) (f : Nat → State → State) (s : State) : State :=
  match n with
  | 0 => s
  | k + 1 => f k (State.forEach k f s)

/-- All eight words of a copy written to memory (R94, R95). -/
def State.writeBackLine (s : State) (c : Channel) (l : CacheLine) : State :=
  State.forEach 8 (fun w s => s.setMemWord c l.addr w (l.word w)) s

/-- R95: `Flush(bd)`. -/
def State.flush (s : State) (c : Channel) (bd : Word) : State :=
  if s.cfg.cached then
    match cacheFind (s.cacheOf c) bd with
    | none => s
    | some l =>
      let s1 := if l.dirty then (s.writeBackLine c l).putLine c { l with dirty := false } else s
      let d := s1.drawBool
      if d.1 then d.2.setCache c (cacheErase (d.2.cacheOf c) bd) else d.2
  else s

/-- R96: `Invalidate(bd)`. -/
def State.invalidate (s : State) (c : Channel) (bd : Word) : State :=
  if s.cfg.cached then s.setCache c (cacheErase (s.cacheOf c) bd) else s

/-- What the host's path sees of a descriptor word, without reading it (R88, R93). -/
def State.hostWord (s : State) (c : Channel) (bd : Word) (w : Nat) : Word :=
  if s.cfg.cached && decide (w < 8) then
    match cacheFind (s.cacheOf c) bd with
    | some l => l.word w
    | none => s.memWord c bd w
  else s.memWord c bd w

/-! ## Engine registers -/

/-- R64, R68: bit 14 of `IRQ[c]`. -/
def State.wrqEmpty (s : State) : Channel → Bool
  | .tx => true
  | .rx => s.wbPending.isNone

/-- The read value of `IRQ[c]` (R64). -/
def State.irqValue (s : State) (c : Channel) : Word := irqView (s.eng c) (s.wrqEmpty c)

/-- `irq_line[c]` (R75, R305). -/
def State.irqLine (s : State) (c : Channel) : Bool := irqLineOf (s.eng c).cr (s.irqValue c)

/-- R85, R245: `RegRead`. No read has a side effect; `NDESC`, `BUFA`, `BUFL` (R60) and the bits of `SR` but `BUSY` (R65)
read a fresh draw. -/
def State.regRead (s : State) (r : Reg) : Word × State :=
  match r with
  | .ndesc _ | .bufa _ | .bufl _ => s.drawWord
  | .cdesc c => ((s.eng c).cdesc, s)
  | .tdesc c => ((s.eng c).tdesc, s)
  | .cr c => ((s.eng c).cr, s)
  | .irq c => (s.irqValue c, s)
  | .sr c =>
    let d := s.drawWord
    (srView (s.eng c) d.1, d.2)
  | .dmacr => (s.dmacr, s)

/-- R263: write of `CDESC[c]`; ignored while the channel runs. -/
def State.writeCdesc (s : State) (c : Channel) (v : Word) : State :=
  if (s.eng c).engState = .run then s else s.setEng c { s.eng c with cdesc := v }

/-- R262, R281: write of `TDESC[c]`, the kick. -/
def State.writeTdesc (s : State) (c : Channel) (v : Word) : State :=
  let e := s.eng c
  s.setEng c
    { e with
      tdesc := v
      engState := if tailPtrEnIn s.dmacr && !s.resetting && e.engState == .idle then .run else e.engState }

/-- R271: write of `CR[c]`; bit 8 is the strobe and is not stored. -/
def State.writeCr (s : State) (c : Channel) (v : Word) : State :=
  let e := s.eng c
  s.setEng c
    { e with
      cr := v &&& ~~~strobe
      coalCtr := if v.getLsbD 8 then crCount v else e.coalCtr }

/-- R64: write of `IRQ[c]`. -/
def State.writeIrq (s : State) (c : Channel) (v : Word) : State :=
  s.setEng c (irqAcknowledge (s.eng c) v)

/-- R276, the part of `SwResetStart` on one channel: idle, delay disarmed, `CDESC` and `TDESC` drawn (U5). -/
def State.resetEngineChannel (s : State) (c : Channel) : State :=
  let d1 := s.drawWord
  let d2 := d1.2.drawWord
  d2.2.setEng c { s.eng c with engState := .idle, dlyArmed := false, cdesc := d1.1, tdesc := d2.1 }

/-- R276: `SwResetStart`. -/
def State.swResetStart (s : State) : State :=
  let s1 := { s with dmacr := 0x00000001, resetting := true, wbPending := none }
  (s1.resetEngineChannel .tx).resetEngineChannel .rx

/-- R276: write of `DMACR`; ignored while a software reset is in progress (U15). -/
def State.writeDmacr (s : State) (v : Word) : State :=
  if s.resetting then s
  else if v.getLsbD 0 then s.swResetStart
  else { s with dmacr := v }

/-- R246, R261: `RegWrite`; a write to a read-only register is ignored. -/
def State.regWrite (s : State) (r : Reg) (v : Word) : State :=
  match r with
  | .ndesc _ | .bufa _ | .bufl _ | .sr _ => s
  | .cdesc c => s.writeCdesc c v
  | .tdesc c => s.writeTdesc c v
  | .cr c => s.writeCr c v
  | .irq c => s.writeIrq c v
  | .dmacr => s.writeDmacr v

end Sys2Proof.Machine
end

