-- ==== Sys2Proof/Machine/Access.lean ====
section
/-! DEFINITION. Descriptor, bookkeeping and register access commands (spec/44_access.md R240 to R247). -/

namespace Sys2Proof.Machine

/-- BD_RD (R240). -/
def execBdRd (ch : Channel) (bd w : Word) (s : State) : Result :=
  let r := s.ring ch
  if r.isBd bd = false ∨ wordIndexOk w = false then .next (s.failWith .badHandle 1)
  else if r.group bd = .hw then .next (s.failWith .ownership 1)
  else
    let v := s.bdRead ch bd w.toNat
    .next (v.2.respond .ok [v.1])

/-- BD_WR (R241). -/
def execBdWr (ch : Channel) (bd w value : Word) (s : State) : Result :=
  let r := s.ring ch
  if r.isBd bd = false ∨ wordIndexOk w = false then .next (s.failWith .badHandle 0)
  else if r.group bd ≠ .pre then .next (s.failWith .ownership 0)
  else if w = 0 then .next (s.failWith .ownership 0)
  else .next (s.bdWrite ch bd w.toNat value).ok

/-- BD_NEXT (R242). -/
def execBdNext (ch : Channel) (bd : Word) (s : State) : Result :=
  let r := s.ring ch
  if r.isBd bd then .next (s.respond .ok [r.nxt bd]) else .next (s.failWith .badHandle 1)

/-- BD_PREV (R243). -/
def execBdPrev (ch : Channel) (bd : Word) (s : State) : Result :=
  let r := s.ring ch
  if r.isBd bd then .next (s.respond .ok [r.prv bd]) else .next (s.failWith .badHandle 1)

/-- RING_STAT (R244). -/
def execRingStat (ch : Channel) (sel : Word) (s : State) : Result :=
  match (s.ring ch).field sel with
  | some v => .next (s.respond .ok [v])
  | none => .next (s.failWith .badHandle 1)

/-- REG_RD (R245). -/
def execRegRd (off : Word) (s : State) : Result :=
  match Reg.ofOffset off with
  | none => .next (s.failWith .badHandle 1)
  | some r =>
    let v := s.regRead r
    .next (v.2.respond .ok [v.1])

/-- REG_WR (R246). -/
def execRegWr (off value : Word) (s : State) : Result :=
  match Reg.ofOffset off with
  | none => .next (s.failWith .badHandle 0)
  | some r => .next (s.regWrite r value).ok

/-- NOP (R247). -/
def execNop (s : State) : Result := .next s.ok

end Sys2Proof.Machine
end

