-- ==== Sys2Proof/Machine/Coalesce.lean ====
section
/-! DEFINITION. Interrupt coalescing and gating commands (spec/43_coalesce_irq.md R220, R222, R224 to R227). -/

namespace Sys2Proof.Machine

/-- R220 lines 2 to 7: the value written to `CR[c]`. -/
def coalesceWord (cfg : Cfg) (v counter timer : Word) : Word :=
  let v := if counter ≠ cfg.noChange then (v &&& 0xFF00FFFF) ||| (counter <<< 16) else v
  let v := if timer ≠ cfg.noChange then (v &&& 0x00FFFFFF) ||| (timer <<< 24) else v
  if counter ≠ cfg.noChange ∨ timer ≠ cfg.noChange then v ||| strobe else v

/-- R220 lines 1 to 8: the read-modify-write of `CR[c]`. -/
def State.programCoalesce (s : State) (c : Channel) (counter timer : Word) : State :=
  let v := s.regRead (.cr c)
  v.2.regWrite (.cr c) (coalesceWord s.cfg v.1 counter timer)

/-- SET_COALESCE (R220). -/
def execSetCoalesce (ch : Channel) (counter timer : Word) (s : State) : Result :=
  if coalesceOperandOk s.cfg counter && coalesceOperandOk s.cfg timer then
    .next (s.programCoalesce ch counter timer).ok
  else .next (s.failWith .coalesceRange 0)

/-- GET_COALESCE (R222). -/
def execGetCoalesce (ch : Channel) (s : State) : Result :=
  let v := s.regRead (.cr ch)
  .next (v.2.respond .ok [(v.1 >>> 16) &&& 0xFF, (v.1 >>> 24) &&& 0xFF])

/-- The enable bits of a channel changed by `f`, in `CR[c]` and in the shadow `irq_mask` (R224, R225). -/
def State.changeEnables (s : State) (c : Channel) (f : Word → Word) : State :=
  let v := s.regRead (.cr c)
  let s := v.2.regWrite (.cr c) (f v.1)
  s.setRing c { s.ring c with irqMask := f (s.ring c).irqMask }

/-- IRQ_ENABLE (R224). -/
def execIrqEnable (ch : Channel) (mask : Word) (s : State) : Result :=
  .next (s.changeEnables ch (fun v => v ||| (mask &&& allEnable))).ok

/-- IRQ_DISABLE (R225). -/
def execIrqDisable (ch : Channel) (mask : Word) (s : State) : Result :=
  .next (s.changeEnables ch (fun v => v &&& ~~~(mask &&& allEnable))).ok

/-- IRQ_GET (R226). -/
def execIrqGet (ch : Channel) (s : State) : Result :=
  let v := s.regRead (.irq ch)
  .next (v.2.respond .ok [v.1])

/-- IRQ_ACK (R227). -/
def execIrqAck (ch : Channel) (mask : Word) (s : State) : Result :=
  .next (s.regWrite (.irq ch) (mask &&& irqAckMask)).ok

end Sys2Proof.Machine
end

