-- ==== Sys2Proof/Machine/EngineControl.lean ====
section
/-! DEFINITION. START, PAUSE, RESUME, RESET and the busy-wait (spec/42_engine_control.md R200 to R208). A command that
waits is split at its wait: `exec` runs the part before it, each poll is a later step of the manager, and the poll that
finds the predicate true runs the part after it (R206). -/

namespace Sys2Proof.Machine

/-- `run_state` of a channel replaced. -/
def State.setRunState (s : State) (c : Channel) (rs : RunState) : State :=
  s.setRing c { s.ring c with runState := rs }

/-- R200 lines 4 to 7: the tail re-kicked where unharvested work is not complete. -/
def State.rekick (s : State) (c : Channel) : State :=
  let r := s.ring c
  if r.hwCount = 0 then s
  else
    let st := (s.invalidate c r.hwTail).bdRead c r.hwTail 3
    if hasFlag st.1 flagCmp then st.2 else st.2.regWrite (.tdesc c) (r.phys r.hwTail)

/-- START (R200). -/
def execStart (ch : Channel) (s : State) : Result :=
  let r := s.ring ch
  if r.count = 0 then .next (s.failWith .noRing 0)
  else if r.runState = .started then .next s.ok
  else .next (((s.regWrite (.cdesc ch) r.restart).rekick ch).setRunState ch .started).ok

/-- R206: the command ends in its wait with `E_TIMEOUT`. -/
def State.timeOut (s : State) : State := { s with waiting := none }.failWith .timeout 0

/-- R206: the budget is spent after `polls` polls that found the predicate false. -/
def budgetSpent (cfg : Cfg) (polls : Nat) : Bool :=
  match cfg.spinBudget with
  | none => false
  | some b => decide (b ≤ polls)

/-- R206: the wait after `polls` false polls goes on, or times out; there is no response while it lasts. -/
def State.waitOn (s : State) (k : WaitKind) (polls : Nat) : State :=
  if budgetSpent s.cfg polls then s.timeOut
  else { s with waiting := some ⟨k, polls⟩, response := [] }

/-- PAUSE (R203): lines 1 and 2, then the wait of line 3. -/
def execPause (s : State) : Result :=
  let v := s.regRead .dmacr
  .next ((v.2.regWrite .dmacr (v.1 ||| pauseMask)).waitOn .pause 0)

/-- R203 lines 4 and 5: the part after the wait. -/
def State.finishPause (s : State) : State :=
  ({ s with waiting := none }.setRunState .tx .stopped |>.setRunState .rx .stopped).ok

/-- RESUME (R207). -/
def execResume (s : State) : Result :=
  let v := s.regRead .dmacr
  .next ((v.2.regWrite .dmacr (v.1 &&& ~~~pauseMask)).setRunState .tx .started |>.setRunState .rx .started).ok

/-- R208 lines 1 and 2, one channel: `restart <- CDESC`. -/
def State.snapshotRestart (s : State) (c : Channel) : State :=
  let v := s.regRead (.cdesc c)
  v.2.setRing c { s.ring c with restart := v.1 }

/-- RESET (R208): lines 1 to 3, then the wait of line 4. -/
def execReset (s : State) : Result :=
  .next ((((s.snapshotRestart .tx).snapshotRestart .rx).regWrite .dmacr 0x00000001).waitOn .reset 0)

/-- R208 lines 6 and 7, one channel: every source disabled, the shadow cleared. -/
def State.disableAll (s : State) (c : Channel) : State :=
  let v := s.regRead (.cr c)
  let s := v.2.regWrite (.cr c) (v.1 &&& ~~~allEnable)
  s.setRing c { s.ring c with irqMask := 0 }

/-- R208 lines 9 and 10, one channel: latched status acknowledged once. -/
def State.acknowledgeAll (s : State) (c : Channel) : State :=
  let v := s.regRead (.irq c)
  v.2.regWrite (.irq c) v.1

/-- R208 lines 5 to 15: the part after the wait. -/
def State.finishReset (s : State) : State :=
  let s := { s with waiting := none }
  let s := (s.disableAll .tx).disableAll .rx
  let s := (s.acknowledgeAll .tx).acknowledgeAll .rx
  let s := s.regWrite .dmacr resetDefault
  let s := (s.programCoalesce .tx 1 1).programCoalesce .rx 1 1
  ((s.setRunState .tx .stopped).setRunState .rx .stopped).ok

/-- R206: one poll of the command that waits. -/
def State.poll (s : State) (w : Waiting) : State :=
  match w.kind with
  | .pause =>
    let v := s.regRead (.irq .rx)
    if v.1.getLsbD 14 then v.2.finishPause else v.2.waitOn .pause (w.polls + 1)
  | .reset =>
    let v := s.regRead .dmacr
    if v.1.getLsbD 0 then v.2.waitOn .reset (w.polls + 1) else v.2.finishReset

end Sys2Proof.Machine
end

