-- ==== Sys2Proof/Machine/Ownership.lean ====
section
/-! DEFINITION. The ownership commands ALLOC, UNALLOC, TO_HW, FROM_HW, FREE (spec/41_ownership.md R170, R173, R176, R180,
R186). -/

namespace Sys2Proof.Machine

/-- ALLOC (R170). -/
def execAlloc (ch : Channel) (n : Word) (s : State) : Result :=
  let r := s.ring ch
  if r.freeCount < n then .next (s.failWith .noSpace 1)
  else
    .next ((s.setRing ch
      { r with
        freeHead := r.adv r.freeHead n.toNat
        freeCount := r.freeCount - n
        preCount := r.preCount + n }).respond .ok [r.freeHead])

/-- UNALLOC (R173); `set` is not validated (C3). -/
def execUnalloc (ch : Channel) (n _set : Word) (s : State) : Result :=
  let r := s.ring ch
  if r.preCount < n then .next (s.failWith .seq 0)
  else
    .next (s.setRing ch
      { r with
        freeHead := r.ret r.freeHead n.toNat
        freeCount := r.freeCount + n
        preCount := r.preCount - n }).ok

/-- R176 lines 8 to 10 and 15 to 17: the status word cleared for submission, the watchdog re-armed on the receive
channel, the flush. -/
def State.submitDescriptor (s : State) (c : Channel) (cur sts : Word) : State :=
  let s := s.bdWrite c cur 3 (clearForSubmit sts)
  let s := if (s.ring c).isRx then s.bdWrite c cur s.cfg.wdogWord s.cfg.wdogSentinel else s
  s.flush c cur

/-- What the walk of TO_HW ends with: its status, the descriptor it stands on, the state. -/
structure Walk where
  status : Status
  cur : Word
  state : State

/-- R176 lines 6 to 17, with `m` descriptors before the last one, `cur` the current one and `sts` its status word. -/
def toHwWalk (c : Channel) : Nat → Word → Word → State → Walk
  | 0, cur, sts, s =>
    if hasFlag sts flagEop = false then ⟨.noEop, cur, s⟩
    else
      let len := s.bdRead c cur 2
      if len.1 = 0 then ⟨.zeroLen, cur, len.2⟩
      else ⟨.ok, cur, len.2.submitDescriptor c cur sts⟩
  | m + 1, cur, sts, s =>
    let len := s.bdRead c cur 2
    if len.1 = 0 then ⟨.zeroLen, cur, len.2⟩
    else
      let s := len.2.submitDescriptor c cur sts
      let nxt := (s.ring c).nxt cur
      let st := s.bdRead c nxt 3
      toHwWalk c m nxt st.1 st.2

/-- R176 lines 18 to 23: the bookkeeping of a successful submission and, if Started, the kick. -/
def State.commitSubmission (s : State) (c : Channel) (n cur : Word) : State :=
  let r := s.ring c
  let s := s.setRing c
    { r with
      preHead := r.adv r.preHead n.toNat
      preCount := r.preCount - n
      hwCount := r.hwCount + n
      hwTail := cur }
  if r.runState = .started then s.regWrite (.tdesc c) (r.phys cur) else s

/-- TO_HW (R176). -/
def execToHw (ch : Channel) (n set : Word) (s : State) : Result :=
  let r := s.ring ch
  if n = 0 then .next s.ok
  else if set ≠ r.preHead ∨ r.preCount < n then .next (s.failWith .seq 0)
  else
    let st := s.bdRead ch set 3
    if hasFlag st.1 flagSop = false then .next (st.2.failWith .noSop 0)
    else
      let w := toHwWalk ch (n.toNat - 1) set st.1 st.2
      if w.status = .ok then .next (w.state.commitSubmission ch n w.cur).ok
      else .next (w.state.failWith w.status 0)

/-- What the walk of FROM_HW ends with: descriptors counted, the trailing partial-packet count, the state. -/
structure Harvest where
  cnt : Nat
  partialCnt : Nat
  state : State

/-- R180 lines 3 to 12, with `m` the descriptors `limit` still allows. -/
def fromHwWalk (c : Channel) : Nat → Word → Nat → Nat → State → Harvest
  | 0, _, cnt, part, s => ⟨cnt, part, s⟩
  | m + 1, cur, cnt, part, s =>
    let st := (s.invalidate c cur).bdRead c cur 3
    if hasFlag st.1 flagCmp = false then ⟨cnt, part, st.2⟩
    else
      let wd := if (st.2.ring c).isRx then st.2.bdRead c cur st.2.cfg.wdogWord else (0, st.2)
      if (st.2.ring c).isRx && wd.1 == st.2.cfg.wdogSentinel then ⟨cnt, part, wd.2⟩
      else
        let part' := if hasFlag st.1 flagEop then 0 else part + 1
        if cur = (wd.2.ring c).hwTail then ⟨cnt + 1, part', wd.2⟩
        else fromHwWalk c m ((wd.2.ring c).nxt cur) (cnt + 1) part' wd.2

/-- FROM_HW (R180). -/
def execFromHw (ch : Channel) (limit : Word) (s : State) : Result :=
  let r := s.ring ch
  if r.hwCount = 0 then .next (s.respond .ok [0, 0])
  else
    let h := fromHwWalk ch limit.toNat r.hwHead 0 0 s
    let cnt := h.cnt - h.partialCnt
    if cnt = 0 then .next (h.state.respond .ok [0, 0])
    else
      .next ((h.state.setRing ch
        { r with
          hwHead := r.adv r.hwHead cnt
          hwCount := r.hwCount - BitVec.ofNat 32 cnt
          postCount := r.postCount + BitVec.ofNat 32 cnt }).respond .ok [BitVec.ofNat 32 cnt, r.hwHead])

/-- FREE (R186). -/
def execFree (ch : Channel) (n set : Word) (s : State) : Result :=
  let r := s.ring ch
  if n = 0 then .next s.ok
  else if set ≠ r.postHead ∨ r.postCount < n then .next (s.failWith .seq 0)
  else
    .next (s.setRing ch
      { r with
        postHead := r.adv r.postHead n.toNat
        postCount := r.postCount - n
        freeCount := r.freeCount + n }).ok

end Sys2Proof.Machine
end

