-- ==== Sys2Proof/Machine/RingSetup.lean ====
section
/-! DEFINITION. CREATE and CLONE (spec/40_ring_setup.md R150, R155). -/

namespace Sys2Proof.Machine

/-- R150, "Zeroes the entire region": directly in memory, or, with `CACHED` true, words 0 to 7 of every descriptor
through the cache (R93) and the rest of every stride in memory. -/
def State.zeroRing (s : State) (c : Channel) : State :=
  let r := s.ring c
  if s.cfg.cached then
    State.forEach r.count.toNat
      (fun k s =>
        let bd := r.bdAddr k
        let s := State.forEach 8 (fun w s => s.bdWrite c bd w 0) s
        { s with mem := s.mem.zeroRegion (r.phys bd + 32) (r.separation.toNat - 32) })
      s
  else { s with mem := s.mem.zeroRegion r.firstPhys r.length.toNat }

/-- R150: descriptor `k` of the ring, not the last: `next`, the completed flag, `Flush`. -/
def State.initDescriptor (c : Channel) (k : Nat) (s : State) : State :=
  let r := s.ring c
  let bd := r.bdAddr k
  ((s.bdWrite c bd 0 (r.firstPhys + BitVec.ofNat 32 (k + 1) * r.separation)).bdWrite c bd 3 flagCmp).flush c bd

/-- R150: the last descriptor: `next` only (C4), `Flush`. -/
def State.initLastDescriptor (s : State) (c : Channel) : State :=
  let r := s.ring c
  (s.bdWrite c r.lastVirt 0 r.firstPhys).flush c r.lastVirt

/-- R150: the effect of a CREATE whose checks all pass: the bookkeeping, the zeroed region, the linked descriptors. -/
def State.createRing (s : State) (c : Channel) (physBase virtBase alignment count : Word) : State :=
  let s := s.setRing c ((s.ring c).created physBase virtBase alignment count)
  let s := s.zeroRing c
  let s := State.forEach (count.toNat - 1) (State.initDescriptor c) s
  s.initLastDescriptor c

/-- CREATE (R150). -/
def execCreate (ch : Channel) (physBase virtBase alignment count : Word) (s : State) : Result :=
  match createCheck s.cfg (s.ring ch) physBase virtBase alignment count with
  | some st => .next (s.failWith st 0)
  | none => .next (s.createRing ch physBase virtBase alignment count).ok

/-- R155: the template in descriptor `k`; word 0 is preserved, the completed flag forced on. -/
def State.cloneDescriptor (c : Channel) (t1 t2 t3 t4 t5 t6 t7 t8 : Word) (k : Nat) (s : State) : State :=
  let bd := (s.ring c).bdAddr k
  let s := ((s.bdWrite c bd 1 t1).bdWrite c bd 2 t2).bdWrite c bd 3 (t3 ||| flagCmp)
  let s := (((s.bdWrite c bd 4 t4).bdWrite c bd 5 t5).bdWrite c bd 6 t6).bdWrite c bd 7 t7
  (s.bdWrite c bd 8 t8).flush c bd

/-- CLONE (R155); `t0` is ignored. -/
def execClone (ch : Channel) (_t0 t1 t2 t3 t4 t5 t6 t7 t8 : Word) (s : State) : Result :=
  let r := s.ring ch
  if r.freeCount ≠ r.count then .next (s.failWith .notAllFree 0)
  else if r.runState = .started then .next (s.failWith .started 0)
  else .next (State.forEach r.count.toNat (State.cloneDescriptor ch t1 t2 t3 t4 t5 t6 t7 t8) s).ok

end Sys2Proof.Machine
end

