-- ==== Sys2Proof/Machine/Dispatch.lean ====
section
/-! DEFINITION. One arm per command, each a direct call of its meaning. -/

namespace Sys2Proof.Machine

def exec (i : Instr) (s : State) : Host.Outcome State Fault Refusal :=
  match i with
  | .nop => Sys2Proof.Machine.execNop s
  | .create ch p v a n => Sys2Proof.Machine.execCreate ch p v a n s
  | .clone ch t0 t1 t2 t3 t4 t5 t6 t7 t8 => Sys2Proof.Machine.execClone ch t0 t1 t2 t3 t4 t5 t6 t7 t8 s
  | .alloc ch n => Sys2Proof.Machine.execAlloc ch n s
  | .unalloc ch n set => Sys2Proof.Machine.execUnalloc ch n set s
  | .toHw ch n set => Sys2Proof.Machine.execToHw ch n set s
  | .fromHw ch limit => Sys2Proof.Machine.execFromHw ch limit s
  | .free ch n set => Sys2Proof.Machine.execFree ch n set s
  | .start ch => Sys2Proof.Machine.execStart ch s
  | .pause => Sys2Proof.Machine.execPause s
  | .resume => Sys2Proof.Machine.execResume s
  | .reset => Sys2Proof.Machine.execReset s
  | .setCoalesce ch counter timer => Sys2Proof.Machine.execSetCoalesce ch counter timer s
  | .getCoalesce ch => Sys2Proof.Machine.execGetCoalesce ch s
  | .irqEnable ch mask => Sys2Proof.Machine.execIrqEnable ch mask s
  | .irqDisable ch mask => Sys2Proof.Machine.execIrqDisable ch mask s
  | .irqGet ch => Sys2Proof.Machine.execIrqGet ch s
  | .irqAck ch mask => Sys2Proof.Machine.execIrqAck ch mask s
  | .bdRd ch bd w => Sys2Proof.Machine.execBdRd ch bd w s
  | .bdWr ch bd w value => Sys2Proof.Machine.execBdWr ch bd w value s
  | .bdNext ch bd => Sys2Proof.Machine.execBdNext ch bd s
  | .bdPrev ch bd => Sys2Proof.Machine.execBdPrev ch bd s
  | .ringStat ch sel => Sys2Proof.Machine.execRingStat ch sel s
  | .regRd off => Sys2Proof.Machine.execRegRd off s
  | .regWr off value => Sys2Proof.Machine.execRegWr off value s

end Sys2Proof.Machine
end

