-- ==== Sys2Proof/Machine/Host.lean ====
section
/-! DEFINITION. What the host does outside the commands: presenting command words (spec/30_encoding.md R120) and direct
access to descriptor memory under the ownership table (spec/20_memory.md R83, R90, spec/70_reset_and_hazards.md R342,
spec/93_implementation_defined.md U8, U14). -/

namespace Sys2Proof.Machine

/-- The channel, descriptor and word a host address names, channel 0 first (the regions do not overlap: R340). -/
def State.locate (s : State) (addr : Word) : Option (Channel × Word × Nat) :=
  match (s.ring .tx).locate addr with
  | some (bd, w) => some (.tx, bd, w)
  | none =>
    match (s.ring .rx).locate addr with
    | some (bd, w) => some (.rx, bd, w)
    | none => none

/-- R83: the one access width, aligned. -/
def wordAccess (addr : Word) (bytes : Nat) : Bool := bytes == 4 && addr.toNat % 4 == 0

/-- R80, R83: some byte of the access lies in the region of the ring, padding included. -/
def Ring.touchedBy (r : Ring) (addr : Word) (bytes : Nat) : Bool :=
  r.count != 0 && (decide ((addr - r.firstVirt).toNat < r.length.toNat) || decide ((r.firstVirt - addr).toNat < bytes))

/-- Why an access that is not one aligned word stops: refused at a ring region (R83, U14), elsewhere there is no descriptor
word to reach. -/
def State.narrowAccess (s : State) (addr : Word) (bytes : Nat) : Result :=
  if s.txRing.touchedBy addr bytes || s.rxRing.touchedBy addr bytes then .refused .hostNarrowAccess
  else .fault .hostUnmapped

/-- A direct read: any group but Hardware reads the word; a violating read returns a draw (U8). -/
def hostRead (addr : Word) (bytes : Nat) (s : State) : Result :=
  if wordAccess addr bytes = false then s.narrowAccess addr bytes
  else
    match s.locate addr with
    | none => .fault .hostUnmapped
    | some (c, bd, w) =>
      let v := if (s.ring c).group bd = .hw then s.drawWord else s.bdRead c bd w
      .next { v.2 with hostData := v.1 }

/-- A direct write: words 1 to 8 of a Pre-process descriptor; any other is refused (U8). -/
def hostWrite (addr : Word) (bytes : Nat) (v : Word) (s : State) : Result :=
  if wordAccess addr bytes = false then s.narrowAccess addr bytes
  else
    match s.locate addr with
    | none => .fault .hostUnmapped
    | some (c, bd, w) =>
      if (s.ring c).group bd = .pre ∧ w ≠ 0 then .next (s.bdWrite c bd w v) else .refused .hostOwnershipWrite

/-- One step of the host. While a command waits the host waits for its response (R20, R206), and the event is no step of
it (assumption 5). -/
def hostTurn (s : State) (e : HostEvent) : Result :=
  if s.waiting.isSome then .next s
  else
    match e with
    | .present ws => .next { s with stream := s.stream ++ ws }
    | .directRead addr bytes => hostRead addr bytes s
    | .directWrite addr bytes v => hostWrite addr bytes v s

end Sys2Proof.Machine
end

