-- ==== Sys2Proof/Machine/Engine.lean ====
section
/-! DEFINITION. The transfer engine's steps (spec/45_engine_agent.md R260 to R277) and the cache agent's
(spec/20_memory.md R94). An event whose guard does not hold, or whose draw lies outside its range, is no step of the agent
and leaves the state as it is (assumption 5). -/

namespace Sys2Proof.Machine

/-- R264: channel `c` is paused. -/
def State.paused (s : State) (c : Channel) : Bool := pausedIn s.dmacr c

/-- R260: "`c == 0` or `wb_pending[1]` is none". -/
def State.writeQueueFree (s : State) (c : Channel) : Bool := c == .tx || s.wbPending.isNone

/-- R260: the guard of `EngError(c)`, and part of that of `EngStep(c)`. -/
def State.engineActive (s : State) (c : Channel) : Bool :=
  (s.eng c).engState == .run && !s.resetting && s.writeQueueFree c

/-- R260: the guard of `EngStep(c)`. -/
def State.stepEnabled (s : State) (c : Channel) : Bool :=
  s.engineActive c && !s.paused c && (s.ring c).isPhysBd (s.eng c).cdesc

/-- The error latched and the channel halted (R265, R267, R270, R274). -/
def State.haltWithError (s : State) (c : Channel) : State :=
  s.setEng c { s.eng c with errLatch := true, engState := .halt }

/-- R274 for a coalesce event. -/
def State.coalesceEvent (s : State) (c : Channel) : State :=
  let e := s.eng c
  if e.coalEvt < 2 ^ s.cfg.coalEvtBits - 1 then s.setEng c { e with coalEvt := e.coalEvt + 1 }
  else if ovfErrDisIn s.dmacr c then s
  else s.haltWithError c

/-- R274 for a delay event. -/
def State.delayEvent (s : State) (c : Channel) : State :=
  let e := s.eng c
  if e.dlyEvt < 2 ^ s.cfg.dlyEvtBits - 1 then s.setEng c { e with dlyEvt := e.dlyEvt + 1 }
  else if ovfErrDisIn s.dmacr c then s
  else s.haltWithError c

/-- R272: whether a completion with status word `sts` is a unit. -/
def isUnit (u : CoalesceUnit) (sts : Word) : Bool :=
  match u with
  | .eop => hasFlag sts flagEop
  | .ioe => hasFlag sts flagIoe
  | .any => true

/-- R272: `Unit(c, s)`. -/
def State.countUnit (s : State) (c : Channel) (sts : Word) : State :=
  if isUnit s.cfg.coalesceUnit sts then
    if (s.eng c).coalCtr ≤ 1 then
      let s := s.coalesceEvent c
      s.setEng c { s.eng c with coalCtr := crCount (s.eng c).cr, dlyArmed := false }
    else s.setEng c { s.eng c with coalCtr := (s.eng c).coalCtr - 1, dlyArmed := true }
  else s

/-- R266: `Advance(c, d, nx)`. -/
def State.advance (s : State) (c : Channel) (d nx : Word) : State :=
  let e := s.eng c
  s.setEng c
    { e with
      cdesc := nx
      engState := if e.engState == .run && d == e.tdesc then .idle else e.engState }

/-- R265: `SendComplete(d, nx, st)`. -/
def State.sendComplete (s : State) (d nx st : Word) (err : Bool) : State :=
  let sts := sendStatus st err
  let s := s.engWrite d 3 sts
  let s := s.countUnit .tx sts
  let s := if err then s.haltWithError .tx else s
  s.advance .tx d nx

/-- R267: accessory word `w`, unless it is the watchdog word. -/
def State.writeAccessory (s : State) (d : Word) (w : Nat) (v : Word) : State :=
  if w = s.cfg.wdogWord then s else s.engWrite d w v

/-- R267: `RecvBegin(d, bl, st)`. -/
def State.recvBegin (s : State) (d st : Word) (x : EngDraws) : State :=
  let s := (((s.writeAccessory d 4 x.acc4).writeAccessory d 5 x.acc5).writeAccessory d 6 x.acc6).writeAccessory d 7 x.acc7
  let s := (s.engWrite d 2 x.len).engWrite d 3 (recvStatus st x)
  let s := if x.err then s.haltWithError .rx else s
  { s with wbPending := some d }

/-- R269: `Inert(c)`. -/
def State.inert (s : State) (c : Channel) : State :=
  s.setEng c { s.eng c with engState := .idle }

/-- R264: `EngStep(c)`; on the receive channel the drawn length lies in `0..bl`. -/
def State.engStep (s : State) (c : Channel) (x : EngDraws) : State :=
  if s.stepEnabled c then
    let d := (s.eng c).cdesc
    let nx := s.engRead d 0
    let bl := s.engRead d 2
    let st := s.engRead d 3
    if hasFlag st flagCmp then s.inert c
    else
      match c with
      | .tx => s.sendComplete d nx st x.err
      | .rx => if x.len ≤ bl then s.recvBegin d st x else s
  else s

/-- R268: `EngRxFinish`; the watchdog value is not the sentinel. -/
def State.engRxFinish (s : State) (v : Word) : State :=
  match s.wbPending with
  | none => s
  | some d =>
    if s.resetting || v == s.cfg.wdogSentinel then s
    else
      let s := { s.engWrite d s.cfg.wdogWord v with wbPending := none }
      let s := s.countUnit .rx (s.engRead d 3)
      s.advance .rx d (s.engRead d 0)

/-- R270: `EngError(c)`. -/
def State.engError (s : State) (c : Channel) : State :=
  if s.engineActive c then s.haltWithError c else s

/-- R273: `EngDelay(c)`. -/
def State.engDelay (s : State) (c : Channel) : State :=
  if (s.eng c).dlyArmed && !s.resetting then
    let s := s.delayEvent c
    s.setEng c { s.eng c with dlyArmed := false }
  else s

/-- R277: `EngResetDone`. -/
def State.engResetDone (s : State) : State :=
  if s.resetting then { s with resetting := false, dmacr := 0 } else s

/-- One step of the engine. -/
def State.engineTurn (s : State) : EngineEvent → State
  | .step c x => s.engStep c x
  | .rxFinish v => s.engRxFinish v
  | .error c => s.engError c
  | .delay c => s.engDelay c
  | .resetDone => s.engResetDone

/-- R94: `CacheWriteBack(d)`. -/
def State.cacheWriteBack (s : State) (c : Channel) (d : Word) : State :=
  match cacheFind (s.cacheOf c) d with
  | some l => if s.cfg.cached && l.dirty then (s.writeBackLine c l).putLine c { l with dirty := false } else s
  | none => s

/-- R94: `CacheEvict(d)`. -/
def State.cacheEvict (s : State) (c : Channel) (d : Word) : State :=
  match cacheFind (s.cacheOf c) d with
  | some l => if s.cfg.cached && !l.dirty then s.setCache c (cacheErase (s.cacheOf c) d) else s
  | none => s

/-- One step of the cache agent. -/
def State.cacheTurn (s : State) : CacheEvent → State
  | .writeBack c d => s.cacheWriteBack c d
  | .evict c d => s.cacheEvict c d

end Sys2Proof.Machine
end

