-- ==== Sys2Proof/Machine/Platform.lean ====
section
/-! DEFINITION. The caller obligations that no command checks and whose breach the spec refuses
(spec/70_reset_and_hazards.md R340, R341, R345, spec/93_implementation_defined.md U11, U12): what a state shows of them, what
a CREATE would break of them, and a data buffer over a ring at the engine's fetch. Machine/Turn.lean refuses a step that
meets a breach; the commands themselves test none of this. -/

namespace Sys2Proof.Machine

/-- `[a, a + n)` and `[b, b + m)` do not meet. -/
def apart (a n b m : Nat) : Bool := decide (a + n ≤ b) || decide (b + m ≤ a)

/-- R80: the size of the register block. -/
def registerBlockBytes : Nat := 0x44

/-- R341: the physical image of the region does not wrap. -/
def Ring.contiguous (r : Ring) : Bool := decide (r.firstPhys.toNat + r.length.toNat ≤ 2 ^ 32)

/-- R340: the region and the register block lie apart, in both address spaces. DESIGN CHOICE (assumption 19): R7 puts no
bound on `ENGINE_BASE` and no rule says whether a block above 0xFFFF_FFBC wraps; the block is the bytes from `ENGINE_BASE` to
`ENGINE_BASE + 0x43` counted without wrapping, so a ring at address 0 never lies over such a block. Unsafe for such a base alone. -/
def Ring.clearOfRegisters (r : Ring) (engineBase : Word) : Bool :=
  apart r.firstVirt.toNat r.length.toNat engineBase.toNat registerBlockBytes
    && apart r.firstPhys.toNat r.length.toNat engineBase.toNat registerBlockBytes

/-- R345, what the bookkeeping shows of it: a stride, being a multiple of the alignment, is no shorter than a cache line. -/
def Ring.strideCoversLine (cfg : Cfg) (r : Ring) : Bool :=
  !cfg.cached || r.count == 0 || decide (cfg.cacheLine ≤ r.separation.toNat)

/-- What one ring must satisfy by itself. -/
def Ring.platformOk (cfg : Cfg) (r : Ring) : Bool :=
  r.contiguous && r.clearOfRegisters cfg.engineBase && r.strideCoversLine cfg

/-- R340: the two regions lie apart, in both address spaces. -/
def ringsApart (r r' : Ring) : Bool :=
  apart r.firstVirt.toNat r.length.toNat r'.firstVirt.toNat r'.length.toNat
    && apart r.firstPhys.toNat r.length.toNat r'.firstPhys.toNat r'.length.toNat

/-- R340, R341, R345 in a state. -/
def State.platformOk (s : State) : Bool :=
  s.txRing.platformOk s.cfg && s.rxRing.platformOk s.cfg && ringsApart s.txRing s.rxRing

/-- R340, R341, R345 of a CREATE: one whose checks all pass leaves a state that meets them and, with `CACHED`, has an
alignment of at least a cache line. -/
def State.createKeepsPlatform (s : State) (c : Channel) (physBase virtBase alignment count : Word) : Bool :=
  match createCheck s.cfg (s.ring c) physBase virtBase alignment count with
  | some _ => true
  | none =>
    (s.setRing c ((s.ring c).created physBase virtBase alignment count)).platformOk
      && (!s.cfg.cached || decide (s.cfg.cacheLine ≤ alignment.toNat))

/-- Whether a command keeps to the caller obligations: only CREATE lays a ring out. -/
def commandKeepsPlatform (i : Instr) (s : State) : Bool :=
  match i with
  | .create ch p v a n => s.createKeepsPlatform ch p v a n
  | _ => true

/-- R340: the `n` bytes at physical address `a` meet the ring's region. DESIGN CHOICE (assumption 19): no rule says where a
buffer that passes the top of the address space goes on; its bytes are counted modulo 2^32. Safe. -/
def Ring.meetsBuffer (r : Ring) (a : Word) (n : Nat) : Bool :=
  (decide ((a - r.firstPhys).toNat < r.length.toNat) && n != 0)
    || (decide ((r.firstPhys - a).toNat < n) && r.length != 0)

/-- R340, U11: the engine's next step on channel `c` would fetch a live descriptor whose data buffer lies over a ring. -/
def State.bufferOverRing (s : State) (c : Channel) : Bool :=
  let d := (s.eng c).cdesc
  s.stepEnabled c && !hasFlag (s.engRead d 3) flagCmp
    && (s.txRing.meetsBuffer (s.engRead d 1) (s.engRead d 2).toNat
      || s.rxRing.meetsBuffer (s.engRead d 1) (s.engRead d 2).toNat)

/-- An engine event keeps to them: only `EngStep` fetches a descriptor. -/
def State.eventKeepsPlatform (s : State) (e : EngineEvent) : Bool :=
  match e with
  | .step c _ => !s.bufferOverRing c
  | .rxFinish _ | .error _ | .delay _ | .resetDone => true

end Sys2Proof.Machine
end

