-- ==== Sys2Proof/Machine/Turn.lean ====
section
/-! DEFINITION. One step of the whole machine (spec/20_memory.md R98): whose turn it is, the manager's fetch from the
command stream (spec/30_encoding.md R120, R126), its polls (spec/42_engine_control.md R206), and the traces the spec refuses
(spec/93_implementation_defined.md U11, U12, U16). -/

namespace Sys2Proof.Machine

/-- R126: an illegal header consumes one word and answers `E_ILLEGAL_CMD`; where no whole command has been presented
the manager waits for its words and nothing changes (assumption 8). -/
def State.rejectCommand (s : State) (why : DecodeError) : State :=
  if why.illegal then { s with stream := s.stream.drop 1 }.failWith .illegalCmd 0 else s

/-- The manager's step: a poll of the command that waits (while it waits no other command runs), or the command at the
head of the stream. -/
def managerTurn (s : State) : Result :=
  match s.waiting with
  | some w => .next (s.poll w)
  | none =>
    match decode s.stream with
    | .instr i rest =>
      if commandKeepsPlatform i s then Sys2Proof.Machine.exec i { s with stream := rest } else .refused .callerObligation
    | .rejected why => .next (s.rejectCommand why)

/-- The engine's step, but for a fetch that breaks a caller obligation (U11). -/
def State.guardedEngineTurn (s : State) (e : EngineEvent) : Result :=
  if s.eventKeepsPlatform e then .next (s.engineTurn e) else .refused .callerObligation

/-- R98: one step of the agent whose turn it is; the manager's, where the environment has chosen nothing. -/
def turn (s : State) : Result :=
  if s.cfg.wf = false then .refused .illFormedConfiguration
  else if s.platformOk = false then .refused .callerObligation
  else
    match s.sched with
    | [] => managerTurn s
    | .manager :: rest => managerTurn { s with sched := rest }
    | .engine e :: rest => { s with sched := rest }.guardedEngineTurn e
    | .cache e :: rest => .next ({ s with sched := rest }.cacheTurn e)
    | .host e :: rest => hostTurn { s with sched := rest } e

/-- The words put where the manager takes its next command from, and nothing else in the way: it is the manager's turn
and no command waits. -/
def State.placeCommand (s : State) (ws : List Word) : State :=
  { s with stream := ws ++ s.stream.drop ws.length, waiting := none, sched := [] }

end Sys2Proof.Machine
end

