-- ==== Sys2Proof/Machine/Step.lean ====
section
/-! DEFINITION. The step function and the placement of one instruction for the very next step. -/

namespace Sys2Proof.Machine

/-- One step of the machine. -/
def step (s : State) : Host.Outcome State Fault Refusal := turn s

/-- `s` with the instruction whose bits are `w` at the head of the command stream. -/
def State.withFetchWord (s : State) (nbits w : Nat) : State := s.placeCommand (tableWords nbits w)

end Sys2Proof.Machine
end

