-- ==== Sys2Proof/Safety.lean ====
section
/-! DEFINITION. What a sound state is (the invariants the spec states, spec/10_state.md R36, R45 to R48, R63, R72, R74,
R76), what the caller must provide and no command checks (spec/70_reset_and_hazards.md R340, R341, R345), and the frames: what
two states may differ in. -/

namespace Sys2Proof.Machine

/-! ## Ring bookkeeping -/

/-- R25, R78: a ring that was never created holds 0 in every layout field, head and count; RESET may have written its
`restart`, RESUME its `run_state`, IRQ_ENABLE its `irq_mask`. -/
def Ring.Uncreated (r : Ring) : Prop :=
  r = { Ring.powerOn r.isRx with restart := r.restart, runState := r.runState, irqMask := r.irqMask }

/-- R26, R27, R28, R82, R84: the layout of a created ring. -/
structure Ring.LaidOut (r : Ring) : Prop where
  /-- R25 -/
  count_pos : 0 < r.count.toNat
  /-- R26: a descriptor is 36 bytes -/
  separation_ge : 36 ≤ r.separation.toNat
  /-- R84 -/
  separation_aligned : r.separation.toNat % 4 = 0
  /-- R84 -/
  virt_aligned : r.firstVirt.toNat % 4 = 0
  /-- R84 -/
  phys_aligned : r.firstPhys.toNat % 4 = 0
  /-- R27 -/
  length_eq : r.length.toNat = r.separation.toNat * r.count.toNat
  /-- R82 -/
  fits : r.firstVirt.toNat + r.length.toNat ≤ 2 ^ 32
  /-- R28 -/
  lastVirt_eq : r.lastVirt = r.bdAddr (r.count.toNat - 1)
  /-- R28, modulo the physical space (R341 is the caller's) -/
  lastPhys_eq : r.lastPhys = r.phys r.lastVirt

/-- R45 to R48: the four groups partition a created ring, and the tail is the last Hardware descriptor. -/
structure Ring.Partitioned (r : Ring) : Prop where
  /-- R45 -/
  count_sum : r.freeCount.toNat + r.preCount.toNat + r.hwCount.toNat + r.postCount.toNat = r.count.toNat
  /-- R47 -/
  freeHead_isBd : r.isBd r.freeHead = true
  /-- R47 -/
  preHead_isBd : r.isBd r.preHead = true
  /-- R47 -/
  hwHead_isBd : r.isBd r.hwHead = true
  /-- R47 -/
  postHead_isBd : r.isBd r.postHead = true
  /-- R47 -/
  hwTail_isBd : r.isBd r.hwTail = true
  /-- R46 -/
  post_to_hw : r.adv r.postHead r.postCount.toNat = r.hwHead
  /-- R46 -/
  hw_to_pre : r.adv r.hwHead r.hwCount.toNat = r.preHead
  /-- R46 -/
  pre_to_free : r.adv r.preHead r.preCount.toNat = r.freeHead
  /-- R46 -/
  free_to_post : r.adv r.freeHead r.freeCount.toNat = r.postHead
  /-- R48 -/
  tail_is_last : 0 < r.hwCount.toNat → r.hwTail = r.adv r.hwHead (r.hwCount.toNat - 1)

/-- A ring is never created, or laid out and partitioned. -/
def Ring.Sound (r : Ring) : Prop := r.Uncreated ∨ (r.LaidOut ∧ r.Partitioned)

/-- Both rings are sound, each with the direction of its channel (R43), and no bit but the four enables is ever in the
interrupt shadow (R44). -/
structure State.RingsSound (s : State) : Prop where
  ring : ∀ c, (s.ring c).Sound
  /-- R43 -/
  isRx : ∀ c, (s.ring c).isRx = (c == .rx)
  /-- R44 -/
  irqMask : ∀ c, (s.ring c).irqMask &&& ~~~allEnable = 0

/-! ## Engine -/

/-- What the engine's registers and hidden state always satisfy. -/
structure State.EngineSound (s : State) : Prop where
  /-- R74: `resetting` equals `DMACR[0]` -/
  resetting_bit : s.resetting = s.dmacr.getLsbD 0
  /-- R276: during a software reset both channels are idle, no delay is armed, no write-back is pending -/
  reset_quiet : s.resetting = true →
    s.wbPending = none ∧ ∀ c, (s.eng c).engState = .idle ∧ (s.eng c).dlyArmed = false
  /-- R267, R268: while a receive write-back is pending the receive channel is not idle -/
  pending_active : s.wbPending ≠ none → (s.eng .rx).engState ≠ .idle
  /-- R63, R271: the strobe is never stored -/
  strobe_clear : ∀ c, (s.eng c).cr &&& strobe = 0
  /-- R72, R274 -/
  coalEvt_le : ∀ c, (s.eng c).coalEvt ≤ 2 ^ s.cfg.coalEvtBits - 1
  /-- R72, R274 -/
  dlyEvt_le : ∀ c, (s.eng c).dlyEvt ≤ 2 ^ s.cfg.dlyEvtBits - 1

/-! ## Memory and cache -/

/-- R76, R93: with `CACHED` false there is no copy; otherwise one copy at most per descriptor, of a descriptor of the
channel's ring. -/
structure State.CacheSound (s : State) : Prop where
  /-- R76 -/
  none_uncached : s.cfg.cached = false → ∀ c, s.cacheOf c = []
  /-- R93: a map from descriptor addresses -/
  sorted : ∀ c, (s.cacheOf c).Pairwise (fun x y => x.addr < y.addr)
  /-- R93 -/
  descriptors : ∀ c, ∀ l ∈ s.cacheOf c, (s.ring c).isBd l.addr = true

/-- All the invariants together. -/
structure State.Sound (s : State) : Prop where
  rings : s.RingsSound
  engine : s.EngineSound
  memory : s.mem.wf = true
  cache : s.CacheSound

/-! ## What the caller must provide (checked by no command; a step refuses the breach) -/

/-- R341: the physical image of the region does not wrap. -/
def Ring.PhysicallyContiguous (r : Ring) : Prop := r.firstPhys.toNat + r.length.toNat ≤ 2 ^ 32

/-- `[a, a + n)` and `[b, b + m)` do not meet. -/
def Apart (a n b m : Nat) : Prop := a + n ≤ b ∨ b + m ≤ a

/-- R340: the two ring regions and the register block (0x44 bytes at `ENGINE_BASE`, R80) lie apart in both address
spaces. The block is counted without wrapping, which is the model's choice (assumption 19). -/
def State.RegionsApart (s : State) : Prop :=
  Apart s.txRing.firstVirt.toNat s.txRing.length.toNat s.rxRing.firstVirt.toNat s.rxRing.length.toNat ∧
  Apart s.txRing.firstPhys.toNat s.txRing.length.toNat s.rxRing.firstPhys.toNat s.rxRing.length.toNat ∧
  ∀ c, Apart (s.ring c).firstVirt.toNat (s.ring c).length.toNat s.cfg.engineBase.toNat 0x44 ∧
    Apart (s.ring c).firstPhys.toNat (s.ring c).length.toNat s.cfg.engineBase.toNat 0x44

/-- R345, what a state shows of it: with `CACHED`, the stride of a created ring is no shorter than a cache line. -/
def State.LinesApart (s : State) : Prop :=
  s.cfg.cached = true → ∀ c, (s.ring c).count ≠ 0 → s.cfg.cacheLine ≤ (s.ring c).separation.toNat

/-- R340, R341, R345 in a state. -/
structure State.PlatformOk (s : State) : Prop where
  /-- R341 -/
  contiguous : ∀ c, (s.ring c).PhysicallyContiguous
  /-- R340 -/
  apart : s.RegionsApart
  /-- R345 -/
  lines : s.LinesApart

/-- R340: no byte of the data buffer of the descriptor the engine is at lies in the physical image of a ring. The bytes are
counted modulo 2^32, which is the model's choice (assumption 19). -/
def State.BufferApart (s : State) (c : Channel) : Prop :=
  ∀ c' i, i < (s.engRead (s.eng c).cdesc 2).toNat →
    inRegion (s.ring c').firstPhys (s.ring c').length.toNat (byteAddr (s.engRead (s.eng c).cdesc 1) i) = false

/-- R340, U11: the engine's next step on channel `c` would fetch a live descriptor whose data buffer lies over a ring. -/
def State.FetchesOverRing (s : State) (c : Channel) : Prop :=
  s.stepEnabled c = true ∧ s.engRead (s.eng c).cdesc 3 &&& 0x10000000 = 0 ∧ ¬ s.BufferApart c

/-! ## What a command asks of its operands -/

/-- R26: the stride for an alignment, the least multiple of it that holds 36 bytes. -/
def strideOf (alignment : Word) : Nat := alignment.toNat * ((36 + alignment.toNat - 1) / alignment.toNat)

/-- R150: every check of CREATE passes. -/
structure CreateAccepts (cfg : Cfg) (r : Ring) (physBase virtBase alignment count : Word) : Prop where
  fresh : r.count = 0
  align_min : cfg.minAlign ≤ alignment
  align_pow2 : alignment &&& (alignment - 1) = 0
  phys_base : physBase.toNat % alignment.toNat = 0
  virt_base : virtBase.toNat % alignment.toNat = 0
  count_pos : count ≠ 0
  fits : virtBase.toNat + strideOf alignment * count.toNat ≤ 2 ^ 32

/-- R340, R341, R345: what the caller owes a CREATE on channel `c`. -/
structure State.CreateOwed (s : State) (c : Channel) (physBase virtBase alignment count : Word) : Prop where
  /-- R341 -/
  contiguous : physBase.toNat + strideOf alignment * count.toNat ≤ 2 ^ 32
  /-- R340 -/
  rings : ∀ c', c' ≠ c →
    Apart virtBase.toNat (strideOf alignment * count.toNat) (s.ring c').firstVirt.toNat (s.ring c').length.toNat ∧
    Apart physBase.toNat (strideOf alignment * count.toNat) (s.ring c').firstPhys.toNat (s.ring c').length.toNat
  /-- R340, with the register block counted without wrapping (assumption 19) -/
  registers :
    Apart virtBase.toNat (strideOf alignment * count.toNat) s.cfg.engineBase.toNat 0x44 ∧
    Apart physBase.toNat (strideOf alignment * count.toNat) s.cfg.engineBase.toNat 0x44
  /-- R345 -/
  line : s.cfg.cached = true → s.cfg.cacheLine ≤ alignment.toNat

/-- The command at hand keeps to the caller obligations: every command does, but a CREATE that passes its checks without
what the caller owes it. -/
def State.CommandOwed (s : State) (i : Instr) : Prop :=
  ∀ ch p v al n, i = .create ch p v al n → CreateAccepts s.cfg (s.ring ch) p v al n → s.CreateOwed ch p v al n

/-- R220: a coalescing operand SET_COALESCE accepts. -/
def CoalesceAccepts (cfg : Cfg) (v : Word) : Prop := v = cfg.noChange ∨ (1 ≤ v.toNat ∧ v.toNat ≤ 255)

/-- R176 lines 6 and 14, with what the host sees of the descriptors: the first `k` from `set` have a length. -/
def State.LengthsSet (s : State) (c : Channel) (set : Word) (k : Nat) : Prop :=
  ∀ j < k, s.hostWord c ((s.ring c).adv set j) 2 ≠ 0

/-- R176: the words descriptor `bd` holds after its submission, from those the host saw before it: the status word
cleared of `CMP` and `SOE`, on receive the watchdog word re-armed, the other words kept. -/
def State.submittedWord (s : State) (c : Channel) (bd : Word) (w : Nat) : Word :=
  if w = 3 then s.hostWord c bd 3 &&& 0xCFFFFFFF
  else if (s.ring c).isRx = true ∧ w = s.cfg.wdogWord then s.cfg.wdogSentinel
  else s.hostWord c bd w

/-- R176: the first `k` descriptors from `set` hold, in descriptor memory and as the host sees them, their words after
submission, no byte outside their words 0 to 7 differs, and the host sees every other word of the ring's descriptors as
before. -/
def SubmittedPrefix (c : Channel) (set : Word) (k : Nat) (s t : State) : Prop :=
  (∀ j < k, ∀ w < 8,
    t.memWord c ((s.ring c).adv set j) w = s.submittedWord c ((s.ring c).adv set j) w ∧
    t.hostWord c ((s.ring c).adv set j) w = s.submittedWord c ((s.ring c).adv set j) w) ∧
  (∀ d w, (s.ring c).isBd d = true → w ≤ 8 → (w = 8 ∨ ∀ j < k, d ≠ (s.ring c).adv set j) →
    t.hostWord c d w = s.hostWord c d w) ∧
  ∀ b, (∀ j < k, ¬ ∃ i < 32, b = byteAddr (s.wordAddr c ((s.ring c).adv set j) 0) i) →
    t.mem.readByte b = s.mem.readByte b

/-- R180 lines 6 and 7: the manager takes the descriptor as completed, by the words in descriptor memory. -/
def State.completed (s : State) (c : Channel) (bd : Word) : Prop :=
  s.memWord c bd 3 &&& 0x10000000 ≠ 0 ∧
    ((s.ring c).isRx = true → s.memWord c bd s.cfg.wdogWord ≠ s.cfg.wdogSentinel)

/-- R262: what a write of `TDESC[c]` makes of the channel. -/
def kicked (dmacr : Word) (resetting : Bool) (e : EngineChannel) (v : Word) : EngineChannel :=
  if dmacr.getLsbD 2 = true ∧ resetting = false ∧ e.engState = .idle then { e with tdesc := v, engState := .run }
  else { e with tdesc := v }

/-- The physical address reached by `k` steps along the `next` words, from `p` (R266). -/
def State.follow (s : State) (p : Word) : Nat → Word
  | 0 => p
  | k + 1 => s.engRead (s.follow p k) 0

/-! ## Whose turn -/

/-- The manager takes the next step; `q` is the schedule after it. -/
def State.ManagerNext (s : State) (q : List Turn) : Prop := s.sched = .manager :: q ∨ (s.sched = [] ∧ q = [])

/-- The configuration is one R7 allows and the caller obligations are met: the machine steps. -/
structure State.Admitted (s : State) : Prop where
  /-- R7, U16 -/
  cfg : s.cfg.wf = true
  /-- R340, R341, R345 -/
  platform : s.PlatformOk

/-- The manager takes the next step, no command waits, and the machine steps. -/
structure State.ManagerReady (s : State) (q : List Turn) : Prop where
  admitted : s.Admitted
  idle : s.waiting = none
  turn : s.ManagerNext q

/-- The engine takes the next step, with event `e`, and the machine steps; it fetches no live descriptor whose data buffer
lies over a ring (R340). -/
structure State.EngineReady (s : State) (e : EngineEvent) (q : List Turn) : Prop where
  admitted : s.Admitted
  turn : s.sched = .engine e :: q
  buffer : ∀ c x, e = .step c x → ¬ s.FetchesOverRing c

/-! ## Frames -/

/-- Nothing but one ring's bookkeeping and the response differs. -/
def OnlyRing (c : Channel) (s t : State) : Prop := t = { s.setRing c (t.ring c) with response := t.response }

/-- Nothing but one engine channel and the response differs. -/
def OnlyEngine (c : Channel) (s t : State) : Prop := t = { s.setEng c (t.eng c) with response := t.response }

/-- Nothing but one ring's bookkeeping, one channel's engine registers and the response differs. -/
def OnlyRegisters (c : Channel) (s t : State) : Prop :=
  t = { (s.setRing c (t.ring c)).setEng c (t.eng c) with response := t.response }

/-- With `CACHED` false one channel's cached copies and the count of draws are as before (R97). -/
def CopiesKept (c : Channel) (s t : State) : Prop :=
  s.cfg.cached = false → t.cacheOf c = s.cacheOf c ∧ t.drawCtr = s.drawCtr

/-- Nothing but one channel's cached copies, the count of draws and the response differs. -/
def OnlyCopies (c : Channel) (s t : State) : Prop :=
  t = { s.setCache c (t.cacheOf c) with drawCtr := t.drawCtr, response := t.response } ∧ CopiesKept c s t

/-- Nothing but one ring's bookkeeping, that channel's engine registers, its cached copies, the count of draws and the
response differs; descriptor memory is as before. -/
def OnlyChannel (c : Channel) (s t : State) : Prop :=
  t = { ((s.setRing c (t.ring c)).setEng c (t.eng c)).setCache c (t.cacheOf c) with
        drawCtr := t.drawCtr, response := t.response } ∧ CopiesKept c s t

/-- As `OnlyChannel`, and descriptor memory may differ. -/
def OnlyChannelMemory (c : Channel) (s t : State) : Prop :=
  t = { ((s.setRing c (t.ring c)).setEng c (t.eng c)).setCache c (t.cacheOf c) with
        mem := t.mem, drawCtr := t.drawCtr, response := t.response } ∧ CopiesKept c s t

/-- Nothing but one engine channel, the pending write-back, descriptor memory and the schedule differs: what a step of the
engine on channel `c` may touch (R278). -/
def OnlyEngineStep (c : Channel) (s t : State) : Prop :=
  t = { s.setEng c (t.eng c) with wbPending := t.wbPending, mem := t.mem, sched := t.sched }

/-- No byte of memory outside the `n` bytes at `a` differs. -/
def BytesKeptOutside (a : Word) (n : Nat) (s t : State) : Prop :=
  ∀ b, (∀ i < n, b ≠ byteAddr a i) → t.mem.readByte b = s.mem.readByte b

end Sys2Proof.Machine
end

