-- ==== Sys2Proof/Certificates/Slice0/Obligations.lean ====
section
/-! DEFINITION. The statements for the provers, from the numbered rules of spec/. Status codes and result words are written
as the numbers of R301 and R124. -/

open Sys2Proof Sys2Proof.Machine

/-! ## Encoding and the step -/

/-- Some words of spec/30_encoding.md's worked encodings decode to the commands they stand for. -/
def Obligations.DecodesSampleWords : Prop :=
  decode [0x00000000] = .instr .nop [] ∧
  decode [0x00000001, 0x10000000, 0x20000000, 0x00000040, 0x00000004]
    = .instr (.create .tx 0x10000000 0x20000000 64 4) [] ∧
  decode [0x00000132, 0x00000085] = .instr (.irqEnable .rx 0x85) [] ∧
  decode [0x00000041, 0x20000000, 0x00000002, 0x000005DC, 0x00000021]
    = .instr (.bdWr .tx 0x20000000 2 1500) [0x00000021] ∧
  decode [0x00000051, 0x00000034, 0x01010085] = .instr (.regWr 0x34 0x01010085) []

/-- Decoding an encoded command gives it back, with the words after it. -/
def Obligations.DecodeOfEncode : Prop :=
  ∀ (i : Instr) (rest : List Word), i.WellFormed → decode (encode i ++ rest) = .instr i rest

/-- The words a command was decoded from are its encoding: no bit is dropped or read twice. -/
def Obligations.EncodeOfDecode : Prop :=
  ∀ (ws rest : List Word) (i : Instr), decode ws = .instr i rest → i.WellFormed ∧ ws = encode i ++ rest

/-- R125: a header `h` selects the row of an opcode iff `(h & mask) == match`, and at most one row; a selected header is
the one whose fields R121 reads. -/
def Obligations.HeaderSelectsOneRow : Prop :=
  (∀ (h : Word) (o : Opcode), h &&& o.mask = o.matchWord ↔
    headerReserved h = 0 ∧ headerOpc h = o.byte ∧ (o.scope = .engineWide → headerChannel h = .tx)) ∧
  (∀ (h : Word) (o p : Opcode), h &&& o.mask = o.matchWord → h &&& p.mask = p.matchWord → o = p) ∧
  (∀ (h : Word) (o : Opcode), h &&& o.mask = o.matchWord → h = encodeHeader o (headerChannel h))

/-- R126: an illegal header consumes one word, changes no state and answers `E_ILLEGAL_CMD` (16). -/
def Obligations.IllegalHeaderAnswered : Prop :=
  ∀ (s : State) (q : List Turn) (h : Word) (rest : List Word), s.ManagerReady q → s.stream = h :: rest →
    (headerReserved h ≠ 0 ∨
      headerOpc h ∉ [0x00, 0x01, 0x02, 0x10, 0x11, 0x12, 0x13, 0x14, 0x20, 0x21, 0x22, 0x23, 0x30, 0x31, 0x32, 0x33,
        0x34, 0x35, 0x40, 0x41, 0x42, 0x43, 0x44, 0x50, 0x51] ∨
      (headerOpc h ∈ [0x00, 0x21, 0x22, 0x23, 0x50, 0x51] ∧ headerChannel h = .rx)) →
    Machine.step s = .next { s with sched := q, stream := rest, response := [16] }

/-- A step whose manager finds a whole command at the head of the stream runs that command, on the state whose stream has
moved past the command's words, where the command keeps to the caller obligations (R340, R341, R345: of CREATE alone). -/
def Obligations.StepRunsDecodedInstruction : Prop :=
  ∀ (s : State) (q : List Turn) (i : Instr) (rest : List Word), s.ManagerReady q → i.WellFormed → s.CommandOwed i →
    decode s.stream = .instr i rest → Machine.step s = exec i { s with sched := q, stream := rest }

/-- Where no whole command has been presented the manager waits (assumption 8), and the engine, the cache and the host
take the steps the schedule gives them (assumption 5). While a command waits the host takes none (R20, R206): its turn then
leaves the state as it is (assumption 5). -/
def Obligations.OtherTurns : Prop :=
  (∀ (s : State) (q : List Turn), s.ManagerReady q →
    (decode s.stream = .rejected .noHeader ∨ decode s.stream = .rejected .operandsMissing) →
    Machine.step s = .next { s with sched := q }) ∧
  (∀ (s : State) (q : List Turn) (e : EngineEvent), s.EngineReady e q →
    Machine.step s = .next ({ s with sched := q }.engineTurn e)) ∧
  (∀ (s : State) (q : List Turn) (e : CacheEvent), s.Admitted → s.sched = .cache e :: q →
    Machine.step s = .next ({ s with sched := q }.cacheTurn e)) ∧
  (∀ (s : State) (q : List Turn) (e : HostEvent), s.Admitted → s.sched = .host e :: q →
    Machine.step s = hostTurn { s with sched := q } e ∧
    (s.waiting ≠ none → Machine.step s = .next { s with sched := q }) ∧
    (∀ ws, s.waiting = none → e = .present ws → Machine.step s = .next { s with sched := q, stream := s.stream ++ ws }))

/-- How the model meets the refusals of U11, U12 and U16, and that nothing else is refused by these names. Refused are a step
under a configuration whose `MIN_ALIGN` is below 4 or no power of two, whose `WDOG_WORD` is not one of 4..7, or whose
`NO_CHANGE` lies in [0,255]; a step from a state that breaks R340, R341 or R345; the manager's step at a CREATE that would;
and the engine's fetch of a live descriptor whose data buffer lies over a ring. So every state a step answers keeps R7 and the
caller obligations. The spec says that such a trace is refused. When it is refused and by which name is the model's choice:
assumption 2 (DESIGN CHOICE) for the configuration, assumption 19 (DESIGN CHOICE) for the rest, where the moment of each
refusal, the stride that stands for an alignment which no state holds, the register block counted without wrapping and a
buffer's bytes counted modulo 2^32 are the model's as well. -/
def Obligations.ConfigurationAndPlatformRefused : Prop :=
  (∀ s : State,
    (s.cfg.minAlign.toNat < 4 ∨ (¬ ∃ k, s.cfg.minAlign.toNat = 2 ^ k) ∨ s.cfg.wdogWord < 4 ∨ 7 < s.cfg.wdogWord ∨
      s.cfg.noChange.toNat ≤ 255) ↔ Machine.step s = .refused .illFormedConfiguration) ∧
  (∀ s : State, s.cfg.wf = true →
    (Machine.step s = .refused .callerObligation ↔
      ¬ s.PlatformOk ∨
      (∃ q i rest, s.ManagerNext q ∧ s.waiting = none ∧ decode s.stream = .instr i rest ∧ ¬ s.CommandOwed i) ∨
      (∃ q c x, s.sched = .engine (.step c x) :: q ∧ s.FetchesOverRing c))) ∧
  State.reset.Admitted ∧ ∀ s t : State, Machine.step s = .next t → t.Admitted

/-- R342, R83 (U8, U14): a direct host access, while no command waits (R20). Reading a word of a descriptor outside the
Hardware group gives what the host sees, and of one inside it some word; writing a word of a Pre-process descriptor but
`next` changes what the host sees; a narrow or misaligned access that has a byte in a ring region, padding included, and a
write that violates the ownership table are refused; an access to no descriptor word faults (the fault is the model's choice,
assumption 12). -/
def Obligations.HostDirectAccess : Prop :=
  ∀ s : State, s.waiting = none →
    (∀ (c : Channel) (bd : Word) (w : Nat), s.locate (bd + BitVec.ofNat 32 (4 * w)) = some (c, bd, w) →
      (bd + BitVec.ofNat 32 (4 * w)).toNat % 4 = 0 → (s.ring c).group bd ≠ .hw →
      ∃ t, hostTurn s (.directRead (bd + BitVec.ofNat 32 (4 * w)) 4) = .next t ∧ t.hostData = s.hostWord c bd w ∧
        t.mem = s.mem ∧ ∀ c', t.ring c' = s.ring c' ∧ t.eng c' = s.eng c') ∧
    (∀ (addr : Word) (c : Channel) (bd : Word) (w : Nat), s.locate addr = some (c, bd, w) → addr.toNat % 4 = 0 →
      (s.ring c).group bd = .hw →
      ∃ v, hostTurn s (.directRead addr 4) = .next { s with hostData := v, drawCtr := s.drawCtr + 1 }) ∧
    (∀ (c : Channel) (bd : Word) (w : Nat) (v : Word), s.locate (bd + BitVec.ofNat 32 (4 * w)) = some (c, bd, w) →
      (bd + BitVec.ofNat 32 (4 * w)).toNat % 4 = 0 → (s.ring c).group bd = .pre → w ≠ 0 →
      ∃ t, hostTurn s (.directWrite (bd + BitVec.ofNat 32 (4 * w)) 4 v) = .next t ∧ t.hostWord c bd w = v ∧
        ∀ c', t.ring c' = s.ring c' ∧ t.eng c' = s.eng c') ∧
    (∀ (addr : Word) (n : Nat) (v : Word) (c : Channel) (i : Nat), (n ≠ 4 ∨ addr.toNat % 4 ≠ 0) →
      (s.ring c).count ≠ 0 → (i = 0 ∨ i < n) →
      inRegion (s.ring c).firstVirt (s.ring c).length.toNat (byteAddr addr i) = true →
      hostTurn s (.directRead addr n) = .refused .hostNarrowAccess ∧
      hostTurn s (.directWrite addr n v) = .refused .hostNarrowAccess) ∧
    (∀ (addr v : Word) (c : Channel) (bd : Word) (w : Nat), s.locate addr = some (c, bd, w) → addr.toNat % 4 = 0 →
      ((s.ring c).group bd ≠ .pre ∨ w = 0) →
      hostTurn s (.directWrite addr 4 v) = .refused .hostOwnershipWrite) ∧
    (∀ (addr v : Word), s.locate addr = none → addr.toNat % 4 = 0 →
      hostTurn s (.directRead addr 4) = .fault .hostUnmapped ∧ hostTurn s (.directWrite addr 4 v) = .fault .hostUnmapped) ∧
    (∀ (addr : Word) (n : Nat) (v : Word), (∀ c, (s.ring c).Sound) → 0 < n → (n ≠ 4 ∨ addr.toNat % 4 ≠ 0) →
      (∀ c i, i < n → inRegion (s.ring c).firstVirt (s.ring c).length.toNat (byteAddr addr i) = false) →
      hostTurn s (.directRead addr n) = .fault .hostUnmapped ∧ hostTurn s (.directWrite addr n v) = .fault .hostUnmapped)

/-! ## CREATE, CLONE -/

/-- R150: a CREATE whose checks pass completes, and what it leaves in the bookkeeping. -/
def Obligations.CreateBookkeeping : Prop :=
  ∀ (s : State) (ch : Channel) (p v al n : Word), s.cfg.wf = true → CreateAccepts s.cfg (s.ring ch) p v al n →
    ∃ t, exec (.create ch p v al n) s = .next t ∧ t.response = [0] ∧
      t.ring ch =
        { count := n, separation := BitVec.ofNat 32 (strideOf al), length := BitVec.ofNat 33 (strideOf al * n.toNat)
          firstPhys := p, firstVirt := v
          lastPhys := p + (n - 1) * BitVec.ofNat 32 (strideOf al)
          lastVirt := v + (n - 1) * BitVec.ofNat 32 (strideOf al)
          freeHead := v, preHead := v, hwHead := v, postHead := v
          freeCount := n, preCount := 0, hwCount := 0, postCount := 0
          hwTail := v, restart := p, runState := .stopped, irqMask := (s.ring ch).irqMask, isRx := (s.ring ch).isRx } ∧
      (t.ring ch).LaidOut ∧ (t.ring ch).Partitioned ∧ t.eng ch = s.eng ch ∧ OnlyChannelMemory ch s t

/-- R150, C4: the region a successful CREATE leaves: every descriptor's `next` names the one after it and the last one's
the first, the completed flag alone is set in every status word but the last, all else is 0, and no byte outside the region
differs. No command checks R340, R341, R345, so this holds of the command also where they are broken; the machine's step
refuses such a CREATE (ConfigurationAndPlatformRefused, assumption 19). -/
def Obligations.CreateMemory : Prop :=
  ∀ (s : State) (ch : Channel) (p v al n : Word), s.cfg.wf = true → CreateAccepts s.cfg (s.ring ch) p v al n →
    ∃ t, exec (.create ch p v al n) s = .next t ∧
      (∀ k < n.toNat, ∀ w ≤ 8,
        t.memWord ch (v + BitVec.ofNat 32 (k * strideOf al)) w =
          (if w = 0 then (if k + 1 < n.toNat then p + BitVec.ofNat 32 ((k + 1) * strideOf al) else p)
           else if w = 3 then (if k + 1 < n.toNat then 0x10000000 else 0) else 0) ∧
        t.hostWord ch (v + BitVec.ofNat 32 (k * strideOf al)) w = t.memWord ch (v + BitVec.ofNat 32 (k * strideOf al)) w) ∧
      (∀ k < n.toNat, ∀ j, 36 ≤ j → j < strideOf al →
        t.mem.readByte (byteAddr (p + BitVec.ofNat 32 (k * strideOf al)) j) = 0) ∧
      ∀ b, inRegion p (strideOf al * n.toNat) b = false → t.mem.readByte b = s.mem.readByte b

/-- R150, R155, R304: the checks of CREATE and CLONE in their order, the first that fails deciding the status; nothing else
changes. -/
def Obligations.SetupFailures : Prop :=
  (∀ (s : State) (ch : Channel) (p v al n : Word), s.cfg.wf = true → ¬ CreateAccepts s.cfg (s.ring ch) p v al n →
    exec (.create ch p v al n) s = .next { s with response :=
      [if (s.ring ch).count ≠ 0 then 19
       else if al < s.cfg.minAlign then 1
       else if al &&& (al - 1) ≠ 0 then 2
       else if p.toNat % al.toNat ≠ 0 ∨ v.toNat % al.toNat ≠ 0 then 3
       else if n = 0 then 4
       else 5] }) ∧
  (∀ (s : State) (ch : Channel) (t0 t1 t2 t3 t4 t5 t6 t7 t8 : Word),
    ((s.ring ch).freeCount ≠ (s.ring ch).count ∨ (s.ring ch).runState = .started) →
    exec (.clone ch t0 t1 t2 t3 t4 t5 t6 t7 t8) s = .next { s with response :=
      [if (s.ring ch).freeCount ≠ (s.ring ch).count then 6 else 7] })

/-- R108: after a successful CREATE, following `next` from the first descriptor's physical address returns to it after
exactly N steps and after no fewer. -/
def Obligations.RingLinkage : Prop :=
  ∀ (s : State) (ch : Channel) (p v al n : Word), s.cfg.wf = true → CreateAccepts s.cfg (s.ring ch) p v al n →
    ∃ t, exec (.create ch p v al n) s = .next t ∧ t.follow p n.toNat = p ∧
      ∀ k, 0 < k → k < n.toNat → t.follow p k ≠ p

/-- R155: a CLONE on a ring that is fully Free and Stopped completes; every descriptor, the last included, then holds the
template with the completed flag on, its `next` is what the host saw, and no byte outside the descriptors differs. -/
def Obligations.CloneCompletes : Prop :=
  ∀ (s : State) (ch : Channel) (t0 t1 t2 t3 t4 t5 t6 t7 t8 : Word), (s.ring ch).Sound →
    (s.ring ch).freeCount = (s.ring ch).count → (s.ring ch).runState = .stopped →
    ∃ t, exec (.clone ch t0 t1 t2 t3 t4 t5 t6 t7 t8) s = .next t ∧ t.response = [0] ∧
      t.ring ch = s.ring ch ∧ t.eng ch = s.eng ch ∧ OnlyChannelMemory ch s t ∧
      (∀ k < (s.ring ch).count.toNat, ∀ w ≤ 8,
        t.memWord ch ((s.ring ch).bdAddr k) w =
          (if w = 0 then s.hostWord ch ((s.ring ch).bdAddr k) 0
           else [t0, t1, t2, t3 ||| 0x10000000, t4, t5, t6, t7, t8].getD w 0) ∧
        t.hostWord ch ((s.ring ch).bdAddr k) w = t.memWord ch ((s.ring ch).bdAddr k) w) ∧
      ∀ b, (∀ k < (s.ring ch).count.toNat, ¬ ∃ i < 36, b = byteAddr (s.wordAddr ch ((s.ring ch).bdAddr k) 0) i) →
        t.mem.readByte b = s.mem.readByte b

/-! ## The ownership protocol -/

/-- R170, R173: an ALLOC the Free group can serve and an UNALLOC the Pre-process group can serve complete; `set` is not
looked at. -/
def Obligations.AllocUnallocComplete : Prop :=
  (∀ (s : State) (ch : Channel) (n : Word), (s.ring ch).Sound → n ≤ (s.ring ch).freeCount →
    ∃ t, exec (.alloc ch n) s = .next t ∧ t.response = [0, (s.ring ch).freeHead] ∧ OnlyRing ch s t ∧
      t.ring ch = { s.ring ch with
        freeHead := (s.ring ch).bdAddr (((s.ring ch).idx (s.ring ch).freeHead + n.toNat) % (s.ring ch).count.toNat)
        freeCount := (s.ring ch).freeCount - n
        preCount := (s.ring ch).preCount + n } ∧
      (t.ring ch).preCount.toNat = (s.ring ch).preCount.toNat + n.toNat) ∧
  (∀ (s : State) (ch : Channel) (n set : Word), (s.ring ch).Sound → n ≤ (s.ring ch).preCount →
    ∃ t, exec (.unalloc ch n set) s = .next t ∧ t.response = [0] ∧ OnlyRing ch s t ∧
      t.ring ch = { s.ring ch with
        freeHead := (s.ring ch).bdAddr
          (((s.ring ch).idx (s.ring ch).freeHead + (s.ring ch).count.toNat - n.toNat) % (s.ring ch).count.toNat)
        freeCount := (s.ring ch).freeCount + n
        preCount := (s.ring ch).preCount - n } ∧
      (t.ring ch).freeCount.toNat = (s.ring ch).freeCount.toNat + n.toNat)

/-- R174: ALLOC followed at once by UNALLOC of what it returned restores the ring's bookkeeping. -/
def Obligations.AllocUnallocInverse : Prop :=
  ∀ (s : State) (ch : Channel) (n : Word), (s.ring ch).Sound → n ≤ (s.ring ch).freeCount →
    ∃ t u first, exec (.alloc ch n) s = .next t ∧ t.response = [0, first] ∧
      exec (.unalloc ch n first) t = .next u ∧ u.response = [0] ∧ u.ring ch = s.ring ch

/-- R176: a TO_HW of `n` descriptors that starts at `pre_head`, stays inside the Pre-process group and passes packet
validation completes: the bookkeeping, the descriptors' words, and, if the channel is Started, the kick. -/
def Obligations.ToHwCompletes : Prop :=
  (∀ (s : State) (ch : Channel) (set : Word), exec (.toHw ch 0 set) s = .next { s with response := [0] }) ∧
  (∀ (s : State) (ch : Channel) (n : Word), s.cfg.wf = true → (s.ring ch).Sound → n ≠ 0 → n ≤ (s.ring ch).preCount →
    s.hostWord ch (s.ring ch).preHead 3 &&& 0x08000000 ≠ 0 →
    s.LengthsSet ch (s.ring ch).preHead n.toNat →
    s.hostWord ch ((s.ring ch).adv (s.ring ch).preHead (n.toNat - 1)) 3 &&& 0x04000000 ≠ 0 →
    ∃ t, exec (.toHw ch n (s.ring ch).preHead) s = .next t ∧ t.response = [0] ∧
      t.ring ch = { s.ring ch with
        preHead := (s.ring ch).adv (s.ring ch).preHead n.toNat
        preCount := (s.ring ch).preCount - n
        hwCount := (s.ring ch).hwCount + n
        hwTail := (s.ring ch).adv (s.ring ch).preHead (n.toNat - 1) } ∧
      t.eng ch = (if (s.ring ch).runState = .started then
          kicked s.dmacr s.resetting (s.eng ch)
            ((s.ring ch).phys ((s.ring ch).adv (s.ring ch).preHead (n.toNat - 1)))
        else s.eng ch) ∧
      SubmittedPrefix ch (s.ring ch).preHead n.toNat s t ∧ OnlyChannelMemory ch s t)

/-- R176, R178, R303, R304: a TO_HW that packet validation turns away. Without `SOP` on the first descriptor no word
differs; a zero length (13) or a missing `EOP` on the last (12) found at descriptor `j` leaves the descriptors before it
rewritten. The bookkeeping and the registers are as before. -/
def Obligations.ToHwValidationFailures : Prop :=
  (∀ (s : State) (ch : Channel) (n : Word), n ≠ 0 → n ≤ (s.ring ch).preCount →
    s.hostWord ch (s.ring ch).preHead 3 &&& 0x08000000 = 0 →
    ∃ t, exec (.toHw ch n (s.ring ch).preHead) s = .next t ∧ t.response = [11] ∧ OnlyCopies ch s t ∧
      ∀ bd w, t.hostWord ch bd w = s.hostWord ch bd w) ∧
  (∀ (s : State) (ch : Channel) (n : Word) (j : Nat), s.cfg.wf = true → (s.ring ch).Sound → n ≠ 0 →
    n ≤ (s.ring ch).preCount → s.hostWord ch (s.ring ch).preHead 3 &&& 0x08000000 ≠ 0 → j < n.toNat →
    s.LengthsSet ch (s.ring ch).preHead j →
    (if j + 1 = n.toNat then
      s.hostWord ch ((s.ring ch).adv (s.ring ch).preHead j) 3 &&& 0x04000000 = 0 ∨
        s.hostWord ch ((s.ring ch).adv (s.ring ch).preHead j) 2 = 0
     else s.hostWord ch ((s.ring ch).adv (s.ring ch).preHead j) 2 = 0) →
    ∃ t, exec (.toHw ch n (s.ring ch).preHead) s = .next t ∧
      t.response = [if j + 1 = n.toNat ∧ s.hostWord ch ((s.ring ch).adv (s.ring ch).preHead j) 3 &&& 0x04000000 = 0
        then 12 else 13] ∧
      t.ring ch = s.ring ch ∧ t.eng ch = s.eng ch ∧ SubmittedPrefix ch (s.ring ch).preHead j s t ∧
      OnlyChannelMemory ch s t)

/-- R180, R181: a FROM_HW completes and returns the largest number of descriptors from the front of the Hardware group,
within `limit`, that are all completed and end with a packet's last descriptor; descriptor memory and the registers are as
before. -/
def Obligations.FromHwHarvestsWholePackets : Prop :=
  ∀ (s : State) (ch : Channel) (limit : Word), s.cfg.wf = true → (s.ring ch).Sound →
    ∃ t cnt, exec (.fromHw ch limit) s = .next t ∧
      t.response = [0, BitVec.ofNat 32 cnt, if cnt = 0 then 0 else (s.ring ch).hwHead] ∧
      cnt ≤ limit.toNat ∧ cnt ≤ (s.ring ch).hwCount.toNat ∧
      (∀ k < cnt, s.completed ch ((s.ring ch).adv (s.ring ch).hwHead k)) ∧
      (0 < cnt → s.memWord ch ((s.ring ch).adv (s.ring ch).hwHead (cnt - 1)) 3 &&& 0x04000000 ≠ 0) ∧
      (∀ m, 0 < m → m ≤ limit.toNat → m ≤ (s.ring ch).hwCount.toNat →
        (∀ k < m, s.completed ch ((s.ring ch).adv (s.ring ch).hwHead k)) →
        s.memWord ch ((s.ring ch).adv (s.ring ch).hwHead (m - 1)) 3 &&& 0x04000000 ≠ 0 → m ≤ cnt) ∧
      t.ring ch = { s.ring ch with
        hwHead := (s.ring ch).adv (s.ring ch).hwHead cnt
        hwCount := (s.ring ch).hwCount - BitVec.ofNat 32 cnt
        postCount := (s.ring ch).postCount + BitVec.ofNat 32 cnt } ∧
      t.eng ch = s.eng ch ∧ OnlyChannel ch s t

/-- R186: a FREE of 0 succeeds whatever `set` is; a FREE from `post_head` inside the Post-process group completes. -/
def Obligations.FreeCompletes : Prop :=
  (∀ (s : State) (ch : Channel) (set : Word), exec (.free ch 0 set) s = .next { s with response := [0] }) ∧
  (∀ (s : State) (ch : Channel) (n : Word), (s.ring ch).Sound → n ≠ 0 → n ≤ (s.ring ch).postCount →
    ∃ t, exec (.free ch n (s.ring ch).postHead) s = .next t ∧ t.response = [0] ∧ OnlyRing ch s t ∧
      t.ring ch = { s.ring ch with
        postHead := (s.ring ch).bdAddr (((s.ring ch).idx (s.ring ch).postHead + n.toNat) % (s.ring ch).count.toNat)
        postCount := (s.ring ch).postCount - n
        freeCount := (s.ring ch).freeCount + n } ∧
      (t.ring ch).freeCount.toNat = (s.ring ch).freeCount.toNat + n.toNat)

/-- R170, R173, R176, R177, R186: the count and sequence checks of the ownership commands; nothing else changes. -/
def Obligations.OwnershipFailures : Prop :=
  (∀ (s : State) (ch : Channel) (n : Word), (s.ring ch).freeCount < n →
    exec (.alloc ch n) s = .next { s with response := [9, 0] }) ∧
  (∀ (s : State) (ch : Channel) (n set : Word), (s.ring ch).preCount < n →
    exec (.unalloc ch n set) s = .next { s with response := [10] }) ∧
  (∀ (s : State) (ch : Channel) (n set : Word), n ≠ 0 → (set ≠ (s.ring ch).preHead ∨ (s.ring ch).preCount < n) →
    exec (.toHw ch n set) s = .next { s with response := [10] }) ∧
  (∀ (s : State) (ch : Channel) (n set : Word), n ≠ 0 → (set ≠ (s.ring ch).postHead ∨ (s.ring ch).postCount < n) →
    exec (.free ch n set) s = .next { s with response := [10] })

/-! ## Engine control -/

/-- R200: START. Without a ring `E_NO_RING`; on a Started channel nothing; otherwise `CDESC` takes `restart` (unless the
channel runs, R263), the tail is kicked where unharvested work is not complete, and the channel is Started. -/
def Obligations.StartCompletes : Prop :=
  ∀ (s : State) (ch : Channel),
    ((s.ring ch).count = 0 → exec (.start ch) s = .next { s with response := [14] }) ∧
    ((s.ring ch).count ≠ 0 → (s.ring ch).runState = .started → exec (.start ch) s = .next { s with response := [0] }) ∧
    ((s.ring ch).count ≠ 0 → (s.ring ch).runState = .stopped →
      ∃ t e, exec (.start ch) s = .next t ∧ t.response = [0] ∧
        t.ring ch = { s.ring ch with runState := .started } ∧
        e = (if (s.eng ch).engState = .run then s.eng ch else { s.eng ch with cdesc := (s.ring ch).restart }) ∧
        t.eng ch =
          (if (s.ring ch).hwCount ≠ 0 ∧ s.memWord ch (s.ring ch).hwTail 3 &&& 0x10000000 = 0 then
            kicked s.dmacr s.resetting e ((s.ring ch).phys (s.ring ch).hwTail) else e) ∧
        OnlyChannel ch s t)

/-- R203, R207: PAUSE and RESUME complete. PAUSE sets both pause bits; where the receive write queue is empty the poll that
follows marks both channels Stopped and answers `OK`. RESUME clears the bits, marks both channels Started and answers `OK`.
A write of `DMACR` during a software reset is ignored (R276). The empty response field while PAUSE waits is the model's choice
(assumption 9), and that the first poll is the manager's next step is assumption 10. -/
def Obligations.PauseResumeComplete : Prop :=
  (∀ (s : State) (q : List Turn), s.Admitted → s.EngineSound → s.wbPending = none → budgetSpent s.cfg 0 = false →
    s.ManagerNext q →
    ∃ t, exec .pause s = .next t ∧
      t = { s with
        dmacr := if s.resetting then s.dmacr else s.dmacr ||| 0x30000000
        waiting := some ⟨.pause, 0⟩
        response := [] } ∧
      Machine.step t = .next { t with
        txRing := { s.txRing with runState := .stopped }
        rxRing := { s.rxRing with runState := .stopped }
        waiting := none
        sched := q
        response := [0] }) ∧
  (∀ s : State, s.EngineSound →
    exec .resume s = .next { s with
      dmacr := if s.resetting then s.dmacr else s.dmacr &&& 0xCFFFFFFF
      txRing := { s.txRing with runState := .started }
      rxRing := { s.rxRing with runState := .started }
      response := [0] })

/-- R79, R208: RESET, with the engine's `EngResetDone` between its two parts, completes and leaves the values R79
collects; no head, count, `hw_tail` or descriptor word changes. That the command's own step ends waiting with no poll made, and
that its one poll is a later step of the manager, is assumption 10. -/
def Obligations.ResetCompletes : Prop :=
  ∀ (s : State) (q r : List Turn), s.Admitted → s.EngineSound → s.resetting = false → budgetSpent s.cfg 0 = false →
    s.sched = .engine .resetDone :: r → (r = .manager :: q ∨ (r = [] ∧ q = [])) →
    ∃ t u v, exec .reset s = .next t ∧ t.waiting = some ⟨.reset, 0⟩ ∧ t.dmacr = 1 ∧ t.resetting = true ∧
      Machine.step t = .next u ∧ Machine.step u = .next v ∧
      v.response = [0] ∧ v.waiting = none ∧ v.dmacr = 0x0000001C ∧ v.resetting = false ∧ v.wbPending = none ∧
      (∀ c, v.ring c = { s.ring c with restart := (s.eng c).cdesc, runState := .stopped, irqMask := 0 }) ∧
      (∀ c, v.eng c = { s.eng c with
        cdesc := (v.eng c).cdesc
        tdesc := (v.eng c).tdesc
        cr := ((s.eng c).cr &&& 0x0000FF78) ||| 0x01010000
        engState := .idle
        coalCtr := 1
        dlyArmed := false
        coalEvt := (s.eng c).coalEvt - 1
        dlyEvt := (s.eng c).dlyEvt - 1
        errLatch := false }) ∧
      v = { s with
        txRing := v.txRing, rxRing := v.rxRing, txEng := v.txEng, rxEng := v.rxEng, dmacr := v.dmacr
        wbPending := v.wbPending, response := v.response, sched := q, drawCtr := v.drawCtr, waiting := none }

/-- R206: a poll of a command that waits. Where the awaited bit is not there the command goes on waiting, or, once its
budget of polls is spent, ends with `E_TIMEOUT` and nothing else changed; no other command runs. That there is no response
while a command waits is shown as an empty response field (the model's choice, assumption 9). -/
def Obligations.WaitPolls : Prop :=
  ∀ (s : State) (q : List Turn) (w : Waiting), s.Admitted → s.waiting = some w → s.ManagerNext q →
    (match w.kind with
      | .pause => s.wbPending ≠ none
      | .reset => s.dmacr.getLsbD 0 = true) →
    (∀ b, s.cfg.spinBudget = some b → b ≤ w.polls + 1 →
      Machine.step s = .next { s with sched := q, waiting := none, response := [15] }) ∧
    ((∀ b, s.cfg.spinBudget = some b → w.polls + 1 < b) →
      Machine.step s = .next { s with sched := q, waiting := some ⟨w.kind, w.polls + 1⟩, response := [] })

/-- R210, R206: the transitions of `run_state`, complete: those of every command, of the poll that completes a PAUSE or a
RESET, and none in any other step. That the steps of PAUSE and RESET before the poll leave it, and that the poll is a step of
its own, is how assumption 10 cuts R206's wait. -/
def Obligations.RunStateTransitions : Prop :=
  (∀ (i : Instr) (s t : State) (c : Channel), exec i s = .next t →
    (t.ring c).runState =
      (match i with
        | .create ch _ _ _ _ => if ch = c ∧ t.response = [0] then .stopped else (s.ring c).runState
        | .start ch => if ch = c ∧ t.response = [0] then .started else (s.ring c).runState
        | .resume => .started
        | _ => (s.ring c).runState)) ∧
  (∀ (s t : State) (w : Waiting) (q : List Turn) (c : Channel), s.waiting = some w → s.ManagerNext q →
    Machine.step s = .next t →
    (t.ring c).runState = if t.waiting = none ∧ t.response = [0] then .stopped else (s.ring c).runState) ∧
  (∀ (s t : State) (x : Turn) (q : List Turn) (c : Channel), s.sched = x :: q → x ≠ .manager → Machine.step s = .next t →
    (t.ring c).runState = (s.ring c).runState)

/-! ## Coalescing and interrupts -/

/-- R220, R222: a SET_COALESCE in range completes: each operand lands in its field of `CR` or leaves it, no other bit of
`CR` changes, the running count is reloaded unless both operands are "no change"; out of range it answers
`E_COALESCE_RANGE`. GET_COALESCE reads the two fields back. -/
def Obligations.CoalesceCommandsComplete : Prop :=
  (∀ (s : State) (ch : Channel) (a b : Word), (s.eng ch).cr &&& 0x100 = 0 → CoalesceAccepts s.cfg a →
    CoalesceAccepts s.cfg b →
    ∃ t, exec (.setCoalesce ch a b) s = .next t ∧ t.response = [0] ∧ OnlyEngine ch s t ∧
      t.eng ch = { s.eng ch with cr := (t.eng ch).cr, coalCtr := (t.eng ch).coalCtr } ∧
      (t.eng ch).cr &&& 0xFFFF = (s.eng ch).cr &&& 0xFFFF ∧
      crCount (t.eng ch).cr = (if a = s.cfg.noChange then crCount (s.eng ch).cr else a.setWidth 8) ∧
      crTimeout (t.eng ch).cr = (if b = s.cfg.noChange then crTimeout (s.eng ch).cr else b.setWidth 8) ∧
      (t.eng ch).coalCtr =
        (if a = s.cfg.noChange ∧ b = s.cfg.noChange then (s.eng ch).coalCtr else crCount (t.eng ch).cr)) ∧
  (∀ (s : State) (ch : Channel) (a b : Word), ¬ (CoalesceAccepts s.cfg a ∧ CoalesceAccepts s.cfg b) →
    exec (.setCoalesce ch a b) s = .next { s with response := [8] }) ∧
  (∀ (s : State) (ch : Channel),
    exec (.getCoalesce ch) s = .next { s with response :=
      [0, (crCount (s.eng ch).cr).setWidth 32, (crTimeout (s.eng ch).cr).setWidth 32] })

/-- R223: what SET_COALESCE accepted GET_COALESCE returns, as long as `CR` is not written in between; after a SET_COALESCE
that failed it returns what it returned before. -/
def Obligations.CoalesceRoundTrip : Prop :=
  (∀ (s : State) (ch : Channel) (a b : Word), s.cfg.wf = true → 1 ≤ a.toNat → a.toNat ≤ 255 → 1 ≤ b.toNat →
    b.toNat ≤ 255 →
    ∃ t, exec (.setCoalesce ch a b) s = .next t ∧ t.response = [0] ∧
      ∀ u, (u.eng ch).cr = (t.eng ch).cr →
        exec (.getCoalesce ch) u = .next { u with response := [0, a, b] }) ∧
  (∀ (s t : State) (ch : Channel) (a b : Word), exec (.setCoalesce ch a b) s = .next t → t.response ≠ [0] →
    ∃ u v, exec (.getCoalesce ch) s = .next u ∧ exec (.getCoalesce ch) t = .next v ∧ v.response = u.response) ∧
  (∀ (s : State) (ch : Channel), s.cfg.wf = true →
    ∃ t, exec (.setCoalesce ch 0 s.cfg.noChange) s = .next t ∧ t.response = [8] ∧ t.eng ch = s.eng ch)

/-- R224, R225, R227: IRQ_ENABLE, IRQ_DISABLE and IRQ_ACK complete. The first two change the enable bits named by `mask`
in `CR` and in the shadow and no other bit; the third removes one event for each counter named and clears the error latch if
it is named. -/
def Obligations.InterruptCommandsComplete : Prop :=
  (∀ (s : State) (ch : Channel) (mask : Word), (s.eng ch).cr &&& 0x100 = 0 →
    ∃ t, exec (.irqEnable ch mask) s = .next t ∧ t.response = [0] ∧ OnlyRegisters ch s t ∧
      t.eng ch = { s.eng ch with cr := (s.eng ch).cr ||| (mask &&& 0x87) } ∧
      t.ring ch = { s.ring ch with irqMask := (s.ring ch).irqMask ||| (mask &&& 0x87) }) ∧
  (∀ (s : State) (ch : Channel) (mask : Word), (s.eng ch).cr &&& 0x100 = 0 →
    ∃ t, exec (.irqDisable ch mask) s = .next t ∧ t.response = [0] ∧ OnlyRegisters ch s t ∧
      t.eng ch = { s.eng ch with cr := (s.eng ch).cr &&& ~~~(mask &&& 0x87) } ∧
      t.ring ch = { s.ring ch with irqMask := (s.ring ch).irqMask &&& ~~~(mask &&& 0x87) }) ∧
  (∀ (s : State) (ch : Channel) (mask : Word),
    ∃ t, exec (.irqAck ch mask) s = .next t ∧ t.response = [0] ∧ OnlyEngine ch s t ∧
      t.eng ch = { s.eng ch with
        coalEvt := (s.eng ch).coalEvt - (if mask.getLsbD 0 then 1 else 0)
        dlyEvt := (s.eng ch).dlyEvt - (if mask.getLsbD 1 then 1 else 0)
        errLatch := (s.eng ch).errLatch && !mask.getLsbD 2 })

/-- R64, R226: IRQ_GET completes and returns the status word, every bit of it as R64 gives it. -/
def Obligations.IrqGetCompletes : Prop :=
  ∀ (s : State) (ch : Channel),
    ∃ v : Word, exec (.irqGet ch) s = .next { s with response := [0, v] } ∧
      (v.getLsbD 0 = true ↔ (s.eng ch).coalEvt ≠ 0) ∧ (v.getLsbD 1 = true ↔ (s.eng ch).dlyEvt ≠ 0) ∧
      v.getLsbD 2 = (s.eng ch).errLatch ∧ v.extractLsb' 3 5 = 0 ∧
      (v.extractLsb' 8 2).toNat = (s.eng ch).dlyEvt % 4 ∧ (v.extractLsb' 10 4).toNat = (s.eng ch).coalEvt % 16 ∧
      (v.getLsbD 14 = true ↔ (ch = .tx ∨ s.wbPending = none)) ∧ v.extractLsb' 15 17 = 0

/-- R305, R306: the interrupt line is the master enable and some source that is pending and enabled; it depends on nothing
else. -/
def Obligations.InterruptLine : Prop :=
  ∀ (s : State) (c : Channel),
    (s.irqLine c = true ↔
      (s.eng c).cr.getLsbD 7 = true ∧
        (((s.eng c).coalEvt ≠ 0 ∧ (s.eng c).cr.getLsbD 0 = true) ∨ ((s.eng c).dlyEvt ≠ 0 ∧ (s.eng c).cr.getLsbD 1 = true) ∨
          ((s.eng c).errLatch = true ∧ (s.eng c).cr.getLsbD 2 = true))) ∧
    s.irqLine c = ((s.eng c).cr.getLsbD 7 &&
      (((s.irqValue c).getLsbD 0 && (s.eng c).cr.getLsbD 0) || ((s.irqValue c).getLsbD 1 && (s.eng c).cr.getLsbD 1) ||
        ((s.irqValue c).getLsbD 2 && (s.eng c).cr.getLsbD 2)))

/-! ## Access commands -/

/-- R247: NOP answers `OK` and changes nothing else; it is the word 0. -/
def Obligations.NopCompletes : Prop :=
  (∀ s : State, exec .nop s = .next { s with response := [0] }) ∧
  encode .nop = [0x00000000] ∧ ∀ rest : List Word, decode (0x00000000 :: rest) = .instr .nop rest

/-- R240: a BD_RD of a descriptor outside the Hardware group completes with the word the host sees, and the host sees every
word as before. -/
def Obligations.BdReadCompletes : Prop :=
  ∀ (s : State) (ch : Channel) (bd w : Word), (s.ring ch).isBd bd = true → w.toNat ≤ 8 → (s.ring ch).group bd ≠ .hw →
    ∃ t, exec (.bdRd ch bd w) s = .next t ∧ t.response = [0, s.hostWord ch bd w.toNat] ∧ OnlyCopies ch s t ∧
      ∀ d k, t.hostWord ch d k = s.hostWord ch d k

/-- R241: a BD_WR of a word of a Pre-process descriptor other than `next` completes: the host sees the new word there and
every other word of every descriptor as before; the bytes outside that word are kept, and with `CACHED` true, but for word
8, all of memory is. -/
def Obligations.BdWriteCompletes : Prop :=
  ∀ (s : State) (ch : Channel) (bd w value : Word), (s.ring ch).Sound → (s.ring ch).isBd bd = true → w.toNat ≤ 8 →
    (s.ring ch).group bd = .pre → w ≠ 0 →
    ∃ t, exec (.bdWr ch bd w value) s = .next t ∧ t.response = [0] ∧ t.hostWord ch bd w.toNat = value ∧
      (∀ d k, (s.ring ch).isBd d = true → k ≤ 8 → (d ≠ bd ∨ k ≠ w.toNat) → t.hostWord ch d k = s.hostWord ch d k) ∧
      BytesKeptOutside (s.wordAddr ch bd w.toNat) 4 s t ∧
      (s.cfg.cached = true → w.toNat < 8 → t.mem = s.mem) ∧
      t.ring ch = s.ring ch ∧ t.eng ch = s.eng ch ∧ OnlyChannelMemory ch s t

/-- R242, R243: BD_NEXT and BD_PREV complete on every descriptor of the ring, wrap at its ends, and are each other's
inverse. -/
def Obligations.BdNextPrevComplete : Prop :=
  ∀ (s : State) (ch : Channel) (bd : Word), (s.ring ch).LaidOut → (s.ring ch).isBd bd = true →
    ∃ nx pv,
      nx = (if bd = (s.ring ch).lastVirt then (s.ring ch).firstVirt else bd + (s.ring ch).separation) ∧
      pv = (if bd = (s.ring ch).firstVirt then (s.ring ch).lastVirt else bd - (s.ring ch).separation) ∧
      exec (.bdNext ch bd) s = .next { s with response := [0, nx] } ∧
      exec (.bdPrev ch bd) s = .next { s with response := [0, pv] } ∧
      (s.ring ch).isBd nx = true ∧ (s.ring ch).isBd pv = true ∧
      exec (.bdPrev ch nx) s = .next { s with response := [0, bd] } ∧
      exec (.bdNext ch pv) s = .next { s with response := [0, bd] }

/-- R240 to R246, R304: the checks of the access commands in their order; nothing but the response changes. -/
def Obligations.AccessFailures : Prop :=
  (∀ (s : State) (ch : Channel) (bd w value : Word), ((s.ring ch).isBd bd = false ∨ 8 < w.toNat) →
    exec (.bdRd ch bd w) s = .next { s with response := [17, 0] } ∧
    exec (.bdWr ch bd w value) s = .next { s with response := [17] }) ∧
  (∀ (s : State) (ch : Channel) (bd w : Word), (s.ring ch).isBd bd = true → w.toNat ≤ 8 →
    (s.ring ch).group bd = .hw → exec (.bdRd ch bd w) s = .next { s with response := [18, 0] }) ∧
  (∀ (s : State) (ch : Channel) (bd w value : Word), (s.ring ch).isBd bd = true → w.toNat ≤ 8 →
    ((s.ring ch).group bd ≠ .pre ∨ w = 0) → exec (.bdWr ch bd w value) s = .next { s with response := [18] }) ∧
  (∀ (s : State) (ch : Channel) (bd : Word), (s.ring ch).isBd bd = false →
    exec (.bdNext ch bd) s = .next { s with response := [17, 0] } ∧
    exec (.bdPrev ch bd) s = .next { s with response := [17, 0] }) ∧
  (∀ (s : State) (ch : Channel) (sel : Word), 19 < sel.toNat →
    exec (.ringStat ch sel) s = .next { s with response := [17, 0] }) ∧
  (∀ (s : State) (off value : Word), (off.toNat % 4 ≠ 0 ∨ 0x40 < off.toNat) →
    exec (.regRd off) s = .next { s with response := [17, 0] } ∧
    exec (.regWr off value) s = .next { s with response := [17] })

/-- R244: RING_STAT completes for every selector 0 to 19 and returns the field it names. -/
def Obligations.RingStatReadsEveryField : Prop :=
  ∀ (s : State) (ch : Channel) (sel : Word), sel.toNat ≤ 19 →
    ∃ v, exec (.ringStat ch sel) s = .next { s with response := [0, v] } ∧
      (sel = 0 → v = (s.ring ch).count) ∧ (sel = 1 → v = (s.ring ch).separation) ∧
      (sel = 2 → v.toNat = (s.ring ch).length.toNat % 2 ^ 32) ∧ (sel = 3 → v = (s.ring ch).firstPhys) ∧
      (sel = 4 → v = (s.ring ch).firstVirt) ∧ (sel = 5 → v = (s.ring ch).lastPhys) ∧
      (sel = 6 → v = (s.ring ch).lastVirt) ∧ (sel = 7 → v = (s.ring ch).freeHead) ∧
      (sel = 8 → v = (s.ring ch).preHead) ∧ (sel = 9 → v = (s.ring ch).hwHead) ∧
      (sel = 10 → v = (s.ring ch).postHead) ∧ (sel = 11 → v = (s.ring ch).freeCount) ∧
      (sel = 12 → v = (s.ring ch).preCount) ∧ (sel = 13 → v = (s.ring ch).hwCount) ∧
      (sel = 14 → v = (s.ring ch).postCount) ∧ (sel = 15 → v = (s.ring ch).hwTail) ∧
      (sel = 16 → v = (s.ring ch).restart) ∧
      (sel = 17 → v = if (s.ring ch).runState = .started then 1 else 0) ∧
      (sel = 18 → v = (s.ring ch).irqMask) ∧ (sel = 19 → v = if (s.ring ch).isRx then 1 else 0)

/-- R59 to R65, R69, R245: REG_RD completes at every register's offset; a register that holds state reads it and changes
nothing, the status register shows `BUSY` in bit 1, and the registers that hold no state read some word. -/
def Obligations.RegReadEveryRegister : Prop :=
  (∀ (s : State) (c : Channel) (base : Word), base = (match c with | .tx => 0x00 | .rx => 0x20) →
    exec (.regRd (base + 0x0C)) s = .next { s with response := [0, (s.eng c).cdesc] } ∧
    exec (.regRd (base + 0x10)) s = .next { s with response := [0, (s.eng c).tdesc] } ∧
    exec (.regRd (base + 0x14)) s = .next { s with response := [0, (s.eng c).cr] } ∧
    exec (.regRd (base + 0x18)) s = .next { s with response := [0, s.irqValue c] } ∧
    (∃ v : Word, (v.getLsbD 1 = true ↔ (s.eng c).engState = .run) ∧
      exec (.regRd (base + 0x1C)) s = .next { s with response := [0, v], drawCtr := s.drawCtr + 1 }) ∧
    (∀ off ∈ [base, base + 0x04, base + 0x08], ∃ v : Word,
      exec (.regRd off) s = .next { s with response := [0, v], drawCtr := s.drawCtr + 1 })) ∧
  (∀ s : State, exec (.regRd 0x40) s = .next { s with response := [0, s.dmacr] })

/-- R60, R64 to R66, R246, R271: REG_WR completes at every register's offset but the two pointers and `DMACR`: a write of
`CR` stores every bit but the strobe, which loads the running count; a write of `IRQ` acknowledges; a write of a read-only
register is accepted and ignored. -/
def Obligations.RegWriteControlRegisters : Prop :=
  ∀ (s : State) (c : Channel) (base v : Word), base = (match c with | .tx => 0x00 | .rx => 0x20) →
    (∃ t, exec (.regWr (base + 0x14) v) s = .next t ∧ t.response = [0] ∧ OnlyEngine c s t ∧
      t.eng c = { s.eng c with
        cr := v &&& 0xFFFFFEFF
        coalCtr := if v.getLsbD 8 then crCount v else (s.eng c).coalCtr }) ∧
    (∃ t, exec (.regWr (base + 0x18) v) s = .next t ∧ t.response = [0] ∧ OnlyEngine c s t ∧
      t.eng c = { s.eng c with
        coalEvt := (s.eng c).coalEvt - (if v.getLsbD 0 then 1 else 0)
        dlyEvt := (s.eng c).dlyEvt - (if v.getLsbD 1 then 1 else 0)
        errLatch := (s.eng c).errLatch && !v.getLsbD 2 }) ∧
    (∀ off ∈ [base, base + 0x04, base + 0x08, base + 0x1C],
      exec (.regWr off v) s = .next { s with response := [0] })

/-- R262, R263: the writes of the two pointer registers, through REG_WR: the kick, which starts an idle channel in
tail-pointer mode outside a reset and otherwise only stores the tail; and the position, ignored while the channel runs. -/
def Obligations.RegWritePointers : Prop :=
  ∀ (s : State) (c : Channel) (base v : Word), base = (match c with | .tx => 0x00 | .rx => 0x20) →
    (∃ t, exec (.regWr (base + 0x10) v) s = .next t ∧ t.response = [0] ∧ OnlyEngine c s t ∧
      (t.eng c) = { s.eng c with tdesc := v, engState := (t.eng c).engState } ∧
      ((t.eng c).engState ≠ (s.eng c).engState ↔
        s.dmacr.getLsbD 2 = true ∧ s.resetting = false ∧ (s.eng c).engState = .idle) ∧
      ((t.eng c).engState ≠ (s.eng c).engState → (t.eng c).engState = .run)) ∧
    (∃ t, exec (.regWr (base + 0x0C) v) s = .next t ∧ t.response = [0] ∧ OnlyEngine c s t ∧
      t.eng c = { s.eng c with cdesc := if (s.eng c).engState = .run then (s.eng c).cdesc else v })

/-- R276, R277: a write of `DMACR` through REG_WR stores the word, or, with bit 0 set, starts the engine's software reset;
during a reset it is ignored. `EngResetDone` ends the reset; scheduled while none is in progress it is no step of the engine
and leaves the state as it is (assumption 5). -/
def Obligations.SoftwareReset : Prop :=
  (∀ (s : State) (v : Word), s.resetting = true → exec (.regWr 0x40 v) s = .next { s with response := [0] }) ∧
  (∀ (s : State) (v : Word), s.resetting = false → v.getLsbD 0 = false →
    exec (.regWr 0x40 v) s = .next { s with dmacr := v, response := [0] }) ∧
  (∀ (s : State) (v : Word), s.resetting = false → v.getLsbD 0 = true →
    ∃ t, exec (.regWr 0x40 v) s = .next t ∧
      (∀ c, t.eng c = { s.eng c with
        engState := .idle, dlyArmed := false, cdesc := (t.eng c).cdesc, tdesc := (t.eng c).tdesc }) ∧
      t = { s with
        dmacr := 1, resetting := true, wbPending := none, txEng := t.txEng, rxEng := t.rxEng, drawCtr := t.drawCtr
        response := [0] }) ∧
  (∀ (s : State) (q : List Turn), s.EngineReady .resetDone q →
    Machine.step s = .next (if s.resetting then { s with sched := q, resetting := false, dmacr := 0 }
      else { s with sched := q }))

/-! ## The engine -/

/-- R264, R265, R266: a send completion, whose draw is whether the transfer had an error: the status word gains `CMP` (and
`ERR`), no other byte of memory changes, the unit is counted, `CDESC` follows `next`, and the channel halts on an error (or
stays halted by the count), idles at the tail, or goes on. That a descriptor of length 0 or with `SOE` set completes so too is
the model's choice (assumption 13; U3, U4). -/
def Obligations.SendCompletion : Prop :=
  ∀ (s : State) (q : List Turn) (x : EngDraws) (sts : Word), s.EngineReady (.step .tx x) q → s.txEng.engState = .run →
    s.resetting = false → s.dmacr.getLsbD 29 = false → s.txRing.isPhysBd s.txEng.cdesc = true →
    s.engRead s.txEng.cdesc 3 &&& 0x10000000 = 0 →
    sts = s.engRead s.txEng.cdesc 3 ||| 0x10000000 ||| (if x.err then 0x80000000 else 0) →
    ∃ t e, Machine.step s = .next t ∧ e = (s.countUnit .tx sts).txEng ∧
      t.engRead s.txEng.cdesc 3 = sts ∧ BytesKeptOutside (s.txEng.cdesc + 12) 4 s t ∧
      t.txEng = { e with
        cdesc := s.engRead s.txEng.cdesc 0
        errLatch := e.errLatch || x.err
        engState := if x.err = true ∨ e.engState = .halt then .halt
          else if s.txEng.cdesc = s.txEng.tdesc then .idle else .run } ∧
      t.sched = q ∧ t.wbPending = s.wbPending ∧ OnlyEngineStep .tx s t

/-- R272, R274: how a completion counts toward the coalescing threshold: not at all if it is no unit; at the threshold an
event is latched (or lost, or turned into an error, when the event counter is at its maximum) and the count reloaded; below
it the count goes down and the delay is armed. -/
def Obligations.CoalesceUnitCounting : Prop :=
  ∀ (s : State) (c : Channel) (sts : Word) (unit : Bool),
    (unit = true ↔ (match s.cfg.coalesceUnit with
      | .eop => sts &&& 0x04000000 ≠ 0
      | .ioe => sts &&& 0x40000000 ≠ 0
      | .any => True)) →
    (s.countUnit c sts).eng c =
      (if unit = false then s.eng c
       else if 1 < (s.eng c).coalCtr.toNat then { s.eng c with coalCtr := (s.eng c).coalCtr - 1, dlyArmed := true }
       else if (s.eng c).coalEvt < 2 ^ s.cfg.coalEvtBits - 1 then
         { s.eng c with coalEvt := (s.eng c).coalEvt + 1, coalCtr := crCount (s.eng c).cr, dlyArmed := false }
       else if (match c with | .tx => s.dmacr.getLsbD 3 | .rx => s.dmacr.getLsbD 4) then
         { s.eng c with coalCtr := crCount (s.eng c).cr, dlyArmed := false }
       else { s.eng c with
         errLatch := true, engState := .halt, coalCtr := crCount (s.eng c).cr, dlyArmed := false }) ∧
    s.countUnit c sts = s.setEng c ((s.countUnit c sts).eng c)

/-- R264, R267: phase 1 of a receive completion, with its draws: words 2 and 3 and the accessory words but the watchdog
word are written, the other words and all other bytes kept, and the write-back is pending. That a descriptor of length 0 or with
`SOE` set is received into so too is the model's choice (assumption 13; U3, U4). -/
def Obligations.ReceiveBegin : Prop :=
  ∀ (s : State) (q : List Turn) (x : EngDraws), s.EngineReady (.step .rx x) q → s.rxEng.engState = .run →
    s.resetting = false → s.wbPending = none → s.dmacr.getLsbD 28 = false →
    s.rxRing.isPhysBd s.rxEng.cdesc = true → s.engRead s.rxEng.cdesc 3 &&& 0x10000000 = 0 →
    x.len ≤ s.engRead s.rxEng.cdesc 2 →
    ∃ t, Machine.step s = .next t ∧
      (∀ w < 9, t.engRead s.rxEng.cdesc w =
        (if w = 2 then x.len
         else if w = 3 then
           (s.engRead s.rxEng.cdesc 3 &&& 0x63000000) ||| 0x10000000 ||| (if x.sop then 0x08000000 else 0)
             ||| (if x.eop then 0x04000000 else 0) ||| x.usr0.setWidth 32 ||| (if x.err then 0x80000000 else 0)
         else if 4 ≤ w ∧ w < 8 ∧ w ≠ s.cfg.wdogWord then [x.acc4, x.acc5, x.acc6, x.acc7].getD (w - 4) 0
         else s.engRead s.rxEng.cdesc w)) ∧
      BytesKeptOutside s.rxEng.cdesc 32 s t ∧ t.wbPending = some s.rxEng.cdesc ∧
      t.rxEng = (if x.err then { s.rxEng with errLatch := true, engState := .halt } else s.rxEng) ∧
      t.sched = q ∧ OnlyEngineStep .rx s t

/-- R266, R268: phase 2 of a receive completion, with its draw `v`: the watchdog word and no other byte is written, the
write queue is empty again, the unit is counted on the status written in phase 1, and `CDESC` follows `next`. -/
def Obligations.ReceiveFinish : Prop :=
  ∀ (s : State) (q : List Turn) (d v : Word), s.EngineReady (.rxFinish v) q → s.wbPending = some d →
    s.resetting = false → v ≠ s.cfg.wdogSentinel →
    ∃ t, Machine.step s = .next t ∧
      t.engRead d s.cfg.wdogWord = v ∧ BytesKeptOutside (d + BitVec.ofNat 32 (4 * s.cfg.wdogWord)) 4 s t ∧
      t.wbPending = none ∧
      t.rxEng = { (s.countUnit .rx (s.engRead d 3)).rxEng with
        cdesc := s.engRead d 0
        engState := if (s.countUnit .rx (s.engRead d 3)).rxEng.engState = .run ∧ d = s.rxEng.tdesc then .idle
          else (s.countUnit .rx (s.engRead d 3)).rxEng.engState } ∧
      t.sched = q ∧ OnlyEngineStep .rx s t

/-- R269, R270, R273, R274, R275: the engine's other events. A fetched descriptor that is completed idles the channel and
changes nothing else; a paused channel starts no descriptor (the step the schedule names then leaves the state as it is,
assumption 5); an engine error latches and halts; a delay event is counted (or lost, or turned into an error, at the
counter's maximum) and disarms the delay. -/
def Obligations.OtherEngineEvents : Prop :=
  (∀ (s : State) (q : List Turn) (c : Channel) (x : EngDraws), s.EngineReady (.step c x) q → (s.eng c).engState = .run →
    s.resetting = false → (c = .tx ∨ s.wbPending = none) →
    (match c with | .tx => s.dmacr.getLsbD 29 | .rx => s.dmacr.getLsbD 28) = false →
    (s.ring c).isPhysBd (s.eng c).cdesc = true → s.engRead (s.eng c).cdesc 3 &&& 0x10000000 ≠ 0 →
    Machine.step s = .next { s.setEng c { s.eng c with engState := .idle } with sched := q }) ∧
  (∀ (s : State) (q : List Turn) (c : Channel) (x : EngDraws), s.EngineReady (.step c x) q →
    (match c with | .tx => s.dmacr.getLsbD 29 | .rx => s.dmacr.getLsbD 28) = true →
    Machine.step s = .next { s with sched := q }) ∧
  (∀ (s : State) (q : List Turn) (c : Channel), s.EngineReady (.error c) q → (s.eng c).engState = .run →
    s.resetting = false → (c = .tx ∨ s.wbPending = none) →
    Machine.step s = .next { s.setEng c { s.eng c with errLatch := true, engState := .halt } with sched := q }) ∧
  (∀ (s : State) (q : List Turn) (c : Channel), s.EngineReady (.delay c) q → (s.eng c).dlyArmed = true →
    s.resetting = false →
    Machine.step s = .next { s.setEng c
      (if (s.eng c).dlyEvt < 2 ^ s.cfg.dlyEvtBits - 1 then
        { s.eng c with dlyEvt := (s.eng c).dlyEvt + 1, dlyArmed := false }
       else if (match c with | .tx => s.dmacr.getLsbD 3 | .rx => s.dmacr.getLsbD 4) then
        { s.eng c with dlyArmed := false }
       else { s.eng c with errLatch := true, engState := .halt, dlyArmed := false }) with sched := q })

/-- R278: no step of the engine writes word 0 or word 8 of the descriptor it is on, or any byte of another descriptor, or
a ring's bookkeeping, or `CR`, or anything of the host's. -/
def Obligations.EngineNeverWrites : Prop :=
  ∀ (s t : State) (e : EngineEvent) (q : List Turn), s.sched = .engine e :: q → Machine.step s = .next t →
    (∀ c, t.ring c = s.ring c ∧ (t.eng c).cr = (s.eng c).cr ∧ t.cacheOf c = s.cacheOf c) ∧
    t.cfg = s.cfg ∧ t.stream = s.stream ∧ t.response = s.response ∧ t.waiting = s.waiting ∧
    ∀ b, (∀ d, (match e with
        | .step c _ => d = (s.eng c).cdesc
        | .rxFinish _ => s.wbPending = some d
        | _ => False) → ∀ i, 8 ≤ i → i < 32 → b ≠ byteAddr d i) →
      t.mem.readByte b = s.mem.readByte b

/-- R270, R276: in no step does a halted channel leave `HALT`, but in one that starts a software reset. -/
def Obligations.HaltLeftOnlyByReset : Prop :=
  ∀ (s t : State) (c : Channel), Machine.step s = .next t → (s.eng c).engState = .halt →
    (t.eng c).engState = .halt ∨ (s.resetting = false ∧ t.resetting = true ∧ (t.eng c).engState = .idle)

/-! ## The whole machine -/

/-- R320: a command on one channel neither reads nor writes the other channel's ring, engine registers or cached copies. -/
def Obligations.ChannelIndependence : Prop :=
  ∀ (i : Instr) (s : State) (c : Channel) (r : Ring) (e : EngineChannel) (l : List CacheLine),
    i.raw.opcode.scope = .channel → c ≠ i.raw.ch →
    ∃ t, exec i s = .next t ∧
      exec i (((s.setRing c r).setEng c e).setCache c l) = .next (((t.setRing c r).setEng c e).setCache c l)

/-- R300, R303: every command answers with a next state; one that answers with a failure, but for a TO_HW that packet
validation turns away, has changed nothing else. -/
def Obligations.FailureAtomicity : Prop :=
  ∀ (i : Instr) (s : State), ∃ t, exec i s = .next t ∧
    (t.response.head? ≠ some 0 → t.response ≠ [] → t.response.head? ≠ some 11 → t.response.head? ≠ some 12 →
      t.response.head? ≠ some 13 → i ≠ .pause → i ≠ .reset → t = { s with response := t.response })

/-- R124, R301: the response of every command that does not wait: a status code 0 to 19 that the command may return,
and the command's fixed number of result words, all 0 on a failure. That a PAUSE or RESET which does not wait can answer 15
alone (a SPIN_BUDGET of 0 makes no poll) is assumption 10. -/
def Obligations.ResponseShape : Prop :=
  ∀ (i : Instr) (s t : State), exec i s = .next t → t.waiting = none →
    ∃ code results, t.response = code :: results ∧ (code ≠ 0 → results = List.replicate results.length 0) ∧
      results.length =
        (match i with
          | .fromHw .. | .getCoalesce .. => 2
          | .alloc .. | .irqGet .. | .bdRd .. | .bdNext .. | .bdPrev .. | .ringStat .. | .regRd .. => 1
          | _ => 0) ∧
      code ∈ (match i with
        | .create .. => [0, 1, 2, 3, 4, 5, 19]
        | .clone .. => [0, 6, 7]
        | .alloc .. => [0, 9]
        | .unalloc .. | .free .. => [0, 10]
        | .toHw .. => [0, 10, 11, 12, 13]
        | .start .. => [0, 14]
        | .pause | .reset => [15]
        | .setCoalesce .. => [0, 8]
        | .bdRd .. | .bdWr .. => [0, 17, 18]
        | .bdNext .. | .bdPrev .. | .ringStat .. | .regRd .. | .regWr .. => [0, 17]
        | _ => ([0] : List Word))

/-- R45 to R48: the bookkeeping of both rings is sound at power-on, and every step of the machine keeps it. -/
def Obligations.BookkeepingInvariant : Prop :=
  State.reset.RingsSound ∧ ∀ s t : State, s.RingsSound → Machine.step s = .next t → t.RingsSound

/-- R63, R72, R74, R276: every step keeps what the engine's registers and hidden state always satisfy. -/
def Obligations.EngineInvariant : Prop :=
  ∀ s t : State, s.EngineSound → Machine.step s = .next t → t.EngineSound

/-- R76, R93: every step keeps descriptor memory in its canonical form, and the cached copies a map from descriptors of
their ring. -/
def Obligations.MemoryAndCacheInvariant : Prop :=
  (∀ s t : State, s.mem.wf = true → Machine.step s = .next t → t.mem.wf = true) ∧
  (∀ s t : State, s.RingsSound → s.CacheSound → Machine.step s = .next t → t.CacheSound)

/-- R78: the power-on values the spec gives, and that the power-on state satisfies every invariant (that its memory lists
nothing and its caches are empty is the model's choice, assumptions 6 and 7). -/
def Obligations.PowerOnState : Prop :=
  State.reset.Sound ∧
  (∀ c, (∀ sel : Word, sel.toNat ≤ 18 → (State.reset.ring c).field sel = some 0) ∧
    (State.reset.ring c).isRx = (c == .rx) ∧
    exec (.irqGet c) State.reset = .next { State.reset with response := [0, 0x00004000] } ∧
    State.reset.eng c =
      { cdesc := 0, tdesc := 0, cr := 0, engState := .idle, coalCtr := 0, dlyArmed := false, coalEvt := 0, dlyEvt := 0
        errLatch := false } ∧
    State.reset.irqLine c = false) ∧
  State.reset.dmacr = 0 ∧ State.reset.resetting = false ∧ State.reset.wbPending = none

/-! ## Cyclic arithmetic, groups, memory -/

/-- R100, R101, R104: the closed forms of `adv` and `ret`, which stay on descriptors and undo each other. -/
def Obligations.CyclicArithmetic : Prop :=
  ∀ (r : Ring) (a : Word) (n : Nat), r.LaidOut → r.isBd a = true → n ≤ r.count.toNat →
    a = r.bdAddr (r.idx a) ∧ r.idx a < r.count.toNat ∧
    r.adv a n = r.bdAddr ((r.idx a + n) % r.count.toNat) ∧
    r.ret a n = r.bdAddr ((r.idx a + r.count.toNat - n) % r.count.toNat) ∧
    r.adv a 0 = a ∧ r.adv a r.count.toNat = a ∧ r.isBd (r.adv a n) = true ∧ r.isBd (r.ret a n) = true ∧
    r.ret (r.adv a n) n = a ∧ r.adv (r.ret a n) n = a

/-- R107: the forms in 32-bit arithmetic agree with the definitions on unbounded integers. -/
def Obligations.FixedWidthForms : Prop :=
  ∀ (r : Ring) (a : Word) (n : Nat), r.LaidOut → r.isBd a = true → n ≤ r.count.toNat →
    r.advFixed a n = r.adv a n ∧ r.retFixed a n = r.ret a n

/-- R46, R248: in a sound ring exactly one of the four conditions of `group` holds for each descriptor. -/
def Obligations.GroupsPartition : Prop :=
  ∀ (r : Ring) (a : Word), r.LaidOut → r.Partitioned → r.isBd a = true →
    (r.group a = .post ↔ r.distance r.postHead a < r.postCount.toNat) ∧
    (r.group a = .hw ↔ r.distance r.hwHead a < r.hwCount.toNat) ∧
    (r.group a = .pre ↔ r.distance r.preHead a < r.preCount.toNat) ∧
    (r.group a = .free ↔ r.distance r.freeHead a < r.freeCount.toNat)

/-- R83, R85, R88: a word of descriptor memory reads back as it was written, under either byte order, and a write leaves
every word that shares no byte with it. -/
def Obligations.WordMemory : Prop :=
  ∀ (o : ByteOrder) (m : Memory) (a v : Word),
    (m.writeWord o a v).readWord o a = v ∧
    (∀ b : Word, 4 ≤ (b - a).toNat → 4 ≤ (a - b).toNat → (m.writeWord o a v).readWord o b = m.readWord o b) ∧
    (∀ k, (∀ i < 4, k ≠ byteAddr a i) → (m.writeWord o a v).readByte k = m.readByte k)

/-- R88, R93 to R96: the host's write is what the host reads next; after `Flush` the engine reads what the host last
wrote, and the host's view is as before; after `Invalidate` the host reads descriptor memory, which is as before. The cache
agent writes a dirty copy back without changing the host's view, and drops a clean one. -/
def Obligations.CacheHooks : Prop :=
  ∀ (s : State) (c : Channel) (bd : Word),
    (∀ w v, w ≤ 8 → (s.bdWrite c bd w v).hostWord c bd w = v) ∧
    (∀ w, (s.bdRead c bd w).1 = s.hostWord c bd w ∧ ∀ d k, (s.bdRead c bd w).2.hostWord c d k = s.hostWord c d k) ∧
    (∀ w < 8, s.cfg.cached = false ∨ (∀ l, cacheFind (s.cacheOf c) bd = some l → l.dirty = true) →
      (s.flush c bd).engRead ((s.ring c).phys bd) w = s.hostWord c bd w ∧
        (s.flush c bd).hostWord c bd w = s.hostWord c bd w) ∧
    (∀ w, (s.invalidate c bd).hostWord c bd w = s.memWord c bd w) ∧ (s.invalidate c bd).mem = s.mem ∧
    (s.cfg.cached = false → s.flush c bd = s ∧ s.invalidate c bd = s) ∧
    (∀ l, s.cfg.cached = true → cacheFind (s.cacheOf c) bd = some l →
      (l.dirty = true → s.cacheTurn (.evict c bd) = s ∧
        ∀ w < 8, (s.cacheTurn (.writeBack c bd)).memWord c bd w = l.word w ∧
          (s.cacheTurn (.writeBack c bd)).hostWord c bd w = l.word w) ∧
      (l.dirty = false → s.cacheTurn (.writeBack c bd) = s ∧ (s.cacheTurn (.evict c bd)).mem = s.mem ∧
        ∀ w, (s.cacheTurn (.evict c bd)).hostWord c bd w = s.memWord c bd w))
end

