-- ==== Sys2Proof/Laws/Cache.lean ====
section
/-! SUPPORT. The cache as a map from descriptor addresses: lookup after insertion and erasure, and that both keep the
addresses rising. -/

namespace Sys2Proof.Machine

@[simp] theorem cacheFind_nil (d : Word) : cacheFind [] d = none := rfl

theorem cacheFind_cons (l : CacheLine) (c : List CacheLine) (d : Word) :
    cacheFind (l :: c) d = if l.addr = d then some l else cacheFind c d := rfl

@[simp] theorem cacheFind_insert_same (c : List CacheLine) (l : CacheLine) :
    cacheFind (cacheInsert c l) l.addr = some l := by
  induction c with
  | nil => simp [cacheInsert, cacheFind_cons]
  | cons x c ih =>
    simp only [cacheInsert]
    split_ifs with h1 h2
    · simp [cacheFind_cons]
    · simp [cacheFind_cons]
    · simp [cacheFind_cons, Ne.symm h2, ih]

theorem cacheFind_insert_other (c : List CacheLine) (l : CacheLine) (d : Word) (h : d ≠ l.addr) :
    cacheFind (cacheInsert c l) d = cacheFind c d := by
  induction c with
  | nil => simp [cacheInsert, cacheFind_cons, Ne.symm h]
  | cons x c ih =>
    simp only [cacheInsert]
    split_ifs with h1 h2
    · simp [cacheFind_cons, Ne.symm h]
    · simp [cacheFind_cons, Ne.symm h, ← h2]
    · simp [cacheFind_cons, ih]

@[simp] theorem cacheFind_erase_same (c : List CacheLine) (d : Word) : cacheFind (cacheErase c d) d = none := by
  induction c with
  | nil => rfl
  | cons x c ih =>
    by_cases h : x.addr = d
    · simpa [cacheErase, h] using ih
    · simpa [cacheErase, h, cacheFind_cons] using ih

theorem cacheFind_erase_other (c : List CacheLine) (d d' : Word) (h : d' ≠ d) :
    cacheFind (cacheErase c d) d' = cacheFind c d' := by
  induction c with
  | nil => rfl
  | cons x c ih =>
    by_cases hx : x.addr = d
    · have hd : x.addr ≠ d' := fun e => h (e.symm.trans hx)
      simpa [cacheErase, hx, cacheFind_cons, hd, Ne.symm h] using ih
    · by_cases hd : x.addr = d'
      · simp [cacheErase, h, cacheFind_cons, hd]
      · simpa [cacheErase, hx, cacheFind_cons, hd] using ih

theorem cacheFind_addr (c : List CacheLine) (d : Word) (l : CacheLine) (h : cacheFind c d = some l) :
    l.addr = d ∧ l ∈ c := by
  induction c with
  | nil => simp at h
  | cons x c ih =>
    rw [cacheFind_cons] at h
    split_ifs at h with hx
    · cases h; exact ⟨hx, List.mem_cons_self⟩
    · exact ⟨(ih h).1, List.mem_cons_of_mem _ (ih h).2⟩

theorem mem_cacheInsert (c : List CacheLine) (l x : CacheLine) (h : x ∈ cacheInsert c l) : x = l ∨ x ∈ c := by
  induction c with
  | nil => simpa [cacheInsert] using h
  | cons y c ih =>
    simp only [cacheInsert] at h
    split_ifs at h
    · simpa using h
    · rcases List.mem_cons.1 h with h | h
      · exact .inl h
      · exact .inr (List.mem_cons_of_mem _ h)
    · rcases List.mem_cons.1 h with h | h
      · exact .inr (by simp [h])
      · exact (ih h).imp_right (List.mem_cons_of_mem _)

theorem mem_cacheErase (c : List CacheLine) (d : Word) (x : CacheLine) (h : x ∈ cacheErase c d) : x ∈ c :=
  (List.mem_filter.1 h).1

theorem sorted_cacheInsert (c : List CacheLine) (l : CacheLine) (h : c.Pairwise (fun x y => x.addr < y.addr)) :
    (cacheInsert c l).Pairwise (fun x y => x.addr < y.addr) := by
  induction c with
  | nil => simp [cacheInsert]
  | cons y c ih =>
    rw [List.pairwise_cons] at h
    simp only [cacheInsert]
    split_ifs with h1 h2
    · refine List.pairwise_cons.2 ⟨fun x hx => ?_, List.pairwise_cons.2 h⟩
      rcases List.mem_cons.1 hx with rfl | hx
      · exact h1
      · exact BitVec.lt_trans h1 (h.1 x hx)
    · exact List.pairwise_cons.2 ⟨fun x hx => h2 ▸ h.1 x hx, h.2⟩
    · refine List.pairwise_cons.2 ⟨fun x hx => ?_, ih h.2⟩
      rcases mem_cacheInsert c l x hx with rfl | hx
      · bv_omega
      · exact h.1 x hx

theorem sorted_cacheErase (c : List CacheLine) (d : Word) (h : c.Pairwise (fun x y => x.addr < y.addr)) :
    (cacheErase c d).Pairwise (fun x y => x.addr < y.addr) := h.filter _

@[simp] theorem CacheLine.write_addr (l : CacheLine) (w : Nat) (v : Word) : (l.write w v).addr = l.addr := rfl

@[simp] theorem CacheLine.write_dirty (l : CacheLine) (w : Nat) (v : Word) : (l.write w v).dirty = true := rfl

theorem CacheLine.word_write_same (l : CacheLine) (w : Nat) (v : Word) (h : w < 8) : (l.write w v).word w = v := by
  simp [CacheLine.word, CacheLine.write, List.getD_eq_getElem?_getD, h]

theorem CacheLine.word_write_other (l : CacheLine) (w k : Nat) (v : Word) (h : k ≠ w) :
    (l.write w v).word k = l.word k := by
  simp [CacheLine.word, CacheLine.write, List.getD_eq_getElem?_getD, Ne.symm h]

end Sys2Proof.Machine
end

