-- ==== Sys2Proof/Laws/Memory.lean ====
section
/-! SUPPORT. Bytes of descriptor memory: read after write, and that every memory operation keeps the canonical form. -/

namespace Sys2Proof.Machine

@[simp] theorem Memory.readByte_nil (k : Nat) : Memory.readByte [] k = unlistedByte := rfl

theorem Memory.readByte_cons (a : Nat) (b : Byte) (m : Memory) (k : Nat) :
    Memory.readByte ((a, b) :: m) k = if a = k then b else Memory.readByte m k := rfl

/-! ## Read after write -/

@[simp] theorem Memory.readByte_insertByte_same (m : Memory) (a : Nat) (v : Byte) :
    (m.insertByte a v).readByte a = v := by
  induction m with
  | nil => simp [Memory.insertByte, Memory.readByte_cons]
  | cons c m ih =>
    obtain ⟨k, b⟩ := c
    simp only [Memory.insertByte]
    split_ifs with h1 h2
    · simp [Memory.readByte_cons]
    · simp [Memory.readByte_cons]
    · simp [Memory.readByte_cons, ih, Ne.symm h2]

theorem Memory.readByte_insertByte_other (m : Memory) (a k : Nat) (v : Byte) (h : k ≠ a) :
    (m.insertByte a v).readByte k = m.readByte k := by
  induction m with
  | nil => simp [Memory.insertByte, Memory.readByte_cons, Ne.symm h]
  | cons c m ih =>
    obtain ⟨j, b⟩ := c
    simp only [Memory.insertByte]
    split_ifs with h1 h2
    · simp [Memory.readByte_cons, Ne.symm h]
    · subst h2; simp [Memory.readByte_cons, Ne.symm h]
    · simp [Memory.readByte_cons, ih]

/-- A byte of the entries that satisfy a test on the address: its own, or the unlisted one. -/
theorem Memory.readByte_filter (m : Memory) (p : Nat → Bool) (k : Nat) :
    Memory.readByte (m.filter (fun c => p c.1)) k = if p k then m.readByte k else unlistedByte := by
  induction m with
  | nil => simp
  | cons c m ih =>
    obtain ⟨a, b⟩ := c
    by_cases hp : p a
    · by_cases h : a = k
      · subst h; simp [Memory.readByte_cons, hp]
      · simp [Memory.readByte_cons, hp, h, ih]
    · by_cases h : a = k
      · subst h; simp [hp, ih]
      · simp [Memory.readByte_cons, hp, h, ih]

@[simp] theorem Memory.readByte_writeByte_same (m : Memory) (a : Nat) (v : Byte) :
    (m.writeByte a v).readByte a = v := by
  unfold Memory.writeByte
  split_ifs with h
  · have := Memory.readByte_filter m (fun k => decide (k ≠ a)) a
    simpa [h] using this
  · simp

theorem Memory.readByte_writeByte_other (m : Memory) (a k : Nat) (v : Byte) (h : k ≠ a) :
    (m.writeByte a v).readByte k = m.readByte k := by
  unfold Memory.writeByte
  split_ifs with hv
  · have := Memory.readByte_filter m (fun j => decide (j ≠ a)) k
    simpa [h] using this
  · exact Memory.readByte_insertByte_other m a k v h

/-- A byte of a zeroed region reads 0, any other as before. -/
theorem Memory.readByte_zeroRegion (m : Memory) (base : Word) (len k : Nat) :
    (m.zeroRegion base len).readByte k = if inRegion base len k then 0 else m.readByte k := by
  have := Memory.readByte_filter m (fun j => !inRegion base len j) k
  cases h : inRegion base len k <;> simpa [Memory.zeroRegion, h, unlistedByte] using this

/-- The last byte written decides; bytes outside the word are as before. -/
theorem Memory.readByte_writeWord_other (o : ByteOrder) (m : Memory) (a v : Word) (k : Nat)
    (h : ∀ i < 4, k ≠ byteAddr a i) : (m.writeWord o a v).readByte k = m.readByte k := by
  have lane : ∀ i < 4, byteLane o i < 4 := by intro i hi; cases o <;> simp [byteLane] <;> omega
  unfold Memory.writeWord
  rw [Memory.readByte_writeByte_other _ _ _ _ (h _ (lane 3 (by omega))),
    Memory.readByte_writeByte_other _ _ _ _ (h _ (lane 2 (by omega))),
    Memory.readByte_writeByte_other _ _ _ _ (h _ (lane 1 (by omega))),
    Memory.readByte_writeByte_other _ _ _ _ (h _ (lane 0 (by omega)))]

/-! ## The canonical form -/

theorem Memory.wf_iff (m : Memory) :
    m.wf = true ↔ m.Pairwise (fun x y => x.1 < y.1) ∧ ∀ c ∈ m, c.2 ≠ unlistedByte ∧ c.1 < 2 ^ 32 := by
  simp [Memory.wf]

@[simp] theorem Memory.wf_nil : Memory.wf [] = true := rfl

theorem Memory.wf_filter (m : Memory) (p : Host.Cell → Bool) (h : m.wf = true) :
    Memory.wf (m.filter p) = true := by
  rw [Memory.wf_iff] at h ⊢
  exact ⟨h.1.filter p, fun c hc => h.2 c (List.mem_filter.1 hc).1⟩

theorem Memory.mem_insertByte (m : Memory) (a : Nat) (v : Byte) (c : Host.Cell) (h : c ∈ m.insertByte a v) :
    c = (a, v) ∨ c ∈ m := by
  induction m with
  | nil => simpa [Memory.insertByte] using h
  | cons x m ih =>
    obtain ⟨k, b⟩ := x
    simp only [Memory.insertByte] at h
    split_ifs at h with h1 h2
    · simpa using h
    · rcases List.mem_cons.1 h with h | h
      · exact .inl h
      · exact .inr (List.mem_cons_of_mem _ h)
    · rcases List.mem_cons.1 h with h | h
      · exact .inr (by simp [h])
      · exact (ih h).imp_right (List.mem_cons_of_mem _)

theorem Memory.pairwise_insertByte (m : Memory) (a : Nat) (v : Byte) (h : m.Pairwise (fun x y => x.1 < y.1)) :
    (m.insertByte a v).Pairwise (fun x y => x.1 < y.1) := by
  induction m with
  | nil => simp [Memory.insertByte]
  | cons x m ih =>
    obtain ⟨k, b⟩ := x
    rw [List.pairwise_cons] at h
    simp only [Memory.insertByte]
    split_ifs with h1 h2
    · refine List.pairwise_cons.2 ⟨fun c hc => ?_, List.pairwise_cons.2 h⟩
      rcases List.mem_cons.1 hc with rfl | hc
      · exact h1
      · exact lt_trans h1 (h.1 c hc)
    · subst h2; exact List.pairwise_cons.2 h
    · refine List.pairwise_cons.2 ⟨fun c hc => ?_, ih h.2⟩
      rcases Memory.mem_insertByte m a v c hc with rfl | hc
      · show k < a; omega
      · exact h.1 c hc

/-- A byte write inside the address space keeps the canonical form. -/
theorem Memory.wf_writeByte (m : Memory) (a : Nat) (v : Byte) (ha : a < 2 ^ 32) (h : m.wf = true) :
    (m.writeByte a v).wf = true := by
  unfold Memory.writeByte
  split_ifs with hv
  · exact Memory.wf_filter m _ h
  · rw [Memory.wf_iff] at h ⊢
    refine ⟨Memory.pairwise_insertByte m a v h.1, fun c hc => ?_⟩
    rcases Memory.mem_insertByte m a v c hc with rfl | hc
    · exact ⟨hv, ha⟩
    · exact h.2 c hc

theorem byteAddr_lt (a : Word) (i : Nat) : byteAddr a i < 2 ^ 32 := (a + BitVec.ofNat 32 i).isLt

/-- A word write keeps the canonical form. -/
theorem Memory.wf_writeWord (o : ByteOrder) (m : Memory) (a v : Word) (h : m.wf = true) :
    (m.writeWord o a v).wf = true := by
  unfold Memory.writeWord
  repeat' apply Memory.wf_writeByte
  all_goals first | exact byteAddr_lt _ _ | exact h

/-- Zeroing a region keeps the canonical form. -/
theorem Memory.wf_zeroRegion (m : Memory) (base : Word) (len : Nat) (h : m.wf = true) :
    (m.zeroRegion base len).wf = true := Memory.wf_filter m _ h

/-- The memory of the power-on state is in canonical form. -/
theorem reset_memory_wf : State.reset.mem.wf = true := rfl

/-- In canonical form equal readings are equal memories: a byte determines its entry. -/
theorem Memory.readByte_eq_of_mem (m : Memory) (h : m.wf = true) (c : Host.Cell) (hc : c ∈ m) :
    m.readByte c.1 = c.2 := by
  induction m with
  | nil => simp at hc
  | cons x m ih =>
    obtain ⟨k, b⟩ := x
    rw [Memory.wf_iff, List.pairwise_cons] at h
    rcases List.mem_cons.1 hc with rfl | hc
    · simp [Memory.readByte_cons]
    · have hlt : k < c.1 := h.1.1 c hc
      rw [Memory.readByte_cons, if_neg (by omega)]
      exact ih ((Memory.wf_iff m).2 ⟨h.1.2, fun d hd => h.2 d (List.mem_cons_of_mem _ hd)⟩) hc

end Sys2Proof.Machine
end

