-- ==== Sys2Proof/Laws/State.lean ====
section
/-! SUPPORT. One lemma per field per update of the state, so that no later proof unfolds a record update. -/

namespace Sys2Proof.Machine

section Updates

variable (s : State) (c c' : Channel)


/-! ### `setRing` -/

@[simp] theorem State.setRing_cfg (r : Ring) : (s.setRing c r).cfg = s.cfg := by cases c <;> rfl
@[simp] theorem State.setRing_dmacr (r : Ring) : (s.setRing c r).dmacr = s.dmacr := by cases c <;> rfl
@[simp] theorem State.setRing_resetting (r : Ring) : (s.setRing c r).resetting = s.resetting := by cases c <;> rfl
@[simp] theorem State.setRing_wbPending (r : Ring) : (s.setRing c r).wbPending = s.wbPending := by cases c <;> rfl
@[simp] theorem State.setRing_mem (r : Ring) : (s.setRing c r).mem = s.mem := by cases c <;> rfl
@[simp] theorem State.setRing_waiting (r : Ring) : (s.setRing c r).waiting = s.waiting := by cases c <;> rfl
@[simp] theorem State.setRing_stream (r : Ring) : (s.setRing c r).stream = s.stream := by cases c <;> rfl
@[simp] theorem State.setRing_response (r : Ring) : (s.setRing c r).response = s.response := by cases c <;> rfl
@[simp] theorem State.setRing_hostData (r : Ring) : (s.setRing c r).hostData = s.hostData := by cases c <;> rfl
@[simp] theorem State.setRing_sched (r : Ring) : (s.setRing c r).sched = s.sched := by cases c <;> rfl
@[simp] theorem State.setRing_drawCtr (r : Ring) : (s.setRing c r).drawCtr = s.drawCtr := by cases c <;> rfl
@[simp] theorem State.setRing_eng (r : Ring) : (s.setRing c r).eng c' = s.eng c' := by cases c <;> cases c' <;> rfl
@[simp] theorem State.setRing_cacheOf (r : Ring) : (s.setRing c r).cacheOf c' = s.cacheOf c' :=
  by cases c <;> cases c' <;> rfl
@[simp] theorem State.setRing_ring_same (r : Ring) : (s.setRing c r).ring c = r := by cases c <;> rfl
theorem State.setRing_ring_other (r : Ring) (h : c' ≠ c) : (s.setRing c r).ring c' = s.ring c' := by
  cases c <;> cases c' <;> first | rfl | exact absurd rfl h
@[simp] theorem State.setRing_self : s.setRing c (s.ring c) = s := by cases c <;> rfl
@[simp] theorem State.setRing_setRing (r r' : Ring) : (s.setRing c r).setRing c r' = s.setRing c r' :=
  by cases c <;> rfl

/-! ### `setEng` -/

@[simp] theorem State.setEng_cfg (e : EngineChannel) : (s.setEng c e).cfg = s.cfg := by cases c <;> rfl
@[simp] theorem State.setEng_dmacr (e : EngineChannel) : (s.setEng c e).dmacr = s.dmacr := by cases c <;> rfl
@[simp] theorem State.setEng_resetting (e : EngineChannel) : (s.setEng c e).resetting = s.resetting :=
  by cases c <;> rfl
@[simp] theorem State.setEng_wbPending (e : EngineChannel) : (s.setEng c e).wbPending = s.wbPending :=
  by cases c <;> rfl
@[simp] theorem State.setEng_mem (e : EngineChannel) : (s.setEng c e).mem = s.mem := by cases c <;> rfl
@[simp] theorem State.setEng_waiting (e : EngineChannel) : (s.setEng c e).waiting = s.waiting := by cases c <;> rfl
@[simp] theorem State.setEng_stream (e : EngineChannel) : (s.setEng c e).stream = s.stream := by cases c <;> rfl
@[simp] theorem State.setEng_response (e : EngineChannel) : (s.setEng c e).response = s.response := by cases c <;> rfl
@[simp] theorem State.setEng_hostData (e : EngineChannel) : (s.setEng c e).hostData = s.hostData := by cases c <;> rfl
@[simp] theorem State.setEng_sched (e : EngineChannel) : (s.setEng c e).sched = s.sched := by cases c <;> rfl
@[simp] theorem State.setEng_drawCtr (e : EngineChannel) : (s.setEng c e).drawCtr = s.drawCtr := by cases c <;> rfl
@[simp] theorem State.setEng_ring (e : EngineChannel) : (s.setEng c e).ring c' = s.ring c' :=
  by cases c <;> cases c' <;> rfl
@[simp] theorem State.setEng_cacheOf (e : EngineChannel) : (s.setEng c e).cacheOf c' = s.cacheOf c' :=
  by cases c <;> cases c' <;> rfl
@[simp] theorem State.setEng_eng_same (e : EngineChannel) : (s.setEng c e).eng c = e := by cases c <;> rfl
theorem State.setEng_eng_other (e : EngineChannel) (h : c' ≠ c) : (s.setEng c e).eng c' = s.eng c' := by
  cases c <;> cases c' <;> first | rfl | exact absurd rfl h
@[simp] theorem State.setEng_self : s.setEng c (s.eng c) = s := by cases c <;> rfl
@[simp] theorem State.setEng_setEng (e e' : EngineChannel) : (s.setEng c e).setEng c e' = s.setEng c e' :=
  by cases c <;> rfl

/-! ### `setCache` -/

@[simp] theorem State.setCache_cfg (l : List CacheLine) : (s.setCache c l).cfg = s.cfg := by cases c <;> rfl
@[simp] theorem State.setCache_dmacr (l : List CacheLine) : (s.setCache c l).dmacr = s.dmacr := by cases c <;> rfl
@[simp] theorem State.setCache_resetting (l : List CacheLine) : (s.setCache c l).resetting = s.resetting :=
  by cases c <;> rfl
@[simp] theorem State.setCache_wbPending (l : List CacheLine) : (s.setCache c l).wbPending = s.wbPending :=
  by cases c <;> rfl
@[simp] theorem State.setCache_mem (l : List CacheLine) : (s.setCache c l).mem = s.mem := by cases c <;> rfl
@[simp] theorem State.setCache_waiting (l : List CacheLine) : (s.setCache c l).waiting = s.waiting :=
  by cases c <;> rfl
@[simp] theorem State.setCache_stream (l : List CacheLine) : (s.setCache c l).stream = s.stream := by cases c <;> rfl
@[simp] theorem State.setCache_response (l : List CacheLine) : (s.setCache c l).response = s.response :=
  by cases c <;> rfl
@[simp] theorem State.setCache_hostData (l : List CacheLine) : (s.setCache c l).hostData = s.hostData :=
  by cases c <;> rfl
@[simp] theorem State.setCache_sched (l : List CacheLine) : (s.setCache c l).sched = s.sched := by cases c <;> rfl
@[simp] theorem State.setCache_drawCtr (l : List CacheLine) : (s.setCache c l).drawCtr = s.drawCtr :=
  by cases c <;> rfl
@[simp] theorem State.setCache_ring (l : List CacheLine) : (s.setCache c l).ring c' = s.ring c' :=
  by cases c <;> cases c' <;> rfl
@[simp] theorem State.setCache_eng (l : List CacheLine) : (s.setCache c l).eng c' = s.eng c' :=
  by cases c <;> cases c' <;> rfl
@[simp] theorem State.setCache_cacheOf_same (l : List CacheLine) : (s.setCache c l).cacheOf c = l :=
  by cases c <;> rfl
theorem State.setCache_cacheOf_other (l : List CacheLine) (h : c' ≠ c) : (s.setCache c l).cacheOf c' = s.cacheOf c' :=
  by
  cases c <;> cases c' <;> first | rfl | exact absurd rfl h
@[simp] theorem State.setCache_self : s.setCache c (s.cacheOf c) = s := by cases c <;> rfl
@[simp] theorem State.setCache_setCache (l l' : List CacheLine) : (s.setCache c l).setCache c l' = s.setCache c l' :=
  by
  cases c <;> rfl

/-! ### `respond` -/

@[simp] theorem State.respond_cfg (st : Status) (rs : List Word) : (s.respond st rs).cfg = s.cfg := rfl
@[simp] theorem State.respond_dmacr (st : Status) (rs : List Word) : (s.respond st rs).dmacr = s.dmacr := rfl
@[simp] theorem State.respond_resetting (st : Status) (rs : List Word) : (s.respond st rs).resetting = s.resetting :=
  rfl
@[simp] theorem State.respond_wbPending (st : Status) (rs : List Word) : (s.respond st rs).wbPending = s.wbPending :=
  rfl
@[simp] theorem State.respond_mem (st : Status) (rs : List Word) : (s.respond st rs).mem = s.mem := rfl
@[simp] theorem State.respond_waiting (st : Status) (rs : List Word) : (s.respond st rs).waiting = s.waiting := rfl
@[simp] theorem State.respond_stream (st : Status) (rs : List Word) : (s.respond st rs).stream = s.stream := rfl
@[simp] theorem State.respond_hostData (st : Status) (rs : List Word) : (s.respond st rs).hostData = s.hostData := rfl
@[simp] theorem State.respond_sched (st : Status) (rs : List Word) : (s.respond st rs).sched = s.sched := rfl
@[simp] theorem State.respond_drawCtr (st : Status) (rs : List Word) : (s.respond st rs).drawCtr = s.drawCtr := rfl
@[simp] theorem State.respond_ring (st : Status) (rs : List Word) : (s.respond st rs).ring c' = s.ring c' :=
  by cases c' <;> rfl
@[simp] theorem State.respond_eng (st : Status) (rs : List Word) : (s.respond st rs).eng c' = s.eng c' :=
  by cases c' <;> rfl
@[simp] theorem State.respond_cacheOf (st : Status) (rs : List Word) : (s.respond st rs).cacheOf c' = s.cacheOf c' :=
  by cases c' <;> rfl
@[simp] theorem State.respond_response (st : Status) (rs : List Word) : (s.respond st rs).response = st.code :: rs :=
  rfl

/-! ### `drawWord` -/

@[simp] theorem State.drawWord_cfg : (s.drawWord.2).cfg = s.cfg := rfl
@[simp] theorem State.drawWord_dmacr : (s.drawWord.2).dmacr = s.dmacr := rfl
@[simp] theorem State.drawWord_resetting : (s.drawWord.2).resetting = s.resetting := rfl
@[simp] theorem State.drawWord_wbPending : (s.drawWord.2).wbPending = s.wbPending := rfl
@[simp] theorem State.drawWord_mem : (s.drawWord.2).mem = s.mem := rfl
@[simp] theorem State.drawWord_waiting : (s.drawWord.2).waiting = s.waiting := rfl
@[simp] theorem State.drawWord_stream : (s.drawWord.2).stream = s.stream := rfl
@[simp] theorem State.drawWord_response : (s.drawWord.2).response = s.response := rfl
@[simp] theorem State.drawWord_hostData : (s.drawWord.2).hostData = s.hostData := rfl
@[simp] theorem State.drawWord_sched : (s.drawWord.2).sched = s.sched := rfl
@[simp] theorem State.drawWord_ring : (s.drawWord.2).ring c' = s.ring c' := by cases c' <;> rfl
@[simp] theorem State.drawWord_eng : (s.drawWord.2).eng c' = s.eng c' := by cases c' <;> rfl
@[simp] theorem State.drawWord_cacheOf : (s.drawWord.2).cacheOf c' = s.cacheOf c' := by cases c' <;> rfl

/-! ### `drawBool` -/

@[simp] theorem State.drawBool_cfg : (s.drawBool.2).cfg = s.cfg := rfl
@[simp] theorem State.drawBool_dmacr : (s.drawBool.2).dmacr = s.dmacr := rfl
@[simp] theorem State.drawBool_resetting : (s.drawBool.2).resetting = s.resetting := rfl
@[simp] theorem State.drawBool_wbPending : (s.drawBool.2).wbPending = s.wbPending := rfl
@[simp] theorem State.drawBool_mem : (s.drawBool.2).mem = s.mem := rfl
@[simp] theorem State.drawBool_waiting : (s.drawBool.2).waiting = s.waiting := rfl
@[simp] theorem State.drawBool_stream : (s.drawBool.2).stream = s.stream := rfl
@[simp] theorem State.drawBool_response : (s.drawBool.2).response = s.response := rfl
@[simp] theorem State.drawBool_hostData : (s.drawBool.2).hostData = s.hostData := rfl
@[simp] theorem State.drawBool_sched : (s.drawBool.2).sched = s.sched := rfl
@[simp] theorem State.drawBool_ring : (s.drawBool.2).ring c' = s.ring c' := by cases c' <;> rfl
@[simp] theorem State.drawBool_eng : (s.drawBool.2).eng c' = s.eng c' := by cases c' <;> rfl
@[simp] theorem State.drawBool_cacheOf : (s.drawBool.2).cacheOf c' = s.cacheOf c' := by cases c' <;> rfl

/-! ### `setMemWord` -/

@[simp] theorem State.setMemWord_cfg (bd : Word) (w : Nat) (v : Word) : (s.setMemWord c bd w v).cfg = s.cfg := rfl
@[simp] theorem State.setMemWord_dmacr (bd : Word) (w : Nat) (v : Word) : (s.setMemWord c bd w v).dmacr = s.dmacr :=
  rfl
@[simp] theorem State.setMemWord_resetting (bd : Word) (w : Nat) (v : Word) : (s.setMemWord c bd w v).resetting = s.resetting :=
  rfl
@[simp] theorem State.setMemWord_wbPending (bd : Word) (w : Nat) (v : Word) : (s.setMemWord c bd w v).wbPending = s.wbPending :=
  rfl
@[simp] theorem State.setMemWord_waiting (bd : Word) (w : Nat) (v : Word) : (s.setMemWord c bd w v).waiting = s.waiting :=
  rfl
@[simp] theorem State.setMemWord_stream (bd : Word) (w : Nat) (v : Word) : (s.setMemWord c bd w v).stream = s.stream :=
  rfl
@[simp] theorem State.setMemWord_response (bd : Word) (w : Nat) (v : Word) : (s.setMemWord c bd w v).response = s.response :=
  rfl
@[simp] theorem State.setMemWord_hostData (bd : Word) (w : Nat) (v : Word) : (s.setMemWord c bd w v).hostData = s.hostData :=
  rfl
@[simp] theorem State.setMemWord_sched (bd : Word) (w : Nat) (v : Word) : (s.setMemWord c bd w v).sched = s.sched :=
  rfl
@[simp] theorem State.setMemWord_drawCtr (bd : Word) (w : Nat) (v : Word) : (s.setMemWord c bd w v).drawCtr = s.drawCtr :=
  rfl
@[simp] theorem State.setMemWord_ring (bd : Word) (w : Nat) (v : Word) : (s.setMemWord c bd w v).ring c' = s.ring c' :=
  by cases c' <;> rfl
@[simp] theorem State.setMemWord_eng (bd : Word) (w : Nat) (v : Word) : (s.setMemWord c bd w v).eng c' = s.eng c' :=
  by cases c' <;> rfl
@[simp] theorem State.setMemWord_cacheOf (bd : Word) (w : Nat) (v : Word) : (s.setMemWord c bd w v).cacheOf c' = s.cacheOf c' :=
  by cases c' <;> rfl

end Updates

end Sys2Proof.Machine
end

