-- ==== Sys2Proof/Laws/Ops.lean ====
section
/-! SUPPORT. For each shared operation, once, all it can change: the operations on descriptors change memory, cached copies
and the count of draws only; the register writes change the engine only. And that the former keep memory canonical. -/

namespace Sys2Proof.Machine

/-! ## Two frames -/

/-- Nothing but memory, the cached copies and the count of draws differs. -/
def SameButDescriptors (s t : State) : Prop :=
  t = { s with mem := t.mem, txCache := t.txCache, rxCache := t.rxCache, drawCtr := t.drawCtr }

/-- Nothing but the engine's registers and hidden state and the count of draws differs. -/
def SameButEngine (s t : State) : Prop :=
  t = { s with txEng := t.txEng, rxEng := t.rxEng, dmacr := t.dmacr, resetting := t.resetting, wbPending := t.wbPending
               drawCtr := t.drawCtr }

theorem SameButDescriptors.refl (s : State) : SameButDescriptors s s := rfl

theorem SameButDescriptors.trans {s t u : State} (h : SameButDescriptors s t) (k : SameButDescriptors t u) :
    SameButDescriptors s u := by
  unfold SameButDescriptors at *; rw [k, h]

theorem SameButEngine.refl (s : State) : SameButEngine s s := rfl

theorem SameButEngine.trans {s t u : State} (h : SameButEngine s t) (k : SameButEngine t u) : SameButEngine s u := by
  unfold SameButEngine at *; rw [k, h]

theorem SameButDescriptors.ring {s t : State} (h : SameButDescriptors s t) (c : Channel) : t.ring c = s.ring c := by
  rw [h]; cases c <;> rfl

theorem SameButDescriptors.eng {s t : State} (h : SameButDescriptors s t) (c : Channel) : t.eng c = s.eng c := by
  rw [h]; cases c <;> rfl

theorem SameButDescriptors.cfg {s t : State} (h : SameButDescriptors s t) : t.cfg = s.cfg := by rw [h]

theorem SameButDescriptors.dmacr {s t : State} (h : SameButDescriptors s t) : t.dmacr = s.dmacr := by rw [h]

theorem SameButDescriptors.resetting {s t : State} (h : SameButDescriptors s t) : t.resetting = s.resetting := by rw [h]

theorem SameButDescriptors.wbPending {s t : State} (h : SameButDescriptors s t) : t.wbPending = s.wbPending := by rw [h]

theorem SameButEngine.ring {s t : State} (h : SameButEngine s t) (c : Channel) : t.ring c = s.ring c := by
  rw [h]; cases c <;> rfl

theorem SameButEngine.cacheOf {s t : State} (h : SameButEngine s t) (c : Channel) : t.cacheOf c = s.cacheOf c := by
  rw [h]; cases c <;> rfl

theorem SameButEngine.mem {s t : State} (h : SameButEngine s t) : t.mem = s.mem := by rw [h]

theorem SameButEngine.cfg {s t : State} (h : SameButEngine s t) : t.cfg = s.cfg := by rw [h]

/-! ## A loop keeps what its body keeps -/

theorem State.forEach_keeps (P : State → Prop) (n : Nat) (f : Nat → State → State) (s : State) (h : P s)
    (step : ∀ k s, P s → P (f k s)) : P (State.forEach n f s) := by
  induction n with
  | zero => exact h
  | succ k ih => exact step k _ ih

theorem State.forEach_sameButDescriptors (n : Nat) (f : Nat → State → State) (s : State)
    (h : ∀ k s, SameButDescriptors s (f k s)) : SameButDescriptors s (State.forEach n f s) :=
  State.forEach_keeps (SameButDescriptors s) n f s (.refl s) (fun k t ht => ht.trans (h k t))

theorem State.forEach_mem_wf (n : Nat) (f : Nat → State → State) (s : State) (hs : s.mem.wf = true)
    (h : ∀ k s, s.mem.wf = true → (f k s).mem.wf = true) : (State.forEach n f s).mem.wf = true :=
  State.forEach_keeps (fun s => s.mem.wf = true) n f s hs h

/-! ## Descriptor words -/

theorem State.drawBool_frame (s : State) : SameButDescriptors s s.drawBool.2 := rfl

theorem State.setCache_frame (s : State) (c : Channel) (l : List CacheLine) :
    SameButDescriptors s (s.setCache c l) := by cases c <;> rfl

theorem State.putLine_frame (s : State) (c : Channel) (l : CacheLine) : SameButDescriptors s (s.putLine c l) :=
  s.setCache_frame c _

@[simp] theorem State.putLine_mem (s : State) (c : Channel) (l : CacheLine) : (s.putLine c l).mem = s.mem :=
  s.setCache_mem c _

theorem State.setMemWord_frame (s : State) (c : Channel) (bd : Word) (w : Nat) (v : Word) :
    SameButDescriptors s (s.setMemWord c bd w v) := rfl

theorem State.setMemWord_mem_wf (s : State) (c : Channel) (bd : Word) (w : Nat) (v : Word) (h : s.mem.wf = true) :
    (s.setMemWord c bd w v).mem.wf = true := Memory.wf_writeWord _ _ _ _ h

theorem State.engWrite_frame (s : State) (pa : Word) (w : Nat) (v : Word) :
    SameButDescriptors s (s.engWrite pa w v) := rfl

theorem State.engWrite_mem_wf (s : State) (pa : Word) (w : Nat) (v : Word) (h : s.mem.wf = true) :
    (s.engWrite pa w v).mem.wf = true := Memory.wf_writeWord _ _ _ _ h

/-- A read through the host's path changes no memory. -/
@[simp] theorem State.bdRead_mem (s : State) (c : Channel) (bd : Word) (w : Nat) : (s.bdRead c bd w).2.mem = s.mem := by
  unfold State.bdRead
  split_ifs
  · split
    · rfl
    · simp only; split_ifs <;> simp
  · rfl

theorem State.bdRead_frame (s : State) (c : Channel) (bd : Word) (w : Nat) :
    SameButDescriptors s (s.bdRead c bd w).2 := by
  unfold State.bdRead
  split_ifs
  · split
    · exact .refl s
    · simp only; split_ifs
      · exact (s.drawBool_frame).trans (State.putLine_frame _ _ _)
      · exact s.drawBool_frame
  · exact .refl s

theorem State.bdWrite_frame (s : State) (c : Channel) (bd : Word) (w : Nat) (v : Word) :
    SameButDescriptors s (s.bdWrite c bd w v) := by
  unfold State.bdWrite
  split_ifs
  · exact s.putLine_frame c _
  · exact s.setMemWord_frame c bd w v

theorem State.bdWrite_mem_wf (s : State) (c : Channel) (bd : Word) (w : Nat) (v : Word) (h : s.mem.wf = true) :
    (s.bdWrite c bd w v).mem.wf = true := by
  unfold State.bdWrite
  split_ifs
  · simpa using h
  · exact s.setMemWord_mem_wf c bd w v h

theorem State.writeBackLine_frame (s : State) (c : Channel) (l : CacheLine) :
    SameButDescriptors s (s.writeBackLine c l) :=
  State.forEach_sameButDescriptors 8 _ s (fun w t => t.setMemWord_frame c l.addr w _)

theorem State.writeBackLine_mem_wf (s : State) (c : Channel) (l : CacheLine) (h : s.mem.wf = true) :
    (s.writeBackLine c l).mem.wf = true :=
  State.forEach_mem_wf 8 _ s h (fun w t ht => t.setMemWord_mem_wf c l.addr w _ ht)

theorem State.flush_frame (s : State) (c : Channel) (bd : Word) : SameButDescriptors s (s.flush c bd) := by
  unfold State.flush
  split_ifs
  · split
    · exact .refl s
    · next l _ =>
      have h : SameButDescriptors s (if l.dirty then (s.writeBackLine c l).putLine c { l with dirty := false } else s) := by
        split_ifs
        · exact (s.writeBackLine_frame c l).trans (State.putLine_frame _ _ _)
        · exact .refl s
      simp only
      split_ifs at h ⊢ <;>
        first
          | exact h.trans ((State.drawBool_frame _).trans (State.setCache_frame _ _ _))
          | exact h.trans (State.drawBool_frame _)
  · exact .refl s

theorem State.flush_mem_wf (s : State) (c : Channel) (bd : Word) (h : s.mem.wf = true) :
    (s.flush c bd).mem.wf = true := by
  unfold State.flush
  split_ifs
  · split
    · exact h
    · next l _ =>
      have hw := s.writeBackLine_mem_wf c l h
      simp only
      split_ifs <;> simp_all
  · exact h

theorem State.invalidate_frame (s : State) (c : Channel) (bd : Word) : SameButDescriptors s (s.invalidate c bd) := by
  unfold State.invalidate
  split_ifs
  · exact s.setCache_frame c _
  · exact .refl s

@[simp] theorem State.invalidate_mem (s : State) (c : Channel) (bd : Word) : (s.invalidate c bd).mem = s.mem := by
  unfold State.invalidate
  split_ifs <;> simp

/-! ## The descriptor loops of the commands -/

theorem State.submitDescriptor_frame (s : State) (c : Channel) (cur sts : Word) :
    SameButDescriptors s (s.submitDescriptor c cur sts) := by
  have h := s.bdWrite_frame c cur 3 (clearForSubmit sts)
  unfold State.submitDescriptor
  refine SameButDescriptors.trans ?_ (State.flush_frame _ _ _)
  split_ifs
  · exact h.trans (State.bdWrite_frame _ _ _ _ _)
  · exact h

theorem State.submitDescriptor_mem_wf (s : State) (c : Channel) (cur sts : Word) (h : s.mem.wf = true) :
    (s.submitDescriptor c cur sts).mem.wf = true := by
  have h1 := s.bdWrite_mem_wf c cur 3 (clearForSubmit sts) h
  unfold State.submitDescriptor
  refine State.flush_mem_wf _ _ _ ?_
  split_ifs
  · exact State.bdWrite_mem_wf _ _ _ _ _ h1
  · exact h1

/-- The walk of TO_HW changes descriptors only. -/
theorem toHwWalk_frame (c : Channel) (m : Nat) (cur sts : Word) (s : State) :
    SameButDescriptors s (toHwWalk c m cur sts s).state := by
  induction m generalizing cur sts s with
  | zero =>
    simp only [toHwWalk]
    split_ifs
    · exact .refl s
    · exact s.bdRead_frame c cur 2
    · exact (s.bdRead_frame c cur 2).trans (State.submitDescriptor_frame _ _ _ _)
  | succ m ih =>
    simp only [toHwWalk]
    split_ifs
    · exact s.bdRead_frame c cur 2
    · exact (((s.bdRead_frame c cur 2).trans (State.submitDescriptor_frame _ _ _ _)).trans
        (State.bdRead_frame _ _ _ _)).trans (ih _ _ _)

theorem toHwWalk_mem_wf (c : Channel) (m : Nat) (cur sts : Word) (s : State) (h : s.mem.wf = true) :
    (toHwWalk c m cur sts s).state.mem.wf = true := by
  induction m generalizing cur sts s with
  | zero =>
    simp only [toHwWalk]
    split_ifs
    · exact h
    · simpa using h
    · exact State.submitDescriptor_mem_wf _ _ _ _ (by simpa using h)
  | succ m ih =>
    simp only [toHwWalk]
    split_ifs
    · simpa using h
    · refine ih _ _ _ ?_
      rw [State.bdRead_mem]
      exact State.submitDescriptor_mem_wf _ _ _ _ (by simpa using h)

/-- The walk of FROM_HW changes cached copies and the count of draws only. -/
theorem fromHwWalk_frame (c : Channel) (m : Nat) (cur : Word) (cnt part : Nat) (s : State) :
    SameButDescriptors s (fromHwWalk c m cur cnt part s).state ∧ (fromHwWalk c m cur cnt part s).state.mem = s.mem := by
  induction m generalizing cur cnt part s with
  | zero => exact ⟨.refl s, rfl⟩
  | succ m ih =>
    have h1 := (s.invalidate_frame c cur).trans ((s.invalidate c cur).bdRead_frame c cur 3)
    have m1 : ((s.invalidate c cur).bdRead c cur 3).2.mem = s.mem := by simp
    simp only [fromHwWalk]
    generalize (s.invalidate c cur).bdRead c cur 3 = st at *
    split_ifs
    all_goals first
      | exact ⟨h1, m1⟩
      | exact ⟨h1.trans (State.bdRead_frame _ _ _ _), by simpa using m1⟩
      | exact ⟨h1.trans (ih _ _ _ _).1, by rw [(ih _ _ _ _).2, m1]⟩
      | exact ⟨(h1.trans (State.bdRead_frame _ _ _ _)).trans (ih _ _ _ _).1, by
          rw [(ih _ _ _ _).2]; simpa using m1⟩

theorem State.zeroRing_frame (s : State) (c : Channel) : SameButDescriptors s (s.zeroRing c) := by
  unfold State.zeroRing
  simp only
  split_ifs
  · refine State.forEach_sameButDescriptors _ _ s (fun k t => ?_)
    exact (State.forEach_sameButDescriptors 8 _ t (fun w u => u.bdWrite_frame c _ w 0)).trans rfl
  · rfl

theorem State.zeroRing_mem_wf (s : State) (c : Channel) (h : s.mem.wf = true) : (s.zeroRing c).mem.wf = true := by
  unfold State.zeroRing
  simp only
  split_ifs
  · refine State.forEach_mem_wf _ _ s h (fun k t ht => Memory.wf_zeroRegion _ _ _ ?_)
    exact State.forEach_mem_wf 8 _ t ht (fun w u hu => u.bdWrite_mem_wf c _ w 0 hu)
  · exact Memory.wf_zeroRegion _ _ _ h

theorem State.initDescriptor_frame (c : Channel) (k : Nat) (s : State) :
    SameButDescriptors s (State.initDescriptor c k s) :=
  ((s.bdWrite_frame c _ 0 _).trans (State.bdWrite_frame _ _ _ _ _)).trans (State.flush_frame _ _ _)

theorem State.initDescriptor_mem_wf (c : Channel) (k : Nat) (s : State) (h : s.mem.wf = true) :
    (State.initDescriptor c k s).mem.wf = true :=
  State.flush_mem_wf _ _ _ (State.bdWrite_mem_wf _ _ _ _ _ (s.bdWrite_mem_wf _ _ _ _ h))

theorem State.initLastDescriptor_frame (s : State) (c : Channel) : SameButDescriptors s (s.initLastDescriptor c) :=
  (s.bdWrite_frame c _ 0 _).trans (State.flush_frame _ _ _)

theorem State.initLastDescriptor_mem_wf (s : State) (c : Channel) (h : s.mem.wf = true) :
    (s.initLastDescriptor c).mem.wf = true := State.flush_mem_wf _ _ _ (s.bdWrite_mem_wf _ _ _ _ h)

/-- CREATE's effect is its bookkeeping, then descriptors only. -/
theorem State.createRing_frame (s : State) (c : Channel) (p v a n : Word) :
    SameButDescriptors (s.setRing c ((s.ring c).created p v a n)) (s.createRing c p v a n) :=
  ((State.zeroRing_frame _ c).trans
    (State.forEach_sameButDescriptors _ _ _ (fun k t => State.initDescriptor_frame c k t))).trans
    (State.initLastDescriptor_frame _ c)

theorem State.createRing_mem_wf (s : State) (c : Channel) (p v a n : Word) (h : s.mem.wf = true) :
    (s.createRing c p v a n).mem.wf = true :=
  State.initLastDescriptor_mem_wf _ c (State.forEach_mem_wf _ _ _ (State.zeroRing_mem_wf _ c (by simpa using h))
    (fun k t ht => State.initDescriptor_mem_wf c k t ht))

theorem State.cloneDescriptor_frame (c : Channel) (t1 t2 t3 t4 t5 t6 t7 t8 : Word) (k : Nat) (s : State) :
    SameButDescriptors s (State.cloneDescriptor c t1 t2 t3 t4 t5 t6 t7 t8 k s) := by
  unfold State.cloneDescriptor
  refine SameButDescriptors.trans ?_ (State.flush_frame _ _ _)
  refine SameButDescriptors.trans ?_ (State.bdWrite_frame _ _ _ _ _)
  refine SameButDescriptors.trans ?_ (State.bdWrite_frame _ _ _ _ _)
  refine SameButDescriptors.trans ?_ (State.bdWrite_frame _ _ _ _ _)
  refine SameButDescriptors.trans ?_ (State.bdWrite_frame _ _ _ _ _)
  refine SameButDescriptors.trans ?_ (State.bdWrite_frame _ _ _ _ _)
  refine SameButDescriptors.trans ?_ (State.bdWrite_frame _ _ _ _ _)
  exact (State.bdWrite_frame _ _ _ _ _).trans (State.bdWrite_frame _ _ _ _ _)

theorem State.cloneDescriptor_mem_wf (c : Channel) (t1 t2 t3 t4 t5 t6 t7 t8 : Word) (k : Nat) (s : State)
    (h : s.mem.wf = true) : (State.cloneDescriptor c t1 t2 t3 t4 t5 t6 t7 t8 k s).mem.wf = true := by
  unfold State.cloneDescriptor
  apply State.flush_mem_wf
  iterate 8 apply State.bdWrite_mem_wf
  exact h

/-! ## Engine registers -/

theorem State.setEng_frame (s : State) (c : Channel) (e : EngineChannel) : SameButEngine s (s.setEng c e) := by
  cases c <;> rfl

theorem State.drawWord_frame (s : State) : SameButEngine s s.drawWord.2 := rfl

/-- No register read changes anything but the count of draws. -/
theorem State.regRead_frame (s : State) (r : Reg) :
    (s.regRead r).2 = { s with drawCtr := (s.regRead r).2.drawCtr } := by
  cases r <;> rfl

theorem State.resetEngineChannel_frame (s : State) (c : Channel) : SameButEngine s (s.resetEngineChannel c) :=
  ((s.drawWord_frame).trans (State.drawWord_frame _)).trans (State.setEng_frame _ _ _)

theorem State.swResetStart_frame (s : State) : SameButEngine s s.swResetStart := by
  have h : SameButEngine s { s with dmacr := 0x00000001, resetting := true, wbPending := none } := rfl
  exact (h.trans (State.resetEngineChannel_frame _ .tx)).trans (State.resetEngineChannel_frame _ .rx)

/-- A register write changes the engine only. -/
theorem State.regWrite_frame (s : State) (r : Reg) (v : Word) : SameButEngine s (s.regWrite r v) := by
  cases r with
  | ndesc | bufa | bufl | sr => exact .refl s
  | cdesc c =>
    simp only [State.regWrite, State.writeCdesc]
    split_ifs
    · exact .refl s
    · exact s.setEng_frame c _
  | tdesc c => exact s.setEng_frame c _
  | cr c => exact s.setEng_frame c _
  | irq c => exact s.setEng_frame c _
  | dmacr =>
    simp only [State.regWrite, State.writeDmacr]
    split_ifs
    · exact .refl s
    · exact s.swResetStart_frame
    · rfl

/-- A write of a channel's register changes that channel's registers only. -/
theorem State.writeChannelRegister_frame (s : State) (c : Channel) (v : Word) (r : Reg)
    (h : r ∈ Reg.ofChannel c) : s.regWrite r v = s.setEng c ((s.regWrite r v).eng c) := by
  simp only [Reg.ofChannel, List.mem_cons, List.not_mem_nil, or_false] at h
  rcases h with rfl | rfl | rfl | rfl | rfl | rfl | rfl | rfl
  all_goals simp only [State.regWrite, State.writeCdesc, State.writeTdesc, State.writeCr, State.writeIrq]
  all_goals first
    | exact (s.setEng_self c).symm
    | (split_ifs <;> simp)
    | simp

/-! ## Engine steps -/

theorem State.countUnit_frame (s : State) (c : Channel) (sts : Word) :
    s.countUnit c sts = s.setEng c ((s.countUnit c sts).eng c) := by
  unfold State.countUnit State.coalesceEvent State.haltWithError
  simp only
  split_ifs <;> simp

theorem State.advance_frame (s : State) (c : Channel) (d nx : Word) :
    s.advance c d nx = s.setEng c ((s.advance c d nx).eng c) := by simp [State.advance]

theorem State.delayEvent_frame (s : State) (c : Channel) :
    s.delayEvent c = s.setEng c ((s.delayEvent c).eng c) := by
  unfold State.delayEvent State.haltWithError
  simp only
  split_ifs <;> simp

end Sys2Proof.Machine
end

