-- ==== Sys2Proof/Laws/PerInstr.lean ====
section
/-! SUPPORT. A statement about every command, proved constructor by constructor: what its parsed form and its encoding
satisfy (spec/30_encoding.md R121 to R123). -/

namespace Sys2Proof

theorem Opcode.ofByte_byte (o : Opcode) : Opcode.ofByte o.byte = some o := by cases o <;> rfl

theorem Opcode.byte_injective (o p : Opcode) (h : o.byte = p.byte) : o = p := by
  have := Opcode.ofByte_byte o
  rw [h, Opcode.ofByte_byte p] at this
  exact (Option.some.inj this).symm

theorem Opcode.matchWord_and_mask (o : Opcode) : o.matchWord &&& o.mask = o.matchWord := by cases o <;> rfl

theorem headerReserved_encodeHeader (o : Opcode) (ch : Channel) : headerReserved (encodeHeader o ch) = 0 := by
  cases o <;> cases ch <;> rfl

theorem headerOpc_encodeHeader (o : Opcode) (ch : Channel) : headerOpc (encodeHeader o ch) = o.byte := by
  cases o <;> cases ch <;> rfl

theorem headerChannel_encodeHeader (o : Opcode) (ch : Channel) : headerChannel (encodeHeader o ch) = ch := by
  cases o <;> cases ch <;> rfl

namespace Laws.Parsed

/-- The command is well formed, its encoding is one header word and the operand words of its format, and its parsed form
gives it back. -/
def Statement (i : Instr) : Prop :=
  i.WellFormed ∧ (encode i).length = 1 + i.raw.opcode.format.operandWords ∧
    Instr.ofRaw i.raw.opcode i.raw.ch i.raw.operands = some i

theorem nop : Statement (.nop) := ⟨rfl, rfl, rfl⟩
theorem create (ch : Channel) (a b c d : Word) : Statement (.create ch a b c d) := ⟨rfl, rfl, rfl⟩
theorem clone (ch : Channel) (a b c d e f g h i : Word) : Statement (.clone ch a b c d e f g h i) := ⟨rfl, rfl, rfl⟩
theorem alloc (ch : Channel) (a : Word) : Statement (.alloc ch a) := ⟨rfl, rfl, rfl⟩
theorem unalloc (ch : Channel) (a b : Word) : Statement (.unalloc ch a b) := ⟨rfl, rfl, rfl⟩
theorem toHw (ch : Channel) (a b : Word) : Statement (.toHw ch a b) := ⟨rfl, rfl, rfl⟩
theorem fromHw (ch : Channel) (a : Word) : Statement (.fromHw ch a) := ⟨rfl, rfl, rfl⟩
theorem free (ch : Channel) (a b : Word) : Statement (.free ch a b) := ⟨rfl, rfl, rfl⟩
theorem start (ch : Channel) : Statement (.start ch) := ⟨rfl, rfl, rfl⟩
theorem pause : Statement (.pause) := ⟨rfl, rfl, rfl⟩
theorem resume : Statement (.resume) := ⟨rfl, rfl, rfl⟩
theorem reset : Statement (.reset) := ⟨rfl, rfl, rfl⟩
theorem setCoalesce (ch : Channel) (a b : Word) : Statement (.setCoalesce ch a b) := ⟨rfl, rfl, rfl⟩
theorem getCoalesce (ch : Channel) : Statement (.getCoalesce ch) := ⟨rfl, rfl, rfl⟩
theorem irqEnable (ch : Channel) (a : Word) : Statement (.irqEnable ch a) := ⟨rfl, rfl, rfl⟩
theorem irqDisable (ch : Channel) (a : Word) : Statement (.irqDisable ch a) := ⟨rfl, rfl, rfl⟩
theorem irqGet (ch : Channel) : Statement (.irqGet ch) := ⟨rfl, rfl, rfl⟩
theorem irqAck (ch : Channel) (a : Word) : Statement (.irqAck ch a) := ⟨rfl, rfl, rfl⟩
theorem bdRd (ch : Channel) (a b : Word) : Statement (.bdRd ch a b) := ⟨rfl, rfl, rfl⟩
theorem bdWr (ch : Channel) (a b c : Word) : Statement (.bdWr ch a b c) := ⟨rfl, rfl, rfl⟩
theorem bdNext (ch : Channel) (a : Word) : Statement (.bdNext ch a) := ⟨rfl, rfl, rfl⟩
theorem bdPrev (ch : Channel) (a : Word) : Statement (.bdPrev ch a) := ⟨rfl, rfl, rfl⟩
theorem ringStat (ch : Channel) (a : Word) : Statement (.ringStat ch a) := ⟨rfl, rfl, rfl⟩
theorem regRd (a : Word) : Statement (.regRd a) := ⟨rfl, rfl, rfl⟩
theorem regWr (a b : Word) : Statement (.regWr a b) := ⟨rfl, rfl, rfl⟩

end Laws.Parsed

end Sys2Proof
end

