-- ==== Sys2Proof/Laws/Safety.lean ====
section
/-! SUPPORT. The invariants of one ring and of the engine as computable checks, so that a concrete state is shown sound by
evaluation; that the machine's check of the caller obligations is what Safety.lean says; and what the guarded turns can do. -/

namespace Sys2Proof.Machine

/-- `Ring.LaidOut` as a check. -/
def Ring.laidOutCheck (r : Ring) : Bool :=
  decide (0 < r.count.toNat) && decide (36 ≤ r.separation.toNat) && r.separation.toNat % 4 == 0
    && r.firstVirt.toNat % 4 == 0 && r.firstPhys.toNat % 4 == 0
    && r.length.toNat == r.separation.toNat * r.count.toNat
    && decide (r.firstVirt.toNat + r.length.toNat ≤ 2 ^ 32)
    && r.lastVirt == r.bdAddr (r.count.toNat - 1) && r.lastPhys == r.phys r.lastVirt

/-- `Ring.Partitioned` as a check. -/
def Ring.partitionedCheck (r : Ring) : Bool :=
  r.freeCount.toNat + r.preCount.toNat + r.hwCount.toNat + r.postCount.toNat == r.count.toNat
    && r.isBd r.freeHead && r.isBd r.preHead && r.isBd r.hwHead && r.isBd r.postHead && r.isBd r.hwTail
    && r.adv r.postHead r.postCount.toNat == r.hwHead && r.adv r.hwHead r.hwCount.toNat == r.preHead
    && r.adv r.preHead r.preCount.toNat == r.freeHead && r.adv r.freeHead r.freeCount.toNat == r.postHead
    && (decide (¬ 0 < r.hwCount.toNat) || r.hwTail == r.adv r.hwHead (r.hwCount.toNat - 1))

theorem Ring.laidOut_of_check (r : Ring) (h : r.laidOutCheck = true) : r.LaidOut := by
  simp only [Ring.laidOutCheck, Bool.and_eq_true, decide_eq_true_eq, beq_iff_eq] at h
  obtain ⟨⟨⟨⟨⟨⟨⟨⟨h1, h2⟩, h3⟩, h4⟩, h5⟩, h6⟩, h7⟩, h8⟩, h9⟩ := h
  exact ⟨h1, h2, h3, h4, h5, h6, h7, h8, h9⟩

theorem Ring.partitioned_of_check (r : Ring) (h : r.partitionedCheck = true) : r.Partitioned := by
  simp only [Ring.partitionedCheck, Bool.and_eq_true, Bool.or_eq_true, decide_eq_true_eq, beq_iff_eq] at h
  obtain ⟨⟨⟨⟨⟨⟨⟨⟨⟨⟨h1, h2⟩, h3⟩, h4⟩, h5⟩, h6⟩, h7⟩, h8⟩, h9⟩, h10⟩, h11⟩ := h
  exact ⟨h1, h2, h3, h4, h5, h6, h7, h8, h9, h10, fun hw => h11.resolve_left (fun n => n hw)⟩

/-- A ring that passes both checks is sound. -/
theorem Ring.sound_of_checks (r : Ring) (h1 : r.laidOutCheck = true) (h2 : r.partitionedCheck = true) : r.Sound :=
  .inr ⟨r.laidOut_of_check h1, r.partitioned_of_check h2⟩

/-- A ring that was never created is sound. -/
theorem Ring.sound_powerOn (isRx : Bool) : (Ring.powerOn isRx).Sound := .inl rfl

/-- An engine with nothing in flight and no reset running is sound. -/
theorem State.engineSound_of_quiet (s : State) (hr : s.resetting = false) (hd : s.dmacr.getLsbD 0 = false)
    (hw : s.wbPending = none) (hs : ∀ c, (s.eng c).cr &&& strobe = 0) (hc : ∀ c, (s.eng c).coalEvt = 0)
    (hy : ∀ c, (s.eng c).dlyEvt = 0) : s.EngineSound where
  resetting_bit := by rw [hr, hd]
  reset_quiet h := by simp [hr] at h
  pending_active h := absurd hw h
  strobe_clear := hs
  coalEvt_le c := by simp [hc c]
  dlyEvt_le c := by simp [hy c]

/-! ## Caller obligations and guarded turns -/

theorem apart_iff (a n b m : Nat) : apart a n b m = true ↔ Apart a n b m := by simp [apart, Apart]

/-- The check that Machine/Turn.lean makes is `PlatformOk`. -/
theorem State.platformOk_iff (s : State) : s.platformOk = true ↔ s.PlatformOk := by
  simp only [State.platformOk, Ring.platformOk, Ring.contiguous, Ring.clearOfRegisters, Ring.strideCoversLine, ringsApart,
    registerBlockBytes, Bool.and_eq_true, Bool.or_eq_true, Bool.not_eq_true', decide_eq_true_eq, beq_iff_eq, apart_iff]
  constructor
  · rintro ⟨⟨⟨⟨c0, v0, p0⟩, l0⟩, ⟨c1, v1, p1⟩, l1⟩, av, ap⟩
    refine ⟨fun c => ?_, ⟨av, ap, fun c => ?_⟩, fun hc c hn => ?_⟩
    · cases c <;> assumption
    · cases c <;> exact ⟨‹_›, ‹_›⟩
    · cases c
      · exact l0.resolve_left (fun h => h.elim (by simp [hc]) hn)
      · exact l1.resolve_left (fun h => h.elim (by simp [hc]) hn)
  · rintro ⟨hc, ⟨av, ap, hr⟩, hl⟩
    have line : ∀ c, (s.cfg.cached = false ∨ (s.ring c).count = 0) ∨ s.cfg.cacheLine ≤ (s.ring c).separation.toNat := by
      intro c
      by_cases h : s.cfg.cached = true
      · by_cases hn : (s.ring c).count = 0
        · exact .inl (.inr hn)
        · exact .inr (hl h c hn)
      · exact .inl (.inl (by simpa using h))
    exact ⟨⟨⟨⟨hc .tx, (hr .tx).1, (hr .tx).2⟩, line .tx⟩, ⟨hc .rx, (hr .rx).1, (hr .rx).2⟩, line .rx⟩, av, ap⟩

/-- A state that passes both checks is admitted. -/
theorem State.admitted_of_checks (s : State) (h1 : s.cfg.wf = true) (h2 : s.platformOk = true) : s.Admitted :=
  ⟨h1, s.platformOk_iff.1 h2⟩

/-- An admitted state passes the two checks of a turn. -/
theorem turn_of_admitted (s : State) (h : s.Admitted) : turn s =
    match s.sched with
    | [] => managerTurn s
    | .manager :: rest => managerTurn { s with sched := rest }
    | .engine e :: rest => { s with sched := rest }.guardedEngineTurn e
    | .cache e :: rest => .next ({ s with sched := rest }.cacheTurn e)
    | .host e :: rest => hostTurn { s with sched := rest } e :=
  (if_neg (by simp [h.cfg])).trans (if_neg (by simp [s.platformOk_iff.2 h.platform]))

/-- The engine's guarded turn, where it answers, is the engine's turn. -/
theorem State.guardedEngineTurn_next (s t : State) (e : EngineEvent) (h : s.guardedEngineTurn e = .next t) :
    t = s.engineTurn e := by
  unfold State.guardedEngineTurn at h
  split_ifs at h
  exact (Host.Outcome.next.inj h).symm

/-- While a command waits a turn of the host changes nothing. -/
theorem hostTurn_of_waiting (s : State) (e : HostEvent) (h : s.waiting ≠ none) : hostTurn s e = .next s := by
  simp [hostTurn, Option.isSome_iff_ne_none.2 h]

/-- Some of the `n` bytes at `a`, counted modulo the address space, lies in the `len` bytes at `base`: one of the two ranges
begins in the other. -/
theorem exists_byte_inRegion_iff (base a : Word) (len n : Nat) :
    (∃ i < n, inRegion base len (byteAddr a i) = true) ↔
      ((a - base).toNat < len ∧ n ≠ 0) ∨ ((base - a).toNat < n ∧ len ≠ 0) := by
  have key : ∀ i, inRegion base len (byteAddr a i) = true ↔
      ((a - base).toNat + i) % 2 ^ 32 < len := by
    intro i
    have : BitVec.ofNat 32 (byteAddr a i) - base = (a - base) + BitVec.ofNat 32 i := by
      simp only [byteAddr, BitVec.ofNat_toNat, BitVec.setWidth_eq]
      rw [BitVec.sub_eq_add_neg, BitVec.sub_eq_add_neg, BitVec.add_assoc, BitVec.add_comm (BitVec.ofNat 32 i),
        ← BitVec.add_assoc]
    simp only [inRegion, decide_eq_true_eq, this, BitVec.toNat_add, BitVec.toNat_ofNat, Nat.add_mod_mod]
  have hd : ((a - base).toNat = 0 ∧ (base - a).toNat = 0) ∨ (a - base).toNat + (base - a).toNat = 2 ^ 32 := by
    simp only [BitVec.toNat_sub]
    omega
  simp only [key]
  have hx := (a - base).isLt
  generalize (a - base).toNat = x at *
  generalize (base - a).toNat = y at *
  constructor
  · rintro ⟨i, hi, h⟩
    omega
  · rintro (⟨h, hn⟩ | ⟨h, hl⟩)
    · exact ⟨0, by omega, by omega⟩
    · exact ⟨y, h, by omega⟩

/-- The machine's check of a fetch is `FetchesOverRing`. -/
theorem State.bufferOverRing_iff (s : State) (c : Channel) : s.bufferOverRing c = true ↔ s.FetchesOverRing c := by
  have meets : ∀ (r : Ring) (a : Word) (n : Nat), r.meetsBuffer a n = true ↔
      ∃ i < n, inRegion r.firstPhys r.length.toNat (byteAddr a i) = true := by
    intro r a n
    rw [exists_byte_inRegion_iff]
    have : r.length ≠ 0 ↔ r.length.toNat ≠ 0 := by
      rw [ne_eq, ne_eq, ← BitVec.toNat_inj]; rfl
    simp only [Ring.meetsBuffer, Bool.or_eq_true, Bool.and_eq_true, decide_eq_true_eq, bne_iff_ne, this]
  have apart' : s.BufferApart c ↔ ¬ ∃ c' i, i < (s.engRead (s.eng c).cdesc 2).toNat ∧
      inRegion (s.ring c').firstPhys (s.ring c').length.toNat (byteAddr (s.engRead (s.eng c).cdesc 1) i) = true := by
    simp [State.BufferApart]
  rw [State.FetchesOverRing, apart', not_not]
  simp only [State.bufferOverRing, Bool.and_eq_true, Bool.or_eq_true, Bool.not_eq_true', meets, and_assoc]
  have cmp : hasFlag (s.engRead (s.eng c).cdesc 3) flagCmp = false ↔ s.engRead (s.eng c).cdesc 3 &&& 0x10000000 = 0 := by
    simp [hasFlag, flagCmp]
  rw [cmp]
  refine and_congr_right' (and_congr_right' ?_)
  constructor
  · rintro (h | h)
    · exact ⟨.tx, h⟩
    · exact ⟨.rx, h⟩
  · rintro ⟨c', h⟩
    cases c'
    · exact .inl h
    · exact .inr h

/-- An access that is not one aligned word never reaches a descriptor. -/
theorem State.narrowAccess_stops (s : State) (addr : Word) (n : Nat) :
    s.narrowAccess addr n = .refused .hostNarrowAccess ∨ s.narrowAccess addr n = .fault .hostUnmapped := by
  unfold State.narrowAccess
  split_ifs
  · exact .inl rfl
  · exact .inr rfl

end Sys2Proof.Machine
end

