-- ==== Sys2Proof/Tests/Slice0.lean ====
section
/-! SUPPORT. Tests on fixed values. Expected results come from the spec's own worked examples (spec/40_ring_setup.md to
spec/45_engine_agent.md) and vectors (spec/95_test_vectors.md V-ENC-1, V-ENC-2, V-CR-2, V-CR-3). First the checks of what is
well formed, then the decoder, then single steps, then, for every obligation with hypotheses, a witness that meets them. -/

namespace Sys2Proof.Tests

open Sys2Proof Sys2Proof.Machine

-- One theorem after another: elaborated at once, they need more thread stacks than the check's memory limit allows.
set_option Elab.async false

/-! ## WellFormed: an ill-formed term for each check -/

theorem test_channel_on_engine_wide_refused : (RawCommand.mk .pause .rx []).channelAllowed = false := by decide
theorem test_missing_operand_refused : (RawCommand.mk .bdWr .tx [1, 2]).operandsComplete = false := by decide
theorem test_extra_operand_refused : (RawCommand.mk .nop .tx [1]).wf = false := by decide
theorem test_min_align_below_4_refused : ({ Cfg.standard with minAlign := 2 }).minAlignOk = false := by decide
theorem test_min_align_not_power_of_two_refused : ({ Cfg.standard with minAlign := 48 }).minAlignOk = false := by decide
theorem test_wdog_word_3_refused : ({ Cfg.standard with wdogWord := 3 }).wdogWordOk = false := by decide
theorem test_wdog_word_8_refused : ({ Cfg.standard with wdogWord := 8 }).wdogWordOk = false := by decide
theorem test_no_change_in_byte_range_refused : ({ Cfg.standard with noChange := 255 }).noChangeOk = false := by decide
theorem test_standard_configuration_accepted : Cfg.standard.wf = true := by decide

/-! ## Decode: one word sequence per command (V-ENC-1) -/

theorem test_decode_nop : decode [0x00000000] = .instr .nop [] := by decide
theorem test_decode_create : decode [0x00000101, 0x18000000, 0x30000000, 0x00000040, 0x00000004]
    = .instr (.create .rx 0x18000000 0x30000000 64 4) [] := by decide
theorem test_decode_clone : decode [0x00000002, 0x00000000, 0x00000000, 0x00000000, 0x0C000000, 0x00000000, 0x00000000,
    0x00000000, 0x00000000, 0xABCD0000] = .instr (.clone .tx 0 0 0 0x0C000000 0 0 0 0 0xABCD0000) [] := by decide
theorem test_decode_alloc : decode [0x00000110, 0x00000003] = .instr (.alloc .rx 3) [] := by decide
theorem test_decode_unalloc : decode [0x00000011, 0x00000002, 0x20000040]
    = .instr (.unalloc .tx 2 0x20000040) [] := by decide
theorem test_decode_toHw : decode [0x00000112, 0x00000002, 0x30000000] = .instr (.toHw .rx 2 0x30000000) [] := by decide
theorem test_decode_fromHw : decode [0x00000113, 0x00000008] = .instr (.fromHw .rx 8) [] := by decide
theorem test_decode_free : decode [0x00000114, 0x00000002, 0x30000000] = .instr (.free .rx 2 0x30000000) [] := by decide
theorem test_decode_start : decode [0x00000120] = .instr (.start .rx) [] := by decide
theorem test_decode_pause : decode [0x00000021] = .instr .pause [] := by decide
theorem test_decode_resume : decode [0x00000022] = .instr .resume [] := by decide
theorem test_decode_reset : decode [0x00000023] = .instr .reset [] := by decide
theorem test_decode_setCoalesce : decode [0x00000130, 0xFFFFFFFF, 0x000000C8]
    = .instr (.setCoalesce .rx 0xFFFFFFFF 200) [] := by decide
theorem test_decode_getCoalesce : decode [0x00000131] = .instr (.getCoalesce .rx) [] := by decide
theorem test_decode_irqEnable : decode [0x00000032, 0x00000087] = .instr (.irqEnable .tx 0x87) [] := by decide
theorem test_decode_irqDisable : decode [0x00000133, 0x00000080] = .instr (.irqDisable .rx 0x80) [] := by decide
theorem test_decode_irqGet : decode [0x00000134] = .instr (.irqGet .rx) [] := by decide
theorem test_decode_irqAck : decode [0x00000135, 0x00000007] = .instr (.irqAck .rx 7) [] := by decide
theorem test_decode_bdRd : decode [0x00000140, 0x30000040, 0x00000003] = .instr (.bdRd .rx 0x30000040 3) [] := by decide
theorem test_decode_bdWr : decode [0x00000141, 0x30000040, 0x00000008, 0xCAFE0001]
    = .instr (.bdWr .rx 0x30000040 8 0xCAFE0001) [] := by decide
theorem test_decode_bdNext : decode [0x00000142, 0x300000C0] = .instr (.bdNext .rx 0x300000C0) [] := by decide
theorem test_decode_bdPrev : decode [0x00000143, 0x30000000] = .instr (.bdPrev .rx 0x30000000) [] := by decide
theorem test_decode_ringStat : decode [0x00000144, 0x0000000D] = .instr (.ringStat .rx 13) [] := by decide
theorem test_decode_regRd : decode [0x00000050, 0x00000040] = .instr (.regRd 0x40) [] := by decide
theorem test_decode_regWr : decode [0x00000051, 0x00000034, 0x01010085] = .instr (.regWr 0x34 0x01010085) [] := by decide

/-- V-ENC-3, first command: the words after it are left. -/
theorem test_decode_leaves_rest : decode [0x00000010, 0x00000002, 0x00000003, 0x00000120, 0x00000000]
    = .instr (.alloc .tx 2) [0x00000003, 0x00000120, 0x00000000] := by decide

/-! The illegal headers of V-ENC-2, and streams that hold no whole command. -/

theorem test_reject_opcode_03 : decode [0x00000003] = .rejected .unknownOpcode := by decide
theorem test_reject_opcode_FF : decode [0x000000FF] = .rejected .unknownOpcode := by decide
theorem test_reject_bit_9 : decode [0x00000210] = .rejected .reservedBits := by decide
theorem test_reject_bit_31 : decode [0x80000010] = .rejected .reservedBits := by decide
theorem test_reject_nop_on_channel_1 : decode [0x00000100] = .rejected .channelOnEngineWide := by decide
theorem test_reject_regWr_on_channel_1 : decode [0x00000151] = .rejected .channelOnEngineWide := by decide
theorem test_no_header_yet : decode [] = .rejected .noHeader := by decide
theorem test_operands_missing : decode [0x00000041, 0x20000000, 0x00000002] = .rejected .operandsMissing := by decide

/-! The host's numbering: bit 0 of the number is bit 0 of the header word, and the words above `nbits` are zero. -/

theorem test_table_word_alloc : decodeTableWord 64 0x0000000300000110 = some (.alloc .rx 3) := by decide
theorem test_table_word_short_operands_zero : decodeTableWord 32 0x00000012 = some (.toHw .tx 0 0) := by decide

/-! ## States to step from -/

/-- Host and physical address of descriptor 0 in the spec's examples. -/
def virtBase (isRx : Bool) : Word := if isRx then 0x30000000 else 0x20000000
def physBase (isRx : Bool) : Word := if isRx then 0x18000000 else 0x10000000

/-- The examples' ring of 4 descriptors of 64 bytes, with `post`, `hw` and `pre` descriptors in those groups, from index 0
on, and the rest Free. -/
def ring4 (isRx : Bool) (post hw pre : Nat) : Ring :=
  let at' := fun k => virtBase isRx + 64 * BitVec.ofNat 32 (k % 4)
  { Ring.powerOn isRx with
    count := 4, separation := 64, length := 256
    firstPhys := physBase isRx, firstVirt := virtBase isRx
    lastPhys := physBase isRx + 0xC0, lastVirt := virtBase isRx + 0xC0
    freeHead := at' (post + hw + pre), preHead := at' (post + hw), hwHead := at' post, postHead := at' 0
    freeCount := BitVec.ofNat 32 (4 - post - hw - pre), preCount := BitVec.ofNat 32 pre
    hwCount := BitVec.ofNat 32 hw, postCount := BitVec.ofNat 32 post
    hwTail := at' (post + hw + 3), restart := physBase isRx }

/-- A state with the two rings given, tail-pointer mode on. -/
def demo (tx rx : Ring) : State :=
  { State.reset with txRing := tx, rxRing := rx, dmacr := 0x0000001C }

/-- Word `w` of descriptor `bd` set in descriptor memory. -/
def State.put (s : State) (c : Channel) (bd : Word) (w : Nat) (v : Word) : State := s.setMemWord c bd w v

/-- The state a step or a command answers, if it answers one. -/
def after (r : Host.Outcome State Fault Refusal) : State :=
  match r with
  | .next t => t
  | _ => State.reset

/-- Two filled descriptors, SOP on the first and EOP on the second, in the Pre-process group of a Started send ring. -/
def filled : State :=
  State.put (State.put (State.put (State.put
    (demo { ring4 false 0 0 2 with runState := .started } (ring4 true 0 0 0))
    .tx 0x20000000 2 100) .tx 0x20000000 3 0x38000000) .tx 0x20000040 2 50) .tx 0x20000040 3 0x04000000

/-- The same two submitted, the engine at the first of them, the second one last. -/
def submitted : State :=
  State.put (State.put (State.put
    { demo { ring4 false 0 2 0 with runState := .started } (ring4 true 0 0 0) with
      txEng := { EngineChannel.powerOn with cdesc := 0x10000000, tdesc := 0x10000040, engState := .run } }
    .tx 0x20000000 0 0x10000040) .tx 0x20000000 3 0x08000000) .tx 0x20000040 3 0x04000000

/-- Two completed descriptors, a whole packet, in the Hardware group of the send ring. -/
def done : State :=
  State.put (State.put (demo (ring4 false 0 2 0) (ring4 true 0 0 0)) .tx 0x20000000 3 0x18000000)
    .tx 0x20000040 3 0x14000000

/-- The receive engine at a live descriptor of 64 bytes, the only one submitted. -/
def receiving : State :=
  State.put (State.put (State.put
    { demo (ring4 false 0 0 0) (ring4 true 0 1 0) with
      rxEng := { EngineChannel.powerOn with cdesc := 0x18000000, tdesc := 0x18000000, engState := .run } }
    .rx 0x30000000 0 0x18000040) .rx 0x30000000 2 64) .rx 0x30000000 7 0xFFFFFFFF

/-- The draws of a receive completion of 60 bytes, a whole packet. -/
def draws : EngDraws :=
  { err := false, len := 60, sop := true, eop := true, usr0 := 0, acc4 := 1, acc5 := 2, acc6 := 3, acc7 := 4 }

/-- The receive write-back of `receiving` pending. -/
def pending : State := after (Machine.step { receiving with sched := [.engine (.step .rx draws)] })

/-! ## Single steps -/

theorem test_fetch_runs_nop_after_reset :
    (after (Machine.step (State.reset.withFetchWord 32 0))).response = [0] := by decide +kernel
theorem test_fetch_runs_regRd_after_reset :
    (after (Machine.step (State.reset.withFetchWord 64 0x1800000050))).response = [0, 0x00004000] := by decide +kernel
theorem test_illegal_header_consumes_one_word :
    let t := after (Machine.step { State.reset with stream := [0x00000003, 0x00000120] })
    t.response = [16] ∧ t.stream = [0x00000120] := by decide +kernel

/-- R150's worked example: `next` of the first and the last descriptor, and the status words. -/
theorem test_create_words :
    let t := after (exec (.create .tx 0x10000000 0x20000000 64 4) State.reset)
    t.response = [0] ∧ t.memWord .tx 0x20000000 0 = 0x10000040 ∧ t.memWord .tx 0x20000000 3 = 0x10000000 ∧
      t.memWord .tx 0x200000C0 0 = 0x10000000 ∧ t.memWord .tx 0x200000C0 3 = 0 := by decide +kernel
/-- V-CR-2, lines 2, 3, 6, 8: the order of the checks. -/
theorem test_create_check_order :
    (after (exec (.create .tx 0x10000000 0x20000000 63 4) State.reset)).response = [1] ∧
    (after (exec (.create .tx 0x10000000 0x20000000 192 4) State.reset)).response = [2] ∧
    (after (exec (.create .tx 0x10000004 0x20000000 64 0) State.reset)).response = [3] ∧
    (after (exec (.create .tx 0x10000000 0xFFFFFF00 64 5) State.reset)).response = [5] := by decide +kernel
/-- R155's worked example, the last descriptor. -/
theorem test_clone_words :
    let t := after (exec (.clone .tx 0 0 0 0x0C000000 0 0 0 0 0xABCD0000) (demo (ring4 false 0 0 0) (ring4 true 0 0 0)))
    t.response = [0] ∧ t.memWord .tx 0x200000C0 3 = 0x1C000000 ∧ t.memWord .tx 0x200000C0 8 = 0xABCD0000 := by
  decide +kernel
/-- R170's worked example. -/
theorem test_alloc_three :
    let t := after (exec (.alloc .tx 3) (demo (ring4 false 0 0 0) (ring4 true 0 0 0)))
    t.response = [0, 0x20000000] ∧ t.txRing.freeHead = 0x200000C0 ∧ t.txRing.preCount = 3 := by decide +kernel
/-- V-CR-3, line 6: `free_head` wraps at the top of the address space. -/
theorem test_alloc_wraps_at_top :
    let s := after (exec (.create .tx 0x10000000 0xFFFFFF00 64 4) State.reset)
    (after (exec (.alloc .tx 4) s)).txRing.freeHead = 0xFFFFFF00 ∧
      (after (exec (.bdNext .tx 0xFFFFFFC0) s)).response = [0, 0xFFFFFF00] := by decide +kernel
/-- R173's worked example: `free_head` moves back whatever `set` says. -/
theorem test_unalloc_two :
    let t := after (exec (.unalloc .tx 2 0x20000040) (demo (ring4 false 0 0 3) (ring4 true 0 0 0)))
    t.response = [0] ∧ t.txRing.freeHead = 0x20000040 ∧ t.txRing.freeCount = 3 := by decide +kernel
/-- R176's worked example, with `CMP` and `SOE` set before: both are cleared, the tail is kicked. -/
theorem test_toHw_two :
    let t := after (exec (.toHw .tx 2 0x20000000) filled)
    t.response = [0] ∧ t.memWord .tx 0x20000000 3 = 0x08000000 ∧ t.txRing.hwTail = 0x20000040 ∧
      t.txEng.tdesc = 0x10000040 ∧ t.txEng.engState = .run := by decide +kernel
/-- C1: the prefix of a turned away submission is rewritten, the bookkeeping is not. -/
theorem test_toHw_zero_length_second :
    let t := after (exec (.toHw .tx 2 0x20000000) (State.put filled .tx 0x20000040 2 0))
    t.response = [13] ∧ t.memWord .tx 0x20000000 3 = 0x08000000 ∧ t.txRing = filled.txRing := by decide +kernel
/-- R180's worked example. -/
theorem test_fromHw_packet :
    let t := after (exec (.fromHw .tx 8) done)
    t.response = [0, 2, 0x20000000] ∧ t.txRing.hwHead = 0x20000080 ∧ t.txRing.postCount = 2 := by decide +kernel
/-- R180: had only the first been completed, nothing is returned. -/
theorem test_fromHw_partial :
    (after (exec (.fromHw .tx 8) (State.put done .tx 0x20000040 3 0x04000000))).response = [0, 0, 0] := by decide +kernel
/-- R186's worked example. -/
theorem test_free_two :
    let t := after (exec (.free .tx 2 0x20000000) (demo (ring4 false 2 0 0) (ring4 true 0 0 0)))
    t.response = [0] ∧ t.txRing.postHead = 0x20000080 ∧ t.txRing.freeCount = 4 := by decide +kernel
/-- R200's worked example. -/
theorem test_start_sets_cdesc :
    let t := after (exec (.start .tx) (demo (ring4 false 0 0 0) (ring4 true 0 0 0)))
    t.response = [0] ∧ t.txEng.cdesc = 0x10000000 ∧ t.txRing.runState = .started := by decide +kernel
/-- R203's worked example. -/
theorem test_pause_sets_bits :
    let t := after (Machine.step (after (exec .pause (demo (ring4 false 0 0 0) (ring4 true 0 0 0)))))
    t.response = [0] ∧ t.dmacr = 0x3000001C := by decide +kernel
/-- R207's worked example. -/
theorem test_resume_clears_bits :
    let t := after (exec .resume { demo (ring4 false 0 0 0) (ring4 true 0 0 0) with dmacr := 0x3000001C })
    t.dmacr = 0x0000001C ∧ t.rxRing.runState = .started := by decide +kernel
/-- R208: the first part snapshots `CDESC` and sets the reset bit. -/
theorem test_reset_snapshots :
    let t := after (exec .reset submitted)
    t.txRing.restart = 0x10000000 ∧ t.dmacr = 1 ∧ t.response = [] := by decide +kernel
/-- R220's worked examples. -/
theorem test_setCoalesce_fields :
    let s := { State.reset with txEng := { EngineChannel.powerOn with cr := 0x01010000 } }
    let t := after (exec (.setCoalesce .tx 5 10) s)
    t.txEng.cr = 0x0A050000 ∧ t.txEng.coalCtr = 5 := by decide +kernel
theorem test_getCoalesce_fields :
    (after (exec (.getCoalesce .tx) { State.reset with txEng := { EngineChannel.powerOn with cr := 0x0A050000 } })).response
      = [0, 5, 10] := by decide +kernel
/-- R224's and R225's worked examples. -/
theorem test_irqEnable_then_disable :
    let s := { State.reset with rxEng := { EngineChannel.powerOn with cr := 0x01010000 } }
    let t := after (exec (.irqEnable .rx 0x85) s)
    t.rxEng.cr = 0x01010085 ∧ t.rxRing.irqMask = 0x85 ∧ (after (exec (.irqDisable .rx 0x80) t)).rxEng.cr = 0x01010005 := by
  decide +kernel
/-- R226's and R227's worked examples. -/
theorem test_irqGet_then_ack :
    let s := { State.reset with txEng := { EngineChannel.powerOn with coalEvt := 1 } }
    (after (exec (.irqGet .tx) s)).response = [0, 0x00004401] ∧
      (after (exec (.irqGet .tx) (after (exec (.irqAck .tx 1) s)))).response = [0, 0x00004000] := by decide +kernel
/-- R240: the Hardware group may not be read; a Free descriptor may. -/
theorem test_bdRd_ownership :
    (after (exec (.bdRd .tx 0x20000000 3) submitted)).response = [18, 0] ∧
      (after (exec (.bdRd .tx 0x20000080 3) submitted)).response = [0, 0] := by decide +kernel
/-- R241's worked examples. -/
theorem test_bdWr_ownership :
    (after (exec (.bdWr .tx 0x20000000 2 1500) filled)).memWord .tx 0x20000000 2 = 1500 ∧
      (after (exec (.bdWr .tx 0x20000080 2 1500) filled)).response = [18] ∧
      (after (exec (.bdWr .tx 0x20000000 0 0) filled)).response = [18] := by decide +kernel
/-- R243's worked example. -/
theorem test_bdPrev_wraps :
    (after (exec (.bdPrev .tx 0x20000000) filled)).response = [0, 0x200000C0] := by decide +kernel
/-- R244's worked examples. -/
theorem test_ringStat :
    let s := demo (ring4 false 0 0 0) (ring4 true 0 0 0)
    (after (exec (.ringStat .tx 11) s)).response = [0, 4] ∧ (after (exec (.ringStat .tx 6) s)).response = [0, 0x200000C0] ∧
      (after (exec (.ringStat .tx 20) s)).response = [17, 0] := by decide +kernel
/-- R246's worked example. -/
theorem test_regWr_cr :
    let t := after (exec (.regWr 0x34 0x01010085) State.reset)
    t.rxEng.cr = 0x01010085 ∧ t.rxRing.irqMask = 0 := by decide +kernel
/-- R265, R266: the send engine completes the first of two, and goes on. -/
theorem test_send_completion :
    let t := after (Machine.step { submitted with sched := [.engine (.step .tx draws)] })
    t.memWord .tx 0x20000000 3 = 0x18000000 ∧ t.txEng.cdesc = 0x10000040 ∧ t.txEng.engState = .run := by decide +kernel
/-- R267, R268: the two phases of a receive completion; the watchdog word is written last. -/
theorem test_receive_completion :
    let u := after (Machine.step { pending with sched := [.engine (.rxFinish 5)] })
    pending.wbPending = some 0x18000000 ∧ pending.memWord .rx 0x30000000 7 = 0xFFFFFFFF ∧
      pending.memWord .rx 0x30000000 3 = 0x1C000000 ∧ u.memWord .rx 0x30000000 7 = 5 ∧ u.memWord .rx 0x30000000 2 = 60 ∧
      u.rxEng.cdesc = 0x18000040 ∧ u.rxEng.engState = .idle ∧ u.rxEng.coalEvt = 1 := by decide +kernel

/-! ## Witnesses: the hypotheses of the statements can be met -/

theorem ready (s : State) (h : s.waiting = none) (hs : s.sched = []) (hc : s.cfg.wf = true) (hp : s.platformOk = true) :
    s.ManagerReady [] := ⟨s.admitted_of_checks hc hp, h, .inr ⟨hs, rfl⟩⟩

/-- An engine event of a state whose rings and configuration meet the obligations; no fetch over a ring where the machine's
check finds none. -/
theorem engine_ready (s : State) (e : EngineEvent) (q : List Turn) (hc : s.cfg.wf = true) (hp : s.platformOk = true)
    (hs : s.sched = .engine e :: q) (hb : s.eventKeepsPlatform e = true) : s.EngineReady e q :=
  ⟨s.admitted_of_checks hc hp, hs, fun c x h f => by
    subst h; simp [State.eventKeepsPlatform, (s.bufferOverRing_iff c).2 f] at hb⟩

theorem witness_decode_of_encode : (Instr.bdWr .rx 0xFFFFFFFF 8 0).WellFormed := rfl
theorem witness_encode_of_decode : decode [0x00000112, 1, 2, 3] = .instr (.toHw .rx 1 2) [3] := by decide
theorem witness_header_selects : (0x00000110 : Word) &&& Opcode.mask .alloc = Opcode.matchWord .alloc := by decide
theorem witness_illegal_header_reserved :
    ({ State.reset with stream := [0x00000210] } : State).ManagerReady [] ∧ headerReserved 0x00000210 ≠ 0 :=
  ⟨ready _ rfl rfl rfl rfl, by decide⟩
theorem witness_illegal_header_opcode :
    ({ State.reset with stream := [0x00000052, 7], sched := [.manager] } : State).ManagerReady [] ∧
      headerOpc 0x00000052 ∉ [(0x00 : BitVec 8), 0x01, 0x02, 0x10, 0x11, 0x12, 0x13, 0x14, 0x20, 0x21, 0x22, 0x23, 0x30,
        0x31, 0x32, 0x33, 0x34, 0x35, 0x40, 0x41, 0x42, 0x43, 0x44, 0x50, 0x51] :=
  ⟨⟨State.admitted_of_checks _ rfl rfl, rfl, .inl rfl⟩, by decide⟩
theorem witness_illegal_header_channel :
    headerOpc 0x00000151 ∈ [(0x00 : BitVec 8), 0x21, 0x22, 0x23, 0x50, 0x51] ∧ headerChannel 0x00000151 = .rx := by decide
theorem witness_step_runs :
    ({ State.reset with stream := [0x00000110, 3] } : State).ManagerReady [] ∧ (Instr.alloc .rx 3).WellFormed ∧
      decode [0x00000110, 3] = .instr (.alloc .rx 3) [] := ⟨ready _ rfl rfl rfl rfl, rfl, by decide⟩
theorem witness_manager_waits :
    State.reset.ManagerReady [] ∧ decode State.reset.stream = .rejected .noHeader ∧
      decode [0x00000110] = .rejected .operandsMissing := ⟨ready _ rfl rfl rfl rfl, by decide, by decide⟩
theorem witness_engine_turn : ({ State.reset with sched := [.engine .resetDone] } : State).EngineReady .resetDone [] :=
  engine_ready _ _ _ rfl rfl rfl rfl
/-- A command that waits, and none. -/
theorem witness_host_turn :
    (demo (ring4 false 0 0 0) (ring4 true 0 0 0)).Admitted ∧ State.reset.waiting = none ∧
      ({ State.reset with waiting := some ⟨.pause, 0⟩, sched := [.host (.directRead 0 4)] } : State).waiting ≠ none :=
  ⟨State.admitted_of_checks _ rfl (by decide +kernel), rfl, by decide⟩
/-- Two rings over each other; a physical region that wraps by one byte too many, and one that ends at the top; a cache line
longer than the stride; the second ring over the register block's last byte. -/
theorem witness_platform_breach :
    (demo (ring4 false 0 0 0) { ring4 true 0 0 0 with firstPhys := 0x100000C0 }).platformOk = false ∧
      ({ ring4 false 0 0 0 with firstPhys := 0xFFFFFF01 } : Ring).contiguous = false ∧
      ({ ring4 false 0 0 0 with firstPhys := 0xFFFFFF00 } : Ring).contiguous = true ∧
      (ring4 false 0 0 0).strideCoversLine { Cfg.standard with cached := true, cacheLine := 65 } = false ∧
      ({ ring4 true 0 0 0 with firstVirt := 0x80000040 } : Ring).clearOfRegisters 0x80000000 = false ∧
      ({ ring4 true 0 0 0 with firstVirt := 0x80000044 } : Ring).clearOfRegisters 0x80000000 = true := by decide +kernel
/-- A CREATE over the other ring; with `CACHED`, an alignment below the cache line although the stride is not. -/
theorem witness_create_owed :
    let s := demo (Ring.powerOn false) (ring4 true 0 0 0)
    let u := { State.reset with cfg := { Cfg.standard with cached := true, cacheLine := 64, minAlign := 32 } }
    ¬ s.CommandOwed (.create .tx 0x18000000 0x20000000 64 4) ∧ s.CommandOwed .nop ∧
      ¬ u.CommandOwed (.create .tx 0x10000000 0x20000000 32 4) ∧ strideOf 32 = 64 :=
  ⟨fun h => absurd ((h _ _ _ _ _ rfl ⟨rfl, by decide, by decide, by decide, by decide, by decide, by decide⟩).rings .rx
      (by decide)).2 (by unfold Apart; decide +kernel),
    (by intro ch p v al n h; cases h),
    fun h => absurd ((h _ _ _ _ _ rfl ⟨rfl, by decide, by decide, by decide, by decide, by decide, by decide⟩).line rfl)
      (by decide), by decide⟩
/-- R340, U11: the buffer's last byte is the send ring's first. -/
theorem witness_fetch_over_ring :
    let s := State.put (State.put submitted .tx 0x20000000 1 0x0FFFFFC1) .tx 0x20000000 2 64
    s.FetchesOverRing .tx ∧ ¬ (State.put s .tx 0x20000000 2 63).FetchesOverRing .tx :=
  ⟨(State.bufferOverRing_iff _ _).1 (by decide +kernel), fun h => absurd ((State.bufferOverRing_iff _ _).2 h) (by decide +kernel)⟩
theorem witness_host_read :
    filled.locate (0x20000000 + BitVec.ofNat 32 (4 * 8)) = some (.tx, 0x20000000, 8) ∧
      (0x20000000 + BitVec.ofNat 32 (4 * 8) : Word).toNat % 4 = 0 ∧ (filled.ring .tx).group 0x20000000 ≠ .hw := by
  decide +kernel
theorem witness_host_write :
    filled.locate (0x20000040 + BitVec.ofNat 32 (4 * 1)) = some (.tx, 0x20000040, 1) ∧
      (filled.ring .tx).group 0x20000040 = .pre ∧ (1 : Nat) ≠ 0 := by decide +kernel
/-- A byte of a descriptor word; the last byte of the region's padding; an access that begins below the region. -/
theorem witness_host_narrow :
    (2 : Nat) ≠ 4 ∧ (0x1FFFFFFE : Word).toNat % 4 ≠ 0 ∧ (filled.ring .tx).count ≠ 0 ∧
      inRegion (filled.ring .tx).firstVirt (filled.ring .tx).length.toNat (byteAddr 0x20000002 0) = true ∧
      inRegion (filled.ring .tx).firstVirt (filled.ring .tx).length.toNat (byteAddr 0x200000FF 0) = true ∧
      inRegion (filled.ring .tx).firstVirt (filled.ring .tx).length.toNat (byteAddr 0x1FFFFFFE 2) = true := by decide +kernel
/-- A narrow access just above the region and just below it. -/
theorem witness_host_narrow_outside (c : Channel) (i : Nat) (h : i < 2) :
    inRegion (filled.ring c).firstVirt (filled.ring c).length.toNat (byteAddr 0x20000100 i) = false ∧
      inRegion (filled.ring c).firstVirt (filled.ring c).length.toNat (byteAddr 0x1FFFFFFE i) = false := by
  revert i; cases c <;> decide +kernel
/-- R83, U14: a byte of padding is refused, not unmapped; a padding word is unmapped. R20: no access while a command waits. -/
theorem test_host_padding :
    hostTurn filled (.directRead 0x20000024 1) = .refused .hostNarrowAccess ∧
      hostTurn filled (.directRead 0x20000024 4) = .fault .hostUnmapped ∧
      hostTurn { filled with waiting := some ⟨.pause, 0⟩ } (.directRead 0x20000024 1)
        = .next { filled with waiting := some ⟨.pause, 0⟩ } := ⟨rfl, rfl, rfl⟩
theorem witness_host_hardware_read :
    submitted.locate 0x20000004 = some (.tx, 0x20000000, 1) ∧ (0x20000004 : Word).toNat % 4 = 0 ∧
      (submitted.ring .tx).group 0x20000000 = .hw ∧ submitted.waiting = none := by decide +kernel
theorem witness_host_violation :
    submitted.locate 0x20000004 = some (.tx, 0x20000000, 1) ∧ (submitted.ring .tx).group 0x20000000 ≠ .pre ∧
      filled.locate 0x20000000 = some (.tx, 0x20000000, 0) := by decide +kernel
theorem witness_host_unmapped :
    State.reset.waiting = none ∧ State.reset.locate 0x20000000 = none ∧ filled.locate 0x20000024 = none ∧ filled.locate 0x20000100 = none := by
  decide +kernel
/-- The region ends exactly at the top of the address space. -/
theorem witness_create_accepts :
    CreateAccepts State.reset.cfg (State.reset.ring .tx) 0x10000000 0xFFFFFF00 64 4 ∧ State.reset.cfg.wf = true :=
  ⟨⟨rfl, by decide, by decide, by decide, by decide, by decide, by decide⟩, rfl⟩
/-- One byte more than the address space. -/
theorem witness_create_refused : ¬ CreateAccepts State.reset.cfg (State.reset.ring .tx) 0x10000000 0xFFFFFF40 64 4 :=
  fun h => absurd h.fits (by decide)
theorem witness_clone_refused :
    (filled.ring .tx).freeCount ≠ (filled.ring .tx).count ∧ { ring4 false 0 0 0 with runState := .started }.runState
      = .started := by decide +kernel

theorem ring4_free (isRx : Bool) : (ring4 isRx 0 0 0).Sound :=
  Ring.sound_of_checks _ (by cases isRx <;> decide +kernel) (by cases isRx <;> decide +kernel)
theorem ring4_mixed : (ring4 false 1 1 1).Sound := Ring.sound_of_checks _ (by decide +kernel) (by decide +kernel)
theorem filled_sound : (filled.ring .tx).Sound := Ring.sound_of_checks _ (by decide +kernel) (by decide +kernel)
theorem done_sound : (done.ring .tx).Sound := Ring.sound_of_checks _ (by decide +kernel) (by decide +kernel)
theorem receiving_sound : (receiving.ring .rx).Sound := Ring.sound_of_checks _ (by decide +kernel) (by decide +kernel)

theorem witness_clone_completes :
    (ring4 false 0 0 0).Sound ∧ (ring4 false 0 0 0).freeCount = (ring4 false 0 0 0).count ∧
      (ring4 false 0 0 0).runState = .stopped ∧ (Ring.powerOn false).Sound := ⟨ring4_free _, rfl, rfl, .inl rfl⟩
/-- All that is Free, on a created ring and on one never created. -/
theorem witness_alloc : (ring4 false 1 1 1).Sound ∧ (1 : Word) ≤ (ring4 false 1 1 1).freeCount ∧
    (0 : Word) ≤ (Ring.powerOn false).freeCount := ⟨ring4_mixed, by decide +kernel, by decide⟩
theorem witness_unalloc : (ring4 false 1 1 1).Sound ∧ (1 : Word) ≤ (ring4 false 1 1 1).preCount := ⟨ring4_mixed, by decide +kernel⟩
/-- All of the Pre-process group, a two-descriptor packet. -/
theorem witness_toHw_completes :
    filled.cfg.wf = true ∧ (filled.ring .tx).Sound ∧ (2 : Word) ≠ 0 ∧ (2 : Word) ≤ (filled.ring .tx).preCount ∧
      filled.hostWord .tx (filled.ring .tx).preHead 3 &&& 0x08000000 ≠ 0 ∧
      filled.LengthsSet .tx (filled.ring .tx).preHead 2 ∧
      filled.hostWord .tx ((filled.ring .tx).adv (filled.ring .tx).preHead 1) 3 &&& 0x04000000 ≠ 0 :=
  ⟨rfl, filled_sound, by decide, by decide +kernel, by decide +kernel, by unfold State.LengthsSet; decide +kernel,
    by decide +kernel⟩
theorem witness_toHw_no_sop :
    (2 : Word) ≤ (filled.ring .tx).preCount ∧
      (State.put filled .tx 0x20000000 3 0).hostWord .tx (filled.ring .tx).preHead 3 &&& 0x08000000 = 0 := by
  decide +kernel
/-- The first descriptor of the set without a length; the last one without EOP. -/
theorem witness_toHw_validation :
    (State.put filled .tx 0x20000000 2 0).LengthsSet .tx 0x20000000 0 ∧
      (State.put filled .tx 0x20000000 2 0).hostWord .tx 0x20000000 2 = 0 ∧
      (State.put filled .tx 0x20000040 3 0).LengthsSet .tx 0x20000000 1 ∧
      (State.put filled .tx 0x20000040 3 0).hostWord .tx 0x20000040 3 &&& 0x04000000 = 0 := by
  unfold State.LengthsSet; decide +kernel
theorem witness_fromHw : done.cfg.wf = true ∧ (done.ring .tx).Sound ∧
    (after (exec (.fromHw .tx 2) done)).response = [0, 2, 0x20000000] := ⟨rfl, done_sound, by decide +kernel⟩
theorem witness_free : (ring4 false 1 1 1).Sound ∧ (1 : Word) ≠ 0 ∧ (1 : Word) ≤ (ring4 false 1 1 1).postCount :=
  ⟨ring4_mixed, by decide, by decide +kernel⟩
theorem witness_ownership_failures :
    (ring4 false 1 1 1).freeCount < 2 ∧ (ring4 false 1 1 1).preCount < 2 ∧ (ring4 false 1 1 1).postCount < 2 ∧
      (0x20000000 : Word) ≠ (ring4 false 1 1 1).preHead ∧ (0x20000040 : Word) ≠ (ring4 false 1 1 1).postHead := by
  decide +kernel
theorem witness_start :
    (State.reset.ring .tx).count = 0 ∧ (filled.ring .tx).runState = .started ∧ (filled.ring .tx).count ≠ 0 ∧
      (done.ring .tx).count ≠ 0 ∧ (done.ring .tx).runState = .stopped := by decide +kernel
theorem demo_engineSound (tx rx : Ring) : (demo tx rx).EngineSound :=
  State.engineSound_of_quiet _ rfl (show (0x0000001C : Word).getLsbD 0 = false by decide) rfl
    (by intro c; cases c <;> exact (by decide : (0 : Word) &&& strobe = 0)) (by intro c; cases c <;> rfl)
    (by intro c; cases c <;> rfl)
theorem witness_pause : (demo (ring4 false 0 0 0) (ring4 true 0 0 0)).EngineSound ∧
    (demo (ring4 false 0 0 0) (ring4 true 0 0 0)).wbPending = none ∧
    budgetSpent (demo (ring4 false 0 0 0) (ring4 true 0 0 0)).cfg 0 = false ∧
    (demo (ring4 false 0 0 0) (ring4 true 0 0 0)).ManagerNext [] ∧
    (demo (ring4 false 0 0 0) (ring4 true 0 0 0)).Admitted :=
  ⟨demo_engineSound _ _, rfl, rfl, .inr ⟨rfl, rfl⟩, State.admitted_of_checks _ rfl (by decide +kernel)⟩
theorem witness_reset :
    let s := { demo (ring4 false 0 0 0) (ring4 true 0 0 0) with sched := [.engine .resetDone] }
    s.Admitted ∧ s.EngineSound ∧ s.resetting = false ∧ budgetSpent s.cfg 0 = false ∧
      s.sched = .engine .resetDone :: [] :=
  ⟨State.admitted_of_checks _ rfl (by decide +kernel), State.engineSound_of_quiet _ rfl (show (0x0000001C : Word).getLsbD 0 = false by decide) rfl
    (by intro c; cases c <;> exact (by decide : (0 : Word) &&& strobe = 0)) (by intro c; cases c <;> rfl)
    (by intro c; cases c <;> rfl), rfl, rfl, rfl⟩
/-- A PAUSE that waits for a pending write-back, and a RESET that waits for its bit; the budget's last poll, and one poll
before it. -/
theorem witness_wait_polls :
    let s := { pending with waiting := some ⟨.pause, 2⟩, cfg := { Cfg.standard with spinBudget := some 3 } }
    let u := { demo (ring4 false 0 0 0) (ring4 true 0 0 0) with
      waiting := some ⟨.reset, 1⟩, dmacr := 1, cfg := { Cfg.standard with spinBudget := some 3 } }
    s.Admitted ∧ s.ManagerNext [] ∧ s.wbPending ≠ none ∧ s.cfg.spinBudget = some 3 ∧ 3 ≤ 2 + 1 ∧
      u.Admitted ∧ u.ManagerNext [] ∧ u.dmacr.getLsbD 0 = true ∧ 1 + 1 < 3 :=
  ⟨State.admitted_of_checks _ rfl (by decide +kernel), .inr ⟨by decide +kernel, rfl⟩, by decide +kernel, rfl, by decide,
    State.admitted_of_checks _ rfl (by decide +kernel), .inr ⟨rfl, rfl⟩, by decide, by decide⟩
theorem witness_run_state :
    exec .resume State.reset = .next (after (exec .resume State.reset)) ∧
      (∃ t, Machine.step { State.reset with waiting := some ⟨.pause, 0⟩ } = .next t) ∧
      (∃ t, Machine.step { State.reset with sched := [.engine .resetDone] } = .next t) := ⟨rfl, ⟨_, rfl⟩, ⟨_, rfl⟩⟩
/-- The ends of the range, and "no change"; just outside it. -/
theorem witness_coalesce :
    (State.reset.eng .tx).cr &&& 0x100 = 0 ∧ CoalesceAccepts State.reset.cfg 1 ∧ CoalesceAccepts State.reset.cfg 255 ∧
      CoalesceAccepts State.reset.cfg 0xFFFFFFFF ∧ ¬ CoalesceAccepts State.reset.cfg 0 ∧
      ¬ CoalesceAccepts State.reset.cfg 256 := by
  unfold CoalesceAccepts; decide
theorem witness_coalesce_round_trip :
    State.reset.cfg.wf = true ∧ 1 ≤ (1 : Word).toNat ∧ (255 : Word).toNat ≤ 255 ∧
      (after (exec (.setCoalesce .tx 256 1) State.reset)).response ≠ [0] := by decide +kernel
theorem witness_interrupt_commands : (State.reset.eng .rx).cr &&& 0x100 = 0 := by decide
theorem witness_bdRd :
    (filled.ring .tx).isBd 0x200000C0 = true ∧ (8 : Word).toNat ≤ 8 ∧ (filled.ring .tx).group 0x200000C0 ≠ .hw := by
  decide +kernel
theorem witness_bdWr :
    (filled.ring .tx).Sound ∧ (filled.ring .tx).isBd 0x20000040 = true ∧ (8 : Word).toNat ≤ 8 ∧
      (filled.ring .tx).group 0x20000040 = .pre ∧ (8 : Word) ≠ 0 := ⟨filled_sound, by decide +kernel⟩
theorem witness_bdNext : (ring4 true 0 0 0).LaidOut ∧ (ring4 true 0 0 0).isBd 0x300000C0 = true :=
  ⟨Ring.laidOut_of_check _ (by decide +kernel), by decide +kernel⟩
theorem witness_access_failures :
    (filled.ring .tx).isBd 0x20000044 = false ∧ 8 < (9 : Word).toNat ∧ (submitted.ring .tx).group 0x20000040 = .hw ∧
      (filled.ring .tx).group 0x20000080 ≠ .pre ∧ 19 < (20 : Word).toNat ∧ (0x16 : Word).toNat % 4 ≠ 0 ∧
      0x40 < (0x44 : Word).toNat := by decide +kernel
theorem witness_ringStat : (19 : Word).toNat ≤ 19 := by decide
theorem witness_software_reset :
    ({ State.reset with resetting := true, dmacr := 1 } : State).resetting = true ∧ State.reset.resetting = false ∧
      (0x1C : Word).getLsbD 0 = false ∧ (1 : Word).getLsbD 0 = true := by decide
theorem witness_send :
    let s := { submitted with sched := [.engine (.step .tx draws)] }
    s.EngineReady (.step .tx draws) [] ∧ s.txEng.engState = .run ∧ s.resetting = false ∧ s.dmacr.getLsbD 29 = false ∧
      s.txRing.isPhysBd s.txEng.cdesc = true ∧ s.engRead s.txEng.cdesc 3 &&& 0x10000000 = 0 :=
  ⟨engine_ready _ _ _ rfl (by decide +kernel) rfl (by decide +kernel), by decide +kernel⟩
theorem witness_unit : (true = true ↔ (0x04000000 : Word) &&& 0x04000000 ≠ 0) := by decide
/-- The longest length the descriptor allows. -/
theorem witness_receive_begin :
    let x := { draws with len := 64 }
    let s := { receiving with sched := [.engine (.step .rx x)] }
    s.EngineReady (.step .rx x) [] ∧ s.rxEng.engState = .run ∧ s.resetting = false ∧ s.wbPending = none ∧
      s.dmacr.getLsbD 28 = false ∧ s.rxRing.isPhysBd s.rxEng.cdesc = true ∧
      s.engRead s.rxEng.cdesc 3 &&& 0x10000000 = 0 ∧ x.len ≤ s.engRead s.rxEng.cdesc 2 :=
  ⟨engine_ready _ _ _ rfl (by decide +kernel) rfl (by decide +kernel), by decide +kernel⟩
theorem witness_receive_finish :
    let s := { pending with sched := [.engine (.rxFinish 0)] }
    s.cfg.wf = true ∧ s.platformOk = true ∧ s.wbPending = some 0x18000000 ∧ s.resetting = false ∧ (0 : Word) ≠ s.cfg.wdogSentinel := by
  decide +kernel
theorem witness_other_engine_events :
    let inert := { done with txEng := { EngineChannel.powerOn with cdesc := 0x10000000, engState := .run } }
    let paused := { submitted with dmacr := 0x2000001C }
    let armed := { submitted with txEng := { submitted.txEng with dlyArmed := true, dlyEvt := 3 } }
    inert.txRing.isPhysBd inert.txEng.cdesc = true ∧ inert.engRead inert.txEng.cdesc 3 &&& 0x10000000 ≠ 0 ∧
      paused.dmacr.getLsbD 29 = true ∧ submitted.txEng.engState = .run ∧ armed.txEng.dlyArmed = true ∧
      armed.resetting = false := by decide +kernel
theorem witness_engine_never_writes :
    ∃ t, ({ pending with sched := [.engine (.rxFinish 0)] } : State).EngineReady (.rxFinish 0) [] ∧
      Machine.step { pending with sched := [.engine (.rxFinish 0)] } = .next t :=
  ⟨_, engine_ready _ _ _ (by decide +kernel) (by decide +kernel) rfl rfl, rfl⟩
theorem witness_halt :
    let s := { State.reset with txEng := { EngineChannel.powerOn with engState := .halt }, stream := [0x00000051, 0x40, 1] }
    (s.eng .tx).engState = .halt ∧ ∃ t, Machine.step s = .next t := ⟨rfl, _, rfl⟩
theorem witness_channel_independence : (Instr.toHw .rx 1 2).raw.opcode.scope = .channel ∧ Channel.tx ≠ (Instr.toHw .rx 1 2).raw.ch := by
  decide
theorem witness_response_shape :
    exec (.alloc .tx 1) State.reset = .next (State.reset.respond .noSpace [0]) ∧
      (State.reset.respond .noSpace [0]).waiting = none := ⟨rfl, rfl⟩
theorem reset_ringsSound : ∃ t, Machine.step State.reset = .next t ∧ (∀ c, (State.reset.ring c).Sound) :=
  ⟨_, rfl, fun c => .inl (by cases c <;> rfl)⟩
theorem witness_cyclic : (ring4 false 1 1 1).LaidOut ∧ (ring4 false 1 1 1).Partitioned ∧
    (ring4 false 1 1 1).isBd 0x200000C0 = true ∧ 4 ≤ (ring4 false 1 1 1).count.toNat :=
  ⟨Ring.laidOut_of_check _ (by decide +kernel), Ring.partitioned_of_check _ (by decide +kernel), by decide +kernel⟩
theorem witness_word_memory : 4 ≤ ((0x10000004 : Word) - 0x10000000).toNat ∧ 4 ≤ ((0x10000000 : Word) - 0x10000004).toNat := by
  decide
/-- The last word a copy holds; a dirty copy, and a clean one. -/
theorem witness_cache_hooks :
    let line := fun b => ({ addr := 0x20000000, words := Vector.replicate 8 5, dirty := b } : CacheLine)
    (7 : Nat) < 8 ∧ (8 : Nat) ≤ 8 ∧ State.reset.cfg.cached = false ∧
      cacheFind [line true] 0x20000000 = some (line true) ∧ (line true).dirty = true ∧
      cacheFind [line false] 0x20000000 = some (line false) ∧ (line false).dirty = false := by decide

end Sys2Proof.Tests
end

section
/-! SUPPORT. What the caller obligations read of a state, the configuration and the rings' layouts, and that no turn of any
agent changes it but a CREATE whose checks pass (spec/70_reset_and_hazards.md R340, R341, R345). -/

namespace Sys2Proof.Machine

/-! ## The frame -/

/-- The fields of a ring that the caller obligations read. -/
def Ring.layout (r : Ring) : Word × Word × BitVec 33 × Word × Word :=
  (r.count, r.separation, r.length, r.firstPhys, r.firstVirt)

/-- The configuration and the layout of both rings are as before. -/
structure SameLayout (s t : State) : Prop where
  cfg : t.cfg = s.cfg
  ring : ∀ c, (t.ring c).layout = (s.ring c).layout

/-- The answer is a next state, whose configuration and layouts are as before. -/
def AnswersSameLayout (s : State) (r : Result) : Prop := ∃ t, r = .next t ∧ SameLayout s t

section Frame

variable {s t u : State}

theorem SameLayout.refl (s : State) : SameLayout s s := ⟨rfl, fun _ => rfl⟩

theorem SameLayout.trans (h : SameLayout s t) (k : SameLayout t u) : SameLayout s u :=
  ⟨k.cfg.trans h.cfg, fun c => (k.ring c).trans (h.ring c)⟩

theorem SameLayout.answers (h : SameLayout s t) : AnswersSameLayout s (.next t) := ⟨t, rfl, h⟩

/-- The rings as a whole are as before: so it is where an update touches neither them nor the configuration. -/
theorem SameLayout.of_rings (hc : t.cfg = s.cfg) (h0 : t.txRing = s.txRing) (h1 : t.rxRing = s.rxRing) :
    SameLayout s t :=
  ⟨hc, fun | .tx => congrArg Ring.layout h0 | .rx => congrArg Ring.layout h1⟩

theorem SameButDescriptors.sameLayout (h : SameButDescriptors s t) : SameLayout s t :=
  ⟨h.cfg, fun c => congrArg Ring.layout (h.ring c)⟩

theorem SameButEngine.sameLayout (h : SameButEngine s t) : SameLayout s t :=
  ⟨h.cfg, fun c => congrArg Ring.layout (h.ring c)⟩

/-! Each shared operation, after a state of the same layout. -/

theorem SameLayout.setRing (h : SameLayout s t) (c : Channel) (r : Ring) (hr : r.layout = (s.ring c).layout) :
    SameLayout s (t.setRing c r) where
  cfg := (t.setRing_cfg c r).trans h.cfg
  ring c' := by
    by_cases hc : c' = c
    · rw [hc, State.setRing_ring_same, hr]
    · rw [State.setRing_ring_other t c c' r hc, h.ring c']

theorem SameLayout.setEng (h : SameLayout s t) (c : Channel) (e : EngineChannel) : SameLayout s (t.setEng c e) :=
  h.trans (t.setEng_frame c e).sameLayout

theorem SameLayout.respond (h : SameLayout s t) (st : Status) (rs : List Word) : SameLayout s (t.respond st rs) :=
  h.trans (.of_rings rfl rfl rfl)

theorem SameLayout.bdRead (h : SameLayout s t) (c : Channel) (bd : Word) (w : Nat) :
    SameLayout s (t.bdRead c bd w).2 := h.trans (t.bdRead_frame c bd w).sameLayout

theorem SameLayout.bdWrite (h : SameLayout s t) (c : Channel) (bd : Word) (w : Nat) (v : Word) :
    SameLayout s (t.bdWrite c bd w v) := h.trans (t.bdWrite_frame c bd w v).sameLayout

theorem SameLayout.engWrite (h : SameLayout s t) (pa : Word) (w : Nat) (v : Word) : SameLayout s (t.engWrite pa w v) :=
  h.trans (t.engWrite_frame pa w v).sameLayout

theorem SameLayout.regRead (h : SameLayout s t) (r : Reg) : SameLayout s (t.regRead r).2 := by
  rw [t.regRead_frame r]
  exact h.trans (.of_rings rfl rfl rfl)

theorem SameLayout.regWrite (h : SameLayout s t) (r : Reg) (v : Word) : SameLayout s (t.regWrite r v) :=
  h.trans (t.regWrite_frame r v).sameLayout

theorem SameLayout.setRunState (h : SameLayout s t) (c : Channel) (rs : RunState) : SameLayout s (t.setRunState c rs) :=
  h.setRing c _ (h.ring c)

theorem SameLayout.programCoalesce (h : SameLayout s t) (c : Channel) (counter timer : Word) :
    SameLayout s (t.programCoalesce c counter timer) := (h.regRead (.cr c)).regWrite (.cr c) _

theorem SameLayout.waitOn (h : SameLayout s t) (k : WaitKind) (polls : Nat) : SameLayout s (t.waitOn k polls) := by
  unfold State.waitOn
  split_ifs
  · exact h.trans (.of_rings rfl rfl rfl)
  · exact h.trans (.of_rings rfl rfl rfl)

end Frame

/-! ## The commands but CREATE -/

section Commands

variable (s : State) (ch : Channel)

theorem execNop_sameLayout : AnswersSameLayout s (execNop s) := ((SameLayout.refl s).respond _ _).answers

theorem execBdRd_sameLayout (bd w : Word) : AnswersSameLayout s (execBdRd ch bd w s) := by
  simp only [execBdRd]
  split_ifs
  · exact ((SameLayout.refl s).respond _ _).answers
  · exact ((SameLayout.refl s).respond _ _).answers
  · exact (((SameLayout.refl s).bdRead _ _ _).respond _ _).answers

theorem execBdWr_sameLayout (bd w value : Word) : AnswersSameLayout s (execBdWr ch bd w value s) := by
  simp only [execBdWr]
  split_ifs
  · exact ((SameLayout.refl s).respond _ _).answers
  · exact ((SameLayout.refl s).respond _ _).answers
  · exact ((SameLayout.refl s).respond _ _).answers
  · exact (((SameLayout.refl s).bdWrite _ _ _ _).respond _ _).answers

theorem execBdNext_sameLayout (bd : Word) : AnswersSameLayout s (execBdNext ch bd s) := by
  simp only [execBdNext]
  split_ifs
  · exact ((SameLayout.refl s).respond _ _).answers
  · exact ((SameLayout.refl s).respond _ _).answers

theorem execBdPrev_sameLayout (bd : Word) : AnswersSameLayout s (execBdPrev ch bd s) := by
  simp only [execBdPrev]
  split_ifs
  · exact ((SameLayout.refl s).respond _ _).answers
  · exact ((SameLayout.refl s).respond _ _).answers

theorem execRingStat_sameLayout (sel : Word) : AnswersSameLayout s (execRingStat ch sel s) := by
  unfold execRingStat
  split
  · exact ((SameLayout.refl s).respond _ _).answers
  · exact ((SameLayout.refl s).respond _ _).answers

theorem execRegRd_sameLayout (off : Word) : AnswersSameLayout s (execRegRd off s) := by
  unfold execRegRd
  split
  · exact ((SameLayout.refl s).respond _ _).answers
  · exact (((SameLayout.refl s).regRead _).respond _ _).answers

theorem execRegWr_sameLayout (off value : Word) : AnswersSameLayout s (execRegWr off value s) := by
  unfold execRegWr
  split
  · exact ((SameLayout.refl s).respond _ _).answers
  · exact (((SameLayout.refl s).regWrite _ _).respond _ _).answers

theorem execSetCoalesce_sameLayout (counter timer : Word) :
    AnswersSameLayout s (execSetCoalesce ch counter timer s) := by
  unfold execSetCoalesce
  split_ifs
  · exact (((SameLayout.refl s).programCoalesce _ _ _).respond _ _).answers
  · exact ((SameLayout.refl s).respond _ _).answers

theorem execGetCoalesce_sameLayout : AnswersSameLayout s (execGetCoalesce ch s) :=
  (((SameLayout.refl s).regRead _).respond _ _).answers

theorem State.changeEnables_sameLayout (f : Word → Word) : SameLayout s (s.changeEnables ch f) := by
  have h := ((SameLayout.refl s).regRead (.cr ch)).regWrite (.cr ch) (f (s.regRead (.cr ch)).1)
  exact h.setRing ch _ (h.ring ch)

theorem execIrqEnable_sameLayout (mask : Word) : AnswersSameLayout s (execIrqEnable ch mask s) :=
  ((s.changeEnables_sameLayout ch _).respond _ _).answers

theorem execIrqDisable_sameLayout (mask : Word) : AnswersSameLayout s (execIrqDisable ch mask s) :=
  ((s.changeEnables_sameLayout ch _).respond _ _).answers

theorem execIrqGet_sameLayout : AnswersSameLayout s (execIrqGet ch s) :=
  (((SameLayout.refl s).regRead _).respond _ _).answers

theorem execIrqAck_sameLayout (mask : Word) : AnswersSameLayout s (execIrqAck ch mask s) :=
  (((SameLayout.refl s).regWrite _ _).respond _ _).answers

theorem SameLayout.rekick {s t : State} (h : SameLayout s t) (c : Channel) : SameLayout s (t.rekick c) := by
  simp only [State.rekick]
  have hi : SameLayout s (t.invalidate c (t.ring c).hwTail) := h.trans (t.invalidate_frame c _).sameLayout
  split_ifs
  · exact h
  · exact hi.bdRead _ _ _
  · exact (hi.bdRead _ _ _).regWrite _ _

theorem execStart_sameLayout : AnswersSameLayout s (execStart ch s) := by
  simp only [execStart]
  split_ifs
  · exact ((SameLayout.refl s).respond _ _).answers
  · exact ((SameLayout.refl s).respond _ _).answers
  · exact (((((SameLayout.refl s).regWrite _ _).rekick ch).setRunState ch _).respond _ _).answers

theorem execPause_sameLayout : AnswersSameLayout s (execPause s) :=
  ((((SameLayout.refl s).regRead _).regWrite _ _).waitOn _ _).answers

theorem execResume_sameLayout : AnswersSameLayout s (execResume s) :=
  ((((((SameLayout.refl s).regRead _).regWrite _ _).setRunState .tx _).setRunState .rx _).respond _ _).answers

theorem SameLayout.snapshotRestart {s t : State} (h : SameLayout s t) (c : Channel) :
    SameLayout s (t.snapshotRestart c) := (h.regRead _).setRing c _ (h.ring c)

theorem execReset_sameLayout : AnswersSameLayout s (execReset s) :=
  (((((SameLayout.refl s).snapshotRestart .tx).snapshotRestart .rx).regWrite _ _).waitOn _ _).answers

theorem execAlloc_sameLayout (n : Word) : AnswersSameLayout s (execAlloc ch n s) := by
  simp only [execAlloc]
  split_ifs
  · exact ((SameLayout.refl s).respond _ _).answers
  · exact (((SameLayout.refl s).setRing ch _ (by rfl)).respond _ _).answers

theorem execUnalloc_sameLayout (n set : Word) : AnswersSameLayout s (execUnalloc ch n set s) := by
  simp only [execUnalloc]
  split_ifs
  · exact ((SameLayout.refl s).respond _ _).answers
  · exact (((SameLayout.refl s).setRing ch _ (by rfl)).respond _ _).answers

theorem execFree_sameLayout (n set : Word) : AnswersSameLayout s (execFree ch n set s) := by
  simp only [execFree]
  split_ifs
  · exact ((SameLayout.refl s).respond _ _).answers
  · exact ((SameLayout.refl s).respond _ _).answers
  · exact (((SameLayout.refl s).setRing ch _ (by rfl)).respond _ _).answers

theorem SameLayout.commitSubmission {s t : State} (h : SameLayout s t) (c : Channel) (n cur : Word) :
    SameLayout s (t.commitSubmission c n cur) := by
  simp only [State.commitSubmission]
  split_ifs
  · exact (h.setRing c _ (by exact h.ring c)).regWrite _ _
  · exact h.setRing c _ (h.ring c)

theorem execToHw_sameLayout (n set : Word) : AnswersSameLayout s (execToHw ch n set s) := by
  simp only [execToHw]
  have hread := (SameLayout.refl s).bdRead ch set 3
  have hwalk := hread.trans
    (toHwWalk_frame ch (n.toNat - 1) set (s.bdRead ch set 3).1 (s.bdRead ch set 3).2).sameLayout
  split_ifs
  · exact ((SameLayout.refl s).respond _ _).answers
  · exact ((SameLayout.refl s).respond _ _).answers
  · exact (hread.respond _ _).answers
  · exact ((hwalk.commitSubmission ch n _).respond _ _).answers
  · exact (hwalk.respond _ _).answers

theorem execFromHw_sameLayout (limit : Word) : AnswersSameLayout s (execFromHw ch limit s) := by
  simp only [execFromHw]
  have hwalk := (fromHwWalk_frame ch limit.toNat (s.ring ch).hwHead 0 0 s).1.sameLayout
  split_ifs
  · exact ((SameLayout.refl s).respond _ _).answers
  · exact (hwalk.respond _ _).answers
  · exact ((hwalk.setRing ch _ (by rfl)).respond _ _).answers

theorem execClone_sameLayout (t0 t1 t2 t3 t4 t5 t6 t7 t8 : Word) :
    AnswersSameLayout s (execClone ch t0 t1 t2 t3 t4 t5 t6 t7 t8 s) := by
  simp only [execClone]
  split_ifs
  · exact ((SameLayout.refl s).respond _ _).answers
  · exact ((SameLayout.refl s).respond _ _).answers
  · have h := State.forEach_sameButDescriptors (s.ring ch).count.toNat
      (State.cloneDescriptor ch t1 t2 t3 t4 t5 t6 t7 t8) s (fun k t => State.cloneDescriptor_frame ch _ _ _ _ _ _ _ _ k t)
    exact (h.sameLayout.respond _ _).answers

/-- Every command but CREATE answers a next state of the same layout. -/
theorem exec_sameLayout (i : Instr) (h : ∀ ch p v a n, i ≠ .create ch p v a n) : AnswersSameLayout s (exec i s) := by
  cases i with
  | nop => exact execNop_sameLayout s
  | create ch p v a n => exact absurd rfl (h ch p v a n)
  | clone ch t0 t1 t2 t3 t4 t5 t6 t7 t8 => exact execClone_sameLayout s ch t0 t1 t2 t3 t4 t5 t6 t7 t8
  | alloc ch n => exact execAlloc_sameLayout s ch n
  | unalloc ch n set => exact execUnalloc_sameLayout s ch n set
  | toHw ch n set => exact execToHw_sameLayout s ch n set
  | fromHw ch limit => exact execFromHw_sameLayout s ch limit
  | free ch n set => exact execFree_sameLayout s ch n set
  | start ch => exact execStart_sameLayout s ch
  | pause => exact execPause_sameLayout s
  | resume => exact execResume_sameLayout s
  | reset => exact execReset_sameLayout s
  | setCoalesce ch counter timer => exact execSetCoalesce_sameLayout s ch counter timer
  | getCoalesce ch => exact execGetCoalesce_sameLayout s ch
  | irqEnable ch mask => exact execIrqEnable_sameLayout s ch mask
  | irqDisable ch mask => exact execIrqDisable_sameLayout s ch mask
  | irqGet ch => exact execIrqGet_sameLayout s ch
  | irqAck ch mask => exact execIrqAck_sameLayout s ch mask
  | bdRd ch bd w => exact execBdRd_sameLayout s ch bd w
  | bdWr ch bd w value => exact execBdWr_sameLayout s ch bd w value
  | bdNext ch bd => exact execBdNext_sameLayout s ch bd
  | bdPrev ch bd => exact execBdPrev_sameLayout s ch bd
  | ringStat ch sel => exact execRingStat_sameLayout s ch sel
  | regRd off => exact execRegRd_sameLayout s off
  | regWr off value => exact execRegWr_sameLayout s off value

/-- CREATE answers a state of the same layout where a check fails, and one of the created ring's layout where none does. -/
theorem execCreate_sameLayout (p v a n : Word) :
    AnswersSameLayout
      (if createCheck s.cfg (s.ring ch) p v a n = none then s.setRing ch ((s.ring ch).created p v a n) else s)
      (execCreate ch p v a n s) := by
  unfold execCreate
  cases hc : createCheck s.cfg (s.ring ch) p v a n with
  | some st => exact ((SameLayout.refl s).respond _ _).answers
  | none => exact ((s.createRing_frame ch p v a n).sameLayout.respond _ _).answers

end Commands

/-! ## The manager's polls, the engine, the cache, the host -/

section Agents

variable {s t : State}

theorem SameLayout.disableAll (h : SameLayout s t) (c : Channel) : SameLayout s (t.disableAll c) := by
  have hw := (h.regRead (.cr c)).regWrite (.cr c) ((t.regRead (.cr c)).1 &&& ~~~allEnable)
  exact hw.setRing c _ (hw.ring c)

theorem SameLayout.acknowledgeAll (h : SameLayout s t) (c : Channel) : SameLayout s (t.acknowledgeAll c) :=
  (h.regRead (.irq c)).regWrite (.irq c) _

theorem SameLayout.finishPause (h : SameLayout s t) : SameLayout s t.finishPause := by
  have hq : SameLayout s { t with waiting := none } := h.trans (.of_rings rfl rfl rfl)
  exact ((hq.setRunState .tx _).setRunState .rx _).respond _ _

theorem SameLayout.finishReset (h : SameLayout s t) : SameLayout s t.finishReset := by
  have hq : SameLayout s { t with waiting := none } := h.trans (.of_rings rfl rfl rfl)
  have hoff := (((hq.disableAll .tx).disableAll .rx).acknowledgeAll .tx).acknowledgeAll .rx
  have hcr := ((hoff.regWrite .dmacr resetDefault).programCoalesce .tx 1 1).programCoalesce .rx 1 1
  exact ((hcr.setRunState .tx _).setRunState .rx _).respond _ _

theorem State.poll_sameLayout (s : State) (w : Waiting) : SameLayout s (s.poll w) := by
  have h := (SameLayout.refl s).regRead
  unfold State.poll
  cases w.kind with
  | pause =>
    simp only
    split_ifs
    · exact (h _).finishPause
    · exact (h _).waitOn _ _
  | reset =>
    simp only
    split_ifs
    · exact (h _).waitOn _ _
    · exact (h _).finishReset

theorem State.rejectCommand_sameLayout (s : State) (why : DecodeError) : SameLayout s (s.rejectCommand why) := by
  unfold State.rejectCommand
  split_ifs
  · exact .of_rings rfl rfl rfl
  · exact .refl s

theorem SameLayout.haltWithError (h : SameLayout s t) (c : Channel) : SameLayout s (t.haltWithError c) := h.setEng c _

theorem SameLayout.countUnit (h : SameLayout s t) (c : Channel) (sts : Word) : SameLayout s (t.countUnit c sts) := by
  rw [t.countUnit_frame c sts]
  exact h.setEng c _

theorem SameLayout.advance (h : SameLayout s t) (c : Channel) (d nx : Word) : SameLayout s (t.advance c d nx) :=
  h.setEng c _

theorem SameLayout.writeAccessory (h : SameLayout s t) (d : Word) (w : Nat) (v : Word) :
    SameLayout s (t.writeAccessory d w v) := by
  unfold State.writeAccessory
  split_ifs
  · exact h
  · exact h.engWrite _ _ _

theorem State.sendComplete_sameLayout (s : State) (d nx st : Word) (err : Bool) :
    SameLayout s (s.sendComplete d nx st err) := by
  have h := ((SameLayout.refl s).engWrite d 3 (sendStatus st err)).countUnit .tx (sendStatus st err)
  simp only [State.sendComplete]
  split_ifs
  · exact (h.haltWithError .tx).advance _ _ _
  · exact h.advance _ _ _

theorem State.recvBegin_sameLayout (s : State) (d st : Word) (x : EngDraws) : SameLayout s (s.recvBegin d st x) := by
  have hacc := ((((SameLayout.refl s).writeAccessory d 4 x.acc4).writeAccessory d 5 x.acc5).writeAccessory
    d 6 x.acc6).writeAccessory d 7 x.acc7
  have h := (hacc.engWrite d 2 x.len).engWrite d 3 (recvStatus st x)
  simp only [State.recvBegin]
  split_ifs
  · exact (h.haltWithError .rx).trans (.of_rings rfl rfl rfl)
  · exact h.trans (.of_rings rfl rfl rfl)

theorem State.engStep_sameLayout (s : State) (c : Channel) (x : EngDraws) : SameLayout s (s.engStep c x) := by
  cases c with
  | tx =>
    simp only [State.engStep]
    split_ifs
    · exact (SameLayout.refl s).setEng .tx _
    · exact s.sendComplete_sameLayout _ _ _ _
    · exact .refl s
  | rx =>
    simp only [State.engStep]
    split_ifs
    · exact (SameLayout.refl s).setEng .rx _
    · exact s.recvBegin_sameLayout _ _ _
    · exact .refl s
    · exact .refl s

theorem State.engRxFinish_sameLayout (s : State) (v : Word) : SameLayout s (s.engRxFinish v) := by
  unfold State.engRxFinish
  cases s.wbPending with
  | none => exact .refl s
  | some d =>
    simp only
    split_ifs
    · exact .refl s
    · have h : SameLayout s { s.engWrite d s.cfg.wdogWord v with wbPending := none } := .of_rings rfl rfl rfl
      exact (h.countUnit .rx _).advance _ _ _

theorem State.engDelay_sameLayout (s : State) (c : Channel) : SameLayout s (s.engDelay c) := by
  have h : SameLayout s (s.delayEvent c) := by
    rw [s.delayEvent_frame c]
    exact (SameLayout.refl s).setEng c _
  simp only [State.engDelay]
  split_ifs
  · exact h.setEng c _
  · exact .refl s

theorem State.engineTurn_sameLayout (s : State) (e : EngineEvent) : SameLayout s (s.engineTurn e) := by
  cases e with
  | step c x => exact s.engStep_sameLayout c x
  | rxFinish v => exact s.engRxFinish_sameLayout v
  | error c =>
    simp only [State.engineTurn, State.engError]
    split_ifs
    · exact (SameLayout.refl s).haltWithError c
    · exact .refl s
  | delay c => exact s.engDelay_sameLayout c
  | resetDone =>
    simp only [State.engineTurn, State.engResetDone]
    split_ifs
    · exact .of_rings rfl rfl rfl
    · exact .refl s

theorem State.cacheWriteBack_sameLayout (s : State) (c : Channel) (d : Word) : SameLayout s (s.cacheWriteBack c d) := by
  unfold State.cacheWriteBack
  split
  · split_ifs
    · exact ((s.writeBackLine_frame c _).trans (State.putLine_frame _ _ _)).sameLayout
    · exact .refl s
  · exact .refl s

theorem State.cacheEvict_sameLayout (s : State) (c : Channel) (d : Word) : SameLayout s (s.cacheEvict c d) := by
  unfold State.cacheEvict
  split
  · split_ifs
    · exact (s.setCache_frame c _).sameLayout
    · exact .refl s
  · exact .refl s

theorem State.cacheTurn_sameLayout (s : State) (e : CacheEvent) : SameLayout s (s.cacheTurn e) := by
  cases e with
  | writeBack c d => exact s.cacheWriteBack_sameLayout c d
  | evict c d => exact s.cacheEvict_sameLayout c d

/-- The ways a direct host access stops (R83, U8, U14, assumption 12). -/
def HostStops (r : Result) : Prop :=
  r = .fault .hostUnmapped ∨ r = .refused .hostNarrowAccess ∨ r = .refused .hostOwnershipWrite

theorem State.narrowAccess_hostStops (s : State) (addr : Word) (n : Nat) : HostStops (s.narrowAccess addr n) := by
  rcases s.narrowAccess_stops addr n with h | h
  · exact .inr (.inl h)
  · exact .inl h

theorem hostRead_outcome (addr : Word) (n : Nat) (s : State) :
    HostStops (hostRead addr n s) ∨ AnswersSameLayout s (hostRead addr n s) := by
  unfold hostRead
  split_ifs
  · exact .inl (s.narrowAccess_hostStops addr n)
  · rcases s.locate addr with _ | ⟨c, bd, w⟩
    · exact .inl (.inl rfl)
    · have h : SameLayout s (if (s.ring c).group bd = .hw then s.drawWord else s.bdRead c bd w).2 := by
        split_ifs
        · exact s.drawWord_frame.sameLayout
        · exact (SameLayout.refl s).bdRead c bd w
      exact .inr ⟨_, rfl, h.trans (.of_rings rfl rfl rfl)⟩

theorem hostWrite_outcome (addr : Word) (n : Nat) (v : Word) (s : State) :
    HostStops (hostWrite addr n v s) ∨ AnswersSameLayout s (hostWrite addr n v s) := by
  unfold hostWrite
  split_ifs
  · exact .inl (s.narrowAccess_hostStops addr n)
  · rcases s.locate addr with _ | ⟨c, bd, w⟩
    · exact .inl (.inl rfl)
    · simp only
      split_ifs
      · exact .inr ((SameLayout.refl s).bdWrite c bd w v).answers
      · exact .inl (.inr (.inr rfl))

/-- A turn of the host stops as a direct access does, or answers a state of the same layout. -/
theorem hostTurn_outcome (s : State) (e : HostEvent) :
    HostStops (hostTurn s e) ∨ AnswersSameLayout s (hostTurn s e) := by
  unfold hostTurn
  split_ifs
  · exact .inr (SameLayout.refl s).answers
  · cases e with
    | present ws => exact .inr (SameLayout.answers (.of_rings rfl rfl rfl))
    | directRead addr n => exact hostRead_outcome addr n s
    | directWrite addr n v => exact hostWrite_outcome addr n v s

end Agents

end Sys2Proof.Machine
end

section
/-! SUPPORT. When a turn is refused for its configuration or for a caller obligation (spec/00_scope.md R7,
spec/93_implementation_defined.md U11, U12, U16): the two checks of a configuration and of a CREATE in the terms of Safety.lean,
and every outcome a turn can have. -/

namespace Sys2Proof.Machine

/-! ## R7's constraints on a configuration -/

theorem and_sub_one_eq_zero_iff (a : Word) (h : 1 ≤ a.toNat) : a &&& (a - 1) = 0 ↔ ∃ k, a.toNat = 2 ^ k := by
  have hsub : (a - 1).toNat = a.toNat - 1 :=
    BitVec.toNat_sub_of_le (BitVec.le_def.2 h)
  rw [← BitVec.toNat_inj, BitVec.toNat_and, hsub]
  exact Nat.and_sub_one_eq_zero_iff_isPowerOfTwo (by omega)

theorem minAlignOk_iff (c : Cfg) :
    c.minAlignOk = true ↔ 4 ≤ c.minAlign.toNat ∧ ∃ k, c.minAlign.toNat = 2 ^ k := by
  simp only [Cfg.minAlignOk, Bool.and_eq_true, decide_eq_true_eq, beq_iff_eq]
  exact and_congr_right fun h => and_sub_one_eq_zero_iff _ (by omega)

theorem cfg_wf_iff (c : Cfg) :
    c.wf = true ↔ (4 ≤ c.minAlign.toNat ∧ ∃ k, c.minAlign.toNat = 2 ^ k) ∧ (4 ≤ c.wdogWord ∧ c.wdogWord ≤ 7) ∧
      255 < c.noChange.toNat := by
  simp only [Cfg.wf, Cfg.wdogWordOk, Cfg.noChangeOk, Bool.and_eq_true, decide_eq_true_eq, minAlignOk_iff, and_assoc]

theorem cfg_not_wf_iff (c : Cfg) :
    c.wf = false ↔ c.minAlign.toNat < 4 ∨ (¬ ∃ k, c.minAlign.toNat = 2 ^ k) ∨ c.wdogWord < 4 ∨ 7 < c.wdogWord ∨
      c.noChange.toNat ≤ 255 := by
  simp only [← Bool.not_eq_true, cfg_wf_iff, not_and_or, not_le, not_lt, or_assoc]

/-! ## What each ring owes, and the two rings owe each other -/

/-- R340, R341, R345 of one ring. -/
structure Ring.Placed (cfg : Cfg) (r : Ring) : Prop where
  contiguous : r.PhysicallyContiguous
  virtClear : Apart r.firstVirt.toNat r.length.toNat cfg.engineBase.toNat 0x44
  physClear : Apart r.firstPhys.toNat r.length.toNat cfg.engineBase.toNat 0x44
  line : cfg.cached = true → r.count ≠ 0 → cfg.cacheLine ≤ r.separation.toNat

/-- R340 of two rings. -/
def Ring.ApartFrom (r r' : Ring) : Prop :=
  Apart r.firstVirt.toNat r.length.toNat r'.firstVirt.toNat r'.length.toNat ∧
    Apart r.firstPhys.toNat r.length.toNat r'.firstPhys.toNat r'.length.toNat

theorem Ring.apartFrom_comm (r r' : Ring) : r.ApartFrom r' ↔ r'.ApartFrom r :=
  and_congr or_comm or_comm

theorem State.platformOk_iff_placed (s : State) :
    s.PlatformOk ↔ (∀ c, (s.ring c).Placed s.cfg) ∧ s.txRing.ApartFrom s.rxRing := by
  constructor
  · rintro ⟨hcont, ⟨hvirt, hphys, hregs⟩, hlines⟩
    exact ⟨fun c => ⟨hcont c, (hregs c).1, (hregs c).2, fun hc => hlines hc c⟩, hvirt, hphys⟩
  · rintro ⟨hplaced, hvirt, hphys⟩
    exact ⟨fun c => (hplaced c).contiguous, ⟨hvirt, hphys, fun c => ⟨(hplaced c).virtClear, (hplaced c).physClear⟩⟩,
      fun hc c => (hplaced c).line hc⟩

/-- With the obligations met, what is left of them after one ring is replaced. -/
theorem State.platformOk_setRing_iff (s : State) (h : s.PlatformOk) (c : Channel) (r : Ring) :
    (s.setRing c r).PlatformOk ↔ r.Placed s.cfg ∧ ∀ c', c' ≠ c → r.ApartFrom (s.ring c') := by
  obtain ⟨hplaced, -⟩ := s.platformOk_iff_placed.1 h
  have hring : (∀ c', ((s.setRing c r).ring c').Placed s.cfg) ↔ r.Placed s.cfg := by
    refine ⟨fun ha => by simpa using ha c, fun hr c' => ?_⟩
    by_cases hc : c' = c
    · rwa [hc, State.setRing_ring_same]
    · rw [State.setRing_ring_other s c c' r hc]
      exact hplaced c'
  rw [State.platformOk_iff_placed, State.setRing_cfg, hring]
  refine and_congr_right fun _ => ?_
  cases c with
  | tx => exact ⟨fun ha c' hc => by cases c' <;> [exact absurd rfl hc; exact ha], fun ha => ha .rx (by decide)⟩
  | rx =>
    refine (Ring.apartFrom_comm _ _).trans
      ⟨fun ha c' hc => by cases c' <;> [exact ha; exact absurd rfl hc], fun ha => ha .tx (by decide)⟩

theorem Ring.placed_of_layout {cfg : Cfg} {r r' : Ring} (hl : r'.layout = r.layout) (h : r.Placed cfg) :
    r'.Placed cfg := by
  simp only [Ring.layout, Prod.mk.injEq] at hl
  obtain ⟨hcount, hsep, hlen, hphys, hvirt⟩ := hl
  obtain ⟨hc, hv, hp, hline⟩ := h
  constructor
  · rwa [Ring.PhysicallyContiguous, hphys, hlen]
  · rwa [hvirt, hlen]
  · rwa [hphys, hlen]
  · rwa [hcount, hsep]

theorem Ring.apartFrom_of_layout {r0 r0' r1 r1' : Ring} (h0 : r0'.layout = r0.layout) (h1 : r1'.layout = r1.layout)
    (h : r0.ApartFrom r1) : r0'.ApartFrom r1' := by
  simp only [Ring.layout, Prod.mk.injEq] at h0 h1
  obtain ⟨-, -, hlen0, hphys0, hvirt0⟩ := h0
  obtain ⟨-, -, hlen1, hphys1, hvirt1⟩ := h1
  rwa [Ring.ApartFrom, hlen0, hphys0, hvirt0, hlen1, hphys1, hvirt1]

/-- A state of the same layout as an admitted one is admitted. -/
theorem State.Admitted.of_sameLayout {s t : State} (h : s.Admitted) (hst : SameLayout s t) : t.Admitted := by
  obtain ⟨hplaced, hapart⟩ := s.platformOk_iff_placed.1 h.platform
  refine ⟨by rw [hst.cfg, h.cfg], t.platformOk_iff_placed.2 ⟨fun c => ?_, ?_⟩⟩
  · rw [hst.cfg]
    exact Ring.placed_of_layout (hst.ring c) (hplaced c)
  · exact Ring.apartFrom_of_layout (hst.ring .tx) (hst.ring .rx) hapart

/-! ## What a CREATE owes -/

theorem separationFor_eq_strideOf (a : Word) : separationFor a = strideOf a := by
  unfold separationFor strideOf
  rcases Nat.eq_zero_or_pos a.toNat with h | h
  · simp [h]
  · rw [Nat.mul_comm, Nat.add_sub_assoc h]

theorem le_strideOf (a : Word) (h : 0 < a.toNat) : a.toNat ≤ strideOf a :=
  Nat.le_mul_of_pos_right _ (Nat.div_pos (by omega) h)

/-- A stride is an alignment of 36 bytes or more, or shorter than 36 bytes and one alignment: it fits a word. -/
theorem strideOf_lt (a : Word) : strideOf a < 2 ^ 32 := by
  have hlt := a.isLt
  unfold strideOf
  rcases Nat.lt_or_ge a.toNat 36 with h | h
  · have hle := Nat.mul_div_le (36 + a.toNat - 1) a.toNat
    omega
  · have hone : (36 + a.toNat - 1) / a.toNat = 1 := Nat.div_eq_of_lt_le (by omega) (by omega)
    rw [hone]
    omega

theorem createCheck_eq_none_iff (cfg : Cfg) (r : Ring) (p v a n : Word) :
    createCheck cfg r p v a n = none ↔ CreateAccepts cfg r p v a n := by
  unfold createCheck
  rw [separationFor_eq_strideOf]
  constructor
  · intro h
    split_ifs at h with hfresh hmin hpow hbase hcount hfits
    rw [not_or, not_not, not_not] at hbase
    exact ⟨not_not.1 hfresh, BitVec.not_lt.1 hmin, not_not.1 hpow, hbase.1, hbase.2, hcount, not_lt.1 hfits⟩
  · rintro ⟨hfresh, hmin, hpow, hphys, hvirt, hcount, hfits⟩
    rw [if_neg (not_not.2 hfresh), if_neg (BitVec.not_lt.2 hmin), if_neg (not_not.2 hpow),
      if_neg (not_or.2 ⟨not_not.2 hphys, not_not.2 hvirt⟩), if_neg hcount, if_neg (not_lt.2 hfits)]

theorem CreateAccepts.alignment_pos {cfg : Cfg} {r : Ring} {p v a n : Word} (h : CreateAccepts cfg r p v a n)
    (hc : cfg.wf = true) : 0 < a.toNat := by
  have hmin := ((cfg_wf_iff cfg).1 hc).1.1
  have hle := BitVec.le_def.1 h.align_min
  omega

theorem Ring.created_separation (r : Ring) (p v a n : Word) : (r.created p v a n).separation.toNat = strideOf a := by
  simp only [Ring.created, separationFor_eq_strideOf, BitVec.toNat_ofNat]
  exact Nat.mod_eq_of_lt (strideOf_lt a)

theorem CreateAccepts.created_length {cfg : Cfg} {r : Ring} {p v a n : Word} (h : CreateAccepts cfg r p v a n) :
    (r.created p v a n).length.toNat = strideOf a * n.toNat := by
  have hfits := h.fits
  simp only [Ring.created, separationFor_eq_strideOf, BitVec.toNat_ofNat]
  exact Nat.mod_eq_of_lt (by omega)

/-- The machine's check of a CREATE that passes its own checks is `CreateOwed`. -/
theorem State.createKeepsPlatform_iff (s : State) (hs : s.Admitted) (ch : Channel) (p v a n : Word)
    (ha : CreateAccepts s.cfg (s.ring ch) p v a n) :
    s.createKeepsPlatform ch p v a n = true ↔ s.CreateOwed ch p v a n := by
  have hle := le_strideOf a (ha.alignment_pos hs.cfg)
  have hsep := (s.ring ch).created_separation p v a n
  have hlen := ha.created_length
  have hline : (!s.cfg.cached || decide (s.cfg.cacheLine ≤ a.toNat)) = true ↔
      (s.cfg.cached = true → s.cfg.cacheLine ≤ a.toNat) := by
    cases s.cfg.cached <;> simp
  rw [State.createKeepsPlatform, (createCheck_eq_none_iff s.cfg (s.ring ch) p v a n).2 ha]
  simp only [Bool.and_eq_true, hline, State.platformOk_iff, s.platformOk_setRing_iff hs.platform]
  constructor
  · rintro ⟨⟨⟨hcont, hvirt, hphys, -⟩, hrings⟩, hcl⟩
    rw [hlen] at hvirt hphys
    rw [Ring.PhysicallyContiguous, hlen] at hcont
    refine ⟨hcont, fun c' hc => ?_, ⟨hvirt, hphys⟩, hcl⟩
    have hr := hrings c' hc
    rwa [Ring.ApartFrom, hlen] at hr
  · rintro ⟨hcont, hrings, ⟨hvirt, hphys⟩, hcl⟩
    refine ⟨⟨⟨?_, ?_, ?_, fun hc _ => ?_⟩, fun c' hc => ?_⟩, hcl⟩
    · rwa [Ring.PhysicallyContiguous, hlen]
    · rwa [hlen]
    · rwa [hlen]
    · rw [hsep]
      exact (hcl hc).trans hle
    · rw [Ring.ApartFrom, hlen]
      exact hrings c' hc

/-- The machine's check of a command is `CommandOwed`. -/
theorem commandKeepsPlatform_iff (s : State) (hs : s.Admitted) (i : Instr) :
    commandKeepsPlatform i s = true ↔ s.CommandOwed i := by
  cases i with
  | create ch p v a n =>
    have hone : s.CommandOwed (.create ch p v a n) ↔
        (CreateAccepts s.cfg (s.ring ch) p v a n → s.CreateOwed ch p v a n) :=
      ⟨fun h => h ch p v a n rfl, by rintro h _ _ _ _ _ ⟨⟩; exact h⟩
    rw [hone]
    by_cases ha : CreateAccepts s.cfg (s.ring ch) p v a n
    · exact (s.createKeepsPlatform_iff hs ch p v a n ha).trans (by simp [ha])
    · obtain ⟨st, hst⟩ := Option.ne_none_iff_exists'.1 (mt (createCheck_eq_none_iff s.cfg (s.ring ch) p v a n).1 ha)
      simp [commandKeepsPlatform, State.createKeepsPlatform, hst, ha]
  | _ => simp [commandKeepsPlatform, State.CommandOwed]

/-- A CREATE that the machine runs answers an admitted state. -/
theorem execCreate_admitted (s : State) (hs : s.Admitted) (ch : Channel) (p v a n : Word)
    (h : s.createKeepsPlatform ch p v a n = true) : ∃ t, execCreate ch p v a n s = .next t ∧ t.Admitted := by
  obtain ⟨t, ht, hst⟩ := execCreate_sameLayout s ch p v a n
  refine ⟨t, ht, ?_⟩
  cases hc : createCheck s.cfg (s.ring ch) p v a n with
  | some st =>
    rw [if_neg (by simp [hc])] at hst
    exact hs.of_sameLayout hst
  | none =>
    rw [if_pos hc] at hst
    simp only [State.createKeepsPlatform, hc, Bool.and_eq_true] at h
    exact State.Admitted.of_sameLayout ⟨by simp [hs.cfg], (State.platformOk_iff _).1 h.1⟩ hst

/-- A command that keeps to the caller obligations answers an admitted state. -/
theorem exec_admitted (s : State) (hs : s.Admitted) (i : Instr) (h : commandKeepsPlatform i s = true) :
    ∃ t, exec i s = .next t ∧ t.Admitted := by
  by_cases hi : ∃ ch p v a n, i = .create ch p v a n
  · obtain ⟨ch, p, v, a, n, rfl⟩ := hi
    exact execCreate_admitted s hs ch p v a n h
  · obtain ⟨t, ht, hst⟩ := exec_sameLayout s i fun ch p v a n hc => hi ⟨ch, p, v, a, n, hc⟩
    exact ⟨t, ht, hs.of_sameLayout hst⟩

/-- The check of a command reads neither the command words nor the schedule. -/
theorem commandKeepsPlatform_of_stream_sched (i : Instr) (s : State) (ws : List Word) (q : List Turn) :
    commandKeepsPlatform i { s with stream := ws, sched := q } = commandKeepsPlatform i s := by
  cases i with
  | create ch => cases ch <;> rfl
  | _ => rfl

/-! ## The outcomes of one agent's turn -/

/-- The machine's check finds that the manager's next command would break a caller obligation. -/
def State.CommandBreaches (s : State) : Prop :=
  ∃ i rest, s.waiting = none ∧ decode s.stream = .instr i rest ∧ commandKeepsPlatform i s = false

theorem managerTurn_of_waiting (s : State) (w : Waiting) (hw : s.waiting = some w) :
    managerTurn s = .next (s.poll w) := by
  rw [managerTurn, hw]

theorem managerTurn_of_rejected (s : State) (why : DecodeError) (hw : s.waiting = none)
    (hd : decode s.stream = .rejected why) : managerTurn s = .next (s.rejectCommand why) := by
  simp only [managerTurn, hw, hd]

theorem managerTurn_of_instr (s : State) (i : Instr) (rest : List Word) (hw : s.waiting = none)
    (hd : decode s.stream = .instr i rest) :
    managerTurn s =
      if commandKeepsPlatform i s then exec i { s with stream := rest } else .refused .callerObligation := by
  simp only [managerTurn, hw, hd]

theorem managerTurn_outcome (s : State) (hs : s.Admitted) :
    (s.CommandBreaches ∧ managerTurn s = .refused .callerObligation) ∨
      (¬ s.CommandBreaches ∧ ∃ t, managerTurn s = .next t ∧ t.Admitted) := by
  rcases hw : s.waiting with _ | w
  · rcases hd : decode s.stream with ⟨i, rest⟩ | why
    · rw [managerTurn_of_instr s i rest hw hd]
      cases hk : commandKeepsPlatform i s with
      | false => exact .inl ⟨⟨i, rest, hw, hd, hk⟩, rfl⟩
      | true =>
        refine .inr ⟨fun ⟨_, _, _, hd', hk'⟩ => ?_, ?_⟩
        · cases hd.symm.trans hd'
          simp [hk] at hk'
        · exact exec_admitted { s with stream := rest } (hs.of_sameLayout (.of_rings rfl rfl rfl)) i
            ((commandKeepsPlatform_of_stream_sched i s rest s.sched).trans hk)
    · rw [managerTurn_of_rejected s why hw hd]
      exact .inr ⟨fun ⟨_, _, _, hd', _⟩ => by simp [hd] at hd', _, rfl,
        hs.of_sameLayout (s.rejectCommand_sameLayout why)⟩
  · rw [managerTurn_of_waiting s w hw]
    exact .inr ⟨fun ⟨_, _, hw', _⟩ => by simp [hw] at hw', _, rfl, hs.of_sameLayout (s.poll_sameLayout w)⟩

/-- The engine's event is a fetch of a live descriptor whose data buffer lies over a ring. -/
def State.EventBreaches (s : State) (e : EngineEvent) : Prop := ∃ c x, e = .step c x ∧ s.FetchesOverRing c

theorem State.eventKeepsPlatform_eq_false_iff (s : State) (e : EngineEvent) :
    s.eventKeepsPlatform e = false ↔ s.EventBreaches e := by
  cases e with
  | step c x => simp [State.eventKeepsPlatform, State.EventBreaches, State.bufferOverRing_iff]
  | _ => simp [State.eventKeepsPlatform, State.EventBreaches]

theorem State.guardedEngineTurn_outcome (s : State) (hs : s.Admitted) (e : EngineEvent) :
    (s.EventBreaches e ∧ s.guardedEngineTurn e = .refused .callerObligation) ∨
      (¬ s.EventBreaches e ∧ ∃ t, s.guardedEngineTurn e = .next t ∧ t.Admitted) := by
  rw [← s.eventKeepsPlatform_eq_false_iff e, State.guardedEngineTurn]
  cases s.eventKeepsPlatform e with
  | false => exact .inl ⟨rfl, rfl⟩
  | true => exact .inr ⟨by simp, _, rfl, hs.of_sameLayout (s.engineTurn_sameLayout e)⟩

/-! ## The outcomes of a step -/

/-- A caller obligation is broken in the state, or would be by its next step. -/
def State.Breaches (s : State) : Prop :=
  ¬ s.PlatformOk ∨
    (∃ q i rest, s.ManagerNext q ∧ s.waiting = none ∧ decode s.stream = .instr i rest ∧ ¬ s.CommandOwed i) ∨
    (∃ q c x, s.sched = .engine (.step c x) :: q ∧ s.FetchesOverRing c)

/-- What a step can come to, with what decides it. -/
inductive State.StepOutcome (s : State) : Result → Prop where
  | illFormed (hc : s.cfg.wf = false) : StepOutcome s (.refused .illFormedConfiguration)
  | breach (hc : s.cfg.wf = true) (hb : s.Breaches) : StepOutcome s (.refused .callerObligation)
  | hostStop {r : Result} (hc : s.cfg.wf = true) (hb : ¬ s.Breaches) (hr : HostStops r) : StepOutcome s r
  | answer {t : State} (hc : s.cfg.wf = true) (hb : ¬ s.Breaches) (ht : t.Admitted) : StepOutcome s (.next t)

theorem State.breaches_iff_of_managerNext (s : State) (hs : s.Admitted) (q : List Turn) (hq : s.ManagerNext q) :
    s.Breaches ↔ s.CommandBreaches := by
  have hk : ∀ i, commandKeepsPlatform i s = false ↔ ¬ s.CommandOwed i := fun i => by
    rw [← Bool.not_eq_true, commandKeepsPlatform_iff s hs i]
  constructor
  · rintro (hp | ⟨_, i, rest, -, hw, hd, ho⟩ | ⟨_, _, _, he, -⟩)
    · exact absurd hs.platform hp
    · exact ⟨i, rest, hw, hd, (hk i).2 ho⟩
    · simp [State.ManagerNext, he] at hq
  · rintro ⟨i, rest, hw, hd, ho⟩
    exact .inr (.inl ⟨q, i, rest, hq, hw, hd, (hk i).1 ho⟩)

theorem State.breaches_iff_of_engineNext (s : State) (hs : s.PlatformOk) (e : EngineEvent) (q : List Turn)
    (he : s.sched = .engine e :: q) : s.Breaches ↔ s.EventBreaches e := by
  constructor
  · rintro (hp | ⟨_, _, _, hq, -⟩ | ⟨_, c, x, hx, hf⟩)
    · exact absurd hs hp
    · simp [State.ManagerNext, he] at hq
    · cases he.symm.trans hx
      exact ⟨c, x, rfl, hf⟩
  · rintro ⟨c, x, rfl, hf⟩
    exact .inr (.inr ⟨q, c, x, he, hf⟩)

/-- The cache's turns and the host's break no caller obligation. -/
theorem State.not_breaches_of_sched (s : State) (hs : s.PlatformOk) (a : Turn) (q : List Turn) (ha : s.sched = a :: q)
    (hm : a ≠ .manager) (he : ∀ e, a ≠ .engine e) : ¬ s.Breaches := by
  rintro (hp | ⟨_, _, _, hq, -⟩ | ⟨_, _, _, hx, -⟩)
  · exact hp hs
  · simp [State.ManagerNext, ha, hm] at hq
  · exact he _ (List.cons.inj (ha.symm.trans hx)).1

theorem State.Admitted.withSched {s : State} (hs : s.Admitted) (q : List Turn) : State.Admitted { s with sched := q } :=
  hs.of_sameLayout (.of_rings rfl rfl rfl)

theorem State.managerTurn_stepOutcome (s : State) (hs : s.Admitted) (q : List Turn) (hq : s.ManagerNext q) :
    s.StepOutcome (managerTurn { s with sched := q }) := by
  have hb : s.Breaches ↔ State.CommandBreaches { s with sched := q } := by
    simp only [s.breaches_iff_of_managerNext hs q hq, State.CommandBreaches,
      commandKeepsPlatform_of_stream_sched _ s s.stream q]
  rcases managerTurn_outcome { s with sched := q } (hs.withSched q) with ⟨hc, he⟩ | ⟨hc, t, he, ht⟩
  · exact he ▸ .breach hs.cfg (hb.2 hc)
  · exact he ▸ .answer hs.cfg (mt hb.1 hc) ht

theorem State.engineTurn_stepOutcome (s : State) (hs : s.Admitted) (e : EngineEvent) (q : List Turn)
    (hq : s.sched = .engine e :: q) : s.StepOutcome (State.guardedEngineTurn { s with sched := q } e) := by
  have hb : s.Breaches ↔ State.EventBreaches { s with sched := q } e :=
    s.breaches_iff_of_engineNext hs.platform e q hq
  rcases State.guardedEngineTurn_outcome { s with sched := q } (hs.withSched q) e with ⟨hf, he⟩ | ⟨hf, t, he, ht⟩
  · exact he ▸ .breach hs.cfg (hb.2 hf)
  · exact he ▸ .answer hs.cfg (mt hb.1 hf) ht

theorem State.cacheTurn_stepOutcome (s : State) (hs : s.Admitted) (e : CacheEvent) (q : List Turn)
    (hq : s.sched = .cache e :: q) : s.StepOutcome (.next (State.cacheTurn { s with sched := q } e)) :=
  .answer hs.cfg (s.not_breaches_of_sched hs.platform _ q hq (by simp) (by simp))
    ((hs.withSched q).of_sameLayout (State.cacheTurn_sameLayout _ e))

theorem State.hostTurn_stepOutcome (s : State) (hs : s.Admitted) (e : HostEvent) (q : List Turn)
    (hq : s.sched = .host e :: q) : s.StepOutcome (hostTurn { s with sched := q } e) := by
  have hb := s.not_breaches_of_sched hs.platform _ q hq (by simp) (by simp)
  rcases hostTurn_outcome { s with sched := q } e with hstop | ⟨t, he, hst⟩
  · exact .hostStop hs.cfg hb hstop
  · exact he ▸ .answer hs.cfg hb ((hs.withSched q).of_sameLayout hst)

theorem State.admitted_stepOutcome (s : State) (hs : s.Admitted) : s.StepOutcome (turn s) := by
  rw [turn_of_admitted s hs]
  rcases hq : s.sched with _ | ⟨_ | e | e | e, q⟩
  · have h := s.managerTurn_stepOutcome hs [] (.inr ⟨hq, rfl⟩)
    rwa [← hq] at h
  · exact s.managerTurn_stepOutcome hs q (.inl hq)
  · exact s.engineTurn_stepOutcome hs e q hq
  · exact s.cacheTurn_stepOutcome hs e q hq
  · exact s.hostTurn_stepOutcome hs e q hq

/-- Every step comes to one of the four outcomes. -/
theorem State.stepOutcome (s : State) : s.StepOutcome (step s) := by
  cases hc : s.cfg.wf with
  | false =>
    rw [step, turn, if_pos hc]
    exact .illFormed hc
  | true =>
    by_cases hp : s.PlatformOk
    · exact s.admitted_stepOutcome ⟨hc, hp⟩
    · have hp' : s.platformOk = false := Bool.eq_false_iff.2 (mt s.platformOk_iff.1 hp)
      rw [step, turn, if_neg (by simp [hc]), if_pos hp']
      exact .breach hc (.inl hp)

/-! ## The refusals -/

theorem step_illFormed_iff (s : State) : step s = .refused .illFormedConfiguration ↔ s.cfg.wf = false := by
  have ho := s.stepOutcome
  generalize step s = r at ho ⊢
  cases ho with
  | illFormed hc => simp [hc]
  | breach hc | answer hc => simp [hc]
  | hostStop hc _ hr => rcases hr with rfl | rfl | rfl <;> simp [hc]

theorem step_callerObligation_iff (s : State) (hwf : s.cfg.wf = true) :
    step s = .refused .callerObligation ↔ s.Breaches := by
  have ho := s.stepOutcome
  generalize step s = r at ho ⊢
  cases ho with
  | illFormed hc => simp [hwf] at hc
  | breach _ hb => simp [hb]
  | answer _ hb => simp [hb]
  | hostStop _ hb hr => rcases hr with rfl | rfl | rfl <;> simp [hb]

theorem step_next_admitted (s t : State) (h : step s = .next t) : t.Admitted := by
  have ho := s.stepOutcome
  rw [h] at ho
  cases ho with
  | answer _ _ ht => exact ht
  | hostStop _ _ hr => simp [HostStops] at hr

theorem reset_admitted : State.reset.Admitted := State.admitted_of_checks _ (by decide) (by decide)

/-- Settles O8: each refusal by the outcomes of a step, and the last clause by the layout that every answer keeps but
CREATE's, which the machine's check covers. -/
theorem configurationAndPlatformRefused : Obligations.ConfigurationAndPlatformRefused :=
  ⟨fun s => (cfg_not_wf_iff s.cfg).symm.trans (step_illFormed_iff s).symm,
    fun s hc => step_callerObligation_iff s hc, reset_admitted, step_next_admitted⟩

end Sys2Proof.Machine
end

section
/-! SUPPORT. Cyclic address arithmetic on a ring that is laid out (spec/20_memory.md R100 to R104): descriptor addresses by their
index, and `adv`, `ret` as addition and subtraction of indices modulo the count. -/

namespace Sys2Proof.Machine

section LaidOut

variable {r : Ring}

theorem Ring.LaidOut.count_ne_zero (h : r.LaidOut) : r.count ≠ 0 := by
  have := h.count_pos
  bv_omega

/-- The bytes before descriptor `k`, and its own first 36, lie in the region. -/
theorem Ring.LaidOut.stride_mul_lt (h : r.LaidOut) {k : Nat} (hk : k < r.count.toNat) :
    r.firstVirt.toNat + k * r.separation.toNat + r.separation.toNat ≤ 2 ^ 32 := by
  have hfits := h.fits
  have hle := Nat.mul_le_mul_right r.separation.toNat (Nat.succ_le_of_lt hk)
  rw [h.length_eq, Nat.mul_comm] at hfits
  rw [Nat.succ_mul] at hle
  omega

theorem Ring.LaidOut.bdAddr_toNat (h : r.LaidOut) {k : Nat} (hk : k < r.count.toNat) :
    (r.bdAddr k).toNat = r.firstVirt.toNat + k * r.separation.toNat := by
  have hfits := h.stride_mul_lt hk
  have hsep := h.separation_ge
  have hcount := r.count.isLt
  rw [Ring.bdAddr, BitVec.toNat_add, BitVec.toNat_mul, BitVec.toNat_ofNat, Nat.mod_eq_of_lt (a := k) (by omega),
    Nat.mod_eq_of_lt (a := k * _) (by omega), Nat.mod_eq_of_lt (by omega)]

theorem Ring.LaidOut.lastVirt_toNat (h : r.LaidOut) :
    r.lastVirt.toNat = r.firstVirt.toNat + (r.count.toNat - 1) * r.separation.toNat := by
  have := h.count_pos
  rw [h.lastVirt_eq, h.bdAddr_toNat (by omega)]

/-- R104: the descriptors are the addresses of the indices below the count. -/
theorem Ring.LaidOut.isBd_iff (h : r.LaidOut) (a : Word) : r.isBd a = true ↔ ∃ k < r.count.toNat, a = r.bdAddr k := by
  have hpos := h.count_pos
  have hsep := h.separation_ge
  simp only [Ring.isBd, Bool.and_eq_true, decide_eq_true_eq, beq_iff_eq, bne_iff_ne, BitVec.le_def, h.lastVirt_toNat]
  constructor
  · rintro ⟨⟨⟨-, hge⟩, hle⟩, hmod⟩
    obtain ⟨k, hk⟩ := Nat.dvd_of_mod_eq_zero hmod
    have hlt : k < r.count.toNat := by
      have hmul : k * r.separation.toNat ≤ (r.count.toNat - 1) * r.separation.toNat := by
        rw [Nat.mul_comm k]; omega
      have := Nat.le_of_mul_le_mul_right hmul (by omega)
      omega
    refine ⟨k, hlt, BitVec.eq_of_toNat_eq ?_⟩
    rw [h.bdAddr_toNat hlt, Nat.mul_comm]
    omega
  · rintro ⟨k, hk, rfl⟩
    have hle := Nat.mul_le_mul_right r.separation.toNat (Nat.le_sub_one_of_lt hk)
    rw [h.bdAddr_toNat hk, Nat.add_sub_cancel_left]
    exact ⟨⟨⟨h.count_ne_zero, by omega⟩, by omega⟩, Nat.mul_mod_left _ _⟩

theorem Ring.LaidOut.isBd_bdAddr (h : r.LaidOut) {k : Nat} (hk : k < r.count.toNat) : r.isBd (r.bdAddr k) = true :=
  (h.isBd_iff _).2 ⟨k, hk, rfl⟩

theorem Ring.LaidOut.isBd_lastVirt (h : r.LaidOut) : r.isBd r.lastVirt = true :=
  h.lastVirt_eq ▸ h.isBd_bdAddr (Nat.sub_one_lt_of_lt h.count_pos)

@[simp] theorem Ring.bdAddr_zero (r : Ring) : r.bdAddr 0 = r.firstVirt := by simp [Ring.bdAddr]

/-- An integer that is the number of a descriptor's address, as a word. -/
theorem Ring.LaidOut.ofInt_eq_bdAddr (h : r.LaidOut) {k : Nat} (hk : k < r.count.toNat) (t : Int)
    (ht : t = (r.firstVirt.toNat + k * r.separation.toNat : Nat)) : BitVec.ofInt 32 t = r.bdAddr k := by
  rw [ht, ← h.bdAddr_toNat hk, BitVec.ofInt_natCast, BitVec.ofNat_toNat, BitVec.setWidth_eq]

/-- R100 by indices. -/
theorem Ring.LaidOut.adv_bdAddr (h : r.LaidOut) {k n : Nat} (hk : k < r.count.toNat) (hn : n ≤ r.count.toNat) :
    r.adv (r.bdAddr k) n = r.bdAddr ((k + n) % r.count.toNat) := by
  have hpos := h.count_pos
  have hadd := Nat.add_mul k n r.separation.toNat
  refine h.ofInt_eq_bdAddr (Nat.mod_lt _ hpos) _ ?_
  rw [h.bdAddr_toNat hk, h.lastVirt_toNat]
  rcases Nat.lt_or_ge (k + n) r.count.toNat with hlt | hge
  · have hle := Nat.mul_le_mul_right r.separation.toNat (Nat.le_sub_one_of_lt hlt)
    rw [Nat.mod_eq_of_lt hlt, if_neg (by push_cast; omega), hadd]
    push_cast; omega
  · have hmod : (k + n) % r.count.toNat = k + n - r.count.toNat := by
      rw [Nat.mod_eq_sub_mod hge, Nat.mod_eq_of_lt (by omega)]
    have hsep := h.separation_ge
    have hle := Nat.mul_le_mul_right r.separation.toNat hge
    have hlast : (r.count.toNat - 1) * r.separation.toNat + r.separation.toNat = r.count.toNat * r.separation.toNat := by
      rw [← Nat.succ_mul, Nat.succ_eq_add_one, Nat.sub_add_cancel hpos]
    rw [hmod, if_pos (by push_cast; omega), h.length_eq, Nat.sub_mul, Nat.mul_comm r.separation.toNat]
    push_cast; omega

/-- R101 by indices. -/
theorem Ring.LaidOut.ret_bdAddr (h : r.LaidOut) {k n : Nat} (hk : k < r.count.toNat) (hn : n ≤ r.count.toNat) :
    r.ret (r.bdAddr k) n = r.bdAddr ((k + r.count.toNat - n) % r.count.toNat) := by
  have hpos := h.count_pos
  have hsep := h.separation_ge
  refine h.ofInt_eq_bdAddr (Nat.mod_lt _ hpos) _ ?_
  rw [h.bdAddr_toNat hk]
  rcases Nat.lt_or_ge k n with hlt | hge
  · have hmul := Nat.mul_lt_mul_of_pos_right hlt (show 0 < r.separation.toNat by omega)
    have hle := Nat.mul_le_mul_right r.separation.toNat hn
    rw [Nat.mod_eq_of_lt (by omega), if_pos (by push_cast; omega), h.length_eq, Nat.sub_mul, Nat.add_mul,
      Nat.mul_comm r.separation.toNat]
    push_cast; omega
  · have hmod : (k + r.count.toNat - n) % r.count.toNat = k - n := by
      rw [show k + r.count.toNat - n = k - n + r.count.toNat by omega, Nat.add_mod_right, Nat.mod_eq_of_lt (by omega)]
    have hle := Nat.mul_le_mul_right r.separation.toNat hge
    rw [hmod, if_neg (by push_cast; omega), Nat.sub_mul]
    push_cast; omega

/-! On the descriptors of a laid-out ring `adv` adds. -/

theorem Ring.LaidOut.isBd_adv (h : r.LaidOut) {a : Word} (ha : r.isBd a = true) {n : Nat} (hn : n ≤ r.count.toNat) :
    r.isBd (r.adv a n) = true := by
  obtain ⟨k, hk, rfl⟩ := (h.isBd_iff a).1 ha
  rw [h.adv_bdAddr hk hn]
  exact h.isBd_bdAddr (Nat.mod_lt _ h.count_pos)

theorem Ring.LaidOut.adv_zero (h : r.LaidOut) {a : Word} (ha : r.isBd a = true) : r.adv a 0 = a := by
  obtain ⟨k, hk, rfl⟩ := (h.isBd_iff a).1 ha
  rw [h.adv_bdAddr hk (Nat.zero_le _), Nat.add_zero, Nat.mod_eq_of_lt hk]

theorem Ring.LaidOut.adv_count (h : r.LaidOut) {a : Word} (ha : r.isBd a = true) : r.adv a r.count.toNat = a := by
  obtain ⟨k, hk, rfl⟩ := (h.isBd_iff a).1 ha
  rw [h.adv_bdAddr hk le_rfl, Nat.add_mod_right, Nat.mod_eq_of_lt hk]

theorem Ring.LaidOut.adv_adv (h : r.LaidOut) {a : Word} (ha : r.isBd a = true) {m n : Nat}
    (hmn : m + n ≤ r.count.toNat) : r.adv (r.adv a m) n = r.adv a (m + n) := by
  obtain ⟨k, hk, rfl⟩ := (h.isBd_iff a).1 ha
  rw [h.adv_bdAddr hk (by omega), h.adv_bdAddr (Nat.mod_lt _ h.count_pos) (by omega), h.adv_bdAddr hk hmn,
    Nat.mod_add_mod, Nat.add_assoc]

/-- Going `m` forward and `n` of them back is going `m - n` forward. -/
theorem Ring.LaidOut.ret_adv (h : r.LaidOut) {a : Word} (ha : r.isBd a = true) {m n : Nat} (hnm : n ≤ m)
    (hm : m ≤ r.count.toNat) : r.ret (r.adv a m) n = r.adv a (m - n) := by
  obtain ⟨k, hk, rfl⟩ := (h.isBd_iff a).1 ha
  rw [h.adv_bdAddr hk hm, h.ret_bdAddr (Nat.mod_lt _ h.count_pos) (by omega), h.adv_bdAddr hk (by omega),
    Nat.add_sub_assoc (by omega), Nat.mod_add_mod, show k + m + (r.count.toNat - n) = k + (m - n) + r.count.toNat by omega,
    Nat.add_mod_right]

end LaidOut

end Sys2Proof.Machine
end

section
/-! SUPPORT. The moves of one ring's bookkeeping: every way a command changes it, each of which keeps the ring sound
(spec/10_state.md R45 to R48). -/

namespace Sys2Proof.Machine

/-! ## What a move keeps -/

/-- The fields that only CREATE writes. -/
def Ring.geometry (r : Ring) := (r.layout, r.lastPhys, r.lastVirt)

theorem Ring.LaidOut.of_geometry {r r' : Ring} (h : r.LaidOut) (hg : r'.geometry = r.geometry) : r'.LaidOut := by
  cases r
  cases r'
  simp only [Ring.geometry, Ring.layout, Prod.mk.injEq] at hg
  obtain ⟨⟨rfl, rfl, rfl, rfl, rfl⟩, rfl, rfl⟩ := hg
  obtain ⟨h1, h2, h3, h4, h5, h6, h7, h8, h9⟩ := h
  exact ⟨h1, h2, h3, h4, h5, h6, h7, h8, h9⟩

theorem Ring.isBd_of_geometry {r r' : Ring} (hg : r'.geometry = r.geometry) (a : Word) : r'.isBd a = r.isBd a := by
  simp only [Ring.geometry, Ring.layout, Prod.mk.injEq] at hg
  obtain ⟨⟨hcount, hsep, -, -, hfirst⟩, -, hlast⟩ := hg
  simp only [Ring.isBd, hcount, hsep, hfirst, hlast]

/-- The bookkeeping `r'` may follow `r` in the machine: soundness and the shadow's range are kept, and no descriptor is lost. -/
structure Ring.Move (r r' : Ring) : Prop where
  /-- R43 -/
  isRx : r'.isRx = r.isRx
  /-- R44 -/
  irqMask : r.irqMask &&& ~~~allEnable = 0 → r'.irqMask &&& ~~~allEnable = 0
  isBd : ∀ a, r.isBd a = true → r'.isBd a = true
  /-- R45 to R48 -/
  sound : r.Sound → r'.Sound

/-- A change of heads, counts and tail is a move where it keeps the partition of a laid-out ring, and is none of a ring that
was never created. -/
theorem Ring.Move.of_partitioned {r r' : Ring} (hg : r'.geometry = r.geometry) (hrx : r'.isRx = r.isRx)
    (hmask : r'.irqMask = r.irqMask) (hu : r.Uncreated → r' = r)
    (hp : r.LaidOut → r.Partitioned → r'.Partitioned) : r.Move r' where
  isRx := hrx
  irqMask := by rw [hmask]; exact id
  isBd a := (Ring.isBd_of_geometry hg a ▸ id)
  sound := by
    rintro (h | ⟨hl, h⟩)
    · exact .inl ((hu h).symm ▸ h)
    · exact .inr ⟨hl.of_geometry hg, hp hl h⟩

/-- R41, R42, R44: `restart`, `run_state` and the interrupt shadow are no part of the partition. -/
theorem Ring.move_settings (r : Ring) (restart : Word) (rs : RunState) (mask : Word)
    (hmask : r.irqMask &&& ~~~allEnable = 0 → mask &&& ~~~allEnable = 0) :
    r.Move { r with restart := restart, runState := rs, irqMask := mask } where
  isRx := rfl
  irqMask := hmask
  isBd _ := id
  sound := by
    rintro (h | ⟨hl, hp⟩)
    · rw [h]; exact .inl rfl
    · obtain ⟨h1, h2, h3, h4, h5, h6, h7, h8, h9, h10, h11⟩ := hp
      exact .inr ⟨hl.of_geometry rfl, ⟨h1, h2, h3, h4, h5, h6, h7, h8, h9, h10, h11⟩⟩

/-! ## The groups of a ring that was never created -/

theorem Ring.Uncreated.count_eq {r : Ring} (h : r.Uncreated) : r.count = 0 := by
  rw [h]
  rfl

theorem Ring.Uncreated.freeCount_eq {r : Ring} (h : r.Uncreated) : r.freeCount = 0 := by
  rw [h]
  rfl

theorem Ring.Uncreated.preCount_eq {r : Ring} (h : r.Uncreated) : r.preCount = 0 := by
  rw [h]
  rfl

theorem Ring.Uncreated.hwCount_eq {r : Ring} (h : r.Uncreated) : r.hwCount = 0 := by
  rw [h]
  rfl

theorem Ring.Uncreated.postCount_eq {r : Ring} (h : r.Uncreated) : r.postCount = 0 := by
  rw [h]
  rfl

/-- Every head of such a ring is address 0, and moved by 0 it stays. -/
theorem Ring.Uncreated.heads {r : Ring} (h : r.Uncreated) :
    r.adv r.freeHead 0 = r.freeHead ∧ r.ret r.freeHead 0 = r.freeHead ∧ r.adv r.postHead 0 = r.postHead := by
  rw [h]
  simp [Ring.adv, Ring.ret, Ring.powerOn]

/-- R47: nothing is a descriptor of a ring that was never created. -/
theorem Ring.isBd_of_count_zero {r : Ring} (h : r.count = 0) (a : Word) : r.isBd a = false := by simp [Ring.isBd, h]

theorem Ring.Sound.of_count_ne_zero {r : Ring} (h : r.Sound) (hc : r.count ≠ 0) : r.LaidOut ∧ r.Partitioned :=
  h.resolve_left fun hu => hc hu.count_eq

/-! ## The moves of the ownership commands -/

/-- R170: the bookkeeping after ALLOC of `n`. -/
def Ring.allocated (r : Ring) (n : Word) : Ring :=
  { r with freeHead := r.adv r.freeHead n.toNat, freeCount := r.freeCount - n, preCount := r.preCount + n }

/-- R173: the bookkeeping after UNALLOC of `n`. -/
def Ring.unallocated (r : Ring) (n : Word) : Ring :=
  { r with freeHead := r.ret r.freeHead n.toNat, freeCount := r.freeCount + n, preCount := r.preCount - n }

/-- R176: the bookkeeping after TO_HW of `n`, the last of them `cur`. -/
def Ring.submitted (r : Ring) (n cur : Word) : Ring :=
  { r with
    preHead := r.adv r.preHead n.toNat, preCount := r.preCount - n, hwCount := r.hwCount + n, hwTail := cur }

/-- R180: the bookkeeping after FROM_HW of `n`. -/
def Ring.harvested (r : Ring) (n : Nat) : Ring :=
  { r with
    hwHead := r.adv r.hwHead n
    hwCount := r.hwCount - BitVec.ofNat 32 n
    postCount := r.postCount + BitVec.ofNat 32 n }

/-- R186: the bookkeeping after FREE of `n`. -/
def Ring.freed (r : Ring) (n : Word) : Ring :=
  { r with postHead := r.adv r.postHead n.toNat, postCount := r.postCount - n, freeCount := r.freeCount + n }

/-- No more than an empty group holds is nothing. -/
theorem eq_zero_of_le {x n : Word} (hx : x = 0) (hn : n ≤ x) : n = 0 := by
  subst hx
  exact BitVec.le_zero_iff.1 hn

/-- `n` descriptors leave a group of `x` for one of `y`. -/
theorem toNat_moved {x y n : Word} (hn : n ≤ x) (hsum : x.toNat + y.toNat < 2 ^ 32) :
    (x - n).toNat = x.toNat - n.toNat ∧ (y + n).toNat = y.toNat + n.toNat := by
  have hle := BitVec.le_def.1 hn
  exact ⟨BitVec.toNat_sub_of_le hn, BitVec.toNat_add_of_lt (by omega)⟩

section Moves

variable {r : Ring} {n : Word}

theorem Ring.move_allocated (hn : n ≤ r.freeCount) : r.Move (r.allocated n) := by
  refine .of_partitioned rfl rfl rfl (fun hu => ?_) (fun hl hp => ?_)
  · rw [eq_zero_of_le hu.freeCount_eq hn]
    simp [Ring.allocated, hu.heads]
  · obtain ⟨hsum, hfree, hpre, hhw, hpost, htail, hph, hhp, hpf, hfp, hlast⟩ := hp
    have hcount := r.count.isLt
    have hle := BitVec.le_def.1 hn
    obtain ⟨hx, hy⟩ := toNat_moved (y := r.preCount) hn (by omega)
    refine ⟨?_, hl.isBd_adv hfree (by omega), hpre, hhw, hpost, htail, hph, hhp, ?_, ?_, hlast⟩
    · simp only [Ring.allocated, hx, hy]
      omega
    · show r.adv r.preHead (r.preCount + n).toNat = r.adv r.freeHead n.toNat
      rw [hy, ← hpf, hl.adv_adv hpre (by omega)]
    · show r.adv (r.adv r.freeHead n.toNat) (r.freeCount - n).toNat = r.postHead
      rw [hx, hl.adv_adv hfree (by omega), Nat.add_sub_cancel' hle, hfp]

theorem Ring.move_unallocated (hn : n ≤ r.preCount) : r.Move (r.unallocated n) := by
  refine .of_partitioned rfl rfl rfl (fun hu => ?_) (fun hl hp => ?_)
  · rw [eq_zero_of_le hu.preCount_eq hn]
    simp [Ring.unallocated, hu.heads]
  · obtain ⟨hsum, hfree, hpre, hhw, hpost, htail, hph, hhp, hpf, hfp, hlast⟩ := hp
    have hcount := r.count.isLt
    have hle := BitVec.le_def.1 hn
    obtain ⟨hx, hy⟩ := toNat_moved (y := r.freeCount) hn (by omega)
    have hback : r.ret r.freeHead n.toNat = r.adv r.preHead (r.preCount.toNat - n.toNat) := by
      rw [← hpf, hl.ret_adv hpre hle (by omega)]
    refine ⟨?_, ?_, hpre, hhw, hpost, htail, hph, hhp, ?_, ?_, hlast⟩
    · simp only [Ring.unallocated, hx, hy]
      omega
    · show r.isBd (r.ret r.freeHead n.toNat) = true
      rw [hback]
      exact hl.isBd_adv hpre (by omega)
    · show r.adv r.preHead (r.preCount - n).toNat = r.ret r.freeHead n.toNat
      rw [hx, hback]
    · show r.adv (r.ret r.freeHead n.toNat) (r.freeCount + n).toNat = r.postHead
      rw [hback, hy, hl.adv_adv hpre (by omega), ← hfp, ← hpf, hl.adv_adv hpre (by omega)]
      congr 1
      omega

/-- The submitted descriptors go in front of the Pre-process group, and the last of them is the tail. -/
theorem Ring.move_submitted (hn : n ≤ r.preCount) (hpos : n ≠ 0) {cur : Word}
    (hcur : r.LaidOut → r.Partitioned → cur = r.adv r.preHead (n.toNat - 1)) : r.Move (r.submitted n cur) := by
  refine .of_partitioned rfl rfl rfl (fun hu => ?_) (fun hl hp => ?_)
  · exact absurd (eq_zero_of_le hu.preCount_eq hn) hpos
  · have htail' := hcur hl hp
    obtain ⟨hsum, hfree, hpre, hhw, hpost, htail, hph, hhp, hpf, hfp, hlast⟩ := hp
    have hcount := r.count.isLt
    have hle := BitVec.le_def.1 hn
    have hpos' : 0 < n.toNat := by bv_omega
    obtain ⟨hx, hy⟩ := toNat_moved (y := r.hwCount) hn (by omega)
    refine ⟨?_, hfree, hl.isBd_adv hpre (by omega), hhw, hpost, ?_, hph, ?_, ?_, hfp, fun _ => ?_⟩
    · simp only [Ring.submitted, hx, hy]
      omega
    · show r.isBd cur = true
      rw [htail']
      exact hl.isBd_adv hpre (by omega)
    · show r.adv r.hwHead (r.hwCount + n).toNat = r.adv r.preHead n.toNat
      rw [hy, ← hhp, hl.adv_adv hhw (by omega)]
    · show r.adv (r.adv r.preHead n.toNat) (r.preCount - n).toNat = r.freeHead
      rw [hx, hl.adv_adv hpre (by omega), Nat.add_sub_cancel' hle, hpf]
    · show cur = r.adv r.hwHead ((r.hwCount + n).toNat - 1)
      rw [hy, htail', ← hhp, hl.adv_adv hhw (by omega), Nat.add_sub_assoc hpos']

/-- Descriptors leave the Hardware group at its head, so its tail stays while one is left. -/
theorem Ring.move_harvested {k : Nat} (hu : ¬ r.Uncreated) (hk : r.LaidOut → r.Partitioned → k ≤ r.hwCount.toNat) :
    r.Move (r.harvested k) := by
  refine .of_partitioned rfl rfl rfl (fun h => absurd h hu) (fun hl hp => ?_)
  have hle := hk hl hp
  obtain ⟨hsum, hfree, hpre, hhw, hpost, htail, hph, hhp, hpf, hfp, hlast⟩ := hp
  have hcount := r.count.isLt
  have hof : (BitVec.ofNat 32 k).toNat = k := Nat.mod_eq_of_lt (by omega)
  obtain ⟨hx, hy⟩ := toNat_moved (x := r.hwCount) (y := r.postCount) (n := BitVec.ofNat 32 k)
    (by rw [BitVec.le_def, hof]; exact hle) (by omega)
  rw [hof] at hx hy
  refine ⟨?_, hfree, hpre, hl.isBd_adv hhw (by omega), hpost, htail, ?_, ?_, hpf, hfp, fun hleft => ?_⟩
  · simp only [Ring.harvested, hx, hy]
    omega
  · show r.adv r.postHead (r.postCount + BitVec.ofNat 32 k).toNat = r.adv r.hwHead k
    rw [hy, ← hph, hl.adv_adv hpost (by omega)]
  · show r.adv (r.adv r.hwHead k) (r.hwCount - BitVec.ofNat 32 k).toNat = r.preHead
    rw [hx, hl.adv_adv hhw (by omega), Nat.add_sub_cancel' hle, hhp]
  · replace hleft : 0 < (r.hwCount - BitVec.ofNat 32 k).toNat := hleft
    show r.hwTail = r.adv (r.adv r.hwHead k) ((r.hwCount - BitVec.ofNat 32 k).toNat - 1)
    rw [hx] at hleft ⊢
    rw [hlast (by omega), hl.adv_adv hhw (by omega)]
    congr 1
    omega

theorem Ring.move_freed (hn : n ≤ r.postCount) : r.Move (r.freed n) := by
  refine .of_partitioned rfl rfl rfl (fun hu => ?_) (fun hl hp => ?_)
  · rw [eq_zero_of_le hu.postCount_eq hn]
    simp [Ring.freed, hu.heads]
  · obtain ⟨hsum, hfree, hpre, hhw, hpost, htail, hph, hhp, hpf, hfp, hlast⟩ := hp
    have hcount := r.count.isLt
    have hle := BitVec.le_def.1 hn
    obtain ⟨hx, hy⟩ := toNat_moved (y := r.freeCount) hn (by omega)
    refine ⟨?_, hfree, hpre, hhw, hl.isBd_adv hpost (by omega), htail, ?_, hhp, hpf, ?_, hlast⟩
    · simp only [Ring.freed, hx, hy]
      omega
    · show r.adv (r.adv r.postHead n.toNat) (r.postCount - n).toNat = r.hwHead
      rw [hx, hl.adv_adv hpost (by omega), Nat.add_sub_cancel' hle, hph]
    · show r.adv r.freeHead (r.freeCount + n).toNat = r.adv r.postHead n.toNat
      rw [hy, ← hfp, hl.adv_adv hfree (by omega)]

end Moves

/-! ## The move of CREATE -/

/-- R150: the checks of CREATE make the ring laid out. -/
theorem Ring.laidOut_created {cfg : Cfg} {r : Ring} {p v a n : Word} (hc : cfg.wf = true)
    (h : CreateAccepts cfg r p v a n) : (r.created p v a n).LaidOut := by
  have hsep := r.created_separation p v a n
  have hlen := h.created_length (r := r)
  have hpos := h.alignment_pos hc
  have h4 : 4 ∣ a.toNat := by
    obtain ⟨k, hk⟩ := (and_sub_one_eq_zero_iff a hpos).1 h.align_pow2
    obtain ⟨⟨hmin, -⟩, -⟩ := (cfg_wf_iff cfg).1 hc
    have hge : 4 ≤ 2 ^ k := hk ▸ hmin.trans (BitVec.le_def.1 h.align_min)
    have h2 : 2 ≤ k := (Nat.pow_le_pow_iff_right (a := 2) (by omega)).1 hge
    exact hk ▸ pow_dvd_pow 2 h2
  have hdiv : a.toNat ∣ strideOf a := Nat.dvd_mul_right _ _
  refine ⟨?_, ?_, ?_, ?_, ?_, ?_, ?_, ?_, ?_⟩
  · have := h.count_pos
    show 0 < n.toNat
    bv_omega
  · rw [hsep, strideOf]
    have := Nat.lt_mul_div_succ (36 + a.toNat - 1) hpos
    rw [Nat.mul_add_one] at this
    omega
  · rw [hsep]
    exact Nat.mod_eq_zero_of_dvd (h4.trans hdiv)
  · exact Nat.mod_eq_zero_of_dvd (h4.trans (Nat.dvd_of_mod_eq_zero h.virt_base))
  · exact Nat.mod_eq_zero_of_dvd (h4.trans (Nat.dvd_of_mod_eq_zero h.phys_base))
  · rw [hlen, hsep]
    rfl
  · rw [hlen]
    exact h.fits
  · simp only [Ring.created, Ring.bdAddr, BitVec.ofNat_mul]
  · simp only [Ring.created, Ring.phys]
    bv_omega

/-- R150: all descriptors are Free and every head is the first one. -/
theorem Ring.partitioned_created {r : Ring} {p v a n : Word} (hl : (r.created p v a n).LaidOut) :
    (r.created p v a n).Partitioned := by
  have hfirst : (r.created p v a n).isBd v = true := by
    have h0 := hl.isBd_bdAddr hl.count_pos
    rw [Ring.bdAddr_zero] at h0
    exact h0
  have hzero := hl.adv_zero hfirst
  exact ⟨by simp [Ring.created], hfirst, hfirst, hfirst, hfirst, hfirst, hzero, hzero, hzero, hl.adv_count hfirst,
    fun h => absurd h (lt_irrefl 0)⟩

theorem Ring.move_created {cfg : Cfg} {r : Ring} {p v a n : Word} (hc : cfg.wf = true)
    (h : CreateAccepts cfg r p v a n) : r.Move (r.created p v a n) where
  isRx := rfl
  irqMask := id
  isBd b hb := by simp [Ring.isBd_of_count_zero h.fresh] at hb
  sound _ := .inr ⟨Ring.laidOut_created hc h, Ring.partitioned_created (Ring.laidOut_created hc h)⟩

end Sys2Proof.Machine
end

section
/-! SUPPORT. Every change of the engine's registers and hidden state keeps what the engine always satisfies: the register writes
(spec/10_state.md R61 to R64, R69) and the parts of the engine's own steps (spec/45_engine_agent.md R264 to R277). -/

namespace Sys2Proof.Machine

/-! ## One channel's registers -/

/-- R63, R72, R274: the strobe is not stored, and the event counters are within their widths. -/
structure EngineChannel.InRange (cfg : Cfg) (e : EngineChannel) : Prop where
  strobe_clear : e.cr &&& strobe = 0
  coalEvt_le : e.coalEvt ≤ 2 ^ cfg.coalEvtBits - 1
  dlyEvt_le : e.dlyEvt ≤ 2 ^ cfg.dlyEvtBits - 1

theorem State.EngineSound.inRange {s : State} (h : s.EngineSound) (c : Channel) : (s.eng c).InRange s.cfg :=
  ⟨h.strobe_clear c, h.coalEvt_le c, h.dlyEvt_le c⟩

theorem EngineChannel.InRange.irqAcknowledge {cfg : Cfg} {e : EngineChannel} (h : e.InRange cfg) (v : Word) :
    (irqAcknowledge e v).InRange cfg := by
  obtain ⟨hstrobe, hcoal, hdly⟩ := h
  refine ⟨hstrobe, ?_, ?_⟩
  · simp only [Machine.irqAcknowledge]
    split_ifs <;> omega
  · simp only [Machine.irqAcknowledge]
    split_ifs <;> omega

/-! ## The engine as a whole -/

section Engine

variable {s t : State}

theorem State.EngineSound.of_same (h : s.EngineSound) (hcfg : t.cfg = s.cfg) (heng : ∀ c, t.eng c = s.eng c)
    (hdmacr : t.dmacr = s.dmacr) (hres : t.resetting = s.resetting) (hwb : t.wbPending = s.wbPending) :
    t.EngineSound := by
  obtain ⟨hbit, hquiet, hpend, hstrobe, hcoal, hdly⟩ := h
  constructor
  · rwa [hres, hdmacr]
  · simpa only [hres, hwb, heng] using hquiet
  · simpa only [hwb, heng] using hpend
  · simpa only [heng] using hstrobe
  · simpa only [heng, hcfg] using hcoal
  · simpa only [heng, hcfg] using hdly

/-- One channel's registers replaced by others in range: quiet ones during a reset, active ones where a write-back pends. -/
theorem State.EngineSound.setEng (h : s.EngineSound) (c : Channel) {e : EngineChannel} (hin : e.InRange s.cfg)
    (hquiet : s.resetting = true → e.engState = .idle ∧ e.dlyArmed = false)
    (hpend : c = .rx → s.wbPending ≠ none → e.engState ≠ .idle) : (s.setEng c e).EngineSound := by
  have hother : ∀ c', c' ≠ c → (s.setEng c e).eng c' = s.eng c' := fun c' => s.setEng_eng_other c c' e
  have hrange : ∀ c', ((s.setEng c e).eng c').InRange s.cfg := fun c' => by
    by_cases hc : c' = c
    · rwa [hc, State.setEng_eng_same]
    · rw [hother c' hc]
      exact h.inRange c'
  constructor
  · simpa using h.resetting_bit
  · rw [State.setEng_resetting, State.setEng_wbPending]
    refine fun hr => ⟨(h.reset_quiet hr).1, fun c' => ?_⟩
    by_cases hc : c' = c
    · rw [hc, State.setEng_eng_same]
      exact hquiet hr
    · rw [hother c' hc]
      exact (h.reset_quiet hr).2 c'
  · rw [State.setEng_wbPending]
    intro hw
    by_cases hc : .rx = c
    · rw [← hc, State.setEng_eng_same]
      exact hpend hc.symm hw
    · rw [hother .rx hc]
      exact h.pending_active hw
  · exact fun c' => (hrange c').strobe_clear
  · rw [State.setEng_cfg]
    exact fun c' => (hrange c').coalEvt_le
  · rw [State.setEng_cfg]
    exact fun c' => (hrange c').dlyEvt_le

/-- Registers in range, the channel as active and as armed as before. -/
theorem State.EngineSound.setEng_of_state (h : s.EngineSound) (c : Channel) {e : EngineChannel} (hin : e.InRange s.cfg)
    (hstate : e.engState = (s.eng c).engState) (harmed : e.dlyArmed = (s.eng c).dlyArmed) :
    (s.setEng c e).EngineSound := by
  refine h.setEng c hin (fun hr => ?_) (fun hc hw => ?_)
  · rw [hstate, harmed]
    exact (h.reset_quiet hr).2 c
  · rw [hstate, hc]
    exact h.pending_active hw

/-! ## Register writes -/

theorem State.EngineSound.writeCdesc (h : s.EngineSound) (c : Channel) (v : Word) : (s.writeCdesc c v).EngineSound := by
  obtain ⟨hstrobe, hcoal, hdly⟩ := h.inRange c
  unfold State.writeCdesc
  split_ifs
  · exact h
  · exact h.setEng_of_state c ⟨hstrobe, hcoal, hdly⟩ rfl rfl

/-- R262: the kick starts an idle channel, and none during a reset. -/
theorem State.EngineSound.writeTdesc (h : s.EngineSound) (c : Channel) (v : Word) : (s.writeTdesc c v).EngineSound := by
  obtain ⟨hstrobe, hcoal, hdly⟩ := h.inRange c
  refine h.setEng c ⟨hstrobe, hcoal, hdly⟩ (fun hr => ?_) (fun hc hw => ?_)
  · simpa [hr] using (h.reset_quiet hr).2 c
  · have hne := h.pending_active hw
    simp only [hc]
    split_ifs
    · decide
    · exact hne

/-- R271: the strobe is masked out of the stored value. -/
theorem State.EngineSound.writeCr (h : s.EngineSound) (c : Channel) (v : Word) : (s.writeCr c v).EngineSound := by
  obtain ⟨-, hcoal, hdly⟩ := h.inRange c
  refine h.setEng_of_state c ⟨?_, hcoal, hdly⟩ rfl rfl
  show (v &&& ~~~strobe) &&& strobe = 0
  rw [BitVec.and_assoc, BitVec.and_comm (~~~strobe), BitVec.and_not_self]
  exact BitVec.and_zero

theorem State.EngineSound.writeIrq (h : s.EngineSound) (c : Channel) (v : Word) : (s.writeIrq c v).EngineSound :=
  h.setEng_of_state c ((h.inRange c).irqAcknowledge v) rfl rfl

/-- R276: after `SwResetStart` a channel is idle and not armed, with CDESC and TDESC drawn and the rest as before. -/
theorem State.swResetStart_eng (s : State) (c : Channel) :
    ∃ v w, s.swResetStart.eng c =
      { s.eng c with engState := .idle, dlyArmed := false, cdesc := v, tdesc := w } := by
  cases c with
  | tx => exact ⟨_, _, rfl⟩
  | rx => exact ⟨_, _, rfl⟩

theorem State.EngineSound.swResetStart (h : s.EngineSound) : s.swResetStart.EngineSound := by
  have hrange : ∀ c, (s.swResetStart.eng c).InRange s.cfg := fun c => by
    obtain ⟨v, w, he⟩ := s.swResetStart_eng c
    obtain ⟨hstrobe, hcoal, hdly⟩ := h.inRange c
    rw [he]
    exact ⟨hstrobe, hcoal, hdly⟩
  refine ⟨show true = (1 : Word).getLsbD 0 by decide, fun _ => ⟨rfl, fun c => ?_⟩, fun hw => absurd rfl hw, fun c => (hrange c).strobe_clear,
    fun c => (hrange c).coalEvt_le, fun c => (hrange c).dlyEvt_le⟩
  obtain ⟨v, w, he⟩ := s.swResetStart_eng c
  rw [he]
  exact ⟨rfl, rfl⟩

/-- R69, R74: `DMACR` and `resetting` written together, and no reset running after it. -/
theorem State.EngineSound.withDmacr (h : s.EngineSound) (v : Word) (hv : v.getLsbD 0 = false) :
    State.EngineSound { s with dmacr := v, resetting := false } :=
  ⟨hv.symm, fun hr => absurd hr Bool.false_ne_true, h.pending_active, h.strobe_clear, h.coalEvt_le, h.dlyEvt_le⟩

theorem State.EngineSound.writeDmacr (h : s.EngineSound) (v : Word) : (s.writeDmacr v).EngineSound := by
  unfold State.writeDmacr
  split_ifs with hr hv
  · exact h
  · exact h.swResetStart
  · have hr' : s.resetting = false := Bool.eq_false_iff.2 hr
    have hset : { s with dmacr := v } = { s with dmacr := v, resetting := false } := by rw [← hr']
    rw [hset]
    exact h.withDmacr v (Bool.eq_false_iff.2 hv)

theorem State.EngineSound.regWrite (h : s.EngineSound) (r : Reg) (v : Word) : (s.regWrite r v).EngineSound := by
  cases r with
  | ndesc | bufa | bufl | sr => exact h
  | cdesc c => exact h.writeCdesc c v
  | tdesc c => exact h.writeTdesc c v
  | cr c => exact h.writeCr c v
  | irq c => exact h.writeIrq c v
  | dmacr => exact h.writeDmacr v

/-! ## The parts of the engine's steps, none of which runs during a reset -/

theorem State.EngineSound.haltWithError (h : s.EngineSound) (hr : s.resetting = false) (c : Channel) :
    (s.haltWithError c).EngineSound := by
  obtain ⟨hstrobe, hcoal, hdly⟩ := h.inRange c
  exact h.setEng c ⟨hstrobe, hcoal, hdly⟩ (by simp [hr]) (fun _ _ => by simp)

theorem State.EngineSound.coalesceEvent (h : s.EngineSound) (hr : s.resetting = false) (c : Channel) :
    (s.coalesceEvent c).EngineSound := by
  obtain ⟨hstrobe, hcoal, hdly⟩ := h.inRange c
  simp only [State.coalesceEvent]
  split_ifs with hlt
  · exact h.setEng_of_state c ⟨hstrobe, hlt, hdly⟩ rfl rfl
  · exact h
  · exact h.haltWithError hr c

theorem State.EngineSound.delayEvent (h : s.EngineSound) (hr : s.resetting = false) (c : Channel) :
    (s.delayEvent c).EngineSound := by
  obtain ⟨hstrobe, hcoal, hdly⟩ := h.inRange c
  simp only [State.delayEvent]
  split_ifs with hlt
  · exact h.setEng_of_state c ⟨hstrobe, hcoal, hlt⟩ rfl rfl
  · exact h
  · exact h.haltWithError hr c

/-- The unit counter reloaded or counted down, and the delay armed or disarmed. -/
theorem State.EngineSound.withCounter (h : s.EngineSound) (hr : s.resetting = false) (c : Channel) (n : BitVec 8)
    (armed : Bool) : (s.setEng c { s.eng c with coalCtr := n, dlyArmed := armed }).EngineSound := by
  obtain ⟨hstrobe, hcoal, hdly⟩ := h.inRange c
  exact h.setEng c ⟨hstrobe, hcoal, hdly⟩ (by simp [hr]) (fun hc hw => hc ▸ h.pending_active hw)

theorem State.coalesceEvent_resetting (s : State) (c : Channel) : (s.coalesceEvent c).resetting = s.resetting := by
  simp only [State.coalesceEvent, State.haltWithError]
  split_ifs <;> simp

theorem State.EngineSound.countUnit (h : s.EngineSound) (hr : s.resetting = false) (c : Channel) (sts : Word) :
    (s.countUnit c sts).EngineSound := by
  simp only [State.countUnit]
  split_ifs
  · exact (h.coalesceEvent hr c).withCounter ((s.coalesceEvent_resetting c).trans hr) c _ _
  · exact h.withCounter hr c _ _
  · exact h

/-- R266, R269: a channel with no write-back pending may come to rest. -/
theorem State.EngineSound.withState (h : s.EngineSound) (c : Channel) (v : Word) (x : EngState)
    (hx : x = .idle ∨ x = (s.eng c).engState) (hw : c = .rx → s.wbPending = none) :
    (s.setEng c { s.eng c with cdesc := v, engState := x }).EngineSound := by
  obtain ⟨hstrobe, hcoal, hdly⟩ := h.inRange c
  refine h.setEng c ⟨hstrobe, hcoal, hdly⟩ (fun hr => ?_) (fun hc hn => absurd (hw hc) hn)
  obtain ⟨hidle, harmed⟩ := (h.reset_quiet hr).2 c
  exact ⟨hx.elim id fun he => he.trans hidle, harmed⟩

theorem State.EngineSound.inert (h : s.EngineSound) (c : Channel) (hw : c = .rx → s.wbPending = none) :
    (s.inert c).EngineSound := h.withState c _ _ (.inl rfl) hw

theorem State.EngineSound.advance (h : s.EngineSound) (c : Channel) (d nx : Word) (hw : c = .rx → s.wbPending = none) :
    (s.advance c d nx).EngineSound := by
  refine h.withState c nx _ ?_ hw
  split_ifs
  · exact .inl rfl
  · exact .inr rfl

/-- R267: a write-back pends for a channel that is not idle. -/
theorem State.EngineSound.withPending (h : s.EngineSound) (hr : s.resetting = false)
    (hne : (s.eng .rx).engState ≠ .idle) (d : Word) : State.EngineSound { s with wbPending := some d } :=
  ⟨h.resetting_bit, fun hres => absurd (hr.symm.trans hres) Bool.false_ne_true, fun _ => hne, h.strobe_clear, h.coalEvt_le,
    h.dlyEvt_le⟩

theorem State.EngineSound.withoutPending (h : s.EngineSound) : State.EngineSound { s with wbPending := none } :=
  ⟨h.resetting_bit, fun hres => ⟨rfl, (h.reset_quiet hres).2⟩, fun hw => absurd rfl hw, h.strobe_clear, h.coalEvt_le,
    h.dlyEvt_le⟩

end Engine

end Sys2Proof.Machine
end

section
/-! SUPPORT. What a step of the machine is made of: changes of a few kinds, each with what it is careful of. Every command, poll
and turn of another agent is a run of them, so that an invariant is proved once, for each kind of change. -/

namespace Sys2Proof.Machine

/-! ## The changes -/

/-- Address `d` names a descriptor of channel `c`'s ring, if the ring is sound. -/
def State.Names (s : State) (c : Channel) (d : Word) : Prop := (s.ring c).Sound → (s.ring c).isBd d = true

/-- The cache may hold a copy of `d`: it holds one, or `d` is a descriptor. -/
def State.MayHold (s : State) (c : Channel) (d : Word) : Prop := (∃ l ∈ s.cacheOf c, l.addr = d) ∨ s.Names c d

/-- One change of the state. -/
inductive State.Change : State → State → Prop where
  /-- what is neither a ring, the engine, memory nor a cached copy -/
  | control {s t : State}
      (h : t = { s with waiting := t.waiting, stream := t.stream, response := t.response, hostData := t.hostData
                        sched := t.sched, drawCtr := t.drawCtr }) : Change s t
  /-- the engine's registers and hidden state -/
  | engine {s t : State} (hframe : SameButEngine s t) (hsound : s.EngineSound → t.EngineSound) : Change s t
  /-- one ring's bookkeeping -/
  | ring {s : State} (c : Channel) (r : Ring) (h : (s.ring c).Move r) : Change s (s.setRing c r)
  /-- a word of descriptor memory -/
  | word {s : State} (a v : Word) : Change s { s with mem := s.mem.writeWord s.cfg.byteOrder a v }
  /-- a zeroed region of descriptor memory -/
  | zero {s : State} (base : Word) (len : Nat) : Change s { s with mem := s.mem.zeroRegion base len }
  /-- a cached copy put in -/
  | copy {s : State} (c : Channel) (l : CacheLine) (hc : s.cfg.cached = true) (h : s.MayHold c l.addr) :
      Change s (s.putLine c l)
  /-- a cached copy dropped -/
  | drop {s : State} (c : Channel) (d : Word) : Change s (s.setCache c (cacheErase (s.cacheOf c) d))

/-- Changes one after another. -/
def Run : State → State → Prop := Relation.ReflTransGen State.Change

/-- The next state, if `r` is one, is reached by changes. -/
def Runs (s : State) (r : Result) : Prop := ∀ t, r = .next t → Run s t

section Parts

variable {s t u : State}

theorem Run.refl (s : State) : Run s s := Relation.ReflTransGen.refl

theorem Run.tail (h : Run s t) (hc : State.Change t u) : Run s u := Relation.ReflTransGen.tail h hc

theorem Run.trans (h : Run s t) (k : Run t u) : Run s u := Relation.ReflTransGen.trans h k

/-- What every change keeps, every run keeps. -/
theorem Run.keeps {P : State → Prop} (hP : ∀ s t, State.Change s t → P s → P t) (h : Run s t) (hs : P s) : P t := by
  unfold Run at h
  induction h with
  | refl => exact hs
  | tail _ hc ih => exact hP _ _ hc ih

theorem Run.answer (h : Run s t) : Runs s (.next t) := fun _ he => Host.Outcome.next.inj he ▸ h

theorem Runs.of_run {r : Result} (h : Run s t) (hr : Runs t r) : Runs s r := fun u hu => h.trans (hr u hu)

/-! ## Registers, rings, the response -/

theorem Run.control (h : Run s t) (hu : u = { t with waiting := u.waiting, stream := u.stream, response := u.response
                                                     hostData := u.hostData, sched := u.sched, drawCtr := u.drawCtr }) :
    Run s u := h.tail (.control hu)

theorem Run.respond (h : Run s t) (st : Status) (rs : List Word) : Run s (t.respond st rs) := h.control rfl

theorem Run.regRead (h : Run s t) (r : Reg) : Run s (t.regRead r).2 := by
  rw [t.regRead_frame r]
  exact h.control rfl

theorem Run.engine (h : Run s t) (hframe : SameButEngine t u) (hsound : t.EngineSound → u.EngineSound) : Run s u :=
  h.tail (.engine hframe hsound)

theorem Run.regWrite (h : Run s t) (r : Reg) (v : Word) : Run s (t.regWrite r v) :=
  h.engine (t.regWrite_frame r v) (fun hs => hs.regWrite r v)

theorem Run.setRing (h : Run s t) {c : Channel} {r : Ring} (hr : (t.ring c).Move r) : Run s (t.setRing c r) :=
  h.tail (.ring c r hr)

theorem Run.setRunState (h : Run s t) (c : Channel) (rs : RunState) : Run s (t.setRunState c rs) :=
  h.setRing ((t.ring c).move_settings _ rs _ id)

theorem Run.snapshotRestart (h : Run s t) (c : Channel) : Run s (t.snapshotRestart c) :=
  h.setRing ((t.ring c).move_settings _ _ _ id)

/-- R224, R225: the shadow changed as the enables are, and no bit but an enable set. -/
theorem Run.changeEnables (h : Run s t) (c : Channel) {f : Word → Word}
    (hf : ∀ m, m &&& ~~~allEnable = 0 → f m &&& ~~~allEnable = 0) : Run s (t.changeEnables c f) :=
  ((h.regRead (.cr c)).regWrite (.cr c) _).setRing (Ring.move_settings _ _ _ _ (hf _))

theorem Run.programCoalesce (h : Run s t) (c : Channel) (counter timer : Word) :
    Run s (t.programCoalesce c counter timer) := (h.regRead (.cr c)).regWrite (.cr c) _

theorem Run.waitOn (h : Run s t) (k : WaitKind) (polls : Nat) : Run s (t.waitOn k polls) := by
  unfold State.waitOn
  split_ifs
  · exact h.control rfl
  · exact h.control rfl

theorem Run.disableAll (h : Run s t) (c : Channel) : Run s (t.disableAll c) :=
  ((h.regRead (.cr c)).regWrite (.cr c) _).setRing (Ring.move_settings _ _ _ 0 (fun _ => BitVec.zero_and))

theorem Run.acknowledgeAll (h : Run s t) (c : Channel) : Run s (t.acknowledgeAll c) :=
  (h.regRead (.irq c)).regWrite (.irq c) _

theorem Run.finishPause (h : Run s t) : Run s t.finishPause := by
  have hq : Run s { t with waiting := none } := h.control rfl
  exact ((hq.setRunState .tx _).setRunState .rx _).respond _ _

theorem Run.finishReset (h : Run s t) : Run s t.finishReset := by
  have hq : Run s { t with waiting := none } := h.control rfl
  have hoff := (((hq.disableAll .tx).disableAll .rx).acknowledgeAll .tx).acknowledgeAll .rx
  have hcr := ((hoff.regWrite .dmacr resetDefault).programCoalesce .tx 1 1).programCoalesce .rx 1 1
  exact ((hcr.setRunState .tx _).setRunState .rx _).respond _ _

theorem Run.engWrite (h : Run s t) (pa : Word) (w : Nat) (v : Word) : Run s (t.engWrite pa w v) := h.tail (.word _ _)

end Parts

/-! ## Descriptor accesses -/

/-- A run that changes descriptors only: memory, cached copies, the count of draws. -/
structure Accesses (s t : State) : Prop where
  run : Run s t
  frame : SameButDescriptors s t

section Accesses

variable {s t u : State} {c : Channel} {bd : Word}

theorem State.Names.mayHold (h : s.Names c bd) (hf : SameButDescriptors s t) : t.MayHold c bd :=
  .inr (by rwa [State.Names, hf.ring c])

theorem Accesses.refl (s : State) : Accesses s s := ⟨.refl s, .refl s⟩

theorem Accesses.setMemWord (h : Accesses s t) (c : Channel) (bd : Word) (w : Nat) (v : Word) :
    Accesses s (t.setMemWord c bd w v) := ⟨h.run.tail (.word _ _), h.frame.trans (t.setMemWord_frame c bd w v)⟩

theorem Accesses.drawBool (h : Accesses s t) : Accesses s t.drawBool.2 :=
  ⟨h.run.control rfl, h.frame.trans t.drawBool_frame⟩

theorem Accesses.putLine (h : Accesses s t) {l : CacheLine} (hc : t.cfg.cached = true) (hl : t.MayHold c l.addr) :
    Accesses s (t.putLine c l) := ⟨h.run.tail (.copy c l hc hl), h.frame.trans (t.putLine_frame c l)⟩

theorem Accesses.erase (h : Accesses s t) (c : Channel) (d : Word) :
    Accesses s (t.setCache c (cacheErase (t.cacheOf c) d)) :=
  ⟨h.run.tail (.drop c d), h.frame.trans (t.setCache_frame c _)⟩

theorem Accesses.zeroRegion (h : Accesses s t) (base : Word) (len : Nat) :
    Accesses s { t with mem := t.mem.zeroRegion base len } := ⟨h.run.tail (.zero base len), h.frame.trans rfl⟩

theorem Accesses.forEach (h : Accesses s t) {n : Nat} {f : Nat → State → State}
    (hf : ∀ k < n, ∀ u, Accesses s u → Accesses s (f k u)) : Accesses s (State.forEach n f t) := by
  induction n with
  | zero => exact h
  | succ n ih => exact hf n (Nat.lt_succ_self n) _ (ih fun k hk => hf k (Nat.lt_succ_of_lt hk))

theorem Accesses.bdRead (h : Accesses s t) (hb : s.Names c bd) (w : Nat) : Accesses s (t.bdRead c bd w).2 := by
  unfold State.bdRead
  split_ifs with hc
  · split
    · exact h
    · simp only
      split_ifs
      · exact h.drawBool.putLine (Bool.and_eq_true_iff.1 hc).1 (hb.mayHold h.drawBool.frame)
      · exact h.drawBool
  · exact h

theorem Accesses.bdWrite (h : Accesses s t) (hb : s.Names c bd) (w : Nat) (v : Word) :
    Accesses s (t.bdWrite c bd w v) := by
  unfold State.bdWrite
  split_ifs with hc
  · refine h.putLine (Bool.and_eq_true_iff.1 hc).1 ?_
    rw [CacheLine.write_addr]
    cases hl : cacheFind (t.cacheOf c) bd with
    | none => exact hb.mayHold h.frame
    | some l =>
      rw [Option.getD_some, (cacheFind_addr _ _ _ hl).1]
      exact hb.mayHold h.frame
  · exact h.setMemWord c bd w v

/-- A copy's words written to memory and the copy marked clean. -/
theorem Accesses.writeBack (h : Accesses s t) (hc : t.cfg.cached = true) {l : CacheLine} (hl : l ∈ t.cacheOf c) :
    Accesses s ((t.writeBackLine c l).putLine c { l with dirty := false }) := by
  have hw : Accesses s (t.writeBackLine c l) := h.forEach fun k _ u hu => hu.setMemWord c _ _ _
  have hcache : (t.writeBackLine c l).cacheOf c = t.cacheOf c :=
    State.forEach_keeps (fun u => u.cacheOf c = t.cacheOf c) 8 (fun w u => u.setMemWord c l.addr w (l.word w)) t rfl
      fun k u hu => by rw [State.setMemWord_cacheOf, hu]
  refine hw.putLine ?_ (.inl ⟨l, by rwa [hcache], rfl⟩)
  rw [(t.writeBackLine_frame c l).cfg, hc]

theorem Accesses.flush (h : Accesses s t) (c : Channel) (bd : Word) : Accesses s (t.flush c bd) := by
  unfold State.flush
  split_ifs with hc
  · split
    · exact h
    · next l hl =>
      have hw : Accesses s (if l.dirty then (t.writeBackLine c l).putLine c { l with dirty := false } else t) := by
        split_ifs
        · exact h.writeBack hc (cacheFind_addr _ _ _ hl).2
        · exact h
      simp only
      generalize (if l.dirty = true then _ else t) = u at hw ⊢
      split_ifs
      · exact hw.drawBool.erase c bd
      · exact hw.drawBool
  · exact h

theorem Accesses.invalidate (h : Accesses s t) (c : Channel) (bd : Word) : Accesses s (t.invalidate c bd) := by
  unfold State.invalidate
  split_ifs
  · exact h.erase c bd
  · exact h

theorem Accesses.submitDescriptor (h : Accesses s t) (hb : s.Names c bd) (sts : Word) :
    Accesses s (t.submitDescriptor c bd sts) := by
  have hw := h.bdWrite hb 3 (clearForSubmit sts)
  simp only [State.submitDescriptor]
  split_ifs
  · exact (hw.bdWrite hb _ _).flush c bd
  · exact hw.flush c bd

/-! ### The loops of CREATE and CLONE -/

theorem Accesses.zeroRing (h : Accesses s t) (c : Channel)
    (hb : ∀ k < (s.ring c).count.toNat, s.Names c ((s.ring c).bdAddr k)) : Accesses s (t.zeroRing c) := by
  unfold State.zeroRing
  rw [h.frame.ring c]
  simp only
  split_ifs
  · exact h.forEach fun k hk u hu => (hu.forEach fun w _ v hv => hv.bdWrite (hb k hk) w 0).zeroRegion _ _
  · exact h.zeroRegion _ _

theorem Accesses.initDescriptor (h : Accesses s t) {k : Nat} (hb : s.Names c ((s.ring c).bdAddr k)) :
    Accesses s (State.initDescriptor c k t) := by
  unfold State.initDescriptor
  rw [h.frame.ring c]
  exact ((h.bdWrite hb _ _).bdWrite hb _ _).flush c _

theorem Accesses.initLastDescriptor (h : Accesses s t) (hb : s.Names c (s.ring c).lastVirt) :
    Accesses s (t.initLastDescriptor c) := by
  unfold State.initLastDescriptor
  rw [h.frame.ring c]
  exact (h.bdWrite hb _ _).flush c _

theorem Accesses.cloneDescriptor (h : Accesses s t) (t1 t2 t3 t4 t5 t6 t7 t8 : Word) {k : Nat}
    (hb : s.Names c ((s.ring c).bdAddr k)) : Accesses s (State.cloneDescriptor c t1 t2 t3 t4 t5 t6 t7 t8 k t) := by
  unfold State.cloneDescriptor
  rw [h.frame.ring c]
  exact ((((((((h.bdWrite hb _ _).bdWrite hb _ _).bdWrite hb _ _).bdWrite hb _ _).bdWrite hb _ _).bdWrite hb _ _).bdWrite
    hb _ _).bdWrite hb _ _).flush c _

/-- The loops of CREATE, over a ring whose descriptors are named. -/
theorem State.createRing_accesses (s : State) (c : Channel) (p v a n : Word)
    (hl : ((s.ring c).created p v a n).LaidOut) :
    Accesses (s.setRing c ((s.ring c).created p v a n)) (s.createRing c p v a n) := by
  have hring := s.setRing_ring_same c ((s.ring c).created p v a n)
  unfold State.createRing
  generalize s.setRing c ((s.ring c).created p v a n) = s1 at hring ⊢
  rw [← hring] at hl
  have hn : (s1.ring c).count = n := by rw [hring]; rfl
  have hb : ∀ k < (s1.ring c).count.toNat, s1.Names c ((s1.ring c).bdAddr k) := fun k hk _ => hl.isBd_bdAddr hk
  have hloop := ((Accesses.refl s1).zeroRing c hb).forEach (n := n.toNat - 1) (f := State.initDescriptor c)
    fun k hk u hu => hu.initDescriptor (hb k (by rw [hn]; omega))
  exact hloop.initLastDescriptor fun _ => hl.isBd_lastVirt

/-! ### The walks of TO_HW and FROM_HW -/

/-- What follows a descriptor is a descriptor. -/
theorem State.Names.nxt (h : s.Names c bd) : s.Names c ((s.ring c).nxt bd) := fun hs => by
  have hbd := h hs
  have hcount : (s.ring c).count ≠ 0 := fun h0 => by simp [Ring.isBd_of_count_zero h0] at hbd
  obtain ⟨hl, -⟩ := hs.of_count_ne_zero hcount
  exact hl.isBd_adv hbd hl.count_pos

theorem Accesses.toHwWalk (h : Accesses s t) (hb : s.Names c bd) (m : Nat) (sts : Word) :
    Accesses s (toHwWalk c m bd sts t).state := by
  induction m generalizing bd sts t with
  | zero =>
    simp only [Machine.toHwWalk]
    split_ifs
    · exact h
    · exact h.bdRead hb 2
    · exact (h.bdRead hb 2).submitDescriptor hb sts
  | succ m ih =>
    have hsub := (h.bdRead hb 2).submitDescriptor hb sts
    simp only [Machine.toHwWalk, hsub.frame.ring c]
    split_ifs
    · exact h.bdRead hb 2
    · exact ih (hsub.bdRead hb.nxt 3) hb.nxt _

/-- R176: a walk over the whole set ends on its last descriptor. -/
theorem toHwWalk_cur (c : Channel) (m : Nat) (cur sts : Word) (s : State) (hl : (s.ring c).LaidOut)
    (hcur : (s.ring c).isBd cur = true) (hm : m ≤ (s.ring c).count.toNat)
    (hok : (toHwWalk c m cur sts s).status = .ok) : (toHwWalk c m cur sts s).cur = (s.ring c).adv cur m := by
  induction m generalizing cur sts s with
  | zero =>
    rw [hl.adv_zero hcur]
    simp only [toHwWalk]
    split_ifs <;> rfl
  | succ m ih =>
    have hread := (s.bdRead_frame c cur 2).trans ((s.bdRead c cur 2).2.submitDescriptor_frame c cur sts)
    have hframe := (hread.trans (State.bdRead_frame _ c ((s.ring c).nxt cur) 3)).ring c
    simp only [toHwWalk, hread.ring c] at hok ⊢
    split_ifs at hok ⊢
    rw [ih _ _ _ (hframe.symm ▸ hl) (hframe.symm ▸ hl.isBd_adv hcur hl.count_pos) (by rw [hframe]; omega) hok, hframe,
      Ring.nxt, hl.adv_adv hcur (by omega), Nat.add_comm]

/-- R180: one turn of the walk reads its descriptor, then stops before it, ends with it at the tail, or goes on. -/
theorem fromHwWalk_succ (c : Channel) (m : Nat) (cur : Word) (cnt part : Nat) (s : State) :
    ∃ u part', SameButDescriptors s u ∧ (s.Names c cur → Accesses s u) ∧
      (fromHwWalk c (m + 1) cur cnt part s = ⟨cnt, part, u⟩ ∨
        fromHwWalk c (m + 1) cur cnt part s = ⟨cnt + 1, part', u⟩ ∧ cur = (s.ring c).hwTail ∨
        fromHwWalk c (m + 1) cur cnt part s = fromHwWalk c m ((s.ring c).nxt cur) (cnt + 1) part' u ∧
          cur ≠ (s.ring c).hwTail) := by
  have hframe := (s.invalidate_frame c cur).trans ((s.invalidate c cur).bdRead_frame c cur 3)
  have hread : s.Names c cur → Accesses s _ := fun hb => ((Accesses.refl s).invalidate c cur).bdRead hb 3
  simp only [fromHwWalk]
  generalize (s.invalidate c cur).bdRead c cur 3 = st at hframe hread ⊢
  have hframe' : SameButDescriptors s
      (if (st.2.ring c).isRx = true then st.2.bdRead c cur st.2.cfg.wdogWord else (0, st.2)).2 := by
    split_ifs
    · exact hframe.trans (State.bdRead_frame _ _ _ _)
    · exact hframe
  have hread' : s.Names c cur → Accesses s
      (if (st.2.ring c).isRx = true then st.2.bdRead c cur st.2.cfg.wdogWord else (0, st.2)).2 := fun hb => by
    split_ifs
    · exact (hread hb).bdRead hb _
    · exact hread hb
  generalize (if (st.2.ring c).isRx = true then st.2.bdRead c cur st.2.cfg.wdogWord else (0, st.2)) = wd
    at hframe' hread' ⊢
  rw [hframe'.ring c]
  by_cases hcmp : hasFlag st.1 flagCmp = false
  · exact ⟨st.2, part, hframe, hread, .inl (if_pos hcmp)⟩
  · refine ⟨wd.2, if hasFlag st.1 flagEop then 0 else part + 1, hframe', hread', ?_⟩
    rw [if_neg hcmp]
    generalize (if hasFlag st.1 flagEop = true then 0 else part + 1) = part'
    split_ifs with hwd htail
    · exact .inl rfl
    · exact .inr (.inl ⟨rfl, htail⟩)
    · exact .inr (.inr ⟨rfl, htail⟩)

theorem State.Names.of_frame (h : s.Names c bd) (hf : SameButDescriptors s t) : t.Names c bd := by
  rwa [State.Names, hf.ring c]

theorem fromHwWalk_accesses (m : Nat) (cnt part : Nat) (hb : s.Names c bd) :
    Accesses s (fromHwWalk c m bd cnt part s).state := by
  induction m generalizing bd cnt part s with
  | zero => exact .refl s
  | succ m ih =>
    obtain ⟨u, part', hframe, hread, hcase⟩ := fromHwWalk_succ c m bd cnt part s
    have hu := hread hb
    rcases hcase with he | ⟨he, -⟩ | ⟨he, -⟩
    · rwa [he]
    · rwa [he]
    · have hrest := ih (cnt + 1) part' (hb.nxt.of_frame hframe)
      rw [he]
      exact ⟨hu.run.trans hrest.run, hframe.trans hrest.frame⟩

/-- R180: a walk that stands `cnt` descriptors into the Hardware group counts no more than the group holds, as it ends at the
tail. -/
theorem fromHwWalk_cnt_le (c : Channel) (m cnt part : Nat) (s : State) (hl : (s.ring c).LaidOut)
    (hp : (s.ring c).Partitioned) (hcnt : cnt < (s.ring c).hwCount.toNat) :
    (fromHwWalk c m ((s.ring c).adv (s.ring c).hwHead cnt) cnt part s).cnt ≤ (s.ring c).hwCount.toNat := by
  induction m generalizing cnt part s with
  | zero => exact hcnt.le
  | succ m ih =>
    have hsum := hp.count_sum
    obtain ⟨u, part', hframe, -, hcase⟩ :=
      fromHwWalk_succ c m ((s.ring c).adv (s.ring c).hwHead cnt) cnt part s
    rcases hcase with he | ⟨he, -⟩ | ⟨he, hne⟩
    · rw [he]
      exact hcnt.le
    · rw [he]
      exact hcnt
    · have hlt : cnt + 1 < (s.ring c).hwCount.toNat := by
        by_contra hge
        refine hne ?_
        rw [hp.tail_is_last (by omega), show (s.ring c).hwCount.toNat - 1 = cnt by omega]
      have hring := hframe.ring c
      have hrest := ih (cnt + 1) part' u (hring ▸ hl) (hring ▸ hp) (hring ▸ hlt)
      rw [hring] at hrest
      rwa [he, Ring.nxt, hl.adv_adv hp.hwHead_isBd (by omega)]

end Accesses

end Sys2Proof.Machine
end

section
/-! SUPPORT. Every command, poll and turn of an agent is a run of changes, and so is a step. -/

namespace Sys2Proof.Machine

/-! ## The commands -/

section Commands

variable (s : State) (ch : Channel)

/-- A command that fails changes its response only. -/
theorem Runs.fail (st : Status) (k : Nat) : Runs s (.next (s.failWith st k)) := ((Run.refl s).respond _ _).answer

theorem execNop_runs : Runs s (execNop s) := ((Run.refl s).respond _ _).answer

theorem execBdRd_runs (bd w : Word) : Runs s (execBdRd ch bd w s) := by
  simp only [execBdRd]
  split_ifs with hbad
  · exact .fail s _ _
  · exact .fail s _ _
  · have hb : s.Names ch bd := fun _ => by simpa using (not_or.1 hbad).1
    exact (((Accesses.refl s).bdRead hb _).run.respond _ _).answer

theorem execBdWr_runs (bd w value : Word) : Runs s (execBdWr ch bd w value s) := by
  simp only [execBdWr]
  split_ifs with hbad
  · exact .fail s _ _
  · exact .fail s _ _
  · exact .fail s _ _
  · have hb : s.Names ch bd := fun _ => by simpa using (not_or.1 hbad).1
    exact (((Accesses.refl s).bdWrite hb _ _).run.respond _ _).answer

theorem execBdNext_runs (bd : Word) : Runs s (execBdNext ch bd s) := by
  simp only [execBdNext]
  split_ifs
  · exact ((Run.refl s).respond _ _).answer
  · exact .fail s _ _

theorem execBdPrev_runs (bd : Word) : Runs s (execBdPrev ch bd s) := by
  simp only [execBdPrev]
  split_ifs
  · exact ((Run.refl s).respond _ _).answer
  · exact .fail s _ _

theorem execRingStat_runs (sel : Word) : Runs s (execRingStat ch sel s) := by
  unfold execRingStat
  split
  · exact ((Run.refl s).respond _ _).answer
  · exact .fail s _ _

theorem execRegRd_runs (off : Word) : Runs s (execRegRd off s) := by
  unfold execRegRd
  split
  · exact .fail s _ _
  · exact (((Run.refl s).regRead _).respond _ _).answer

theorem execRegWr_runs (off value : Word) : Runs s (execRegWr off value s) := by
  unfold execRegWr
  split
  · exact .fail s _ _
  · exact (((Run.refl s).regWrite _ _).respond _ _).answer

theorem execSetCoalesce_runs (counter timer : Word) : Runs s (execSetCoalesce ch counter timer s) := by
  unfold execSetCoalesce
  split_ifs
  · exact (((Run.refl s).programCoalesce _ _ _).respond _ _).answer
  · exact .fail s _ _

theorem execGetCoalesce_runs : Runs s (execGetCoalesce ch s) := (((Run.refl s).regRead _).respond _ _).answer

/-- R224: only enable bits are set in the shadow. -/
theorem execIrqEnable_runs (mask : Word) : Runs s (execIrqEnable ch mask s) := by
  refine (((Run.refl s).changeEnables ch fun m hm => ?_).respond _ _).answer
  rw [BitVec.and_comm, BitVec.and_or_distrib_left, BitVec.and_comm, hm]
  simp [BitVec.and_comm mask, ← BitVec.and_assoc]

theorem execIrqDisable_runs (mask : Word) : Runs s (execIrqDisable ch mask s) := by
  refine (((Run.refl s).changeEnables ch fun m hm => ?_).respond _ _).answer
  rw [BitVec.and_assoc, BitVec.and_comm (~~~_), ← BitVec.and_assoc, hm]
  exact BitVec.zero_and

theorem execIrqGet_runs : Runs s (execIrqGet ch s) := (((Run.refl s).regRead _).respond _ _).answer

theorem execIrqAck_runs (mask : Word) : Runs s (execIrqAck ch mask s) :=
  (((Run.refl s).regWrite _ _).respond _ _).answer

/-- R48: where there is unharvested work, the tail is a descriptor. -/
theorem State.names_hwTail (hc : (s.ring ch).hwCount ≠ 0) : s.Names ch (s.ring ch).hwTail := fun hs => by
  obtain ⟨-, hp⟩ := hs.resolve_left fun hu => hc hu.hwCount_eq
  exact hp.hwTail_isBd

theorem Run.rekick {t : State} (h : Run s t) : Run s (t.rekick ch) := by
  simp only [State.rekick]
  split_ifs with hc
  · exact h
  · exact h.trans (((Accesses.refl t).invalidate ch _).bdRead (t.names_hwTail ch hc) 3).run
  · exact (h.trans (((Accesses.refl t).invalidate ch _).bdRead (t.names_hwTail ch hc) 3).run).regWrite _ _

theorem execStart_runs : Runs s (execStart ch s) := by
  simp only [execStart]
  split_ifs
  · exact .fail s _ _
  · exact ((Run.refl s).respond _ _).answer
  · exact (((((Run.refl s).regWrite _ _).rekick s ch).setRunState ch _).respond _ _).answer

theorem execPause_runs : Runs s (execPause s) := ((((Run.refl s).regRead _).regWrite _ _).waitOn _ _).answer

theorem execResume_runs : Runs s (execResume s) :=
  ((((((Run.refl s).regRead _).regWrite _ _).setRunState .tx _).setRunState .rx _).respond _ _).answer

theorem execReset_runs : Runs s (execReset s) :=
  (((((Run.refl s).snapshotRestart .tx).snapshotRestart .rx).regWrite _ _).waitOn _ _).answer

theorem execAlloc_runs (n : Word) : Runs s (execAlloc ch n s) := by
  simp only [execAlloc]
  split_ifs with hn
  · exact .fail s _ _
  · exact (((Run.refl s).setRing (Ring.move_allocated (BitVec.not_lt.1 hn))).respond _ _).answer

theorem execUnalloc_runs (n set : Word) : Runs s (execUnalloc ch n set s) := by
  simp only [execUnalloc]
  split_ifs with hn
  · exact .fail s _ _
  · exact (((Run.refl s).setRing (Ring.move_unallocated (BitVec.not_lt.1 hn))).respond _ _).answer

theorem execFree_runs (n set : Word) : Runs s (execFree ch n set s) := by
  simp only [execFree]
  split_ifs with hz hn
  · exact ((Run.refl s).respond _ _).answer
  · exact .fail s _ _
  · exact (((Run.refl s).setRing (Ring.move_freed (BitVec.not_lt.1 (not_or.1 hn).2))).respond _ _).answer

theorem Run.commitSubmission {t : State} (h : Run s t) {n cur : Word}
    (hm : (t.ring ch).Move ((t.ring ch).submitted n cur)) : Run s (t.commitSubmission ch n cur) := by
  simp only [State.commitSubmission]
  split_ifs
  · exact (h.setRing hm).regWrite _ _
  · exact h.setRing hm

/-- R47: where there is a group, its head is a descriptor. -/
theorem State.names_preHead (hc : (s.ring ch).preCount ≠ 0) : s.Names ch (s.ring ch).preHead := fun hs => by
  obtain ⟨-, hp⟩ := hs.resolve_left fun hu => hc hu.preCount_eq
  exact hp.preHead_isBd

theorem State.names_hwHead (hc : (s.ring ch).hwCount ≠ 0) : s.Names ch (s.ring ch).hwHead := fun hs => by
  obtain ⟨-, hp⟩ := hs.resolve_left fun hu => hc hu.hwCount_eq
  exact hp.hwHead_isBd

/-- R176: the walk over the Pre-process group's first `n` descriptors, where it answers OK, ends on the last of them: the
submission is a move. -/
theorem Run.toHwSubmission {n : Word} {t : State} (ht : Accesses s t) (hz : n ≠ 0) (hn : n ≤ (s.ring ch).preCount)
    (hb : s.Names ch (s.ring ch).preHead) (sts : Word)
    (hok : (toHwWalk ch (n.toNat - 1) (s.ring ch).preHead sts t).status = .ok) :
    Run s ((toHwWalk ch (n.toNat - 1) (s.ring ch).preHead sts t).state.commitSubmission ch n
      (toHwWalk ch (n.toNat - 1) (s.ring ch).preHead sts t).cur) := by
  have hwalk := ht.toHwWalk hb (n.toNat - 1) sts
  have hring := ht.frame.ring ch
  refine hwalk.run.commitSubmission s ch ?_
  rw [hwalk.frame.ring ch]
  refine Ring.move_submitted hn hz fun hl hp => ?_
  have hsum := hp.count_sum
  have hle := BitVec.le_def.1 hn
  rw [toHwWalk_cur ch _ _ _ _ (hring ▸ hl) (hring ▸ hp.preHead_isBd) (by rw [hring]; omega) hok, hring]

theorem execToHw_runs (n set : Word) : Runs s (execToHw ch n set s) := by
  simp only [execToHw]
  by_cases hz : n = 0
  · rw [if_pos hz]
    exact ((Run.refl s).respond _ _).answer
  rw [if_neg hz]
  by_cases hseq : set ≠ (s.ring ch).preHead ∨ (s.ring ch).preCount < n
  · rw [if_pos hseq]
    exact .fail s _ _
  rw [if_neg hseq]
  obtain ⟨hset, hlt⟩ := not_or.1 hseq
  obtain rfl := not_not.1 hset
  have hn := BitVec.not_lt.1 hlt
  have hb := s.names_preHead ch fun h0 => hz (eq_zero_of_le h0 hn)
  have hread := (Accesses.refl s).bdRead hb 3
  split_ifs with hsop hok
  · exact (hread.run.respond _ _).answer
  · exact ((Run.toHwSubmission s ch hread hz hn hb _ hok).respond _ _).answer
  · exact ((hread.toHwWalk hb _ _).run.respond _ _).answer

theorem execFromHw_runs (limit : Word) : Runs s (execFromHw ch limit s) := by
  simp only [execFromHw]
  by_cases hz : (s.ring ch).hwCount = 0
  · rw [if_pos hz]
    exact ((Run.refl s).respond _ _).answer
  rw [if_neg hz]
  have hwalk := fromHwWalk_accesses limit.toNat 0 0 (s.names_hwHead ch hz)
  split_ifs with hcnt
  · exact (hwalk.run.respond _ _).answer
  · refine ((hwalk.run.setRing (r := (s.ring ch).harvested _) ?_).respond _ _).answer
    rw [hwalk.frame.ring ch]
    refine Ring.move_harvested (fun hu => hz hu.hwCount_eq) fun hl hp => ?_
    have hpos : 0 < (s.ring ch).hwCount.toNat := by bv_omega
    have hle := fromHwWalk_cnt_le ch limit.toNat 0 0 s hl hp hpos
    rw [hl.adv_zero hp.hwHead_isBd] at hle
    omega

theorem execCreate_runs (hc : s.cfg.wf = true) (p v a n : Word) : Runs s (execCreate ch p v a n s) := by
  unfold execCreate
  split
  · exact .fail s _ _
  · next hnone =>
    have ha := (createCheck_eq_none_iff _ _ _ _ _ _).1 hnone
    have hrun := (Run.refl s).setRing (Ring.move_created hc ha)
    exact ((hrun.trans (s.createRing_accesses ch p v a n (Ring.laidOut_created hc ha)).run).respond _ _).answer

theorem execClone_runs (t0 t1 t2 t3 t4 t5 t6 t7 t8 : Word) : Runs s (execClone ch t0 t1 t2 t3 t4 t5 t6 t7 t8 s) := by
  simp only [execClone]
  split_ifs
  · exact .fail s _ _
  · exact .fail s _ _
  · have hb : ∀ k < (s.ring ch).count.toNat, s.Names ch ((s.ring ch).bdAddr k) := fun k hk hs => by
      obtain ⟨hl, -⟩ := hs.of_count_ne_zero (by bv_omega)
      exact hl.isBd_bdAddr hk
    have hloop := (Accesses.refl s).forEach (f := State.cloneDescriptor ch t1 t2 t3 t4 t5 t6 t7 t8)
      fun k hk u hu => hu.cloneDescriptor t1 t2 t3 t4 t5 t6 t7 t8 (hb k hk)
    exact (hloop.run.respond _ _).answer

theorem exec_runs (hc : s.cfg.wf = true) (i : Instr) : Runs s (exec i s) := by
  cases i with
  | nop => exact execNop_runs s
  | create ch p v a n => exact execCreate_runs s ch hc p v a n
  | clone ch t0 t1 t2 t3 t4 t5 t6 t7 t8 => exact execClone_runs s ch t0 t1 t2 t3 t4 t5 t6 t7 t8
  | alloc ch n => exact execAlloc_runs s ch n
  | unalloc ch n set => exact execUnalloc_runs s ch n set
  | toHw ch n set => exact execToHw_runs s ch n set
  | fromHw ch limit => exact execFromHw_runs s ch limit
  | free ch n set => exact execFree_runs s ch n set
  | start ch => exact execStart_runs s ch
  | pause => exact execPause_runs s
  | resume => exact execResume_runs s
  | reset => exact execReset_runs s
  | setCoalesce ch counter timer => exact execSetCoalesce_runs s ch counter timer
  | getCoalesce ch => exact execGetCoalesce_runs s ch
  | irqEnable ch mask => exact execIrqEnable_runs s ch mask
  | irqDisable ch mask => exact execIrqDisable_runs s ch mask
  | irqGet ch => exact execIrqGet_runs s ch
  | irqAck ch mask => exact execIrqAck_runs s ch mask
  | bdRd ch bd w => exact execBdRd_runs s ch bd w
  | bdWr ch bd w value => exact execBdWr_runs s ch bd w value
  | bdNext ch bd => exact execBdNext_runs s ch bd
  | bdPrev ch bd => exact execBdPrev_runs s ch bd
  | ringStat ch sel => exact execRingStat_runs s ch sel
  | regRd off => exact execRegRd_runs s off
  | regWr off value => exact execRegWr_runs s off value

end Commands

/-! ## The manager's turn -/

theorem State.poll_run (s : State) (w : Waiting) : Run s (s.poll w) := by
  have h := (Run.refl s).regRead
  unfold State.poll
  cases w.kind with
  | pause =>
    simp only
    split_ifs
    · exact (h _).finishPause
    · exact (h _).waitOn _ _
  | reset =>
    simp only
    split_ifs
    · exact (h _).waitOn _ _
    · exact (h _).finishReset

theorem State.rejectCommand_run (s : State) (why : DecodeError) : Run s (s.rejectCommand why) := by
  unfold State.rejectCommand
  split_ifs
  · exact (Run.refl s).control rfl
  · exact .refl s

theorem managerTurn_runs (s : State) (hc : s.cfg.wf = true) : Runs s (managerTurn s) := by
  rcases hw : s.waiting with _ | w
  · rcases hd : decode s.stream with ⟨i, rest⟩ | why
    · rw [managerTurn_of_instr s i rest hw hd]
      split_ifs
      · exact .of_run ((Run.refl s).control rfl) (exec_runs { s with stream := rest } hc i)
      · exact fun _ he => by simp at he
    · rw [managerTurn_of_rejected s why hw hd]
      exact (s.rejectCommand_run why).answer
  · rw [managerTurn_of_waiting s w hw]
    exact (s.poll_run w).answer

/-! ## The engine's turn -/

section Engine

variable {s t : State}

theorem Run.haltWithError (h : Run s t) (hr : t.resetting = false) (c : Channel) : Run s (t.haltWithError c) :=
  h.engine (t.setEng_frame c _) fun hs => hs.haltWithError hr c

theorem Run.countUnit (h : Run s t) (hr : t.resetting = false) (c : Channel) (sts : Word) :
    Run s (t.countUnit c sts) :=
  h.engine (by rw [t.countUnit_frame c sts]; exact t.setEng_frame c _) fun hs => hs.countUnit hr c sts

theorem Run.advance (h : Run s t) (c : Channel) (d nx : Word) (hw : c = .rx → t.wbPending = none) :
    Run s (t.advance c d nx) :=
  h.engine (t.setEng_frame c _) fun hs => hs.advance c d nx hw

theorem State.countUnit_resetting (s : State) (c : Channel) (sts : Word) :
    (s.countUnit c sts).resetting = s.resetting := by
  rw [s.countUnit_frame c sts, State.setEng_resetting]

theorem State.countUnit_wbPending (s : State) (c : Channel) (sts : Word) :
    (s.countUnit c sts).wbPending = s.wbPending := by
  rw [s.countUnit_frame c sts, State.setEng_wbPending]

theorem State.sendComplete_run (s : State) (hr : s.resetting = false) (d nx st : Word) (err : Bool) :
    Run s (s.sendComplete d nx st err) := by
  have hunit : Run s ((s.engWrite d 3 (sendStatus st err)).countUnit .tx (sendStatus st err)) :=
    ((Run.refl s).engWrite d 3 _).countUnit hr .tx _
  have hr' := ((s.engWrite d 3 (sendStatus st err)).countUnit_resetting .tx (sendStatus st err)).trans hr
  simp only [State.sendComplete]
  split_ifs
  · exact (hunit.haltWithError hr' .tx).advance .tx d nx (by simp)
  · exact hunit.advance .tx d nx (by simp)

theorem Accesses.engWrite (h : Accesses s t) (pa : Word) (w : Nat) (v : Word) : Accesses s (t.engWrite pa w v) :=
  ⟨h.run.engWrite pa w v, h.frame.trans (t.engWrite_frame pa w v)⟩

theorem Accesses.writeAccessory (h : Accesses s t) (d : Word) (w : Nat) (v : Word) :
    Accesses s (t.writeAccessory d w v) := by
  unfold State.writeAccessory
  split_ifs
  · exact h
  · exact h.engWrite d w v

theorem Run.withPending (h : Run s t) (hr : t.resetting = false) (hne : (t.eng .rx).engState ≠ .idle) (d : Word) :
    Run s { t with wbPending := some d } := h.engine rfl fun hs => hs.withPending hr hne d

/-- R267: the words of a receive completion, then the pending write-back, on a channel that runs or is halted. -/
theorem State.recvBegin_run (s : State) (hr : s.resetting = false) (hrun : (s.eng .rx).engState = .run) (d st : Word)
    (x : EngDraws) : Run s (s.recvBegin d st x) := by
  have hacc := ((((Accesses.refl s).writeAccessory d 4 x.acc4).writeAccessory d 5 x.acc5).writeAccessory
    d 6 x.acc6).writeAccessory d 7 x.acc7
  have h := (hacc.engWrite d 2 x.len).engWrite d 3 (recvStatus st x)
  have hr' := h.frame.resetting.trans hr
  simp only [State.recvBegin]
  split_ifs
  · exact (h.run.haltWithError hr' .rx).withPending hr' (by simp [State.haltWithError]) d
  · refine h.run.withPending hr' ?_ d
    rw [h.frame.eng .rx, hrun]
    decide

theorem State.inert_run (s : State) (c : Channel) (hw : c = .rx → s.wbPending = none) : Run s (s.inert c) :=
  (Run.refl s).engine (s.setEng_frame c _) fun hs => hs.inert c hw

/-- R260: an active channel runs, no reset does, and on receive no write-back pends. -/
theorem State.engineActive_iff (s : State) (c : Channel) :
    s.engineActive c = true ↔
      (s.eng c).engState = .run ∧ s.resetting = false ∧ (c = .rx → s.wbPending = none) := by
  cases c <;> simp [State.engineActive, State.writeQueueFree, and_assoc]

theorem State.engStep_run (s : State) (c : Channel) (x : EngDraws) : Run s (s.engStep c x) := by
  simp only [State.engStep]
  by_cases hen : s.stepEnabled c = true
  · have hact : s.engineActive c = true := by
      simp only [State.stepEnabled, Bool.and_eq_true] at hen
      exact hen.1.1
    obtain ⟨hrun, hr, hw⟩ := (s.engineActive_iff c).1 hact
    rw [if_pos hen]
    cases c with
    | tx =>
      simp only
      split_ifs
      · exact s.inert_run .tx hw
      · exact s.sendComplete_run hr _ _ _ _
    | rx =>
      simp only
      split_ifs
      · exact s.inert_run .rx hw
      · exact s.recvBegin_run hr hrun _ _ _
      · exact .refl s
  · rw [if_neg hen]
    exact .refl s

theorem State.engRxFinish_run (s : State) (v : Word) : Run s (s.engRxFinish v) := by
  unfold State.engRxFinish
  cases hwb : s.wbPending with
  | none => exact .refl s
  | some d =>
    simp only
    split_ifs with hstop
    · exact .refl s
    · have hr : s.resetting = false := by
        simp only [Bool.or_eq_true, not_or] at hstop
        exact Bool.eq_false_iff.2 hstop.1
      have h : Run s { s.engWrite d s.cfg.wdogWord v with wbPending := none } :=
        ((Run.refl s).engWrite d _ v).engine rfl fun hs => hs.withoutPending
      exact (h.countUnit hr .rx _).advance .rx d _ fun _ => State.countUnit_wbPending _ _ _

theorem State.engDelay_run (s : State) (c : Channel) : Run s (s.engDelay c) := by
  simp only [State.engDelay]
  split_ifs with hen
  · have hr : s.resetting = false := by simpa using (Bool.and_eq_true_iff.1 hen).2
    have hframe := s.delayEvent_frame c
    have hr' : (s.delayEvent c).resetting = false := by rw [hframe, State.setEng_resetting, hr]
    have h : Run s (s.delayEvent c) :=
      (Run.refl s).engine (by rw [hframe]; exact s.setEng_frame c _) fun hs => hs.delayEvent hr c
    exact h.engine (State.setEng_frame _ c _) fun hs => hs.withCounter hr' c _ false
  · exact .refl s

theorem State.engineTurn_run (s : State) (e : EngineEvent) : Run s (s.engineTurn e) := by
  cases e with
  | step c x => exact s.engStep_run c x
  | rxFinish v => exact s.engRxFinish_run v
  | error c =>
    simp only [State.engineTurn, State.engError]
    split_ifs with hact
    · exact (Run.refl s).haltWithError ((s.engineActive_iff c).1 hact).2.1 c
    · exact .refl s
  | delay c => exact s.engDelay_run c
  | resetDone =>
    simp only [State.engineTurn, State.engResetDone]
    split_ifs
    · exact (Run.refl s).engine rfl fun hs => hs.withDmacr 0 (by decide)
    · exact .refl s

end Engine

/-! ## The cache's turn and the host's -/

theorem State.cacheTurn_run (s : State) (e : CacheEvent) : Run s (s.cacheTurn e) := by
  cases e with
  | writeBack c d =>
    simp only [State.cacheTurn, State.cacheWriteBack]
    split
    · next l hl =>
      split_ifs with hc
      · exact ((Accesses.refl s).writeBack (Bool.and_eq_true_iff.1 hc).1 (cacheFind_addr _ _ _ hl).2).run
      · exact .refl s
    · exact .refl s
  | evict c d =>
    simp only [State.cacheTurn, State.cacheEvict]
    split
    · split_ifs
      · exact ((Accesses.refl s).erase c d).run
      · exact .refl s
    · exact .refl s

theorem State.narrowAccess_runs (s : State) (addr : Word) (n : Nat) : Runs s (s.narrowAccess addr n) := fun t ht => by
  rcases s.narrowAccess_stops addr n with h | h <;> simp [h] at ht

/-- R80: an address that is located lies in a descriptor. -/
theorem Ring.isBd_of_locate {r : Ring} {addr bd : Word} {w : Nat} (h : r.locate addr = some (bd, w)) :
    r.isBd bd = true := by
  simp only [Ring.locate] at h
  split_ifs at h with hc
  obtain ⟨rfl, -⟩ := Prod.mk.inj (Option.some.inj h)
  simp only [Bool.and_eq_true] at hc
  exact hc.1.2

theorem State.names_of_locate (s : State) {addr bd : Word} {c : Channel} {w : Nat}
    (h : s.locate addr = some (c, bd, w)) : s.Names c bd := fun _ => by
  unfold State.locate at h
  split at h
  · next htx =>
    cases h
    exact Ring.isBd_of_locate htx
  · split at h
    · next hrx =>
      cases h
      exact Ring.isBd_of_locate hrx
    · cases h

theorem hostRead_runs (addr : Word) (n : Nat) (s : State) : Runs s (hostRead addr n s) := by
  unfold hostRead
  split_ifs
  · exact s.narrowAccess_runs addr n
  · split
    · exact fun _ he => by simp at he
    · next c bd w hloc =>
      refine Run.answer (Run.control (t := (if (s.ring c).group bd = .hw then s.drawWord else s.bdRead c bd w).2) ?_ rfl)
      split_ifs
      · exact (Run.refl s).control rfl
      · exact ((Accesses.refl s).bdRead (s.names_of_locate hloc) w).run

theorem hostWrite_runs (addr : Word) (n : Nat) (v : Word) (s : State) : Runs s (hostWrite addr n v s) := by
  unfold hostWrite
  split_ifs
  · exact s.narrowAccess_runs addr n
  · split
    · exact fun _ he => by simp at he
    · next c bd w hloc =>
      split_ifs
      · exact ((Accesses.refl s).bdWrite (s.names_of_locate hloc) w v).run.answer
      · exact fun _ he => by simp at he

theorem hostTurn_runs (s : State) (e : HostEvent) : Runs s (hostTurn s e) := by
  unfold hostTurn
  split_ifs
  · exact (Run.refl s).answer
  · cases e with
    | present ws => exact ((Run.refl s).control rfl).answer
    | directRead addr n => exact hostRead_runs addr n s
    | directWrite addr n v => exact hostWrite_runs addr n v s

/-! ## The step -/

/-- A step of the machine is a run of changes. -/
theorem step_runs (s : State) : Runs s (step s) := by
  unfold step turn
  split_ifs with hwf hp
  · exact fun _ he => by simp at he
  · exact fun _ he => by simp at he
  · have hc : s.cfg.wf = true := by simpa using hwf
    have hq : ∀ q, Run s { s with sched := q } := fun q => (Run.refl s).control rfl
    split
    · exact managerTurn_runs s hc
    · exact .of_run (hq _) (managerTurn_runs _ hc)
    · next e q _ =>
      intro t ht
      rw [State.guardedEngineTurn_next _ t e ht]
      exact (hq q).trans (State.engineTurn_run _ e)
    · exact ((hq _).trans (State.cacheTurn_run _ _)).answer
    · exact .of_run (hq _) (hostTurn_runs _ _)

/-- What every change keeps, every step keeps. -/
theorem step_keeps {P : State → Prop} (hP : ∀ s t, State.Change s t → P s → P t) {s t : State}
    (h : step s = .next t) (hs : P s) : P t := (step_runs s t h).keeps hP hs

end Sys2Proof.Machine
end

section
/-! SUPPORT. The invariants of spec/10_state.md: what each kind of change does to the rings, the engine, memory and the cached
copies, and so that every step keeps each of them. -/

namespace Sys2Proof.Machine

/-! ## The rings -/

theorem Ring.Move.refl (r : Ring) : r.Move r := ⟨rfl, id, fun _ => id, id⟩

section Rings

variable {s t : State}

theorem State.Change.cfg (h : State.Change s t) : t.cfg = s.cfg := by
  cases h with
  | control h => rw [h]
  | engine hframe => exact hframe.cfg
  | ring => exact s.setRing_cfg _ _
  | word | zero => rfl
  | copy => exact (s.putLine_frame _ _).cfg
  | drop => exact s.setCache_cfg _ _

/-- A change moves a ring, or leaves it as it is. -/
theorem State.Change.move (h : State.Change s t) (c : Channel) : (s.ring c).Move (t.ring c) := by
  have same : t.ring c = s.ring c → (s.ring c).Move (t.ring c) := fun he => he.symm ▸ .refl _
  cases h with
  | control h => exact same (by rw [h]; cases c <;> rfl)
  | engine hframe => exact same (hframe.ring c)
  | ring c' r hm =>
    by_cases hc : c = c'
    · rwa [hc, State.setRing_ring_same]
    · exact same (s.setRing_ring_other c' c r hc)
  | word | zero => exact same (by cases c <;> rfl)
  | copy => exact same ((s.putLine_frame _ _).ring c)
  | drop => exact same (s.setCache_ring _ c _)

theorem State.Change.ringsSound (h : State.Change s t) (hs : s.RingsSound) : t.RingsSound where
  ring c := (h.move c).sound (hs.ring c)
  isRx c := (h.move c).isRx.trans (hs.isRx c)
  irqMask c := (h.move c).irqMask (hs.irqMask c)

/-! ## The engine -/

theorem State.Change.engineSound (h : State.Change s t) (hs : s.EngineSound) : t.EngineSound := by
  cases h with
  | control h => rw [h]; exact hs.of_same rfl (fun c => by cases c <;> rfl) rfl rfl rfl
  | engine _ hsound => exact hsound hs
  | ring => exact hs.of_same (by simp) (by simp) (by simp) (by simp) (by simp)
  | word | zero => exact hs.of_same rfl (fun c => by cases c <;> rfl) rfl rfl rfl
  | copy c l =>
    have hf := s.putLine_frame c l
    exact hs.of_same hf.cfg hf.eng hf.dmacr hf.resetting hf.wbPending
  | drop => exact hs.of_same (by simp) (by simp) (by simp) (by simp) (by simp)

/-! ## Memory -/

theorem State.Change.mem_wf (h : State.Change s t) (hs : s.mem.wf = true) : t.mem.wf = true := by
  cases h with
  | control h => rwa [h]
  | engine hframe => rwa [hframe.mem]
  | ring => rwa [State.setRing_mem]
  | word a v => exact Memory.wf_writeWord _ _ _ _ hs
  | zero base len => exact Memory.wf_zeroRegion _ _ _ hs
  | copy => rwa [State.putLine_mem]
  | drop => rwa [State.setCache_mem]

/-! ## The cached copies -/

/-- A change leaves a channel's copies as they are, puts one in that may be held, or drops some. -/
theorem State.Change.cacheOf (h : State.Change s t) (c : Channel) :
    t.cacheOf c = s.cacheOf c ∨
      (∃ l, s.cfg.cached = true ∧ s.MayHold c l.addr ∧ t.cacheOf c = cacheInsert (s.cacheOf c) l) ∨
      ∃ d, t.cacheOf c = cacheErase (s.cacheOf c) d := by
  cases h with
  | control h => exact .inl (by rw [h]; cases c <;> rfl)
  | engine hframe => exact .inl (hframe.cacheOf c)
  | ring => exact .inl (by simp)
  | word | zero => exact .inl (by cases c <;> rfl)
  | copy c' l hc hl =>
    by_cases he : c = c'
    · subst he
      exact .inr (.inl ⟨l, hc, hl, s.setCache_cacheOf_same c _⟩)
    · exact .inl (s.setCache_cacheOf_other c' c _ he)
  | drop c' d =>
    by_cases he : c = c'
    · subst he
      exact .inr (.inr ⟨d, s.setCache_cacheOf_same c _⟩)
    · exact .inl (s.setCache_cacheOf_other c' c _ he)

/-- With sound rings, what the cache may hold is a descriptor. -/
theorem State.MayHold.isBd {c : Channel} {d : Word} (h : s.MayHold c d) (hr : s.RingsSound) (hs : s.CacheSound) :
    (s.ring c).isBd d = true := by
  rcases h with ⟨l, hl, rfl⟩ | h
  · exact hs.descriptors c l hl
  · exact h (hr.ring c)

theorem State.Change.cacheSound (h : State.Change s t) (hr : s.RingsSound) (hs : s.CacheSound) : t.CacheSound where
  none_uncached hc c := by
    rw [h.cfg] at hc
    have hnil := hs.none_uncached hc c
    rcases h.cacheOf c with he | ⟨l, hcached, -⟩ | ⟨d, he⟩
    · rw [he, hnil]
    · simp [hc] at hcached
    · rw [he, hnil]
      rfl
  sorted c := by
    rcases h.cacheOf c with he | ⟨l, -, -, he⟩ | ⟨d, he⟩
    · exact he ▸ hs.sorted c
    · exact he ▸ sorted_cacheInsert _ _ (hs.sorted c)
    · exact he ▸ sorted_cacheErase _ _ (hs.sorted c)
  descriptors c x hx := by
    refine (h.move c).isBd _ ?_
    rcases h.cacheOf c with he | ⟨l, -, hl, he⟩ | ⟨d, he⟩
    · exact hs.descriptors c x (he ▸ hx)
    · rcases mem_cacheInsert _ _ _ (he ▸ hx) with rfl | hx
      · exact hl.isBd hr hs
      · exact hs.descriptors c x hx
    · exact hs.descriptors c x (mem_cacheErase _ _ _ (he ▸ hx))

end Rings

/-! ## Power-on -/

theorem reset_rings_sound : State.reset.RingsSound where
  ring c := by cases c <;> exact Ring.sound_powerOn _
  isRx c := by cases c <;> rfl
  irqMask c := by cases c <;> rfl

theorem reset_engineSound : State.reset.EngineSound :=
  State.engineSound_of_quiet _ rfl (show (0 : Word).getLsbD 0 = false by decide) rfl (fun c => by cases c <;> rfl)
    (fun c => by cases c <;> rfl) (fun c => by cases c <;> rfl)

theorem State.CacheSound.of_empty {s : State} (h : ∀ c, s.cacheOf c = []) : s.CacheSound where
  none_uncached _ := h
  sorted c := by rw [h c]; exact .nil
  descriptors c l hl := by simp [h c] at hl

theorem reset_sound : State.reset.Sound :=
  ⟨reset_rings_sound, reset_engineSound, reset_memory_wf, .of_empty fun c => by cases c <;> rfl⟩

/-- R78: every RING_STAT field but the direction is 0 at power-on. -/
theorem reset_field (c : Channel) (sel : Word) (h : sel.toNat ≤ 18) : (State.reset.ring c).field sel = some 0 := by
  unfold Ring.field
  generalize sel.toNat = k at h
  cases c <;> interval_cases k <;> rfl

/-! ## The statements -/

/-- Settles O52: each change is a move of the rings, and a move keeps a ring sound. -/
theorem bookkeepingInvariant : Obligations.BookkeepingInvariant :=
  ⟨reset_rings_sound, fun _ _ hs h => step_keeps (fun _ _ hc => hc.ringsSound) h hs⟩

/-- Settles O53: a change of the engine keeps what the engine always satisfies, and the other changes leave the engine. -/
theorem engineInvariant : Obligations.EngineInvariant := fun _ _ hs h =>
  step_keeps (fun _ _ hc => hc.engineSound) h hs

/-- Settles O54: memory is written by words and zeroed by regions; a copy is put in of a descriptor only, which the sound rings
tell. -/
theorem memoryAndCacheInvariant : Obligations.MemoryAndCacheInvariant :=
  ⟨fun _ _ hs h => step_keeps (fun _ _ hc => hc.mem_wf) h hs, fun _ _ hr hs h =>
    (step_keeps (P := fun s => s.RingsSound ∧ s.CacheSound)
      (fun _ _ hc hs => ⟨hc.ringsSound hs.1, hc.cacheSound hs.1 hs.2⟩) h ⟨hr, hs⟩).2⟩

/-- Settles O55, by evaluation of the power-on state. -/
theorem powerOnState : Obligations.PowerOnState := by
  refine ⟨reset_sound, fun c => ⟨reset_field c, reset_rings_sound.isRx c, ?_, ?_, ?_⟩, rfl, rfl, rfl⟩
  · cases c <;> rfl
  · cases c <;> rfl
  · cases c <;> rfl

end Sys2Proof.Machine
end

section
/-! SUPPORT. RESET from its first part to its answer, with the engine's `EngResetDone` between (spec/42_engine_control.md R206,
R208, spec/45_engine_agent.md R276, R277): each part as one state, and the values spec/10_state.md R79 collects. -/

namespace Sys2Proof.Machine

/-! ## One channel -/

/-- R276: a channel as `SwResetStart` leaves it, with the pointers drawn. -/
def EngineChannel.quieted (e : EngineChannel) (cdesc tdesc : Word) : EngineChannel :=
  { e with engState := .idle, dlyArmed := false, cdesc := cdesc, tdesc := tdesc }

/-- R271: a channel after a write of `CR`. -/
def EngineChannel.crWritten (e : EngineChannel) (v : Word) : EngineChannel :=
  { e with cr := v &&& ~~~strobe, coalCtr := if v.getLsbD 8 then crCount v else e.coalCtr }

/-- R79: a channel as the part of RESET after the wait leaves it. -/
def EngineChannel.defaulted (e : EngineChannel) : EngineChannel :=
  { e with
    cr := (e.cr &&& 0x0000FF78) ||| 0x01010000
    coalCtr := 1
    coalEvt := e.coalEvt - 1
    dlyEvt := e.dlyEvt - 1
    errLatch := false }

theorem State.writeCr_eq (s : State) (c : Channel) (v : Word) : s.writeCr c v = s.setEng c ((s.eng c).crWritten v) := rfl

theorem flagIf_getElem (x : Bool) (m : Word) (i : Nat) (h : i < 32) : (flagIf x m)[i] = (x && m[i]) := by
  cases x <;> simp [flagIf]

/-- R64: the three latch bits of `IRQ`. -/
theorem irqView_latches (e : EngineChannel) (b : Bool) :
    (irqView e b).getLsbD 0 = (e.coalEvt != 0) ∧ (irqView e b).getLsbD 1 = (e.dlyEvt != 0) ∧
      (irqView e b).getLsbD 2 = e.errLatch := by
  simp [irqView, flagIf_getElem]

/-- R64: acknowledging what is latched takes one event of each kind away and clears the error. -/
theorem irqAcknowledge_irqView (e : EngineChannel) (b : Bool) :
    irqAcknowledge e (irqView e b) =
      { e with coalEvt := e.coalEvt - 1, dlyEvt := e.dlyEvt - 1, errLatch := false } := by
  obtain ⟨hcoal, hdly, herr⟩ := irqView_latches e b
  rw [irqAcknowledge, hcoal, hdly, herr]
  congr 1
  · by_cases h : e.coalEvt = 0 <;> simp [h]
  · by_cases h : e.dlyEvt = 0 <;> simp [h]
  · cases e.errLatch <;> rfl

/-- R220: both operands given as 1. -/
theorem coalesceWord_one_one (cfg : Cfg) (h : 1 ≠ cfg.noChange) (v : Word) :
    coalesceWord cfg v 1 1 = (v &&& 0x0000FFFF) ||| 0x01010100 := by
  simp only [coalesceWord, ne_eq, h, not_false_eq_true, if_true, true_or]
  simp [strobe, BitVec.and_or_distrib_right, BitVec.and_assoc, BitVec.or_assoc]

/-- R208 lines 6, 9, 13: every source disabled, the latched status acknowledged, one unit and one period programmed. -/
theorem EngineChannel.defaulted_eq (cfg : Cfg) (e : EngineChannel) (b : Bool) (h : 1 ≠ cfg.noChange)
    (hs : e.cr &&& strobe = 0) :
    (let e1 := e.crWritten (e.cr &&& ~~~allEnable)
     let e2 := irqAcknowledge e1 (irqView e1 b)
     e2.crWritten (coalesceWord cfg e2.cr 1 1)) = e.defaulted := by
  have hcr : (e.crWritten (e.cr &&& ~~~allEnable)).cr = e.cr &&& 0xFFFFFE78 := by
    simp [EngineChannel.crWritten, allEnable, strobe, BitVec.and_assoc]
  have hmask : e.cr &&& 0xFF78 = e.cr &&& 0xFE78 := by
    have hsplit : e.cr &&& 0xFF78 = (e.cr &&& 0xFE78) ||| (e.cr &&& strobe) := by
      rw [← BitVec.and_or_distrib_left]
      rfl
    rw [hsplit, hs]
    exact BitVec.or_zero
  simp only [irqAcknowledge_irqView, coalesceWord_one_one cfg h, hcr, EngineChannel.defaulted, hmask]
  simp [EngineChannel.crWritten, crCount, strobe, BitVec.and_assoc, BitVec.and_or_distrib_right, BitVec.extractLsb'_or,
    BitVec.extractLsb'_and]

/-! ## The part before the wait -/

/-- R208 lines 1 to 3, R276: the state in which RESET waits. -/
def State.resetWaiting (s : State) : State :=
  { s with
    txRing := { s.txRing with restart := s.txEng.cdesc }
    rxRing := { s.rxRing with restart := s.rxEng.cdesc }
    txEng := s.txEng.quieted (Config.freeWord s.drawCtr) (Config.freeWord (s.drawCtr + 1))
    rxEng := s.rxEng.quieted (Config.freeWord (s.drawCtr + 2)) (Config.freeWord (s.drawCtr + 3))
    dmacr := 0x00000001
    resetting := true
    wbPending := none
    drawCtr := s.drawCtr + 4
    waiting := some ⟨.reset, 0⟩
    response := [] }

theorem State.waitOn_of_budget (s : State) (k : WaitKind) (polls : Nat) (hb : budgetSpent s.cfg polls = false) :
    s.waitOn k polls = { s with waiting := some ⟨k, polls⟩, response := [] } := by
  rw [State.waitOn, hb]
  rfl

/-- R276: the write that starts a software reset. -/
theorem State.regWrite_dmacr_start (s : State) (hr : s.resetting = false) :
    s.regWrite .dmacr 0x00000001 = s.swResetStart := by
  simp [State.regWrite, State.writeDmacr, hr]

theorem exec_reset_eq (s : State) (hr : s.resetting = false) (hb : budgetSpent s.cfg 0 = false) :
    exec .reset s = .next s.resetWaiting := by
  have hw := State.waitOn_of_budget (((s.snapshotRestart .tx).snapshotRestart .rx).swResetStart) .reset 0 hb
  show Host.Outcome.next _ = _
  rw [State.regWrite_dmacr_start ((s.snapshotRestart .tx).snapshotRestart .rx) hr, hw]
  rfl

/-! ## The part after the wait, which treats both channels alike -/

/-- Both rings and both channels' registers changed. -/
def State.mapChannels (s : State) (fr : Ring → Ring) (fe : Channel → EngineChannel → EngineChannel) : State :=
  { s with txRing := fr s.txRing, rxRing := fr s.rxRing, txEng := fe .tx s.txEng, rxEng := fe .rx s.rxEng }

theorem State.disableAll_both (s : State) :
    (s.disableAll .tx).disableAll .rx =
      s.mapChannels (fun r => { r with irqMask := 0 }) (fun _ e => e.crWritten (e.cr &&& ~~~allEnable)) := rfl

theorem State.acknowledgeAll_both (s : State) :
    (s.acknowledgeAll .tx).acknowledgeAll .rx =
      s.mapChannels id (fun c e => irqAcknowledge e (irqView e (s.wrqEmpty c))) := rfl

theorem State.programCoalesce_both (s : State) (counter timer : Word) :
    (s.programCoalesce .tx counter timer).programCoalesce .rx counter timer =
      s.mapChannels id (fun _ e => e.crWritten (coalesceWord s.cfg e.cr counter timer)) := rfl

theorem State.setRunState_both (s : State) (rs : RunState) :
    (s.setRunState .tx rs).setRunState .rx rs = s.mapChannels (fun r => { r with runState := rs }) (fun _ e => e) := rfl

theorem State.regWrite_dmacr_of_running (s : State) (hr : s.resetting = false) (v : Word) (hv : v.getLsbD 0 = false) :
    s.regWrite .dmacr v = { s with dmacr := v } := by
  show s.writeDmacr v = _
  rw [State.writeDmacr, hr, hv]
  rfl

/-- R208 lines 5 to 15: the state in which RESET has answered. -/
def State.resetFinished (s : State) : State :=
  { s.mapChannels (fun r => { r with irqMask := 0, runState := .stopped }) (fun _ e => e.defaulted) with
    dmacr := resetDefault, waiting := none, response := [0] }

theorem State.finishReset_eq (s : State) (hr : s.resetting = false) (hn : 1 ≠ s.cfg.noChange)
    (hs : ∀ c, (s.eng c).cr &&& strobe = 0) : s.finishReset = s.resetFinished := by
  have htx := s.txEng.defaulted_eq s.cfg true hn (hs .tx)
  have hrx := s.rxEng.defaulted_eq s.cfg s.wbPending.isNone hn (hs .rx)
  simp only [State.finishReset, State.disableAll_both, State.acknowledgeAll_both]
  rw [State.regWrite_dmacr_of_running _ (by exact hr) _ (by decide), State.programCoalesce_both, State.setRunState_both]
  simp only [State.resetFinished, State.mapChannels, ← htx, ← hrx]
  rfl

/-! ## The steps -/

/-- A step of the manager's in an admitted state. -/
theorem step_of_managerNext (s : State) (q : List Turn) (ha : s.Admitted) (hq : s.ManagerNext q) :
    step s = managerTurn { s with sched := q } := by
  rw [step, turn_of_admitted s ha]
  rcases hq with hs | ⟨hs, rfl⟩
  · rw [hs]
  · have hself : { s with sched := [] } = s := by rw [← hs]
    rw [hself, hs]

/-- R277: the state after the engine's end of a software reset, with the schedule `r` left. -/
def State.resetEnded (s : State) (r : List Turn) : State := { s with sched := r, resetting := false, dmacr := 0 }

theorem step_resetDone (s : State) (r : List Turn) (ha : s.Admitted) (hq : s.sched = .engine .resetDone :: r)
    (hr : s.resetting = true) : step s = .next (s.resetEnded r) := by
  rw [step, turn_of_admitted s ha, hq]
  simp [State.guardedEngineTurn, State.eventKeepsPlatform, State.engineTurn, State.engResetDone, hr, State.resetEnded]

/-- R206: the poll that finds the reset's bit clear runs the part after the wait. -/
theorem State.poll_reset_done (s : State) (k : Nat) (hd : s.dmacr = 0) : s.poll ⟨.reset, k⟩ = s.finishReset := by
  simp [State.poll, State.regRead, hd]

/-- The step of RESET's poll after the reset has ended. -/
theorem step_reset_poll (s : State) (q : List Turn) (k : Nat) (ha : s.Admitted) (hq : s.ManagerNext q)
    (hw : s.waiting = some ⟨.reset, k⟩) (hd : s.dmacr = 0) (hr : s.resetting = false)
    (hs : ∀ c, (s.eng c).cr &&& strobe = 0) : step s = .next (State.resetFinished { s with sched := q }) := by
  have hn : 1 ≠ s.cfg.noChange := fun h => by
    obtain ⟨-, -, hlt⟩ := (cfg_wf_iff s.cfg).1 ha.cfg
    simp [← h] at hlt
  have hpoll : State.poll { s with sched := q } ⟨.reset, k⟩ = State.resetFinished { s with sched := q } :=
    (State.poll_reset_done { s with sched := q } k hd).trans
      (State.finishReset_eq { s with sched := q } hr hn fun | .tx => hs .tx | .rx => hs .rx)
  rw [step_of_managerNext s q ha hq, managerTurn_of_waiting { s with sched := q } _ hw, hpoll]

/-- Settles O24: RESET's own part, the engine's end of the reset, and the poll that runs the part after the wait. -/
theorem resetCompletes : Obligations.ResetCompletes := by
  intro s q r ha he hr hb hq hnext
  have ht := exec_reset_eq s hr hb
  have hat : s.resetWaiting.Admitted := by
    obtain ⟨t, ht', hst⟩ := execReset_sameLayout s
    cases ht.symm.trans ht'
    exact ha.of_sameLayout hst
  have hu := step_resetDone s.resetWaiting r hat hq rfl
  have hv := step_reset_poll (s.resetWaiting.resetEnded r) q 0 (hat.of_sameLayout (.of_rings rfl rfl rfl)) hnext rfl rfl
    rfl fun | .tx => he.strobe_clear .tx | .rx => he.strobe_clear .rx
  refine ⟨_, _, _, ht, rfl, rfl, rfl, hu, hv, rfl, rfl, rfl, rfl, rfl, fun c => ?_, fun c => ?_, ?_⟩
  · cases c <;> rfl
  · cases c <;> rfl
  · rw [hr]
    rfl

end Sys2Proof.Machine
end

section
/-! SUPPORT. The forms of `adv` and `ret` by indices and in 32-bit arithmetic (spec/20_memory.md R100, R101, R104, R107). -/

namespace Sys2Proof.Machine

section LaidOut

variable {r : Ring}

/-- R104: a descriptor's index is the one its address was made of. -/
theorem Ring.LaidOut.idx_bdAddr (h : r.LaidOut) {k : Nat} (hk : k < r.count.toNat) : r.idx (r.bdAddr k) = k := by
  have hsep := h.separation_ge
  rw [Ring.idx, h.bdAddr_toNat hk, Nat.add_sub_cancel_left, Nat.mul_div_cancel _ (by omega)]

theorem Ring.LaidOut.idx_lt (h : r.LaidOut) {a : Word} (ha : r.isBd a = true) : r.idx a < r.count.toNat := by
  obtain ⟨k, hk, rfl⟩ := (h.isBd_iff a).1 ha
  rwa [h.idx_bdAddr hk]

theorem Ring.LaidOut.bdAddr_idx (h : r.LaidOut) {a : Word} (ha : r.isBd a = true) : r.bdAddr (r.idx a) = a := by
  obtain ⟨k, hk, rfl⟩ := (h.isBd_iff a).1 ha
  rw [h.idx_bdAddr hk]

/-- R100: the closed form of `adv`. -/
theorem Ring.LaidOut.adv_eq (h : r.LaidOut) {a : Word} (ha : r.isBd a = true) {n : Nat} (hn : n ≤ r.count.toNat) :
    r.adv a n = r.bdAddr ((r.idx a + n) % r.count.toNat) := by
  rw [← h.adv_bdAddr (h.idx_lt ha) hn, h.bdAddr_idx ha]

/-- R101: the closed form of `ret`. -/
theorem Ring.LaidOut.ret_eq (h : r.LaidOut) {a : Word} (ha : r.isBd a = true) {n : Nat} (hn : n ≤ r.count.toNat) :
    r.ret a n = r.bdAddr ((r.idx a + r.count.toNat - n) % r.count.toNat) := by
  rw [← h.ret_bdAddr (h.idx_lt ha) hn, h.bdAddr_idx ha]

theorem Ring.LaidOut.isBd_ret (h : r.LaidOut) {a : Word} (ha : r.isBd a = true) {n : Nat} (hn : n ≤ r.count.toNat) :
    r.isBd (r.ret a n) = true := by
  rw [h.ret_eq ha hn]
  exact h.isBd_bdAddr (Nat.mod_lt _ h.count_pos)

/-- Going `n` back is going the rest of the ring forward. -/
theorem Ring.LaidOut.ret_eq_adv (h : r.LaidOut) {a : Word} (ha : r.isBd a = true) {n : Nat} (hn : n ≤ r.count.toNat) :
    r.ret a n = r.adv a (r.count.toNat - n) := by
  rw [h.ret_eq ha hn, h.adv_eq ha (Nat.sub_le _ _), Nat.add_sub_assoc hn]

/-- R107: no distance inside the ring is longer than the region. -/
theorem Ring.LaidOut.mul_separation_le (h : r.LaidOut) {n : Nat} (hn : n ≤ r.count.toNat) :
    n * r.separation.toNat ≤ r.length.toNat := by
  rw [h.length_eq, Nat.mul_comm]
  exact Nat.mul_le_mul_left _ hn

/-- R28: the last descriptor lies in the region. -/
theorem Ring.LaidOut.lastVirt_lt (h : r.LaidOut) : r.lastVirt.toNat < r.firstVirt.toNat + r.length.toNat := by
  have hsep := h.separation_ge
  have hlt := Nat.mul_lt_mul_of_pos_right (Nat.sub_one_lt_of_lt h.count_pos) (show 0 < r.separation.toNat by omega)
  rw [h.lastVirt_toNat, h.length_eq, Nat.mul_comm r.separation.toNat]
  omega

/-- A product of words by its value, counted modulo 2^32. -/
theorem ofNat_mul_toNat (n : Nat) (x : Word) : (BitVec.ofNat 32 n * x).toNat = n * x.toNat % 2 ^ 32 := by
  rw [BitVec.toNat_mul, BitVec.toNat_ofNat, Nat.mod_mul_mod]

/-- R107: an addition that wraps passes the last descriptor, and adding the whole 2^32 bytes is adding nothing. -/
theorem Ring.LaidOut.advFixed_eq_adv (h : r.LaidOut) (a : Word) {n : Nat} (hn : n ≤ r.count.toNat) :
    r.advFixed a n = r.adv a n := by
  have hx := h.mul_separation_le hn
  have hfits := h.fits
  have hlast := h.lastVirt_lt
  have ha := a.isLt
  have hprod := ofNat_mul_toNat n r.separation
  apply BitVec.eq_of_toNat_eq
  simp only [Ring.advFixed, Ring.adv, BitVec.lt_def, BitVec.toNat_add, hprod, ← Int.natCast_mul]
  generalize n * r.separation.toNat = x at hx hprod ⊢
  split_ifs <;> simp only [BitVec.toNat_sub, BitVec.toNat_add, BitVec.toNat_ofInt, BitVec.toNat_setWidth, hprod] <;> omega

/-- R107: a subtraction that wraps falls below the first descriptor. -/
theorem Ring.LaidOut.retFixed_eq_ret (h : r.LaidOut) (a : Word) {n : Nat} (hn : n ≤ r.count.toNat) :
    r.retFixed a n = r.ret a n := by
  have hx := h.mul_separation_le hn
  have hfits := h.fits
  have ha := a.isLt
  have hprod := ofNat_mul_toNat n r.separation
  apply BitVec.eq_of_toNat_eq
  simp only [Ring.retFixed, Ring.ret, BitVec.lt_def, BitVec.toNat_sub, hprod, ← Int.natCast_mul]
  generalize n * r.separation.toNat = x at hx hprod ⊢
  split_ifs <;> simp only [BitVec.toNat_sub, BitVec.toNat_add, BitVec.toNat_ofInt, BitVec.toNat_setWidth, hprod] <;> omega

end LaidOut

/-- Settles O56: `adv` and `ret` add and subtract indices modulo the count. -/
theorem cyclicArithmetic : Obligations.CyclicArithmetic := by
  intro r a n h ha hn
  have hadv := h.isBd_adv ha hn
  refine ⟨(h.bdAddr_idx ha).symm, h.idx_lt ha, h.adv_eq ha hn, h.ret_eq ha hn, h.adv_zero ha, h.adv_count ha, hadv,
    h.isBd_ret ha hn, ?_, ?_⟩
  · rw [h.ret_adv ha le_rfl hn, Nat.sub_self, h.adv_zero ha]
  · rw [h.ret_eq_adv ha hn, h.adv_adv ha (by omega), Nat.sub_add_cancel hn, h.adv_count ha]

/-- Settles O57: the second test of each form finds the wrapped results, which the first test of the unbounded form finds. -/
theorem fixedWidthForms : Obligations.FixedWidthForms := fun _ a _ h _ hn =>
  ⟨h.advFixed_eq_adv a hn, h.retFixed_eq_ret a hn⟩

end Sys2Proof.Machine
end

section
/-! SUPPORT. A word of descriptor memory as its four bytes: what it reads as after a write of the same word and of another one
(spec/20_memory.md R83, R85, R88). -/

namespace Sys2Proof.Machine

/-- Both byte orders permute the four bytes of a word. -/
theorem byteLane_lt (o : ByteOrder) {i : Nat} (hi : i < 4) : byteLane o i < 4 := by
  cases o
  · exact hi
  · exact Nat.lt_of_le_of_lt (Nat.sub_le 3 i) (by omega)

theorem byteAddr_lane_ne (o : ByteOrder) (a : Word) {i j : Nat} (hi : i < 4) (hj : j < 4) (h : i ≠ j) :
    byteAddr a (byteLane o i) ≠ byteAddr a (byteLane o j) := by
  have hli := byteLane_lt o hi
  have hlj := byteLane_lt o hj
  have hne : byteLane o i ≠ byteLane o j := by cases o <;> simp only [byteLane] <;> omega
  simp only [byteAddr]
  bv_omega

/-- The four bytes of a word, put together, are the word. -/
theorem wordByte_append (v : Word) : wordByte v 3 ++ wordByte v 2 ++ wordByte v 1 ++ wordByte v 0 = v := by
  simp only [wordByte]
  rw [BitVec.extractLsb'_append_extractLsb'_eq_extractLsb' (by omega),
    BitVec.extractLsb'_append_extractLsb'_eq_extractLsb' (by omega),
    BitVec.extractLsb'_append_extractLsb'_eq_extractLsb' (by omega)]
  exact BitVec.extractLsb'_eq_self

/-- Words whose bytes agree are equal. -/
theorem Memory.readWord_congr (o : ByteOrder) (m m' : Memory) (b : Word)
    (h : ∀ i < 4, m'.readByte (byteAddr b i) = m.readByte (byteAddr b i)) : m'.readWord o b = m.readWord o b := by
  have hl : ∀ i < 4, _ := fun i hi => h _ (byteLane_lt o (i := i) hi)
  simp only [Memory.readWord, hl 0 (by omega), hl 1 (by omega), hl 2 (by omega), hl 3 (by omega)]

/-- Each byte of a written word lies in its lane: the later byte writes go to other addresses. -/
theorem Memory.readByte_writeWord_lane (o : ByteOrder) (m : Memory) (a v : Word) {i : Nat} (hi : i < 4) :
    (m.writeWord o a v).readByte (byteAddr a (byteLane o i)) = wordByte v i := by
  interval_cases i <;> simp [Memory.writeWord, Memory.readByte_writeByte_other, byteAddr_lane_ne]

theorem Memory.readWord_writeWord_same (o : ByteOrder) (m : Memory) (a v : Word) :
    (m.writeWord o a v).readWord o a = v := by
  have h : ∀ i < 4, _ := fun i hi => m.readByte_writeWord_lane o a v (i := i) hi
  rw [Memory.readWord, h 3 (by omega), h 2 (by omega), h 1 (by omega), h 0 (by omega), wordByte_append]

/-- Two words at least four bytes apart both ways share no byte. -/
theorem byteAddr_ne_of_apart {a b : Word} (h1 : 4 ≤ (b - a).toNat) (h2 : 4 ≤ (a - b).toNat) {i j : Nat} (hi : i < 4)
    (hj : j < 4) : byteAddr b j ≠ byteAddr a i := by
  simp only [byteAddr]
  bv_omega

theorem Memory.readWord_writeWord_other (o : ByteOrder) (m : Memory) (a v b : Word) (h1 : 4 ≤ (b - a).toNat)
    (h2 : 4 ≤ (a - b).toNat) : (m.writeWord o a v).readWord o b = m.readWord o b :=
  Memory.readWord_congr o m _ b fun _ hj =>
    Memory.readByte_writeWord_other o m a v _ fun _ hi => byteAddr_ne_of_apart h1 h2 hi hj

/-- Settles O59: a write is four byte writes at four addresses, which a byte order permutes. -/
theorem wordMemory : Obligations.WordMemory := fun o m a v =>
  ⟨m.readWord_writeWord_same o a v, fun b h1 h2 => m.readWord_writeWord_other o a v b h1 h2,
    fun k h => m.readByte_writeWord_other o a v k h⟩

end Sys2Proof.Machine
end

section
/-! SUPPORT. A descriptor word through the host's path, in memory and after the cache's hooks and the cache agent's steps
(spec/20_memory.md R88, R89, R92 to R96), and the bytes that an access leaves alone. -/

namespace Sys2Proof.Machine

/-! ## Words in descriptor memory -/

/-- A word in memory is told by memory, the ring and the configuration. -/
theorem State.memWord_congr {s t : State} (hmem : t.mem = s.mem) (hcfg : t.cfg = s.cfg) {c : Channel}
    (hring : t.ring c = s.ring c) (bd : Word) (w : Nat) : t.memWord c bd w = s.memWord c bd w := by
  simp only [State.memWord, State.wordAddr, hmem, hcfg, hring]

section Words

variable (s : State) (c : Channel) (bd : Word)

@[simp] theorem State.memWord_setCache (ls : List CacheLine) (d : Word) (w : Nat) :
    (s.setCache c ls).memWord c d w = s.memWord c d w :=
  State.memWord_congr (s.setCache_mem c ls) (s.setCache_cfg c ls) (s.setCache_ring c c ls) d w

@[simp] theorem State.memWord_putLine (l : CacheLine) (d : Word) (w : Nat) :
    (s.putLine c l).memWord c d w = s.memWord c d w := s.memWord_setCache c _ d w

@[simp] theorem State.memWord_drawBool (d : Word) (w : Nat) : s.drawBool.2.memWord c d w = s.memWord c d w :=
  State.memWord_congr s.drawBool_mem s.drawBool_cfg (s.drawBool_ring c) d w

/-- R89: the engine reads the word that descriptor memory holds. -/
theorem State.engRead_phys (w : Nat) : s.engRead ((s.ring c).phys bd) w = s.memWord c bd w := rfl

@[simp] theorem State.memWord_setMemWord_same (w : Nat) (v : Word) : (s.setMemWord c bd w v).memWord c bd w = v := by
  simp only [State.memWord, State.wordAddr, State.setMemWord_ring]
  exact Memory.readWord_writeWord_same _ _ _ v

/-- The nine words of a descriptor share no byte. -/
theorem State.memWord_setMemWord_other {w k : Nat} (v : Word) (hw : w ≤ 8) (hk : k ≤ 8) (h : k ≠ w) :
    (s.setMemWord c bd w v).memWord c bd k = s.memWord c bd k := by
  simp only [State.memWord, State.wordAddr, State.setMemWord_ring]
  refine Memory.readWord_writeWord_other _ _ _ v _ ?_ ?_
  · simp only [State.wordAddr, wordOffset]
    bv_omega
  · simp only [State.wordAddr, wordOffset]
    bv_omega

/-! ## The host's view -/

theorem State.cacheFind_putLine (l : CacheLine) : cacheFind ((s.putLine c l).cacheOf c) l.addr = some l := by
  simp [State.putLine]

theorem State.cacheFind_putLine_other (l : CacheLine) {d : Word} (h : d ≠ l.addr) :
    cacheFind ((s.putLine c l).cacheOf c) d = cacheFind (s.cacheOf c) d := by
  simp [State.putLine, cacheFind_insert_other _ _ _ h]

variable {s c bd}

/-- R93: the host sees the copy's words. -/
theorem State.hostWord_of_hit (hc : s.cfg.cached = true) {l : CacheLine} (hl : cacheFind (s.cacheOf c) bd = some l)
    {w : Nat} (hw : w < 8) : s.hostWord c bd w = l.word w := by
  simp [State.hostWord, hc, hw, hl]

theorem State.hostWord_of_miss (hl : cacheFind (s.cacheOf c) bd = none) (w : Nat) :
    s.hostWord c bd w = s.memWord c bd w := by
  simp [State.hostWord, hl]

/-- R88, R93: what does not go through the cache, the host sees in memory. -/
theorem State.hostWord_of_direct {w : Nat} (h : ¬ (s.cfg.cached = true ∧ w < 8)) :
    s.hostWord c bd w = s.memWord c bd w := if_neg (by simpa using h)

theorem CacheLine.word_cleanCopy {w : Nat} (hw : w < 8) : (s.cleanCopy c bd).word w = s.memWord c bd w := by
  simp [CacheLine.word, State.cleanCopy, List.getD_eq_getElem?_getD, hw]

/-- The copy that a write starts from: its words are what the host sees. -/
theorem CacheLine.word_getD_cleanCopy (hc : s.cfg.cached = true) {w : Nat} (hw : w < 8) :
    ((cacheFind (s.cacheOf c) bd).getD (s.cleanCopy c bd)).word w = s.hostWord c bd w := by
  cases hl : cacheFind (s.cacheOf c) bd with
  | none => exact (word_cleanCopy hw).trans (State.hostWord_of_miss hl w).symm
  | some l => exact (State.hostWord_of_hit hc hl hw).symm

variable (s c bd)

theorem CacheLine.addr_getD_cleanCopy : ((cacheFind (s.cacheOf c) bd).getD (s.cleanCopy c bd)).addr = bd := by
  cases hl : cacheFind (s.cacheOf c) bd with
  | none => rfl
  | some l => exact (cacheFind_addr _ _ _ hl).1

variable {s c bd}

/-! ## Reads and writes -/

theorem State.bdWrite_of_cached (hc : s.cfg.cached = true) {w : Nat} (hw : w < 8) (v : Word) :
    s.bdWrite c bd w v = s.putLine c (((cacheFind (s.cacheOf c) bd).getD (s.cleanCopy c bd)).write w v) :=
  if_pos (by simp [hc, hw])

theorem State.bdWrite_of_direct {w : Nat} (h : ¬ (s.cfg.cached = true ∧ w < 8)) (v : Word) :
    s.bdWrite c bd w v = s.setMemWord c bd w v := if_neg (by simpa using h)

/-- A write through the cache leaves the copy written. -/
theorem State.cacheFind_bdWrite (hc : s.cfg.cached = true) {w : Nat} (hw : w < 8) (v : Word) :
    cacheFind ((s.bdWrite c bd w v).cacheOf c) bd =
      some (((cacheFind (s.cacheOf c) bd).getD (s.cleanCopy c bd)).write w v) := by
  have h := s.cacheFind_putLine c (((cacheFind (s.cacheOf c) bd).getD (s.cleanCopy c bd)).write w v)
  rwa [CacheLine.write_addr, CacheLine.addr_getD_cleanCopy, ← State.bdWrite_of_cached hc hw] at h

variable (s c bd)

@[simp] theorem State.bdWrite_cfg (w : Nat) (v : Word) : (s.bdWrite c bd w v).cfg = s.cfg :=
  (s.bdWrite_frame c bd w v).cfg

/-- R88: the host reads what it last wrote. -/
theorem State.hostWord_bdWrite_same (w : Nat) (v : Word) : (s.bdWrite c bd w v).hostWord c bd w = v := by
  by_cases h : s.cfg.cached = true ∧ w < 8
  · obtain ⟨hc, hw⟩ := h
    rw [State.hostWord_of_hit (by rwa [State.bdWrite_cfg]) (State.cacheFind_bdWrite hc hw v) hw,
      CacheLine.word_write_same _ _ _ hw]
  · rw [State.hostWord_of_direct (by rwa [State.bdWrite_cfg]), State.bdWrite_of_direct h, State.memWord_setMemWord_same]

/-- A write leaves the host's view of the descriptor's other words. -/
theorem State.hostWord_bdWrite_other {w k : Nat} (v : Word) (hw : w ≤ 8) (hk : k ≤ 8) (hkw : k ≠ w) :
    (s.bdWrite c bd w v).hostWord c bd k = s.hostWord c bd k := by
  by_cases h : s.cfg.cached = true ∧ w < 8
  · obtain ⟨hc, hw'⟩ := h
    by_cases hk' : k < 8
    · rw [State.hostWord_of_hit (by rwa [State.bdWrite_cfg]) (State.cacheFind_bdWrite hc hw' v) hk',
        CacheLine.word_write_other _ _ _ _ hkw, CacheLine.word_getD_cleanCopy hc hk']
    · rw [State.hostWord_of_direct (fun h => hk' h.2), State.hostWord_of_direct (fun h => hk' h.2),
        State.bdWrite_of_cached hc hw', State.memWord_putLine]
  · simp only [State.hostWord, State.bdWrite_of_direct h, s.memWord_setMemWord_other c bd v hw hk hkw,
      State.setMemWord_cfg, State.setMemWord_cacheOf]

/-- R93: a read that allocates a copy allocates what the host sees. -/
theorem State.hostWord_putLine_cleanCopy (hl : cacheFind (s.cacheOf c) bd = none) (d : Word) (k : Nat) :
    (s.putLine c (s.cleanCopy c bd)).hostWord c d k = s.hostWord c d k := by
  have hcfg := (s.putLine_frame c (s.cleanCopy c bd)).cfg
  by_cases h : s.cfg.cached = true ∧ k < 8
  · by_cases hd : d = bd
    · subst hd
      have hfind : cacheFind ((s.putLine c (s.cleanCopy c d)).cacheOf c) d = some (s.cleanCopy c d) :=
        s.cacheFind_putLine c (s.cleanCopy c d)
      rw [State.hostWord_of_hit (by rw [hcfg]; exact h.1) hfind h.2, CacheLine.word_cleanCopy h.2,
        State.hostWord_of_miss hl]
    · simp only [State.hostWord, hcfg, State.memWord_putLine,
        s.cacheFind_putLine_other c (s.cleanCopy c bd) (show d ≠ (s.cleanCopy c bd).addr from hd)]
  · rw [State.hostWord_of_direct (by rwa [hcfg]), State.hostWord_of_direct h, State.memWord_putLine]

theorem State.hostWord_drawBool (d : Word) (k : Nat) : s.drawBool.2.hostWord c d k = s.hostWord c d k := by
  simp only [State.hostWord, State.drawBool_cfg, State.drawBool_cacheOf, State.memWord_drawBool]

/-- R88: a read answers the host's view and leaves it as it is. -/
theorem State.bdRead_hostWord (w : Nat) :
    (s.bdRead c bd w).1 = s.hostWord c bd w ∧ ∀ d k, (s.bdRead c bd w).2.hostWord c d k = s.hostWord c d k := by
  by_cases h : s.cfg.cached = true ∧ w < 8
  · obtain ⟨hc, hw⟩ := h
    cases hl : cacheFind (s.cacheOf c) bd with
    | some l => simp [State.bdRead, State.hostWord, hc, hw, hl]
    | none =>
      refine ⟨by simp [State.bdRead, State.hostWord, hc, hw, hl], fun d k => ?_⟩
      have hput := State.hostWord_putLine_cleanCopy s.drawBool.2 c bd (by rwa [State.drawBool_cacheOf]) d k
      have hcopy : s.drawBool.2.cleanCopy c bd = s.cleanCopy c bd := by
        simp only [State.cleanCopy, State.memWord_drawBool]
      rw [hcopy, s.hostWord_drawBool c] at hput
      cases hd : s.drawBool.1 <;> simp [State.bdRead, hc, hw, hl, hd, hput, State.hostWord_drawBool]
  · have hr : s.bdRead c bd w = (s.memWord c bd w, s) := if_neg (by simpa using h)
    rw [hr]
    exact ⟨(State.hostWord_of_direct h).symm, fun _ _ => rfl⟩

/-! ## Writing a copy back -/

/-- An induction over a loop, with the number of rounds done. -/
theorem State.forEach_induction (P : Nat → State → Prop) (n : Nat) (f : Nat → State → State) (s : State) (h0 : P 0 s)
    (hstep : ∀ k < n, ∀ t, P k t → P (k + 1) (f k t)) : P n (State.forEach n f s) := by
  induction n with
  | zero => exact h0
  | succ k ih => exact hstep k (Nat.lt_succ_self k) _ (ih fun j hj => hstep j (Nat.lt_succ_of_lt hj))

/-- R94, R95: the words of a copy written back are the words of memory. -/
theorem State.memWord_writeBackLine (l : CacheLine) {w : Nat} (hw : w < 8) :
    (s.writeBackLine c l).memWord c l.addr w = l.word w := by
  refine State.forEach_induction (fun k t => ∀ w < k, t.memWord c l.addr w = l.word w) 8 _ s
    (fun w h => absurd h (Nat.not_lt_zero w)) (fun k hk t ih w hw => ?_) w hw
  by_cases he : w = k
  · subst he
    exact t.memWord_setMemWord_same c l.addr w _
  · rw [t.memWord_setMemWord_other c l.addr _ (by omega) (by omega) he]
    exact ih w (by omega)

/-- R94, R95: a copy written to memory and marked clean. -/
def State.cleaned (s : State) (c : Channel) (l : CacheLine) : State :=
  (s.writeBackLine c l).putLine c { l with dirty := false }

theorem State.cleaned_cfg (l : CacheLine) : (s.cleaned c l).cfg = s.cfg :=
  ((s.writeBackLine_frame c l).trans (State.putLine_frame _ _ _)).cfg

theorem State.memWord_cleaned (l : CacheLine) {w : Nat} (hw : w < 8) : (s.cleaned c l).memWord c l.addr w = l.word w := by
  rw [State.cleaned, State.memWord_putLine, s.memWord_writeBackLine c l hw]

theorem State.hostWord_cleaned (l : CacheLine) {w : Nat} (hw : w < 8) :
    (s.cleaned c l).hostWord c l.addr w = l.word w := by
  by_cases hc : s.cfg.cached = true
  · exact State.hostWord_of_hit ((congrArg Cfg.cached (s.cleaned_cfg c l)).trans hc)
      (State.cacheFind_putLine _ c { l with dirty := false }) hw
  · rw [State.hostWord_of_direct (by rw [State.cleaned_cfg]; exact fun h => hc h.1), s.memWord_cleaned c l hw]

/-- Without its copy a descriptor is seen as memory has it. -/
theorem State.hostWord_erase (w : Nat) :
    (s.setCache c (cacheErase (s.cacheOf c) bd)).hostWord c bd w = s.memWord c bd w := by
  rw [State.hostWord_of_miss (by simp), State.memWord_setCache]

/-! ## The hooks -/

/-- The cache holds no clean copy of the descriptor: none at all, or a dirty one. -/
def State.NoCleanCopy (s : State) (c : Channel) (bd : Word) : Prop :=
  s.cfg.cached = false ∨ ∀ l, cacheFind (s.cacheOf c) bd = some l → l.dirty = true

theorem State.noCleanCopy_bdWrite {w : Nat} (hw : w < 8) (v : Word) : (s.bdWrite c bd w v).NoCleanCopy c bd := by
  cases hc : s.cfg.cached with
  | false => exact .inl (by rw [State.bdWrite_cfg, hc])
  | true =>
    refine .inr fun l hl => ?_
    rw [State.cacheFind_bdWrite hc hw] at hl
    cases hl
    rfl

theorem State.flush_of_uncached (hc : s.cfg.cached = false) : s.flush c bd = s := if_neg (by simp [hc])

theorem State.flush_of_miss (hl : cacheFind (s.cacheOf c) bd = none) : s.flush c bd = s := by
  simp [State.flush, hl]

/-- R95: a dirty copy is cleaned and then kept or dropped, as the draw says. -/
theorem State.flush_of_dirty (hc : s.cfg.cached = true) {l : CacheLine} (hl : cacheFind (s.cacheOf c) bd = some l)
    (hd : l.dirty = true) :
    s.flush c bd = (s.cleaned c l).drawBool.2 ∨
      s.flush c bd =
        (s.cleaned c l).drawBool.2.setCache c (cacheErase ((s.cleaned c l).drawBool.2.cacheOf c) bd) := by
  have h : s.flush c bd = if (s.cleaned c l).drawBool.1 then
      (s.cleaned c l).drawBool.2.setCache c (cacheErase ((s.cleaned c l).drawBool.2.cacheOf c) bd)
      else (s.cleaned c l).drawBool.2 := by
    simp [State.flush, hc, hl, hd, State.cleaned]
  rw [h]
  split_ifs
  · exact .inr rfl
  · exact .inl rfl

variable {s c bd}

/-- R95: after `Flush` of a descriptor with no clean copy memory holds what the host saw and sees. -/
theorem State.NoCleanCopy.flush (h : s.NoCleanCopy c bd) {w : Nat} (hw : w < 8) :
    (s.flush c bd).memWord c bd w = s.hostWord c bd w ∧ (s.flush c bd).hostWord c bd w = s.hostWord c bd w := by
  cases hc : s.cfg.cached with
  | false =>
    rw [s.flush_of_uncached c bd hc]
    exact ⟨(State.hostWord_of_direct (by simp [hc])).symm, rfl⟩
  | true =>
    cases hl : cacheFind (s.cacheOf c) bd with
    | none =>
      rw [s.flush_of_miss c bd hl]
      exact ⟨(State.hostWord_of_miss hl w).symm, rfl⟩
    | some l =>
      obtain ⟨rfl, -⟩ := cacheFind_addr _ _ _ hl
      have hd : l.dirty = true := h.elim (fun hf => by simp [hc] at hf) fun hd => hd l hl
      rw [State.hostWord_of_hit hc hl hw]
      rcases s.flush_of_dirty c l.addr hc hl hd with he | he
      · rw [he, State.memWord_drawBool, State.hostWord_drawBool]
        exact ⟨s.memWord_cleaned c l hw, s.hostWord_cleaned c l hw⟩
      · rw [he, State.memWord_setCache, State.hostWord_erase, State.memWord_drawBool]
        exact ⟨s.memWord_cleaned c l hw, s.memWord_cleaned c l hw⟩

variable (s c bd)

theorem State.invalidate_of_uncached (hc : s.cfg.cached = false) : s.invalidate c bd = s := if_neg (by simp [hc])

/-- R96: after `Invalidate` the host sees descriptor memory. -/
theorem State.hostWord_invalidate (w : Nat) : (s.invalidate c bd).hostWord c bd w = s.memWord c bd w := by
  cases hc : s.cfg.cached with
  | false => rw [s.invalidate_of_uncached c bd hc, State.hostWord_of_direct (by simp [hc])]
  | true =>
    rw [show s.invalidate c bd = s.setCache c (cacheErase (s.cacheOf c) bd) from if_pos hc]
    exact s.hostWord_erase c bd w

/-! ## The cache agent -/

variable {s c bd}

theorem State.cacheWriteBack_of_dirty (hc : s.cfg.cached = true) {l : CacheLine}
    (hl : cacheFind (s.cacheOf c) bd = some l) (hd : l.dirty = true) : s.cacheWriteBack c bd = s.cleaned c l := by
  simp [State.cacheWriteBack, State.cleaned, hl, hc, hd]

theorem State.cacheWriteBack_of_clean {l : CacheLine} (hl : cacheFind (s.cacheOf c) bd = some l)
    (hd : l.dirty = false) : s.cacheWriteBack c bd = s := by
  simp [State.cacheWriteBack, hl, hd]

theorem State.cacheEvict_of_dirty {l : CacheLine} (hl : cacheFind (s.cacheOf c) bd = some l) (hd : l.dirty = true) :
    s.cacheEvict c bd = s := by
  simp [State.cacheEvict, hl, hd]

theorem State.cacheEvict_of_clean (hc : s.cfg.cached = true) {l : CacheLine}
    (hl : cacheFind (s.cacheOf c) bd = some l) (hd : l.dirty = false) :
    s.cacheEvict c bd = s.setCache c (cacheErase (s.cacheOf c) bd) := by
  simp [State.cacheEvict, hl, hc, hd]

end Words

/-- Settles O60: each path of the host and each hook by the copy that the cache holds of the descriptor. -/
theorem cacheHooks : Obligations.CacheHooks := by
  intro s c bd
  refine ⟨fun w v _ => s.hostWord_bdWrite_same c bd w v, s.bdRead_hostWord c bd, fun w hw hn => ?_,
    s.hostWord_invalidate c bd, s.invalidate_mem c bd,
    fun hc => ⟨s.flush_of_uncached c bd hc, s.invalidate_of_uncached c bd hc⟩, fun l hc hl => ⟨fun hd => ?_, fun hd => ?_⟩⟩
  · rw [← (s.flush_frame c bd).ring c, State.engRead_phys]
    exact State.NoCleanCopy.flush hn hw
  · obtain ⟨rfl, -⟩ := cacheFind_addr _ _ _ hl
    refine ⟨State.cacheEvict_of_dirty hl hd, fun w hw => ?_⟩
    rw [State.cacheTurn, State.cacheWriteBack_of_dirty hc hl hd]
    exact ⟨s.memWord_cleaned c l hw, s.hostWord_cleaned c l hw⟩
  · refine ⟨State.cacheWriteBack_of_clean hl hd, ?_⟩
    rw [State.cacheTurn, State.cacheEvict_of_clean hc hl hd]
    exact ⟨s.setCache_mem c _, s.hostWord_erase c bd⟩

end Sys2Proof.Machine
end

section
/-! SUPPORT. The ring that CREATE links (spec/40_ring_setup.md R150, spec/20_memory.md R108): where the bytes of a laid-out
ring's descriptors lie, which bytes an access to one of them changes, and the links that the loop of CREATE leaves. -/

namespace Sys2Proof.Machine

/-! ## Where descriptors lie in memory -/

/-- Byte `i` of word `w` is byte `4 w + i` of the descriptor. -/
theorem byteAddr_wordOffset (pa : Word) (w i : Nat) : byteAddr (pa + wordOffset w) i = byteAddr pa (4 * w + i) := by
  rw [byteAddr, byteAddr, wordOffset, BitVec.ofNat_add, BitVec.add_assoc]

/-- R86 of a descriptor's address. -/
theorem Ring.phys_bdAddr (r : Ring) (k : Nat) : r.phys (r.bdAddr k) = r.firstPhys + BitVec.ofNat 32 k * r.separation := by
  rw [Ring.phys, Ring.bdAddr, BitVec.add_comm r.firstVirt, BitVec.add_sub_cancel, BitVec.add_comm]

theorem Ring.phys_bdAddr_zero (r : Ring) : r.phys (r.bdAddr 0) = r.firstPhys := by
  simp [Ring.phys]

/-- The descriptors of a laid-out ring share no byte of their first 36. -/
theorem Ring.LaidOut.byteAddr_ne {r : Ring} (h : r.LaidOut) {j k : Nat} (hj : j < r.count.toNat) (hk : k < r.count.toNat)
    (hjk : j ≠ k) {i i' : Nat} (hi : i < 36) (hi' : i' < 36) :
    byteAddr (r.phys (r.bdAddr j)) i ≠ byteAddr (r.phys (r.bdAddr k)) i' := by
  have hsep := h.separation_ge
  have hfj := h.stride_mul_lt hj
  have hfk := h.stride_mul_lt hk
  have hpj := ofNat_mul_toNat j r.separation
  have hpk := ofNat_mul_toNat k r.separation
  have hdist : j * r.separation.toNat + r.separation.toNat ≤ k * r.separation.toNat ∨
      k * r.separation.toNat + r.separation.toNat ≤ j * r.separation.toNat := by
    rw [← Nat.succ_mul, ← Nat.succ_mul]
    rcases Nat.lt_or_gt_of_ne hjk with hlt | hlt
    · exact .inl (Nat.mul_le_mul_right _ hlt)
    · exact .inr (Nat.mul_le_mul_right _ hlt)
  rw [r.phys_bdAddr, r.phys_bdAddr]
  generalize j * r.separation.toNat = x at hfj hpj hdist
  generalize k * r.separation.toNat = y at hfk hpk hdist
  simp only [byteAddr]
  bv_omega

/-- No descriptor of a laid-out ring but the first has the first one's physical address. -/
theorem Ring.LaidOut.phys_bdAddr_ne {r : Ring} (h : r.LaidOut) {k : Nat} (hk : k < r.count.toNat) (hpos : 0 < k) :
    r.phys (r.bdAddr k) ≠ r.firstPhys := by
  intro heq
  refine h.byteAddr_ne hk h.count_pos hpos.ne' (show 0 < 36 by omega) (show 0 < 36 by omega) ?_
  rw [heq, r.phys_bdAddr_zero]

/-! ## The bytes that an access leaves -/

theorem BytesKeptOutside.refl (a : Word) (n : Nat) (s : State) : BytesKeptOutside a n s s := fun _ _ => rfl

theorem BytesKeptOutside.trans {a : Word} {n : Nat} {s t u : State} (h : BytesKeptOutside a n s t)
    (k : BytesKeptOutside a n t u) : BytesKeptOutside a n s u := fun b hb => (k b hb).trans (h b hb)

theorem BytesKeptOutside.of_mem {a : Word} {n : Nat} {s t : State} (h : t.mem = s.mem) : BytesKeptOutside a n s t :=
  fun _ _ => by rw [h]

section Access

variable (s : State) (c : Channel) (bd : Word)

theorem State.setMemWord_bytesKept {w : Nat} (hw : w ≤ 8) (v : Word) :
    BytesKeptOutside ((s.ring c).phys bd) 36 s (s.setMemWord c bd w v) := fun b hb =>
  Memory.readByte_writeWord_other _ _ _ _ b fun i hi => by
    rw [State.wordAddr, byteAddr_wordOffset]
    exact hb _ (by omega)

theorem State.bdWrite_bytesKept {w : Nat} (hw : w ≤ 8) (v : Word) :
    BytesKeptOutside ((s.ring c).phys bd) 36 s (s.bdWrite c bd w v) := by
  by_cases h : s.cfg.cached = true ∧ w < 8
  · rw [State.bdWrite_of_cached h.1 h.2]
    exact .of_mem (s.putLine_mem c _)
  · rw [State.bdWrite_of_direct h]
    exact s.setMemWord_bytesKept c bd hw v

theorem State.writeBackLine_bytesKept (l : CacheLine) :
    BytesKeptOutside ((s.ring c).phys l.addr) 36 s (s.writeBackLine c l) := by
  refine (State.forEach_induction (fun _ t => t.ring c = s.ring c ∧ BytesKeptOutside ((s.ring c).phys l.addr) 36 s t) 8
    (fun w t => t.setMemWord c l.addr w (l.word w)) s ⟨rfl, .refl _ _ s⟩ fun k hk t ⟨hring, ht⟩ => ?_).2
  have hkept := t.setMemWord_bytesKept c l.addr (w := k) (by omega) (l.word k)
  rw [hring] at hkept
  exact ⟨(t.setMemWord_ring c c _ _ _).trans hring, ht.trans hkept⟩

theorem State.flush_bytesKept (hn : s.NoCleanCopy c bd) :
    BytesKeptOutside ((s.ring c).phys bd) 36 s (s.flush c bd) := by
  cases hc : s.cfg.cached with
  | false => exact .of_mem (by rw [s.flush_of_uncached c bd hc])
  | true =>
    cases hl : cacheFind (s.cacheOf c) bd with
    | none => exact .of_mem (by rw [s.flush_of_miss c bd hl])
    | some l =>
      obtain ⟨rfl, -⟩ := cacheFind_addr _ _ _ hl
      have hd : l.dirty = true := hn.elim (fun hf => by simp [hc] at hf) fun hd => hd l hl
      refine (s.writeBackLine_bytesKept c l).trans (.of_mem ?_)
      rcases s.flush_of_dirty c l.addr hc hl hd with he | he
      · rw [he, State.drawBool_mem, State.cleaned, State.putLine_mem]
      · rw [he, State.setCache_mem, State.drawBool_mem, State.cleaned, State.putLine_mem]

end Access

/-- An access to one descriptor of a laid-out ring leaves the words of the others. -/
theorem State.memWord_of_bytesKept {s t : State} {c : Channel} (h : (s.ring c).LaidOut) (hcfg : t.cfg = s.cfg)
    (hring : t.ring c = s.ring c) {j k : Nat} (hj : j < (s.ring c).count.toNat) (hk : k < (s.ring c).count.toNat)
    (hjk : j ≠ k) (hkept : BytesKeptOutside ((s.ring c).phys ((s.ring c).bdAddr k)) 36 s t) {w : Nat} (hw : w ≤ 8) :
    t.memWord c ((s.ring c).bdAddr j) w = s.memWord c ((s.ring c).bdAddr j) w := by
  simp only [State.memWord, State.wordAddr, hcfg, hring]
  refine Memory.readWord_congr _ _ _ _ fun i hi => hkept _ fun i' hi' => ?_
  rw [byteAddr_wordOffset]
  exact h.byteAddr_ne hj hk hjk (by omega) hi'

/-! ## The links of CREATE -/

/-- The access that links descriptor `bd` to physical address `x`, at which the engine then finds it. -/
structure Links (c : Channel) (bd x : Word) (s t : State) : Prop where
  frame : SameButDescriptors s t
  next : t.memWord c bd 0 = x
  kept : BytesKeptOutside ((s.ring c).phys bd) 36 s t

theorem State.initDescriptor_links (c : Channel) (k : Nat) (s : State) :
    Links c ((s.ring c).bdAddr k) ((s.ring c).phys ((s.ring c).bdAddr (k + 1))) s (State.initDescriptor c k s) := by
  refine ⟨State.initDescriptor_frame c k s, ?_, ?_⟩
  · rw [State.initDescriptor, ((State.noCleanCopy_bdWrite _ c _ (by omega) _).flush (by omega)).1,
      State.hostWord_bdWrite_other _ _ _ _ (by omega) (by omega) (by omega), State.hostWord_bdWrite_same,
      Ring.phys_bdAddr]
  · have h0 := s.bdWrite_bytesKept c ((s.ring c).bdAddr k) (w := 0) (by omega)
      ((s.ring c).firstPhys + BitVec.ofNat 32 (k + 1) * (s.ring c).separation)
    have f0 := s.bdWrite_frame c ((s.ring c).bdAddr k) 0
      ((s.ring c).firstPhys + BitVec.ofNat 32 (k + 1) * (s.ring c).separation)
    rw [State.initDescriptor]
    generalize s.bdWrite c ((s.ring c).bdAddr k) 0 _ = s0 at h0 f0 ⊢
    have h3 := s0.bdWrite_bytesKept c ((s.ring c).bdAddr k) (w := 3) (by omega) flagCmp
    have hf := State.flush_bytesKept _ c _ (s0.noCleanCopy_bdWrite c ((s.ring c).bdAddr k) (w := 3) (by omega) flagCmp)
    rw [(s0.bdWrite_frame c _ 3 flagCmp).ring c, f0.ring c] at hf
    rw [f0.ring c] at h3
    exact (h0.trans h3).trans hf

theorem State.initLastDescriptor_links (s : State) (c : Channel) :
    Links c (s.ring c).lastVirt (s.ring c).firstPhys s (s.initLastDescriptor c) := by
  have hn := s.noCleanCopy_bdWrite c (s.ring c).lastVirt (w := 0) (by omega) (s.ring c).firstPhys
  refine ⟨s.initLastDescriptor_frame c, ?_, ?_⟩
  · rw [State.initLastDescriptor, (hn.flush (by omega)).1, State.hostWord_bdWrite_same]
  · have hf := State.flush_bytesKept _ c _ hn
    rw [(s.bdWrite_frame c _ 0 _).ring c] at hf
    exact (s.bdWrite_bytesKept c _ (by omega) _).trans hf

/-- The first `m` descriptors are each linked to the one after it. -/
def State.LinkedTo (s : State) (c : Channel) (m : Nat) : Prop :=
  ∀ j < m, s.memWord c ((s.ring c).bdAddr j) 0 = (s.ring c).phys ((s.ring c).bdAddr (j + 1))

/-- Linking a later descriptor leaves the links before it. -/
theorem State.LinkedTo.links {s t : State} {c : Channel} {m : Nat} (h : s.LinkedTo c m) (hl : (s.ring c).LaidOut)
    (hm : m < (s.ring c).count.toNat) {x : Word} (hx : Links c ((s.ring c).bdAddr m) x s t) : t.LinkedTo c m := by
  intro j hj
  rw [hx.frame.ring c, State.memWord_of_bytesKept hl hx.frame.cfg (hx.frame.ring c) (by omega) hm hj.ne hx.kept (by omega)]
  exact h j hj

theorem State.LinkedTo.initDescriptor {s : State} {c : Channel} {m : Nat} (h : s.LinkedTo c m)
    (hl : (s.ring c).LaidOut) (hm : m < (s.ring c).count.toNat) : (State.initDescriptor c m s).LinkedTo c (m + 1) := by
  have hx := s.initDescriptor_links c m
  intro j hj
  rcases Nat.lt_or_eq_of_le (Nat.le_of_lt_succ hj) with hlt | rfl
  · exact h.links hl hm hx j hlt
  · rw [hx.frame.ring c]
    exact hx.next

/-- R150: the ring is linked all the way round. -/
structure State.LinkedRound (s : State) (c : Channel) : Prop where
  inner : s.LinkedTo c ((s.ring c).count.toNat - 1)
  last : s.memWord c (s.ring c).lastVirt 0 = (s.ring c).firstPhys

/-- The loop of CREATE and its last part link the ring. -/
theorem State.linkedRound_init (s : State) (c : Channel) (hl : (s.ring c).LaidOut) :
    (State.forEach ((s.ring c).count.toNat - 1) (State.initDescriptor c) s).initLastDescriptor c |>.LinkedRound c := by
  have hpos := hl.count_pos
  have hloop := State.forEach_induction (fun m t => t.ring c = s.ring c ∧ t.LinkedTo c m) ((s.ring c).count.toNat - 1)
    (State.initDescriptor c) s ⟨rfl, fun _ hj => absurd hj (Nat.not_lt_zero _)⟩ fun k hk t ⟨hring, ht⟩ =>
      ⟨((State.initDescriptor_frame c k t).ring c).trans hring, ht.initDescriptor (hring ▸ hl) (by rw [hring]; omega)⟩
  generalize State.forEach _ (State.initDescriptor c) s = t at hloop ⊢
  obtain ⟨hring, ht⟩ := hloop
  rw [← hring] at hl ht hpos
  have hx := t.initLastDescriptor_links c
  refine ⟨?_, by rw [hx.frame.ring c]; exact hx.next⟩
  rw [hx.frame.ring c]
  refine ht.links hl (by omega) (x := (t.ring c).firstPhys) ?_
  rwa [← hl.lastVirt_eq]

theorem State.linkedRound_createRing (s : State) (c : Channel) (p v a n : Word)
    (hl : ((s.ring c).created p v a n).LaidOut) : (s.createRing c p v a n).LinkedRound c := by
  have hring := ((s.setRing c ((s.ring c).created p v a n)).zeroRing_frame c).ring c
  rw [State.setRing_ring_same] at hring
  have h := State.linkedRound_init _ c (hring.symm ▸ hl)
  rwa [hring] at h

/-! ## Walking the links -/

/-- R108: the walk is at descriptor `k` after `k` steps. -/
theorem State.LinkedTo.follow {s : State} {c : Channel} {m : Nat} (h : s.LinkedTo c m) {k : Nat} (hk : k ≤ m) :
    s.follow (s.ring c).firstPhys k = (s.ring c).phys ((s.ring c).bdAddr k) := by
  induction k with
  | zero => rw [Ring.phys_bdAddr_zero, State.follow]
  | succ k ih => rw [State.follow, ih (Nat.le_of_succ_le hk), State.engRead_phys, h k hk]

/-- R108: the walk comes back after as many steps as there are descriptors, and not before. -/
theorem State.LinkedRound.follow {s : State} {c : Channel} (h : s.LinkedRound c) (hl : (s.ring c).LaidOut) :
    s.follow (s.ring c).firstPhys (s.ring c).count.toNat = (s.ring c).firstPhys ∧
      ∀ k, 0 < k → k < (s.ring c).count.toNat → s.follow (s.ring c).firstPhys k ≠ (s.ring c).firstPhys := by
  constructor
  · obtain ⟨m, hm⟩ := Nat.exists_eq_succ_of_ne_zero hl.count_pos.ne'
    have hlast := h.last
    have hinner := h.inner.follow le_rfl
    rw [hl.lastVirt_eq] at hlast
    rw [hm, Nat.succ_sub_one] at hinner hlast
    rw [hm, State.follow, hinner, State.engRead_phys, hlast]
  · intro k hpos hk
    rw [h.inner.follow (by omega)]
    exact hl.phys_bdAddr_ne hk hpos

theorem State.LinkedRound.respond {s : State} {c : Channel} (h : s.LinkedRound c) (st : Status) (rs : List Word) :
    (s.respond st rs).LinkedRound c := by
  have hmem := fun bd => State.memWord_congr (s.respond_mem st rs) (s.respond_cfg st rs) (s.respond_ring c st rs) bd 0
  constructor
  · intro j hj
    rw [State.respond_ring] at hj ⊢
    rw [hmem]
    exact h.inner j hj
  · rw [hmem, State.respond_ring]
    exact h.last

theorem execCreate_of_accepts {s : State} {ch : Channel} {p v a n : Word} (h : CreateAccepts s.cfg (s.ring ch) p v a n) :
    execCreate ch p v a n s = .next (s.createRing ch p v a n).ok := by
  rw [execCreate, (createCheck_eq_none_iff _ _ _ _ _ _).2 h]

theorem State.createRing_ring (s : State) (c : Channel) (p v a n : Word) :
    (s.createRing c p v a n).ring c = (s.ring c).created p v a n :=
  ((s.createRing_frame c p v a n).ring c).trans (s.setRing_ring_same c _)

/-- Settles O13: CREATE links a laid-out ring all the way round, and the walk along the links passes its descriptors in order. -/
theorem ringLinkage : Obligations.RingLinkage := by
  intro s ch p v al n hc h
  have hl := Ring.laidOut_created hc h
  have hring : (s.createRing ch p v al n).ok.ring ch = (s.ring ch).created p v al n :=
    (State.respond_ring _ ch _ _).trans (s.createRing_ring ch p v al n)
  have hround : (s.createRing ch p v al n).ok.LinkedRound ch :=
    (s.linkedRound_createRing ch p v al n hl).respond .ok []
  have hwalk := hround.follow (hring.symm ▸ hl)
  rw [hring] at hwalk
  exact ⟨_, execCreate_of_accepts h, hwalk⟩

end Sys2Proof.Machine
end

section
/-! SUPPORT. The steps of the agents other than the manager, and the manager's where it waits for the words of a command
(spec/20_memory.md R98, spec/30_encoding.md R120). -/

namespace Sys2Proof.Machine

/-- Missing words are no illegal header: the manager waits for them (assumption 8). -/
theorem State.rejectCommand_of_missing (s : State) (why : DecodeError) (h : why.illegal = false) :
    s.rejectCommand why = s := if_neg (by simp [h])

theorem managerTurn_of_missing (s : State) (hw : s.waiting = none)
    (hd : decode s.stream = .rejected .noHeader ∨ decode s.stream = .rejected .operandsMissing) :
    managerTurn s = .next s := by
  rcases hd with hd | hd
  · rw [managerTurn_of_rejected s _ hw hd, s.rejectCommand_of_missing _ rfl]
  · rw [managerTurn_of_rejected s _ hw hd, s.rejectCommand_of_missing _ rfl]

/-- An engine event that fetches over no ring runs unguarded. -/
theorem State.guardedEngineTurn_of_not_breaches (s : State) (e : EngineEvent) (h : ¬ s.EventBreaches e) :
    s.guardedEngineTurn e = .next (s.engineTurn e) :=
  if_pos (by rwa [← s.eventKeepsPlatform_eq_false_iff e, Bool.not_eq_false] at h)

theorem step_of_engineReady (s : State) (q : List Turn) (e : EngineEvent) (h : s.EngineReady e q) :
    step s = .next (State.engineTurn { s with sched := q } e) := by
  rw [step, turn_of_admitted s h.admitted, h.turn]
  exact State.guardedEngineTurn_of_not_breaches { s with sched := q } e fun ⟨c, x, he, hf⟩ => h.buffer c x he hf

theorem step_of_cacheNext (s : State) (q : List Turn) (e : CacheEvent) (ha : s.Admitted) (hq : s.sched = .cache e :: q) :
    step s = .next (State.cacheTurn { s with sched := q } e) := by
  rw [step, turn_of_admitted s ha, hq]

theorem step_of_hostNext (s : State) (q : List Turn) (e : HostEvent) (ha : s.Admitted) (hq : s.sched = .host e :: q) :
    step s = hostTurn { s with sched := q } e := by
  rw [step, turn_of_admitted s ha, hq]

theorem hostTurn_present (s : State) (ws : List Word) (hw : s.waiting = none) :
    hostTurn s (.present ws) = .next { s with stream := s.stream ++ ws } := if_neg (by simp [hw])

/-- Settles O7, agent by agent. -/
theorem otherTurns : Obligations.OtherTurns := by
  refine ⟨fun s q hr hd => ?_, step_of_engineReady, step_of_cacheNext, fun s q e ha hq => ?_⟩
  · rw [step_of_managerNext s q hr.admitted hr.turn]
    exact managerTurn_of_missing { s with sched := q } hr.idle hd
  · have hstep := step_of_hostNext s q e ha hq
    refine ⟨hstep, fun hw => ?_, ?_⟩
    · exact hstep.trans (hostTurn_of_waiting { s with sched := q } e hw)
    · rintro ws hw rfl
      exact hstep.trans (hostTurn_present { s with sched := q } ws hw)

end Sys2Proof.Machine
end

section
/-! SUPPORT. The decoder and the encoder as inverses of each other (spec/30_encoding.md R120 to R127): a header as its three
fields, the one case in which the decoder answers a command, the headers it calls illegal, and the manager's step on each. -/

namespace Sys2Proof

/-! ## A header is its fields -/

/-- R121: the reserved bits, the opcode bits and the channel bit are all of a header. -/
theorem header_ext {h k : Word} (hres : headerReserved h = headerReserved k) (hopc : headerOpc h = headerOpc k)
    (hch : h.getLsbD 8 = k.getLsbD 8) : h = k := by
  refine BitVec.eq_of_getLsbD_eq fun i hi => ?_
  obtain hlow | rfl | hhigh : i < 8 ∨ i = 8 ∨ 9 ≤ i := by omega
  · have hbit := congrArg (BitVec.getLsbD · i) hopc
    simpa [headerOpc, hlow] using hbit
  · exact hch
  · have hbit := congrArg (BitVec.getLsbD · (i - 9)) hres
    simpa [headerReserved, Nat.add_sub_cancel' hhigh, show i - 9 < 23 by omega] using hbit

theorem headerReserved_and (h m : Word) : headerReserved (h &&& m) = headerReserved h &&& headerReserved m :=
  BitVec.extractLsb'_and

theorem headerOpc_and (h m : Word) : headerOpc (h &&& m) = headerOpc h &&& headerOpc m := BitVec.extractLsb'_and

theorem headerChannel_eq_tx_iff (h : Word) : headerChannel h = .tx ↔ h.getLsbD 8 = false := by
  unfold headerChannel
  cases h.getLsbD 8 <;> decide

theorem headerChannel_inj {h k : Word} : headerChannel h = headerChannel k ↔ h.getLsbD 8 = k.getLsbD 8 := by
  unfold headerChannel
  cases h.getLsbD 8 <;> cases k.getLsbD 8 <;> decide

/-- A header with no reserved bit is the encoding of the opcode and the channel that its fields name. -/
theorem eq_encodeHeader {h : Word} {o : Opcode} (hres : headerReserved h = 0) (hopc : headerOpc h = o.byte) :
    h = encodeHeader o (headerChannel h) :=
  header_ext (hres.trans (headerReserved_encodeHeader o _).symm) (hopc.trans (headerOpc_encodeHeader o _).symm)
    (headerChannel_inj.1 (headerChannel_encodeHeader o _).symm)

/-! ## The rows of the opcode map (R125) -/

theorem Opcode.matchWord_eq_encodeHeader (o : Opcode) : o.matchWord = encodeHeader o .tx := BitVec.or_zero.symm

theorem headerReserved_mask (o : Opcode) : headerReserved o.mask = BitVec.allOnes 23 := by
  unfold Opcode.mask
  split <;> rfl

theorem headerOpc_mask (o : Opcode) : headerOpc o.mask = BitVec.allOnes 8 := by
  unfold Opcode.mask
  split <;> rfl

theorem Opcode.mask_getLsbD_channel (o : Opcode) : o.mask.getLsbD 8 = decide (o.scope = .engineWide) := by
  cases hs : o.scope <;> simp [Opcode.mask, hs]

/-- R125: the mask leaves out the channel bit of a channel command alone. -/
theorem and_mask_eq_matchWord_iff (h : Word) (o : Opcode) :
    h &&& o.mask = o.matchWord ↔
      headerReserved h = 0 ∧ headerOpc h = o.byte ∧ (o.scope = .engineWide → headerChannel h = .tx) := by
  have hres : headerReserved (h &&& o.mask) = headerReserved h := by
    rw [headerReserved_and, headerReserved_mask, BitVec.and_allOnes]
  have hopc : headerOpc (h &&& o.mask) = headerOpc h := by rw [headerOpc_and, headerOpc_mask, BitVec.and_allOnes]
  have hch : (h &&& o.mask).getLsbD 8 = (h.getLsbD 8 && decide (o.scope = .engineWide)) := by
    rw [BitVec.getLsbD_and, o.mask_getLsbD_channel]
  have htx : (encodeHeader o .tx).getLsbD 8 = false :=
    (headerChannel_eq_tx_iff _).1 (headerChannel_encodeHeader o .tx)
  rw [o.matchWord_eq_encodeHeader]
  constructor
  · intro heq
    rw [heq, headerReserved_encodeHeader] at hres
    rw [heq, headerOpc_encodeHeader] at hopc
    rw [heq, htx] at hch
    exact ⟨hres.symm, hopc.symm, fun hs => by simpa [headerChannel_eq_tx_iff, hs] using hch.symm⟩
  · rintro ⟨hr, ho, hc⟩
    refine header_ext ?_ ?_ ?_
    · rw [hres, hr, headerReserved_encodeHeader]
    · rw [hopc, ho, headerOpc_encodeHeader]
    · rw [hch, htx]
      by_cases hs : o.scope = .engineWide
      · rw [(headerChannel_eq_tx_iff h).1 (hc hs), Bool.false_and]
      · rw [decide_eq_false hs, Bool.and_false]

/-- Settles O4. -/
theorem headerSelectsOneRow : Obligations.HeaderSelectsOneRow := by
  refine ⟨and_mask_eq_matchWord_iff, fun h o p ho hp => ?_, fun h o ho => ?_⟩
  · obtain ⟨-, hopc, -⟩ := (and_mask_eq_matchWord_iff h o).1 ho
    obtain ⟨-, hopc', -⟩ := (and_mask_eq_matchWord_iff h p).1 hp
    exact Opcode.byte_injective o p (hopc.symm.trans hopc')
  · obtain ⟨hres, hopc, -⟩ := (and_mask_eq_matchWord_iff h o).1 ho
    exact eq_encodeHeader hres hopc

/-! ## Opcode numbers and parsed forms -/

theorem Opcode.ofByte_eq_some_iff (b : BitVec 8) (o : Opcode) : Opcode.ofByte b = some o ↔ b = o.byte := by
  refine ⟨fun h => ?_, fun h => h ▸ o.ofByte_byte⟩
  have hb := List.find?_some h
  exact (beq_iff_eq.1 hb).symm

theorem Opcode.ofByte_eq_none_iff (b : BitVec 8) : Opcode.ofByte b = none ↔ b ∉ Opcode.all.map Opcode.byte := by
  simp [Opcode.ofByte]

theorem RawCommand.channelAllowed_iff (o : Opcode) (ch : Channel) (ops : List Word) :
    (RawCommand.mk o ch ops).channelAllowed = true ↔ (o.scope = .engineWide → ch = .tx) := by
  cases hs : o.scope <;> simp [RawCommand.channelAllowed, hs]

/-- Every command, by its constructor. -/
theorem Instr.parsed (i : Instr) : Laws.Parsed.Statement i := by
  cases i with
  | nop => exact Laws.Parsed.nop
  | create ch p v a n => exact Laws.Parsed.create ch p v a n
  | clone ch t0 t1 t2 t3 t4 t5 t6 t7 t8 => exact Laws.Parsed.clone ch t0 t1 t2 t3 t4 t5 t6 t7 t8
  | alloc ch n => exact Laws.Parsed.alloc ch n
  | unalloc ch n set => exact Laws.Parsed.unalloc ch n set
  | toHw ch n set => exact Laws.Parsed.toHw ch n set
  | fromHw ch limit => exact Laws.Parsed.fromHw ch limit
  | free ch n set => exact Laws.Parsed.free ch n set
  | start ch => exact Laws.Parsed.start ch
  | pause => exact Laws.Parsed.pause
  | resume => exact Laws.Parsed.resume
  | reset => exact Laws.Parsed.reset
  | setCoalesce ch counter timer => exact Laws.Parsed.setCoalesce ch counter timer
  | getCoalesce ch => exact Laws.Parsed.getCoalesce ch
  | irqEnable ch mask => exact Laws.Parsed.irqEnable ch mask
  | irqDisable ch mask => exact Laws.Parsed.irqDisable ch mask
  | irqGet ch => exact Laws.Parsed.irqGet ch
  | irqAck ch mask => exact Laws.Parsed.irqAck ch mask
  | bdRd ch bd w => exact Laws.Parsed.bdRd ch bd w
  | bdWr ch bd w value => exact Laws.Parsed.bdWr ch bd w value
  | bdNext ch bd => exact Laws.Parsed.bdNext ch bd
  | bdPrev ch bd => exact Laws.Parsed.bdPrev ch bd
  | ringStat ch sel => exact Laws.Parsed.ringStat ch sel
  | regRd off => exact Laws.Parsed.regRd off
  | regWr off value => exact Laws.Parsed.regWr off value

/-- R122: a well-formed command has as many operand words as its format. -/
theorem Instr.WellFormed.length_operands {i : Instr} (h : i.WellFormed) :
    i.raw.operands.length = i.raw.opcode.format.operandWords := by
  simp only [Instr.WellFormed, RawCommand.wf, RawCommand.operandsComplete, Bool.and_eq_true, beq_iff_eq] at h
  exact h.2

/-- R121: a well-formed engine-wide command has the channel bit 0. -/
theorem Instr.WellFormed.channelAllowed {i : Instr} (h : i.WellFormed) : i.raw.channelAllowed = true := by
  simp only [Instr.WellFormed, RawCommand.wf, Bool.and_eq_true] at h
  exact h.1

/-- The typed command keeps what it was parsed from, but for the channel bit of an engine-wide one. Format by format: operand
words fewer or more than the format's (R122) give no command. -/
theorem Instr.raw_of_ofRaw {o : Opcode} {ch : Channel} {ops : List Word} {i : Instr}
    (h : Instr.ofRaw o ch ops = some i) : i.raw = ⟨o, if o.scope = .engineWide then .tx else ch, ops⟩ := by
  cases o
  case nop | start | pause | resume | reset | getCoalesce | irqGet =>
    rcases ops with _ | ⟨_, _⟩ <;> cases h
    rfl
  case alloc | fromHw | irqEnable | irqDisable | irqAck | bdNext | bdPrev | ringStat | regRd =>
    rcases ops with _ | ⟨_, _ | ⟨_, _⟩⟩ <;> cases h
    rfl
  case unalloc | toHw | free | setCoalesce | bdRd | regWr =>
    rcases ops with _ | ⟨_, _ | ⟨_, _ | ⟨_, _⟩⟩⟩ <;> cases h
    rfl
  case bdWr =>
    rcases ops with _ | ⟨_, _ | ⟨_, _ | ⟨_, _ | ⟨_, _⟩⟩⟩⟩ <;> cases h
    rfl
  case create =>
    rcases ops with _ | ⟨_, _ | ⟨_, _ | ⟨_, _ | ⟨_, _ | ⟨_, _⟩⟩⟩⟩⟩ <;> cases h
    rfl
  case clone =>
    rcases ops with _ | ⟨_, _ | ⟨_, _ | ⟨_, _ | ⟨_, _ | ⟨_, _ | ⟨_, _ | ⟨_, _ | ⟨_, _ | ⟨_, _ | ⟨_, _⟩⟩⟩⟩⟩⟩⟩⟩⟩⟩
      <;> cases h
    rfl

/-! ## Decoding -/

/-- R120 to R127: the decoder answers a command exactly where the header has no reserved bit, names an opcode, has no channel
bit that the opcode forbids, and all of the format's operand words follow. -/
theorem decode_eq_instr_iff (ws rest : List Word) (i : Instr) :
    decode ws = .instr i rest ↔ ∃ h tl o, ws = h :: tl ∧ headerReserved h = 0 ∧ headerOpc h = o.byte ∧
      (o.scope = .engineWide → headerChannel h = .tx) ∧
      Instr.ofRaw o (headerChannel h) (tl.take o.format.operandWords) = some i ∧
      rest = tl.drop o.format.operandWords := by
  constructor
  · intro hd
    unfold decode at hd
    split at hd
    · cases hd
    next h tl =>
    split_ifs at hd with hres
    split at hd
    · cases hd
    next o ho =>
    simp only at hd
    split_ifs at hd with hch
    split at hd
    · cases hd
    next j hj =>
    cases hd
    rw [Bool.not_eq_false, RawCommand.channelAllowed_iff] at hch
    exact ⟨h, tl, o, rfl, not_not.1 hres, (Opcode.ofByte_eq_some_iff _ o).1 ho, hch, hj, rfl⟩
  · rintro ⟨h, tl, o, rfl, hres, hopc, hch, hi, rfl⟩
    have hallowed := (RawCommand.channelAllowed_iff o (headerChannel h) []).2 hch
    simp [decode, hres, (Opcode.ofByte_eq_some_iff _ o).2 hopc, hallowed, hi]

/-- Settles O2: the header gives back its fields, the words after it split at the format's length, and the parsed form gives
back the command. -/
theorem decodeOfEncode : Obligations.DecodeOfEncode := by
  intro i rest hwf
  obtain ⟨-, -, hraw⟩ := i.parsed
  have hlen := hwf.length_operands
  refine (decode_eq_instr_iff _ _ i).2 ⟨encodeHeader i.raw.opcode i.raw.ch, i.raw.operands ++ rest, i.raw.opcode, rfl,
    headerReserved_encodeHeader _ _, headerOpc_encodeHeader _ _, ?_, ?_, ?_⟩
  · rw [headerChannel_encodeHeader]
    exact (RawCommand.channelAllowed_iff _ _ _).1 hwf.channelAllowed
  · rw [headerChannel_encodeHeader, List.take_left' hlen, hraw]
  · exact (List.drop_left' hlen).symm

/-- Settles O3: the header is the one its fields encode, and the parsed form keeps the operands. -/
theorem encodeOfDecode : Obligations.EncodeOfDecode := by
  intro ws rest i hd
  obtain ⟨h, tl, o, rfl, hres, hopc, hch, hi, rfl⟩ := (decode_eq_instr_iff _ _ _).1 hd
  obtain ⟨hwf, -, -⟩ := i.parsed
  have hraw := Instr.raw_of_ofRaw hi
  rw [ite_eq_right_iff.2 fun hs => (hch hs).symm] at hraw
  refine ⟨hwf, ?_⟩
  rw [encode, hraw, List.cons_append, List.take_append_drop, ← eq_encodeHeader hres hopc]

/-- Settles O1. -/
theorem decodesSampleWords : Obligations.DecodesSampleWords :=
  ⟨decodeOfEncode .nop [] rfl, decodeOfEncode (.create .tx 0x10000000 0x20000000 64 4) [] rfl,
    decodeOfEncode (.irqEnable .rx 0x85) [] rfl, decodeOfEncode (.bdWr .tx 0x20000000 2 1500) [0x00000021] rfl,
    decodeOfEncode (.regWr 0x34 0x01010085) [] rfl⟩

/-! ## Illegal headers (R126) -/

theorem decode_of_reserved {h : Word} (rest : List Word) (hres : headerReserved h ≠ 0) :
    decode (h :: rest) = .rejected .reservedBits := if_pos hres

theorem decode_of_unknown {h : Word} (rest : List Word) (hres : headerReserved h = 0)
    (hopc : headerOpc h ∉ Opcode.all.map Opcode.byte) : decode (h :: rest) = .rejected .unknownOpcode := by
  simp [decode, hres, (Opcode.ofByte_eq_none_iff _).2 hopc]

theorem decode_of_channel {h : Word} {o : Opcode} (rest : List Word) (hres : headerReserved h = 0)
    (hopc : headerOpc h = o.byte) (hs : o.scope = .engineWide) (hch : headerChannel h = .rx) :
    decode (h :: rest) = .rejected .channelOnEngineWide := by
  simp [decode, hres, (Opcode.ofByte_eq_some_iff _ o).2 hopc, RawCommand.channelAllowed, hs, hch]

/-- R126: what makes a header illegal. -/
def HeaderIllegal (h : Word) : Prop :=
  headerReserved h ≠ 0 ∨ headerOpc h ∉ Opcode.all.map Opcode.byte ∨
    ∃ o : Opcode, headerOpc h = o.byte ∧ o.scope = .engineWide ∧ headerChannel h = .rx

/-- An illegal header is rejected as illegal, whatever words follow it. -/
theorem HeaderIllegal.decode_rejected {h : Word} (hi : HeaderIllegal h) (rest : List Word) :
    ∃ why : DecodeError, why.illegal = true ∧ decode (h :: rest) = .rejected why := by
  by_cases hres : headerReserved h = 0
  · rcases hi with hne | hopc | ⟨o, hopc, hs, hch⟩
    · exact absurd hres hne
    · exact ⟨_, rfl, decode_of_unknown rest hres hopc⟩
    · exact ⟨_, rfl, decode_of_channel rest hres hopc hs hch⟩
  · exact ⟨_, rfl, decode_of_reserved rest hres⟩

/-- The numbers of the engine-wide opcodes. -/
theorem exists_engineWide_of_mem {b : BitVec 8} (hb : b ∈ [(0x00 : BitVec 8), 0x21, 0x22, 0x23, 0x50, 0x51]) :
    ∃ o : Opcode, b = o.byte ∧ o.scope = .engineWide := by
  simp only [List.mem_cons, List.not_mem_nil, or_false] at hb
  rcases hb with rfl | rfl | rfl | rfl | rfl | rfl
  · exact ⟨.nop, rfl, rfl⟩
  · exact ⟨.pause, rfl, rfl⟩
  · exact ⟨.resume, rfl, rfl⟩
  · exact ⟨.reset, rfl, rfl⟩
  · exact ⟨.regRd, rfl, rfl⟩
  · exact ⟨.regWr, rfl, rfl⟩

namespace Machine

/-! ## The manager's step on a header and on a command -/

/-- R126: the manager drops an illegal header and answers 16. -/
theorem managerTurn_of_illegal (s : State) {h : Word} {rest : List Word} (hw : s.waiting = none)
    (hs : s.stream = h :: rest) (hi : HeaderIllegal h) :
    managerTurn s = .next { s with stream := rest, response := [16] } := by
  obtain ⟨why, hill, hd⟩ := hi.decode_rejected rest
  rw [managerTurn_of_rejected s why hw (hs ▸ hd), State.rejectCommand, if_pos hill, hs]
  rfl

/-- Settles O5. -/
theorem illegalHeaderAnswered : Obligations.IllegalHeaderAnswered := by
  intro s q h rest hr hs hbad
  have hi : HeaderIllegal h := by
    refine hbad.imp_right (Or.imp_right ?_)
    rintro ⟨hmem, hch⟩
    obtain ⟨o, hopc, hscope⟩ := exists_engineWide_of_mem hmem
    exact ⟨o, hopc, hscope, hch⟩
  rw [step_of_managerNext s q hr.admitted hr.turn]
  exact managerTurn_of_illegal { s with sched := q } hr.idle hs hi

/-- Settles O6. -/
theorem stepRunsDecodedInstruction : Obligations.StepRunsDecodedInstruction := by
  intro s q i rest hr _ ho hd
  have hkeeps : commandKeepsPlatform i { s with sched := q } = true :=
    (commandKeepsPlatform_of_stream_sched i s s.stream q).trans ((commandKeepsPlatform_iff s hr.admitted i).2 ho)
  rw [step_of_managerNext s q hr.admitted hr.turn, managerTurn_of_instr { s with sched := q } i rest hr.idle hd,
    if_pos hkeeps]

end Machine

end Sys2Proof
end

section
/-! SUPPORT. What a command answers where it does not wait (spec/30_encoding.md R124, spec/60_exceptions.md R301): a status code
of its own and its fixed number of result words, all 0 on a failure. -/

namespace Sys2Proof.Machine

/-! ## The shape of a response -/

/-- R124: one of the given codes and `n` result words, all 0 unless the code is 0. -/
def State.Responds (t : State) (n : Nat) (codes : List Word) : Prop :=
  ∃ code results, t.response = code :: results ∧ (code ≠ 0 → results = List.replicate results.length 0) ∧
    results.length = n ∧ code ∈ codes

/-- The answer, where it is a next state in which no command waits, has a response of that shape. -/
def AnswersShape (n : Nat) (codes : List Word) (r : Result) : Prop :=
  ∀ t, r = .next t → t.waiting = none → t.Responds n codes

theorem State.Responds.answers {t : State} {n : Nat} {codes : List Word} (h : t.Responds n codes) :
    AnswersShape n codes (.next t) := fun _ ht _ => Host.Outcome.next.inj ht ▸ h

theorem State.responds_ok (s : State) (results : List Word) {codes : List Word} (h : 0 ∈ codes) :
    (s.respond .ok results).Responds results.length codes :=
  ⟨0, results, rfl, fun h0 => absurd rfl h0, rfl, h⟩

theorem State.responds_failure (s : State) (st : Status) (n : Nat) {codes : List Word} (h : st.code ∈ codes) :
    (s.failWith st n).Responds n codes :=
  ⟨st.code, List.replicate n 0, rfl, fun _ => by rw [List.length_replicate], List.length_replicate, h⟩

theorem answers_ok (s : State) (results : List Word) {codes : List Word} (h : 0 ∈ codes) :
    AnswersShape results.length codes (.next (s.respond .ok results)) := (s.responds_ok results h).answers

theorem answers_failure (s : State) (st : Status) (n : Nat) {codes : List Word} (h : st.code ∈ codes) :
    AnswersShape n codes (.next (s.failWith st n)) := (s.responds_failure st n h).answers

/-- R206: the first part of a command with a wait answers only where the budget allows no poll: with `E_TIMEOUT`. -/
theorem answers_waitOn (s : State) (k : WaitKind) (polls : Nat) :
    AnswersShape 0 [15] (.next (s.waitOn k polls)) := by
  unfold State.waitOn
  split_ifs
  · exact answers_failure _ .timeout 0 (by decide)
  · rintro _ ⟨⟩ hw
    cases hw

/-! ## The statuses of CREATE's checks and of TO_HW's walk -/

theorem createCheck_code {cfg : Cfg} {r : Ring} {p v a n : Word} {st : Status} (h : createCheck cfg r p v a n = some st) :
    st.code ∈ [(0 : Word), 1, 2, 3, 4, 5, 19] := by
  unfold createCheck at h
  split_ifs at h <;> cases h <;> decide

theorem toHwWalk_status (c : Channel) (m : Nat) (cur sts : Word) (s : State) :
    (toHwWalk c m cur sts s).status ∈ [Status.ok, .noEop, .zeroLen] := by
  induction m generalizing cur sts s with
  | zero =>
    simp only [toHwWalk]
    split_ifs <;> simp
  | succ m ih =>
    simp only [toHwWalk]
    split_ifs
    · simp
    · exact ih _ _ _

theorem toHwWalk_code (c : Channel) (m : Nat) (cur sts : Word) (s : State) :
    (toHwWalk c m cur sts s).status.code ∈ [(0 : Word), 10, 11, 12, 13] := by
  have hcodes : ∀ st ∈ [Status.ok, .noEop, .zeroLen], st.code ∈ [(0 : Word), 10, 11, 12, 13] := by decide
  exact hcodes _ (toHwWalk_status c m cur sts s)

/-! ## The commands -/

section Commands

variable (s : State) (ch : Channel)

theorem execNop_shape : AnswersShape 0 [0] (execNop s) := answers_ok _ _ (by decide)

theorem execCreate_shape (p v a n : Word) : AnswersShape 0 [0, 1, 2, 3, 4, 5, 19] (execCreate ch p v a n s) := by
  unfold execCreate
  cases hc : createCheck s.cfg (s.ring ch) p v a n with
  | some st => exact answers_failure _ _ _ (createCheck_code hc)
  | none => exact answers_ok _ _ (by decide)

theorem execClone_shape (t0 t1 t2 t3 t4 t5 t6 t7 t8 : Word) :
    AnswersShape 0 [0, 6, 7] (execClone ch t0 t1 t2 t3 t4 t5 t6 t7 t8 s) := by
  simp only [execClone]
  split_ifs
  · exact answers_failure _ _ _ (by decide)
  · exact answers_failure _ _ _ (by decide)
  · exact answers_ok _ _ (by decide)

theorem execAlloc_shape (n : Word) : AnswersShape 1 [0, 9] (execAlloc ch n s) := by
  simp only [execAlloc]
  split_ifs
  · exact answers_failure _ _ _ (by decide)
  · exact answers_ok _ _ (by decide)

theorem execUnalloc_shape (n set : Word) : AnswersShape 0 [0, 10] (execUnalloc ch n set s) := by
  simp only [execUnalloc]
  split_ifs
  · exact answers_failure _ _ _ (by decide)
  · exact answers_ok _ _ (by decide)

theorem execToHw_shape (n set : Word) : AnswersShape 0 [0, 10, 11, 12, 13] (execToHw ch n set s) := by
  simp only [execToHw]
  split_ifs
  · exact answers_ok _ _ (by decide)
  · exact answers_failure _ _ _ (by decide)
  · exact answers_failure _ _ _ (by decide)
  · exact answers_ok _ _ (by decide)
  · exact answers_failure _ _ _ (toHwWalk_code _ _ _ _ _)

theorem execFromHw_shape (limit : Word) : AnswersShape 2 [0] (execFromHw ch limit s) := by
  simp only [execFromHw]
  split_ifs
  · exact answers_ok _ _ (by decide)
  · exact answers_ok _ _ (by decide)
  · exact answers_ok _ _ (by decide)

theorem execFree_shape (n set : Word) : AnswersShape 0 [0, 10] (execFree ch n set s) := by
  simp only [execFree]
  split_ifs
  · exact answers_ok _ _ (by decide)
  · exact answers_failure _ _ _ (by decide)
  · exact answers_ok _ _ (by decide)

theorem execStart_shape : AnswersShape 0 [0, 14] (execStart ch s) := by
  simp only [execStart]
  split_ifs
  · exact answers_failure _ _ _ (by decide)
  · exact answers_ok _ _ (by decide)
  · exact answers_ok _ _ (by decide)

theorem execPause_shape : AnswersShape 0 [15] (execPause s) := answers_waitOn _ _ _

theorem execResume_shape : AnswersShape 0 [0] (execResume s) := answers_ok _ _ (by decide)

theorem execReset_shape : AnswersShape 0 [15] (execReset s) := answers_waitOn _ _ _

theorem execSetCoalesce_shape (counter timer : Word) :
    AnswersShape 0 [0, 8] (execSetCoalesce ch counter timer s) := by
  unfold execSetCoalesce
  split_ifs
  · exact answers_ok _ _ (by decide)
  · exact answers_failure _ _ _ (by decide)

theorem execGetCoalesce_shape : AnswersShape 2 [0] (execGetCoalesce ch s) := answers_ok _ [_, _] (by decide)

theorem execIrqEnable_shape (mask : Word) : AnswersShape 0 [0] (execIrqEnable ch mask s) := answers_ok _ _ (by decide)

theorem execIrqDisable_shape (mask : Word) : AnswersShape 0 [0] (execIrqDisable ch mask s) :=
  answers_ok _ _ (by decide)

theorem execIrqGet_shape : AnswersShape 1 [0] (execIrqGet ch s) := answers_ok _ [_] (by decide)

theorem execIrqAck_shape (mask : Word) : AnswersShape 0 [0] (execIrqAck ch mask s) := answers_ok _ _ (by decide)

theorem execBdRd_shape (bd w : Word) : AnswersShape 1 [0, 17, 18] (execBdRd ch bd w s) := by
  simp only [execBdRd]
  split_ifs
  · exact answers_failure _ _ _ (by decide)
  · exact answers_failure _ _ _ (by decide)
  · exact answers_ok _ _ (by decide)

theorem execBdWr_shape (bd w value : Word) : AnswersShape 0 [0, 17, 18] (execBdWr ch bd w value s) := by
  simp only [execBdWr]
  split_ifs
  · exact answers_failure _ _ _ (by decide)
  · exact answers_failure _ _ _ (by decide)
  · exact answers_failure _ _ _ (by decide)
  · exact answers_ok _ _ (by decide)

theorem execBdNext_shape (bd : Word) : AnswersShape 1 [0, 17] (execBdNext ch bd s) := by
  simp only [execBdNext]
  split_ifs
  · exact answers_ok _ _ (by decide)
  · exact answers_failure _ _ _ (by decide)

theorem execBdPrev_shape (bd : Word) : AnswersShape 1 [0, 17] (execBdPrev ch bd s) := by
  simp only [execBdPrev]
  split_ifs
  · exact answers_ok _ _ (by decide)
  · exact answers_failure _ _ _ (by decide)

theorem execRingStat_shape (sel : Word) : AnswersShape 1 [0, 17] (execRingStat ch sel s) := by
  unfold execRingStat
  split
  · exact answers_ok _ [_] (by decide)
  · exact answers_failure _ _ _ (by decide)

theorem execRegRd_shape (off : Word) : AnswersShape 1 [0, 17] (execRegRd off s) := by
  unfold execRegRd
  split
  · exact answers_failure _ _ _ (by decide)
  · exact answers_ok _ [_] (by decide)

theorem execRegWr_shape (off value : Word) : AnswersShape 0 [0, 17] (execRegWr off value s) := by
  unfold execRegWr
  split
  · exact answers_failure _ _ _ (by decide)
  · exact answers_ok _ _ (by decide)

end Commands

/-- Settles O51, command by command. -/
theorem responseShape : Obligations.ResponseShape := by
  intro i s
  cases i with
  | nop => exact execNop_shape s
  | create ch p v a n => exact execCreate_shape s ch p v a n
  | clone ch t0 t1 t2 t3 t4 t5 t6 t7 t8 => exact execClone_shape s ch t0 t1 t2 t3 t4 t5 t6 t7 t8
  | alloc ch n => exact execAlloc_shape s ch n
  | unalloc ch n set => exact execUnalloc_shape s ch n set
  | toHw ch n set => exact execToHw_shape s ch n set
  | fromHw ch limit => exact execFromHw_shape s ch limit
  | free ch n set => exact execFree_shape s ch n set
  | start ch => exact execStart_shape s ch
  | pause => exact execPause_shape s
  | resume => exact execResume_shape s
  | reset => exact execReset_shape s
  | setCoalesce ch counter timer => exact execSetCoalesce_shape s ch counter timer
  | getCoalesce ch => exact execGetCoalesce_shape s ch
  | irqEnable ch mask => exact execIrqEnable_shape s ch mask
  | irqDisable ch mask => exact execIrqDisable_shape s ch mask
  | irqGet ch => exact execIrqGet_shape s ch
  | irqAck ch mask => exact execIrqAck_shape s ch mask
  | bdRd ch bd w => exact execBdRd_shape s ch bd w
  | bdWr ch bd w value => exact execBdWr_shape s ch bd w value
  | bdNext ch bd => exact execBdNext_shape s ch bd
  | bdPrev ch bd => exact execBdPrev_shape s ch bd
  | ringStat ch sel => exact execRingStat_shape s ch sel
  | regRd off => exact execRegRd_shape s off
  | regWr off value => exact execRegWr_shape s off value

end Sys2Proof.Machine
end

section
/-! SUPPORT. The checks of CREATE and CLONE in their order (spec/40_ring_setup.md R150, R155, spec/60_exceptions.md R304). -/

namespace Sys2Proof.Machine

/-- R150: the status of the first check that fails. -/
theorem createCheck_code_of_not_accepts {cfg : Cfg} {r : Ring} {p v a n : Word} (h : ¬ CreateAccepts cfg r p v a n) :
    ∃ st, createCheck cfg r p v a n = some st ∧ st.code =
      if r.count ≠ 0 then 19
      else if a < cfg.minAlign then 1
      else if a &&& (a - 1) ≠ 0 then 2
      else if p.toNat % a.toNat ≠ 0 ∨ v.toNat % a.toNat ≠ 0 then 3
      else if n = 0 then 4
      else 5 := by
  obtain ⟨st, hst⟩ := Option.ne_none_iff_exists'.1 (mt (createCheck_eq_none_iff cfg r p v a n).1 h)
  refine ⟨st, hst, ?_⟩
  unfold createCheck at hst
  split_ifs at hst ⊢ <;> cases hst <;> rfl

theorem execClone_of_unfit (s : State) (ch : Channel) (t0 t1 t2 t3 t4 t5 t6 t7 t8 : Word)
    (h : (s.ring ch).freeCount ≠ (s.ring ch).count ∨ (s.ring ch).runState = .started) :
    execClone ch t0 t1 t2 t3 t4 t5 t6 t7 t8 s = .next { s with response :=
      [if (s.ring ch).freeCount ≠ (s.ring ch).count then 6 else 7] } := by
  unfold execClone
  by_cases hfree : (s.ring ch).freeCount = (s.ring ch).count
  · rw [if_neg (not_not.2 hfree), if_neg (not_not.2 hfree), if_pos (h.resolve_left (not_not.2 hfree))]
    rfl
  · rw [if_pos hfree, if_pos hfree]
    rfl

/-- Settles O12: each command answers the status of its first failing check and nothing else. -/
theorem setupFailures : Obligations.SetupFailures := by
  refine ⟨fun s ch p v al n _ h => ?_, execClone_of_unfit⟩
  obtain ⟨st, hst, hcode⟩ := createCheck_code_of_not_accepts h
  show execCreate ch p v al n s = _
  rw [execCreate, hst, ← hcode]
  rfl

end Sys2Proof.Machine
end

section
/-! SUPPORT. Writes to one descriptor and its flush, as CREATE and CLONE make them (spec/40_ring_setup.md R150, R155,
spec/20_memory.md R88, R93, R95): what they make of the descriptor's nine words, and that they leave every other byte, every
other copy and the other channel as they are. -/

namespace Sys2Proof.Machine

/-! ## Accesses on one channel -/

/-- Nothing but memory, channel `c`'s copies and the count of draws differs, and with `CACHED` false only memory. -/
structure DescriptorsOf (c : Channel) (s t : State) : Prop where
  frame : SameButDescriptors s t
  others : ∀ c', c' ≠ c → t.cacheOf c' = s.cacheOf c'
  kept : CopiesKept c s t

section DescriptorsOf

variable {s t u : State} {c : Channel}

theorem DescriptorsOf.refl (c : Channel) (s : State) : DescriptorsOf c s s :=
  ⟨.refl s, fun _ _ => rfl, fun _ => ⟨rfl, rfl⟩⟩

theorem DescriptorsOf.trans (h : DescriptorsOf c s t) (k : DescriptorsOf c t u) : DescriptorsOf c s u where
  frame := h.frame.trans k.frame
  others c' hc := (k.others c' hc).trans (h.others c' hc)
  kept hc := by
    obtain ⟨hcopies, hdraws⟩ := h.kept hc
    obtain ⟨kcopies, kdraws⟩ := k.kept (h.frame.cfg ▸ hc)
    exact ⟨kcopies.trans hcopies, kdraws.trans hdraws⟩

theorem DescriptorsOf.of_mem (c : Channel) (s : State) (m : Memory) : DescriptorsOf c s { s with mem := m } :=
  ⟨rfl, fun c' _ => by cases c' <;> rfl, fun _ => ⟨by cases c <;> rfl, rfl⟩⟩

theorem DescriptorsOf.setCache (hc : s.cfg.cached = true) (l : List CacheLine) : DescriptorsOf c s (s.setCache c l) :=
  ⟨s.setCache_frame c l, fun c' hne => s.setCache_cacheOf_other c c' l hne, fun h => by simp [hc] at h⟩

theorem DescriptorsOf.drawBool (hc : s.cfg.cached = true) : DescriptorsOf c s s.drawBool.2 :=
  ⟨s.drawBool_frame, fun c' _ => s.drawBool_cacheOf c', fun h => by simp [hc] at h⟩

/-- What a command changes that sets the bookkeeping and then reaches descriptors. -/
theorem DescriptorsOf.onlyChannelMemory {r : Ring} (h : DescriptorsOf c (s.setRing c r) t) (st : Status)
    (rs : List Word) : OnlyChannelMemory c s (t.respond st rs) := by
  obtain ⟨hframe, hothers, hkept⟩ := h
  constructor
  · cases c with
    | tx =>
      have hrx : t.rxCache = s.rxCache := hothers .rx (by decide)
      rw [hframe, hrx]
      rfl
    | rx =>
      have htx : t.txCache = s.txCache := hothers .tx (by decide)
      rw [hframe, htx]
      rfl
  · intro hc
    obtain ⟨hcopies, hdraws⟩ := hkept (by rwa [State.setRing_cfg])
    exact ⟨by rw [State.respond_cacheOf, hcopies, State.setRing_cacheOf],
      by rw [State.respond_drawCtr, hdraws, State.setRing_drawCtr]⟩

end DescriptorsOf

/-! ## Accesses to one descriptor -/

/-- Accesses to descriptor `bd` of channel `c`: nothing differs but its copy and, in memory, the bytes `B`. -/
structure AccessesOf (c : Channel) (bd : Word) (B : Nat → Prop) (s t : State) : Prop where
  channel : DescriptorsOf c s t
  copies : ∀ d, d ≠ bd → cacheFind (t.cacheOf c) d = cacheFind (s.cacheOf c) d
  bytes : ∀ b, ¬ B b → t.mem.readByte b = s.mem.readByte b

/-- R9: byte `b` of memory is one of the nine words of the descriptor at `bd`. -/
def Ring.OwnByte (r : Ring) (bd : Word) (b : Nat) : Prop := ∃ i < 36, b = byteAddr (r.phys bd) i

section AccessesOf

variable {s t u : State} {c : Channel} {bd : Word} {B : Nat → Prop}

theorem AccessesOf.cfg (h : AccessesOf c bd B s t) : t.cfg = s.cfg := h.channel.frame.cfg

theorem AccessesOf.ring (h : AccessesOf c bd B s t) : t.ring c = s.ring c := h.channel.frame.ring c

theorem AccessesOf.refl (c : Channel) (bd : Word) (B : Nat → Prop) (s : State) : AccessesOf c bd B s s :=
  ⟨.refl c s, fun _ _ => rfl, fun _ _ => rfl⟩

theorem AccessesOf.trans (h : AccessesOf c bd B s t) (k : AccessesOf c bd B t u) : AccessesOf c bd B s u :=
  ⟨h.channel.trans k.channel, fun d hd => (k.copies d hd).trans (h.copies d hd),
    fun b hb => (k.bytes b hb).trans (h.bytes b hb)⟩

theorem AccessesOf.mono {B' : Nat → Prop} (h : AccessesOf c bd B s t) (hB : ∀ b, B b → B' b) :
    AccessesOf c bd B' s t := ⟨h.channel, h.copies, fun b hb => h.bytes b fun hb' => hb (hB b hb')⟩

theorem BytesKeptOutside.ownBytes {r : Ring} (h : BytesKeptOutside (r.phys bd) 36 s t) (b : Nat)
    (hb : ¬ r.OwnByte bd b) : t.mem.readByte b = s.mem.readByte b := h b fun i hi he => hb ⟨i, hi, he⟩

variable (s c bd)

theorem State.bdWrite_accessesOf {w : Nat} (hw : w ≤ 8) (v : Word) :
    AccessesOf c bd ((s.ring c).OwnByte bd) s (s.bdWrite c bd w v) := by
  have hbytes := (s.bdWrite_bytesKept c bd hw v).ownBytes
  by_cases h : s.cfg.cached = true ∧ w < 8
  · rw [State.bdWrite_of_cached h.1 h.2] at hbytes ⊢
    refine ⟨.setCache h.1 _, fun d hd => s.cacheFind_putLine_other c _ ?_, hbytes⟩
    rwa [CacheLine.write_addr, CacheLine.addr_getD_cleanCopy]
  · rw [State.bdWrite_of_direct h] at hbytes ⊢
    exact ⟨.of_mem c s _, fun d _ => by rw [State.setMemWord_cacheOf], hbytes⟩

theorem State.writeBackLine_descriptorsOf (l : CacheLine) : DescriptorsOf c s (s.writeBackLine c l) :=
  State.forEach_keeps (DescriptorsOf c s) 8 _ s (.refl c s) fun _ t ht => ht.trans (.of_mem c t _)

theorem State.writeBackLine_cacheOf (l : CacheLine) : (s.writeBackLine c l).cacheOf c = s.cacheOf c :=
  State.forEach_keeps (fun t => t.cacheOf c = s.cacheOf c) 8 _ s rfl fun w t ht => by rw [State.setMemWord_cacheOf, ht]

/-- R95: cleaning a copy leaves the other copies. -/
theorem State.cacheFind_cleaned_other (l : CacheLine) {d : Word} (h : d ≠ l.addr) :
    cacheFind ((s.cleaned c l).cacheOf c) d = cacheFind (s.cacheOf c) d := by
  rw [State.cleaned, State.cacheFind_putLine_other _ c _ (show d ≠ { l with dirty := false }.addr from h),
    State.writeBackLine_cacheOf]

/-- R95: `Flush` of a descriptor with no clean copy does nothing, or cleans its copy and then keeps or drops it. -/
theorem State.NoCleanCopy.flush_cases {s : State} {c : Channel} {bd : Word} (h : s.NoCleanCopy c bd) :
    s.flush c bd = s ∨ s.cfg.cached = true ∧ ∃ l, l.addr = bd ∧
      (s.flush c bd = (s.cleaned c l).drawBool.2 ∨
        s.flush c bd =
          (s.cleaned c l).drawBool.2.setCache c (cacheErase ((s.cleaned c l).drawBool.2.cacheOf c) bd)) := by
  cases hc : s.cfg.cached with
  | false => exact .inl (s.flush_of_uncached c bd hc)
  | true =>
    cases hl : cacheFind (s.cacheOf c) bd with
    | none => exact .inl (s.flush_of_miss c bd hl)
    | some l =>
      have hd : l.dirty = true := h.elim (fun hf => by simp [hc] at hf) fun hd => hd l hl
      exact .inr ⟨rfl, l, (cacheFind_addr _ _ _ hl).1, s.flush_of_dirty c bd hc hl hd⟩

theorem State.cleaned_descriptorsOf (hc : s.cfg.cached = true) (l : CacheLine) :
    DescriptorsOf c s (s.cleaned c l).drawBool.2 := by
  have hback := s.writeBackLine_descriptorsOf c l
  have hput : DescriptorsOf c s (s.cleaned c l) := hback.trans (.setCache (by rw [hback.frame.cfg, hc]) _)
  exact hput.trans (.drawBool (by rw [hput.frame.cfg, hc]))

theorem State.flush_accessesOf (hn : s.NoCleanCopy c bd) :
    AccessesOf c bd ((s.ring c).OwnByte bd) s (s.flush c bd) := by
  have hbytes := (s.flush_bytesKept c bd hn).ownBytes
  rcases hn.flush_cases with he | ⟨hc, l, rfl, he | he⟩
  · rw [he]
    exact .refl c bd _ s
  · rw [he] at hbytes ⊢
    exact ⟨s.cleaned_descriptorsOf c hc l, fun d hne => s.cacheFind_cleaned_other c l hne, hbytes⟩
  · have hclean := s.cleaned_descriptorsOf c hc l
    rw [he] at hbytes ⊢
    refine ⟨hclean.trans (.setCache (by rw [hclean.frame.cfg, hc]) _), fun d hne => ?_, hbytes⟩
    rw [State.setCache_cacheOf_same, cacheFind_erase_other _ _ _ hne]
    exact s.cacheFind_cleaned_other c l hne

/-- R93: a copy that is written back has no word 8. -/
theorem State.memWord_cleaned_eight (l : CacheLine) : (s.cleaned c l).memWord c l.addr 8 = s.memWord c l.addr 8 := by
  rw [State.cleaned, State.memWord_putLine]
  exact State.forEach_induction (fun _ t => t.memWord c l.addr 8 = s.memWord c l.addr 8) 8 _ s rfl fun k hk t ht => by
    rw [t.memWord_setMemWord_other c l.addr _ (by omega) le_rfl (by omega), ht]

theorem State.NoCleanCopy.memWord_flush_eight {s : State} {c : Channel} {bd : Word} (h : s.NoCleanCopy c bd) :
    (s.flush c bd).memWord c bd 8 = s.memWord c bd 8 := by
  rcases h.flush_cases with he | ⟨-, l, rfl, he | he⟩
  · rw [he]
  · rw [he, State.memWord_drawBool, State.memWord_cleaned_eight]
  · rw [he, State.memWord_setCache, State.memWord_drawBool, State.memWord_cleaned_eight]

end AccessesOf

/-! ## New words for a descriptor -/

/-- New contents for some words of a descriptor. -/
def Patch := Nat → Option Word

/-- Every word kept. -/
def Patch.keep : Patch := fun _ => none

/-- A patch with one more word. -/
def Patch.set (f : Patch) (w : Nat) (v : Word) : Patch := fun k => if k = w then some v else f k

/-- What word `w` is after the patch, where it was `old`. -/
def Patch.word (f : Patch) (w : Nat) (old : Word) : Word := (f w).getD old

theorem Patch.word_keep (w : Nat) (old : Word) : Patch.keep.word w old = old := rfl

theorem Patch.word_set (f : Patch) (w k : Nat) (v old : Word) :
    (f.set w v).word k old = if k = w then v else f.word k old := by
  unfold Patch.word Patch.set
  split_ifs <;> rfl

/-- Accesses to descriptor `bd` after which the host sees it patched. -/
structure Patches (c : Channel) (bd : Word) (f : Patch) (s t : State) : Prop where
  accesses : AccessesOf c bd ((s.ring c).OwnByte bd) s t
  word : ∀ w ≤ 8, t.hostWord c bd w = f.word w (s.hostWord c bd w)

/-- The same, and memory holds what the host sees. -/
structure Commits (c : Channel) (bd : Word) (f : Patch) (s t : State) : Prop extends Patches c bd f s t where
  inMemory : ∀ w ≤ 8, t.memWord c bd w = t.hostWord c bd w

section Patches

variable {s t : State} {c : Channel} {bd : Word} {f : Patch}

theorem Patches.refl (c : Channel) (bd : Word) (s : State) : Patches c bd .keep s s :=
  ⟨.refl c bd _ s, fun _ _ => rfl⟩

theorem Patches.bdWrite (h : Patches c bd f s t) {w : Nat} (hw : w ≤ 8) (v : Word) :
    Patches c bd (f.set w v) s (t.bdWrite c bd w v) where
  accesses := h.accesses.trans (h.accesses.ring ▸ t.bdWrite_accessesOf c bd hw v)
  word k hk := by
    rw [Patch.word_set]
    split_ifs with he
    · rw [he, State.hostWord_bdWrite_same]
    · rw [State.hostWord_bdWrite_other _ _ _ _ hw hk he]
      exact h.word k hk

/-- R93: word 8 does not go through the cache. -/
theorem State.hostWord_eight (s : State) (c : Channel) (bd : Word) : s.hostWord c bd 8 = s.memWord c bd 8 :=
  State.hostWord_of_direct fun h => absurd h.2 (by omega)

theorem State.NoCleanCopy.bdWrite_eight (h : s.NoCleanCopy c bd) (v : Word) : (s.bdWrite c bd 8 v).NoCleanCopy c bd := by
  rw [State.bdWrite_of_direct (fun h => absurd h.2 (by omega))]
  rwa [State.NoCleanCopy, State.setMemWord_cacheOf]

/-- R95: after a `Flush` memory holds the patched words. -/
theorem Patches.flush (h : Patches c bd f s t) (hn : t.NoCleanCopy c bd) : Commits c bd f s (t.flush c bd) := by
  have hflush := t.flush_accessesOf c bd hn
  have hboth : ∀ w ≤ 8, (t.flush c bd).memWord c bd w = (t.flush c bd).hostWord c bd w ∧
      (t.flush c bd).hostWord c bd w = t.hostWord c bd w := by
    intro w hw
    rcases Nat.lt_or_eq_of_le hw with hlt | rfl
    · obtain ⟨hmem, hhost⟩ := hn.flush hlt
      exact ⟨hmem.trans hhost.symm, hhost⟩
    · simp only [State.hostWord_eight, hn.memWord_flush_eight, and_self]
  exact ⟨⟨h.accesses.trans (h.accesses.ring ▸ hflush), fun w hw => (hboth w hw).2.trans (h.word w hw)⟩,
    fun w hw => (hboth w hw).1⟩

end Patches

end Sys2Proof.Machine
end

section
/-! SUPPORT. A loop that patches one descriptor of a laid-out ring after the other: whose stride a byte of the region belongs to
(spec/10_state.md R26, R27), what a round leaves of the other descriptors, and CLONE as such a loop (spec/40_ring_setup.md R155). -/

namespace Sys2Proof.Machine

/-! ## The bytes of a laid-out ring -/

section LaidOut

variable {r : Ring}

/-- R26: byte `b` of memory lies in the stride of the descriptor at `bd`. -/
def Ring.StrideByte (r : Ring) (bd : Word) (b : Nat) : Prop := inRegion (r.phys bd) r.separation.toNat b = true

/-- Byte `i` of the stride of descriptor `k`, counted from the ring's first byte. -/
theorem Ring.LaidOut.byteAddr_offset (h : r.LaidOut) {k i : Nat} (hk : k < r.count.toNat) (hi : i < r.separation.toNat) :
    (BitVec.ofNat 32 (byteAddr (r.phys (r.bdAddr k)) i) - r.firstPhys).toNat = k * r.separation.toNat + i := by
  have hfits := h.stride_mul_lt hk
  have hprod := ofNat_mul_toNat k r.separation
  rw [r.phys_bdAddr]
  generalize k * r.separation.toNat = x at hfits hprod ⊢
  simp only [byteAddr]
  bv_omega

/-- R27: the strides of the descriptors lie in the region. -/
theorem Ring.LaidOut.inRegion_byteAddr (h : r.LaidOut) {k i : Nat} (hk : k < r.count.toNat)
    (hi : i < r.separation.toNat) :
    inRegion r.firstPhys r.length.toNat (byteAddr (r.phys (r.bdAddr k)) i) = true := by
  have hle := Nat.mul_le_mul_right r.separation.toNat (Nat.succ_le_of_lt hk)
  rw [inRegion, h.byteAddr_offset hk hi, h.length_eq, decide_eq_true_eq, Nat.mul_comm r.separation.toNat]
  rw [Nat.succ_mul] at hle
  omega

/-- Each byte of the region has one place in one stride. -/
theorem Ring.LaidOut.byteAddr_inj (h : r.LaidOut) {j k i i' : Nat} (hj : j < r.count.toNat) (hk : k < r.count.toNat)
    (hi : i < r.separation.toNat) (hi' : i' < r.separation.toNat)
    (he : byteAddr (r.phys (r.bdAddr j)) i = byteAddr (r.phys (r.bdAddr k)) i') : j = k ∧ i = i' := by
  have hoff := h.byteAddr_offset hj hi
  rw [he, h.byteAddr_offset hk hi'] at hoff
  have hpos := Nat.zero_lt_of_lt hi
  have hdiv := congrArg (· / r.separation.toNat) hoff
  simp only [Nat.mul_comm _ r.separation.toNat, Nat.mul_add_div hpos, Nat.div_eq_of_lt hi, Nat.div_eq_of_lt hi',
    Nat.add_zero] at hdiv
  subst hdiv
  exact ⟨rfl, by omega⟩

/-- A byte of a region is the byte at its offset, but for the addresses that are counted modulo 2^32. -/
theorem exists_offset_of_inRegion {pa : Word} {n b : Nat} (h : inRegion pa n b = true) :
    ∃ i < n, byteAddr pa i = (BitVec.ofNat 32 b).toNat := by
  refine ⟨_, of_decide_eq_true h, ?_⟩
  simp only [byteAddr]
  bv_omega

theorem ofNat_byteAddr (a : Word) (i : Nat) : (BitVec.ofNat 32 (byteAddr a i)).toNat = byteAddr a i :=
  Nat.mod_eq_of_lt (byteAddr_lt a i)

/-- A byte lies in one stride only. -/
theorem Ring.LaidOut.eq_of_strideByte (h : r.LaidOut) {j k i : Nat} (hj : j < r.count.toNat) (hk : k < r.count.toNat)
    (hi : i < r.separation.toNat) (hb : r.StrideByte (r.bdAddr k) (byteAddr (r.phys (r.bdAddr j)) i)) : j = k := by
  obtain ⟨i', hi', he⟩ := exists_offset_of_inRegion hb
  rw [ofNat_byteAddr] at he
  exact (h.byteAddr_inj hj hk hi hi' he.symm).1

/-- R27: a byte of a stride lies in the region. -/
theorem Ring.LaidOut.inRegion_of_strideByte (h : r.LaidOut) {k b : Nat} (hk : k < r.count.toNat)
    (hb : r.StrideByte (r.bdAddr k) b) : inRegion r.firstPhys r.length.toNat b = true := by
  obtain ⟨i, hi, he⟩ := exists_offset_of_inRegion hb
  have hin := h.inRegion_byteAddr hk hi
  rwa [inRegion, he, BitVec.ofNat_toNat, BitVec.setWidth_eq] at hin

/-- R26: the nine words of a descriptor lie in its stride. -/
theorem Ring.LaidOut.strideByte_of_ownByte (h : r.LaidOut) {bd : Word} {b : Nat} (hb : r.OwnByte bd b) :
    r.StrideByte bd b := by
  have hsep := h.separation_ge
  obtain ⟨i, hi, rfl⟩ := hb
  have hoff : (BitVec.ofNat 32 (byteAddr (r.phys bd) i) - r.phys bd).toNat = i := by
    simp only [byteAddr]
    bv_omega
  rw [Ring.StrideByte, inRegion, hoff]
  exact decide_eq_true (by omega)

end LaidOut

/-! ## Descriptor after descriptor -/

section Strides

variable {s t u : State} {c : Channel}

/-- Accesses in one stride of a laid-out ring leave the bytes of the others. -/
theorem AccessesOf.readByte_other {j k i : Nat}
    (h : AccessesOf c ((s.ring c).bdAddr k) ((s.ring c).StrideByte ((s.ring c).bdAddr k)) s t)
    (hl : (s.ring c).LaidOut) (hj : j < (s.ring c).count.toNat) (hk : k < (s.ring c).count.toNat) (hjk : j ≠ k)
    (hi : i < (s.ring c).separation.toNat) :
    t.mem.readByte (byteAddr ((s.ring c).phys ((s.ring c).bdAddr j)) i) =
      s.mem.readByte (byteAddr ((s.ring c).phys ((s.ring c).bdAddr j)) i) :=
  h.bytes _ fun hb => hjk (hl.eq_of_strideByte hj hk hi hb)

/-- Accesses in one stride of a laid-out ring leave the words of the others. -/
theorem AccessesOf.word_other {j k : Nat}
    (h : AccessesOf c ((s.ring c).bdAddr k) ((s.ring c).StrideByte ((s.ring c).bdAddr k)) s t)
    (hl : (s.ring c).LaidOut) (hj : j < (s.ring c).count.toNat) (hk : k < (s.ring c).count.toNat) (hjk : j ≠ k)
    {w : Nat} (hw : w ≤ 8) :
    t.memWord c ((s.ring c).bdAddr j) w = s.memWord c ((s.ring c).bdAddr j) w ∧
      t.hostWord c ((s.ring c).bdAddr j) w = s.hostWord c ((s.ring c).bdAddr j) w := by
  have hsep := hl.separation_ge
  have hmem : t.memWord c ((s.ring c).bdAddr j) w = s.memWord c ((s.ring c).bdAddr j) w := by
    simp only [State.memWord, State.wordAddr, h.cfg, h.ring]
    refine Memory.readWord_congr _ _ _ _ fun i hi => ?_
    rw [byteAddr_wordOffset]
    exact h.readByte_other hl hj hk hjk (by omega)
  have hne : (s.ring c).bdAddr j ≠ (s.ring c).bdAddr k := fun he =>
    hjk (by rw [← hl.idx_bdAddr hj, he, hl.idx_bdAddr hk])
  exact ⟨hmem, by simp only [State.hostWord, h.cfg, hmem, h.copies _ hne]⟩

/-- The first `m` descriptors are patched, each by its own, in memory and as the host sees them; the host's view of the later
ones and the bytes outside the first `m` are as before. -/
structure CommitsUpTo (c : Channel) (f : Nat → Patch) (m : Nat) (s t : State) : Prop where
  channel : DescriptorsOf c s t
  word : ∀ k < m, ∀ w ≤ 8,
    t.memWord c ((s.ring c).bdAddr k) w = (f k).word w (s.hostWord c ((s.ring c).bdAddr k) w) ∧
      t.hostWord c ((s.ring c).bdAddr k) w = t.memWord c ((s.ring c).bdAddr k) w
  later : ∀ k, m ≤ k → k < (s.ring c).count.toNat → ∀ w ≤ 8,
    t.hostWord c ((s.ring c).bdAddr k) w = s.hostWord c ((s.ring c).bdAddr k) w
  bytes : ∀ b, (∀ k < m, ¬ (s.ring c).OwnByte ((s.ring c).bdAddr k) b) → t.mem.readByte b = s.mem.readByte b

theorem CommitsUpTo.zero (c : Channel) (f : Nat → Patch) (s : State) : CommitsUpTo c f 0 s s :=
  ⟨.refl c s, fun _ hk => absurd hk (Nat.not_lt_zero _), fun _ _ _ _ _ => rfl, fun _ _ => rfl⟩

theorem CommitsUpTo.succ {f : Nat → Patch} {m : Nat} (h : CommitsUpTo c f m s t) (hl : (s.ring c).LaidOut)
    (hm : m < (s.ring c).count.toNat) (hx : Commits c ((s.ring c).bdAddr m) (f m) t u) :
    CommitsUpTo c f (m + 1) s u := by
  have hring := h.channel.frame.ring c
  have hother : ∀ k, k < (s.ring c).count.toNat → k ≠ m → ∀ w ≤ 8,
      u.memWord c ((s.ring c).bdAddr k) w = t.memWord c ((s.ring c).bdAddr k) w ∧
        u.hostWord c ((s.ring c).bdAddr k) w = t.hostWord c ((s.ring c).bdAddr k) w := by
    have hacc := hx.accesses
    rw [← hring] at hl hm hacc ⊢
    exact fun k hk hne w hw => (hacc.mono fun _ => hl.strideByte_of_ownByte).word_other hl hk hm hne hw
  refine ⟨h.channel.trans hx.accesses.channel, fun k hk w hw => ?_, fun k hk hkn w hw => ?_, fun b hb => ?_⟩
  · rcases Nat.lt_or_eq_of_le (Nat.le_of_lt_succ hk) with hlt | rfl
    · obtain ⟨hmem, hhost⟩ := hother k (by omega) hlt.ne w hw
      rw [hmem, hhost]
      exact h.word k hlt w hw
    · rw [hx.inMemory w hw, hx.word w hw, h.later k le_rfl hm w hw]
      exact ⟨rfl, rfl⟩
  · rw [(hother k hkn (by omega) w hw).2]
    exact h.later k (by omega) hkn w hw
  · have hlast := hx.accesses.bytes b (hring ▸ hb m (Nat.lt_succ_self m))
    rw [hlast]
    exact h.bytes b fun k hk => hb k (Nat.lt_succ_of_lt hk)

/-- A loop whose body patches descriptor `k` in round `k`. -/
theorem State.forEach_commits (s : State) (c : Channel) (f : Nat → Patch) {m : Nat} {body : Nat → State → State}
    (hl : (s.ring c).LaidOut) (hm : m ≤ (s.ring c).count.toNat)
    (hbody : ∀ k < m, ∀ t, t.ring c = s.ring c → Commits c ((s.ring c).bdAddr k) (f k) t (body k t)) :
    CommitsUpTo c f m s (State.forEach m body s) :=
  State.forEach_induction (CommitsUpTo c f · s) m body s (.zero c f s) fun k hk t ht =>
    ht.succ hl (by omega) (hbody k hk t (ht.channel.frame.ring c))

end Strides

/-! ## CLONE -/

/-- R155: words 1 to 8 of the template, the completed flag forced on. -/
def clonePatch (t1 t2 t3 t4 t5 t6 t7 t8 : Word) : Patch :=
  (((((((Patch.keep.set 1 t1).set 2 t2).set 3 (t3 ||| flagCmp)).set 4 t4).set 5 t5).set 6 t6).set 7 t7).set 8 t8

theorem clonePatch_word (t0 t1 t2 t3 t4 t5 t6 t7 t8 old : Word) {w : Nat} (hw : w ≤ 8) :
    (clonePatch t1 t2 t3 t4 t5 t6 t7 t8).word w old =
      if w = 0 then old else [t0, t1, t2, t3 ||| 0x10000000, t4, t5, t6, t7, t8].getD w 0 := by
  interval_cases w <;> rfl

theorem State.cloneDescriptor_commits (c : Channel) (t1 t2 t3 t4 t5 t6 t7 t8 : Word) (k : Nat) (s : State) :
    Commits c ((s.ring c).bdAddr k) (clonePatch t1 t2 t3 t4 t5 t6 t7 t8) s
      (State.cloneDescriptor c t1 t2 t3 t4 t5 t6 t7 t8 k s) := by
  have h := Patches.refl c ((s.ring c).bdAddr k) s
  have h3 := ((h.bdWrite (w := 1) (by omega) t1).bdWrite (w := 2) (by omega) t2).bdWrite (w := 3) (by omega)
    (t3 ||| flagCmp)
  have h7 := (((h3.bdWrite (w := 4) (by omega) t4).bdWrite (w := 5) (by omega) t5).bdWrite (w := 6) (by omega)
    t6).bdWrite (w := 7) (by omega) t7
  exact (h7.bdWrite (w := 8) le_rfl t8).flush
    (State.NoCleanCopy.bdWrite_eight (State.noCleanCopy_bdWrite _ c _ (by omega) t7) t8)

theorem execClone_of_fit {s : State} {ch : Channel} (t0 t1 t2 t3 t4 t5 t6 t7 t8 : Word)
    (hfree : (s.ring ch).freeCount = (s.ring ch).count) (hstop : (s.ring ch).runState = .stopped) :
    execClone ch t0 t1 t2 t3 t4 t5 t6 t7 t8 s =
      .next (State.forEach (s.ring ch).count.toNat (State.cloneDescriptor ch t1 t2 t3 t4 t5 t6 t7 t8) s).ok := by
  unfold execClone
  rw [if_neg (not_not.2 hfree), if_neg (by simp [hstop])]

/-- R155: the loop of CLONE, which on a ring that was never created has no round. -/
theorem State.cloneLoop_commits (s : State) (c : Channel) (t1 t2 t3 t4 t5 t6 t7 t8 : Word) (hs : (s.ring c).Sound) :
    CommitsUpTo c (fun _ => clonePatch t1 t2 t3 t4 t5 t6 t7 t8) (s.ring c).count.toNat s
      (State.forEach (s.ring c).count.toNat (State.cloneDescriptor c t1 t2 t3 t4 t5 t6 t7 t8) s) := by
  by_cases hc : (s.ring c).count = 0
  · rw [hc]
    exact .zero c _ s
  · obtain ⟨hl, -⟩ := hs.of_count_ne_zero hc
    exact s.forEach_commits c _ hl le_rfl fun k _ t ht =>
      ht ▸ t.cloneDescriptor_commits c t1 t2 t3 t4 t5 t6 t7 t8 k

/-! ## The response leaves memory and copies -/

@[simp] theorem State.memWord_respond (s : State) (st : Status) (rs : List Word) (c : Channel) (bd : Word) (w : Nat) :
    (s.respond st rs).memWord c bd w = s.memWord c bd w :=
  State.memWord_congr (s.respond_mem st rs) (s.respond_cfg st rs) (s.respond_ring c st rs) bd w

@[simp] theorem State.hostWord_respond (s : State) (st : Status) (rs : List Word) (c : Channel) (bd : Word) (w : Nat) :
    (s.respond st rs).hostWord c bd w = s.hostWord c bd w := by
  simp only [State.hostWord, State.respond_cfg, State.respond_cacheOf, State.memWord_respond]

/-- Settles O14: each round of the loop commits the template to one descriptor. -/
theorem cloneCompletes : Obligations.CloneCompletes := by
  intro s ch t0 t1 t2 t3 t4 t5 t6 t7 t8 hs hfree hstop
  have hloop := s.cloneLoop_commits ch t1 t2 t3 t4 t5 t6 t7 t8 hs
  refine ⟨_, execClone_of_fit t0 t1 t2 t3 t4 t5 t6 t7 t8 hfree hstop, ?_⟩
  generalize State.forEach _ _ s = t at hloop ⊢
  refine ⟨rfl, ?_, ?_, ?_, fun k hk w hw => ?_, fun b hb => ?_⟩
  · rw [State.ok, State.respond_ring, hloop.channel.frame.ring ch]
  · rw [State.ok, State.respond_eng, hloop.channel.frame.eng ch]
  · have hkeep := hloop.channel
    rw [← s.setRing_self ch] at hkeep
    exact hkeep.onlyChannelMemory .ok []
  · obtain ⟨hmem, hhost⟩ := hloop.word k hk w hw
    rw [State.ok, State.memWord_respond, State.hostWord_respond]
    refine ⟨?_, hhost⟩
    rw [hmem, clonePatch_word t0 t1 t2 t3 t4 t5 t6 t7 t8 _ hw]
    split_ifs with h0
    · rw [h0]
    · rfl
  · refine hloop.bytes b fun k hk ⟨i, hi, he⟩ => hb k hk ⟨i, hi, ?_⟩
    rw [State.wordAddr, byteAddr_wordOffset, Nat.mul_zero, Nat.zero_add, he]

end Sys2Proof.Machine
end

section
/-! SUPPORT. CREATE (spec/40_ring_setup.md R150): the region zeroed, in memory or through the cache (assumption 16), then the
descriptors linked one after the other, and the bookkeeping in the spec's terms. -/

namespace Sys2Proof.Machine

/-! ## Zeroed bytes and words -/

theorem Memory.readWord_of_zero_bytes (o : ByteOrder) (m : Memory) (a : Word)
    (h : ∀ i < 4, m.readByte (byteAddr a i) = 0) : m.readWord o a = 0 := by
  have hl : ∀ i < 4, _ := fun i hi => h _ (byteLane_lt o (i := i) hi)
  rw [Memory.readWord, hl 0 (by omega), hl 1 (by omega), hl 2 (by omega), hl 3 (by omega)]
  rfl

/-- A word is 0 where its bytes of the descriptor are. -/
theorem State.memWord_of_zero_bytes (s : State) (c : Channel) (bd : Word) {w : Nat}
    (h : ∀ i < 4, s.mem.readByte (byteAddr ((s.ring c).phys bd) (4 * w + i)) = 0) : s.memWord c bd w = 0 :=
  Memory.readWord_of_zero_bytes _ _ _ fun i hi => by rw [State.wordAddr, byteAddr_wordOffset, h i hi]

/-- The bytes of a stride that R150 zeroes in memory where words 0 to 7 are zeroed through the cache. -/
theorem inRegion_tail (pa : Word) {n i : Nat} (hn : 32 ≤ n) (hlt : n ≤ 2 ^ 32) (hi : i < n) :
    inRegion (pa + 32) (n - 32) (byteAddr pa i) = decide (32 ≤ i) := by
  have hoff : (BitVec.ofNat 32 (byteAddr pa i) - (pa + 32)).toNat = (i + 2 ^ 32 - 32) % 2 ^ 32 := by
    simp only [byteAddr]
    bv_omega
  rw [inRegion, hoff, decide_eq_decide]
  omega

/-- That part of the stride lies in the stride. -/
theorem inRegion_of_tail {pa : Word} {n b : Nat} (hn : 32 ≤ n) (hlt : n ≤ 2 ^ 32)
    (h : inRegion (pa + 32) (n - 32) b = true) : inRegion pa n b = true := by
  simp only [inRegion, decide_eq_true_eq] at h ⊢
  bv_omega

/-- R150: descriptor `k` of the region is 0, padding included; its words as the host sees them. -/
structure State.ZeroAt (s : State) (c : Channel) (k : Nat) : Prop where
  word : ∀ w ≤ 8, s.hostWord c ((s.ring c).bdAddr k) w = 0
  padding : ∀ i, 36 ≤ i → i < (s.ring c).separation.toNat →
    s.mem.readByte (byteAddr ((s.ring c).phys ((s.ring c).bdAddr k)) i) = 0

/-- R150, "Zeroes the entire region": the first `m` descriptors are 0 and no byte outside the region differs. -/
structure ZeroesUpTo (c : Channel) (m : Nat) (s t : State) : Prop where
  channel : DescriptorsOf c s t
  zero : ∀ k < m, t.ZeroAt c k
  bytes : ∀ b, inRegion (s.ring c).firstPhys (s.ring c).length.toNat b = false → t.mem.readByte b = s.mem.readByte b

section Zeroing

variable {s t : State} {c : Channel}

/-- Accesses in another stride leave a descriptor zero. -/
theorem State.ZeroAt.accessesOf {j k : Nat} (h : s.ZeroAt c j) (hl : (s.ring c).LaidOut)
    (hx : AccessesOf c ((s.ring c).bdAddr k) ((s.ring c).StrideByte ((s.ring c).bdAddr k)) s t)
    (hj : j < (s.ring c).count.toNat) (hk : k < (s.ring c).count.toNat) (hjk : j ≠ k) : t.ZeroAt c j where
  word w hw := by
    rw [hx.ring, (hx.word_other hl hj hk hjk hw).2]
    exact h.word w hw
  padding i hi hlt := by
    rw [hx.ring] at hlt ⊢
    rw [hx.readByte_other hl hj hk hjk hlt]
    exact h.padding i hi hlt

/-! ## One descriptor zeroed through the cache -/

/-- R93, R150: words 0 to 7 of a descriptor zeroed through the host's path. -/
def State.zeroWords (s : State) (c : Channel) (bd : Word) : State := State.forEach 8 (fun w t => t.bdWrite c bd w 0) s

/-- R93, R150: the rest of its stride, word 8 and the padding, zeroed in memory. -/
def State.zeroTail (s : State) (c : Channel) (bd : Word) : State :=
  { s with mem := s.mem.zeroRegion ((s.ring c).phys bd + 32) ((s.ring c).separation.toNat - 32) }

variable (s c) (bd : Word)

theorem State.zeroWords_spec :
    AccessesOf c bd ((s.ring c).OwnByte bd) s (s.zeroWords c bd) ∧ ∀ w < 8, (s.zeroWords c bd).hostWord c bd w = 0 := by
  refine State.forEach_induction
    (fun k t => AccessesOf c bd ((s.ring c).OwnByte bd) s t ∧ ∀ w < k, t.hostWord c bd w = 0) 8 _ s
    ⟨.refl c bd _ s, fun _ hw => absurd hw (Nat.not_lt_zero _)⟩ fun k hk t ⟨hacc, hzero⟩ =>
      ⟨hacc.trans (hacc.ring ▸ t.bdWrite_accessesOf c bd (by omega) 0), fun w hw => ?_⟩
  rcases Nat.lt_or_eq_of_le (Nat.le_of_lt_succ hw) with hlt | rfl
  · rw [State.hostWord_bdWrite_other _ _ _ _ (by omega) (by omega) hlt.ne, hzero w hlt]
  · rw [State.hostWord_bdWrite_same]

theorem State.zeroTail_descriptorsOf : DescriptorsOf c s (s.zeroTail c bd) := .of_mem c s _

theorem State.zeroTail_cacheOf : (s.zeroTail c bd).cacheOf c = s.cacheOf c := by cases c <;> rfl

theorem State.readByte_zeroTail (hsep : 36 ≤ (s.ring c).separation.toNat) {i : Nat}
    (hi : i < (s.ring c).separation.toNat) :
    (s.zeroTail c bd).mem.readByte (byteAddr ((s.ring c).phys bd) i) =
      if 32 ≤ i then 0 else s.mem.readByte (byteAddr ((s.ring c).phys bd) i) := by
  have hlt := (s.ring c).separation.isLt
  rw [State.zeroTail, Memory.readByte_zeroRegion, inRegion_tail _ (by omega) (by omega) hi]
  simp only [decide_eq_true_eq]

theorem State.zeroTail_accessesOf (hsep : 36 ≤ (s.ring c).separation.toNat) :
    AccessesOf c bd ((s.ring c).StrideByte bd) s (s.zeroTail c bd) where
  channel := s.zeroTail_descriptorsOf c bd
  copies d _ := by rw [State.zeroTail_cacheOf]
  bytes b hb := by
    rw [State.zeroTail, Memory.readByte_zeroRegion, if_neg fun h => hb (inRegion_of_tail (by omega) (by omega) h)]

/-- R93: word 8 and the padding are zeroed, and what the host sees of words 0 to 7 is kept. -/
theorem State.zeroTail_spec (hsep : 36 ≤ (s.ring c).separation.toNat) :
    (∀ w < 8, (s.zeroTail c bd).hostWord c bd w = s.hostWord c bd w) ∧ (s.zeroTail c bd).hostWord c bd 8 = 0 := by
  have hframe := (s.zeroTail_descriptorsOf c bd).frame
  have hmem : ∀ w < 8, (s.zeroTail c bd).memWord c bd w = s.memWord c bd w := fun w hw => by
    simp only [State.memWord, State.wordAddr, hframe.cfg, hframe.ring c]
    refine Memory.readWord_congr _ _ _ _ fun i hi => ?_
    rw [byteAddr_wordOffset, s.readByte_zeroTail c bd hsep (by omega), if_neg (by omega)]
  refine ⟨fun w hw => ?_, ?_⟩
  · simp only [State.hostWord, hframe.cfg, State.zeroTail_cacheOf, hmem w hw]
  · rw [State.hostWord_eight]
    refine State.memWord_of_zero_bytes _ c bd fun i hi => ?_
    rw [hframe.ring c, s.readByte_zeroTail c bd hsep (by omega), if_pos (by omega)]

/-- R150 with `CACHED`: descriptor `k` zeroed. -/
def State.zeroStride (c : Channel) (k : Nat) (s : State) : State :=
  (s.zeroWords c ((s.ring c).bdAddr k)).zeroTail c ((s.ring c).bdAddr k)

theorem State.zeroStride_spec (k : Nat) (hl : (s.ring c).LaidOut) :
    AccessesOf c ((s.ring c).bdAddr k) ((s.ring c).StrideByte ((s.ring c).bdAddr k)) s (State.zeroStride c k s) ∧
      (State.zeroStride c k s).ZeroAt c k := by
  obtain ⟨hacc, hzero⟩ := s.zeroWords_spec c ((s.ring c).bdAddr k)
  have hring := hacc.ring
  rw [State.zeroStride]
  generalize s.zeroWords c ((s.ring c).bdAddr k) = t at hacc hzero hring ⊢
  rw [← hring] at hl hacc hzero ⊢
  have htail := t.zeroTail_accessesOf c ((t.ring c).bdAddr k) hl.separation_ge
  obtain ⟨hkept, height⟩ := t.zeroTail_spec c ((t.ring c).bdAddr k) hl.separation_ge
  refine ⟨(hacc.mono fun _ => hl.strideByte_of_ownByte).trans htail, fun w hw => ?_, fun i hi hlt => ?_⟩
  · rw [htail.ring]
    rcases Nat.lt_or_eq_of_le hw with hlt | rfl
    · rw [hkept w hlt, hzero w hlt]
    · exact height
  · rw [htail.ring] at hlt ⊢
    rw [t.readByte_zeroTail c _ hl.separation_ge hlt, if_pos (by omega)]

/-! ## The region zeroed -/

variable {s c}

theorem ZeroesUpTo.succ {u : State} {m : Nat} (h : ZeroesUpTo c m s t) (hl : (s.ring c).LaidOut)
    (hm : m < (s.ring c).count.toNat)
    (hx : AccessesOf c ((t.ring c).bdAddr m) ((t.ring c).StrideByte ((t.ring c).bdAddr m)) t u) (hz : u.ZeroAt c m) :
    ZeroesUpTo c (m + 1) s u := by
  have hring := h.channel.frame.ring c
  refine ⟨h.channel.trans hx.channel, fun k hk => ?_, fun b hb => ?_⟩
  · rcases Nat.lt_or_eq_of_le (Nat.le_of_lt_succ hk) with hlt | rfl
    · exact (h.zero k hlt).accessesOf (hring ▸ hl) hx (by rw [hring]; omega) (hring ▸ hm) hlt.ne
    · exact hz
  · rw [hx.bytes b fun hin => ?_, h.bytes b hb]
    rw [hring] at hin
    simp [hl.inRegion_of_strideByte hm hin] at hb

/-- With `CACHED` false the region is zeroed in memory. -/
theorem State.zeroRing_of_uncached (hc : s.cfg.cached = false) (hl : (s.ring c).LaidOut) :
    ZeroesUpTo c (s.ring c).count.toNat s (s.zeroRing c) := by
  have he : s.zeroRing c = { s with mem := s.mem.zeroRegion (s.ring c).firstPhys (s.ring c).length.toNat } := by
    simp [State.zeroRing, hc]
  have hsep := hl.separation_ge
  have hchan : DescriptorsOf c s (s.zeroRing c) := he ▸ .of_mem c s _
  have hbyte : ∀ k < (s.ring c).count.toNat, ∀ i < (s.ring c).separation.toNat,
      (s.zeroRing c).mem.readByte (byteAddr ((s.ring c).phys ((s.ring c).bdAddr k)) i) = 0 := fun k hk i hi => by
    rw [he, Memory.readByte_zeroRegion, if_pos (hl.inRegion_byteAddr hk hi)]
  refine ⟨hchan, fun k hk => ⟨fun w hw => ?_, fun i _ hi => ?_⟩, fun b hb => ?_⟩
  · rw [State.hostWord_of_direct (by simp [hchan.frame.cfg, hc])]
    refine State.memWord_of_zero_bytes _ c _ fun i hi => ?_
    rw [hchan.frame.ring c]
    exact hbyte k hk _ (by omega)
  · rw [hchan.frame.ring c] at hi ⊢
    exact hbyte k hk i hi
  · rw [he, Memory.readByte_zeroRegion, hb]
    rfl

/-- With `CACHED` true the descriptors are zeroed one after another. -/
theorem State.zeroRing_of_cached (hc : s.cfg.cached = true) (hl : (s.ring c).LaidOut) :
    ZeroesUpTo c (s.ring c).count.toNat s (s.zeroRing c) := by
  rw [show s.zeroRing c = State.forEach (s.ring c).count.toNat _ s from if_pos hc]
  refine State.forEach_induction (ZeroesUpTo c · s) _ _ s
    ⟨.refl c s, fun _ hk => absurd hk (Nat.not_lt_zero _), fun _ _ => rfl⟩ fun k hk t ht => ?_
  have hring := ht.channel.frame.ring c
  obtain ⟨hacc, hz⟩ := t.zeroStride_spec c k (hring.symm ▸ hl)
  have hnext := ht.succ hl hk hacc hz
  rw [State.zeroStride, State.zeroTail, (t.zeroWords_spec c _).1.ring, hring] at hnext
  exact hnext

theorem State.zeroRing_zeroes (s : State) (c : Channel) (hl : (s.ring c).LaidOut) :
    ZeroesUpTo c (s.ring c).count.toNat s (s.zeroRing c) := by
  cases hc : s.cfg.cached with
  | false => exact State.zeroRing_of_uncached hc hl
  | true => exact State.zeroRing_of_cached hc hl

end Zeroing

/-! ## The descriptors linked -/

/-- R150, C4: `next` and the completed flag for descriptor `k`, `next` alone for the last one. -/
def Ring.createPatch (r : Ring) (k : Nat) : Patch :=
  if k + 1 < r.count.toNat then
    (Patch.keep.set 0 (r.firstPhys + BitVec.ofNat 32 (k + 1) * r.separation)).set 3 flagCmp
  else Patch.keep.set 0 r.firstPhys

theorem Ring.createPatch_word_zero (r : Ring) (k w : Nat) :
    (r.createPatch k).word w 0 =
      if w = 0 then
        (if k + 1 < r.count.toNat then r.firstPhys + BitVec.ofNat 32 (k + 1) * r.separation else r.firstPhys)
      else if w = 3 then (if k + 1 < r.count.toNat then 0x10000000 else 0)
      else 0 := by
  unfold Ring.createPatch
  by_cases hk : k + 1 < r.count.toNat
  · rw [if_pos hk, if_pos hk, if_pos hk, Patch.word_set, Patch.word_set, Patch.word_keep]
    by_cases h0 : w = 0
    · rw [if_neg (by omega), if_pos h0, if_pos h0]
    · rw [if_neg h0, if_neg h0]
      rfl
  · rw [if_neg hk, if_neg hk, if_neg hk, Patch.word_set, Patch.word_keep, ite_self]

theorem State.initDescriptor_commits (s : State) (c : Channel) {k : Nat} (hk : k + 1 < (s.ring c).count.toNat) :
    Commits c ((s.ring c).bdAddr k) ((s.ring c).createPatch k) s (State.initDescriptor c k s) := by
  rw [Ring.createPatch, if_pos hk]
  exact (((Patches.refl c ((s.ring c).bdAddr k) s).bdWrite (w := 0) (by omega) _).bdWrite (w := 3) (by omega) _).flush
    (State.noCleanCopy_bdWrite _ c _ (by omega) _)

theorem State.initLastDescriptor_commits (s : State) (c : Channel) (hl : (s.ring c).LaidOut) :
    Commits c ((s.ring c).bdAddr ((s.ring c).count.toNat - 1)) ((s.ring c).createPatch ((s.ring c).count.toNat - 1)) s
      (s.initLastDescriptor c) := by
  rw [Ring.createPatch, if_neg (by omega), State.initLastDescriptor, hl.lastVirt_eq]
  exact ((Patches.refl c _ s).bdWrite (w := 0) (by omega) _).flush (State.noCleanCopy_bdWrite _ c _ (by omega) _)

/-- The loop of CREATE and its last part. -/
theorem State.init_commits (s : State) (c : Channel) (hl : (s.ring c).LaidOut) :
    CommitsUpTo c (s.ring c).createPatch (s.ring c).count.toNat s
      ((State.forEach ((s.ring c).count.toNat - 1) (State.initDescriptor c) s).initLastDescriptor c) := by
  have hpos := hl.count_pos
  have hloop := s.forEach_commits c (s.ring c).createPatch hl (Nat.sub_le _ 1) (body := State.initDescriptor c)
    fun k hk t ht => ht ▸ t.initDescriptor_commits c (by rw [ht]; omega)
  have hring := hloop.channel.frame.ring c
  have hlast := State.initLastDescriptor_commits _ c (hring.symm ▸ hl)
  rw [hring] at hlast
  have hall := hloop.succ hl (by omega) hlast
  rwa [Nat.sub_add_cancel hpos] at hall

/-! ## What CREATE leaves -/

/-- R150: what the zeroing and the links of CREATE make of the region of a ring just laid out. -/
structure LinksRegion (c : Channel) (s t : State) : Prop where
  channel : DescriptorsOf c s t
  word : ∀ k < (s.ring c).count.toNat, ∀ w ≤ 8,
    t.memWord c ((s.ring c).bdAddr k) w = ((s.ring c).createPatch k).word w 0 ∧
      t.hostWord c ((s.ring c).bdAddr k) w = t.memWord c ((s.ring c).bdAddr k) w
  padding : ∀ k < (s.ring c).count.toNat, ∀ i, 36 ≤ i → i < (s.ring c).separation.toNat →
    t.mem.readByte (byteAddr ((s.ring c).phys ((s.ring c).bdAddr k)) i) = 0
  bytes : ∀ b, inRegion (s.ring c).firstPhys (s.ring c).length.toNat b = false → t.mem.readByte b = s.mem.readByte b

theorem ZeroesUpTo.linksRegion {c : Channel} {s t u : State} (h : ZeroesUpTo c (s.ring c).count.toNat s t)
    (hl : (s.ring c).LaidOut) (k : CommitsUpTo c (s.ring c).createPatch (s.ring c).count.toNat t u) :
    LinksRegion c s u := by
  have hring := h.channel.frame.ring c
  have hword := k.word
  have hbytes := k.bytes
  rw [hring] at hword hbytes
  refine ⟨h.channel.trans k.channel, fun j hj w hw => ?_, fun j hj i hi hlt => ?_, fun b hb => ?_⟩
  · have hzero := (h.zero j hj).word w hw
    rw [hring] at hzero
    rw [← hzero]
    exact hword j hj w hw
  · have hzero := (h.zero j hj).padding i hi
    rw [hring] at hzero
    rw [hbytes _ fun j' hj' hown => ?_, hzero hlt]
    obtain ⟨i', hi', he⟩ := hown
    have hsep := hl.separation_ge
    obtain ⟨-, rfl⟩ := hl.byteAddr_inj hj hj' hlt (by omega) he
    omega
  · rw [hbytes b fun j hj hown => ?_, h.bytes b hb]
    simp [hl.inRegion_of_strideByte hj (hl.strideByte_of_ownByte hown)] at hb

theorem State.createRing_linksRegion (s : State) (c : Channel) (p v a n : Word)
    (hl : ((s.ring c).created p v a n).LaidOut) :
    LinksRegion c (s.setRing c ((s.ring c).created p v a n)) (s.createRing c p v a n) := by
  have hring := s.setRing_ring_same c ((s.ring c).created p v a n)
  have hn : ((s.ring c).created p v a n).count = n := rfl
  unfold State.createRing
  rw [← hring] at hl hn
  generalize s.setRing c ((s.ring c).created p v a n) = t at hl hn ⊢
  have hzero := t.zeroRing_zeroes c hl
  have hring' := hzero.channel.frame.ring c
  have hinit := (t.zeroRing c).init_commits c (hring'.symm ▸ hl)
  rw [hring', hn] at hinit
  rw [← hn] at hinit ⊢
  exact hzero.linksRegion hl hinit

/-- R150 in the spec's own terms: the bookkeeping of a CREATE. -/
theorem Ring.created_eq (r : Ring) (p v a : Word) {n : Word} (hn : n ≠ 0) :
    r.created p v a n =
      { count := n, separation := BitVec.ofNat 32 (strideOf a), length := BitVec.ofNat 33 (strideOf a * n.toNat)
        firstPhys := p, firstVirt := v
        lastPhys := p + (n - 1) * BitVec.ofNat 32 (strideOf a)
        lastVirt := v + (n - 1) * BitVec.ofNat 32 (strideOf a)
        freeHead := v, preHead := v, hwHead := v, postHead := v
        freeCount := n, preCount := 0, hwCount := 0, postCount := 0
        hwTail := v, restart := p, runState := .stopped, irqMask := r.irqMask, isRx := r.isRx } := by
  have hlast : BitVec.ofNat 32 ((n.toNat - 1) * strideOf a) = (n - 1) * BitVec.ofNat 32 (strideOf a) := by
    have hpred : BitVec.ofNat 32 (n.toNat - 1) = n - 1 := by bv_omega
    rw [BitVec.ofNat_mul, hpred]
  rw [Ring.created, separationFor_eq_strideOf, hlast]

theorem Ring.created_bdAddr (r : Ring) (p v a n : Word) (k : Nat) :
    (r.created p v a n).bdAddr k = v + BitVec.ofNat 32 (k * strideOf a) := by
  rw [BitVec.ofNat_mul, ← separationFor_eq_strideOf]
  rfl

theorem Ring.created_link (r : Ring) (p v a n : Word) (k : Nat) :
    (r.created p v a n).firstPhys + BitVec.ofNat 32 k * (r.created p v a n).separation =
      p + BitVec.ofNat 32 (k * strideOf a) := by
  rw [BitVec.ofNat_mul, ← separationFor_eq_strideOf]
  rfl

theorem Ring.created_phys_bdAddr (r : Ring) (p v a n : Word) (k : Nat) :
    (r.created p v a n).phys (v + BitVec.ofNat 32 (k * strideOf a)) = p + BitVec.ofNat 32 (k * strideOf a) := by
  rw [← r.created_bdAddr p v a n, Ring.phys_bdAddr, Ring.created_link]

/-- Settles O10: the bookkeeping is CREATE's own, and its loops reach descriptors only. -/
theorem createBookkeeping : Obligations.CreateBookkeeping := by
  intro s ch p v al n hc h
  have hl := Ring.laidOut_created hc h
  have hlinks := s.createRing_linksRegion ch p v al n hl
  refine ⟨_, execCreate_of_accepts h, rfl, ?_⟩
  rw [State.ok, State.respond_ring, s.createRing_ring ch p v al n, State.respond_eng, hlinks.channel.frame.eng ch,
    State.setRing_eng]
  exact ⟨(s.ring ch).created_eq p v al h.count_pos, hl, Ring.partitioned_created hl, rfl,
    hlinks.channel.onlyChannelMemory .ok []⟩

/-- Settles O11: the region is zeroed, then each descriptor is linked and flushed. -/
theorem createMemory : Obligations.CreateMemory := by
  intro s ch p v al n hc h
  have hl := Ring.laidOut_created hc h
  obtain ⟨-, hword, hpad, hbytes⟩ := s.createRing_linksRegion ch p v al n hl
  have hsep := (s.ring ch).created_separation p v al n
  have hlen := h.created_length
  simp only [State.setRing_ring_same, State.setRing_mem, hsep, hlen, Ring.created_bdAddr, Ring.created_phys_bdAddr]
    at hword hpad hbytes
  refine ⟨_, execCreate_of_accepts h, fun k hk w hw => ?_, hpad, hbytes⟩
  obtain ⟨hmem, hhost⟩ := hword k hk w hw
  rw [State.ok, State.memWord_respond, State.hostWord_respond]
  refine ⟨?_, hhost⟩
  rw [hmem, Ring.createPatch_word_zero, Ring.created_link]
  rfl

end Sys2Proof.Machine
end

section
/-! SUPPORT. ALLOC, UNALLOC and FREE (spec/41_ownership.md R170, R173, R174, R186): the cursors by their indices, the
counts without wrapping, and the count and sequence checks of the ownership commands (R176, R177). -/

namespace Sys2Proof.Machine

/-! ## The cursors and the counts of a sound ring -/

section Sound

variable {r : Ring} {n : Word}

/-- R45: the four groups make up the ring, of no descriptor where it was never created. -/
theorem Ring.Sound.count_sum (h : r.Sound) :
    r.freeCount.toNat + r.preCount.toNat + r.hwCount.toNat + r.postCount.toNat = r.count.toNat := by
  rcases h with hu | ⟨-, hp⟩
  · rw [hu.freeCount_eq, hu.preCount_eq, hu.hwCount_eq, hu.postCount_eq, hu.count_eq]
    rfl
  · exact hp.count_sum

/-- Every head of a ring that was never created is its descriptor 0. -/
theorem Ring.Uncreated.bdAddr_idx_heads (h : r.Uncreated) :
    r.bdAddr ((r.idx r.freeHead + 0) % r.count.toNat) = r.freeHead ∧
      r.bdAddr ((r.idx r.postHead + 0) % r.count.toNat) = r.postHead := by
  rw [h]
  simp [Ring.bdAddr, Ring.idx, Ring.powerOn]

/-- R170: the closed form of ALLOC's cursor. -/
theorem Ring.Sound.adv_freeHead (h : r.Sound) (hn : n ≤ r.freeCount) :
    r.adv r.freeHead n.toNat = r.bdAddr ((r.idx r.freeHead + n.toNat) % r.count.toNat) := by
  have hsum := h.count_sum
  have hle := BitVec.le_def.1 hn
  rcases h with hu | ⟨hl, hp⟩
  · rw [eq_zero_of_le hu.freeCount_eq hn]
    exact hu.heads.1.trans hu.bdAddr_idx_heads.1.symm
  · exact hl.adv_eq hp.freeHead_isBd (by omega)

/-- R173: the closed form of UNALLOC's cursor. -/
theorem Ring.Sound.ret_freeHead (h : r.Sound) (hn : n ≤ r.preCount) :
    r.ret r.freeHead n.toNat = r.bdAddr ((r.idx r.freeHead + r.count.toNat - n.toNat) % r.count.toNat) := by
  have hsum := h.count_sum
  have hle := BitVec.le_def.1 hn
  rcases h with hu | ⟨hl, hp⟩
  · have hidx := hu.bdAddr_idx_heads.1
    rw [hu.count_eq] at hidx ⊢
    rw [eq_zero_of_le hu.preCount_eq hn]
    exact hu.heads.2.1.trans hidx.symm
  · exact hl.ret_eq hp.freeHead_isBd (by omega)

/-- R186: the closed form of FREE's cursor. -/
theorem Ring.Sound.adv_postHead (h : r.Sound) (hn : n ≤ r.postCount) :
    r.adv r.postHead n.toNat = r.bdAddr ((r.idx r.postHead + n.toNat) % r.count.toNat) := by
  have hsum := h.count_sum
  have hle := BitVec.le_def.1 hn
  rcases h with hu | ⟨hl, hp⟩
  · rw [eq_zero_of_le hu.postCount_eq hn]
    exact hu.heads.2.2.trans hu.bdAddr_idx_heads.2.symm
  · exact hl.adv_eq hp.postHead_isBd (by omega)

/-- R174: going `n` forward from `free_head` and back is going nowhere. -/
theorem Ring.Sound.ret_adv_freeHead (h : r.Sound) (hn : n ≤ r.freeCount) :
    r.ret (r.adv r.freeHead n.toNat) n.toNat = r.freeHead := by
  have hsum := h.count_sum
  have hle := BitVec.le_def.1 hn
  rcases h with hu | ⟨hl, hp⟩
  · obtain ⟨hadv, hret, -⟩ := hu.heads
    rw [eq_zero_of_le hu.freeCount_eq hn]
    exact (congrArg (r.ret · 0) hadv).trans hret
  · rw [hl.ret_adv hp.freeHead_isBd le_rfl (by omega), Nat.sub_self, hl.adv_zero hp.freeHead_isBd]

/-- R174: UNALLOC of what ALLOC took restores the bookkeeping. -/
theorem Ring.Sound.unallocated_allocated (h : r.Sound) (hn : n ≤ r.freeCount) :
    (r.allocated n).unallocated n = r := by
  have hhead : (r.allocated n).ret (r.allocated n).freeHead n.toNat = r.freeHead := h.ret_adv_freeHead hn
  rw [Ring.unallocated, hhead]
  simp only [Ring.allocated, BitVec.sub_add_cancel, BitVec.add_sub_cancel]

end Sound

/-! ## The commands -/

section Commands

variable {s : State} {ch : Channel} {n : Word}

theorem execAlloc_of_le (hn : n ≤ (s.ring ch).freeCount) :
    execAlloc ch n s = .next ((s.setRing ch ((s.ring ch).allocated n)).respond .ok [(s.ring ch).freeHead]) :=
  if_neg (BitVec.not_lt.2 hn)

theorem execUnalloc_of_le (set : Word) (hn : n ≤ (s.ring ch).preCount) :
    execUnalloc ch n set s = .next (s.setRing ch ((s.ring ch).unallocated n)).ok :=
  if_neg (BitVec.not_lt.2 hn)

theorem execFree_of_le (hz : n ≠ 0) (hn : n ≤ (s.ring ch).postCount) :
    execFree ch n (s.ring ch).postHead s = .next (s.setRing ch ((s.ring ch).freed n)).ok := by
  unfold execFree
  rw [if_neg hz, if_neg (not_or.2 ⟨not_not.2 rfl, BitVec.not_lt.2 hn⟩)]
  rfl

/-- A command that sets the bookkeeping and answers changes nothing else. -/
theorem onlyRing_setRing_respond (s : State) (c : Channel) (r : Ring) (st : Status) (rs : List Word) :
    OnlyRing c s ((s.setRing c r).respond st rs) := by
  rw [OnlyRing, State.respond_ring, State.setRing_ring_same]
  rfl

/-- Settles O21: each check stands before the command's first change. -/
theorem ownershipFailures : Obligations.OwnershipFailures := by
  refine ⟨fun s ch n hn => ?_, fun s ch n set hn => ?_, fun s ch n set hz hseq => ?_, fun s ch n set hz hseq => ?_⟩
  · exact if_pos hn
  · exact if_pos hn
  · exact (if_neg hz).trans (if_pos hseq)
  · exact (if_neg hz).trans (if_pos hseq)

/-- Settles O20: the cursor in closed form, and counts that do not wrap, as the groups make up the ring (R45). -/
theorem freeCompletes : Obligations.FreeCompletes := by
  refine ⟨fun s ch set => rfl, fun s ch n hs hz hn => ?_⟩
  have hsum := hs.count_sum
  have hcount := (s.ring ch).count.isLt
  refine ⟨_, execFree_of_le hz hn, rfl, onlyRing_setRing_respond _ _ _ _ _, ?_⟩
  rw [State.ok, State.respond_ring, State.setRing_ring_same, ← hs.adv_postHead hn]
  exact ⟨rfl, (toNat_moved hn (by omega)).2⟩

/-- Settles O15: the cursor's closed form on a created ring, and 0 descriptors on one that was never created. -/
theorem allocUnallocComplete : Obligations.AllocUnallocComplete := by
  constructor
  · intro s ch n hs hn
    have hsum := hs.count_sum
    have hcount := (s.ring ch).count.isLt
    refine ⟨_, execAlloc_of_le hn, rfl, onlyRing_setRing_respond _ _ _ _ _, ?_⟩
    rw [State.respond_ring, State.setRing_ring_same, ← hs.adv_freeHead hn]
    exact ⟨rfl, (toNat_moved hn (by omega)).2⟩
  · intro s ch n set hs hn
    have hsum := hs.count_sum
    have hcount := (s.ring ch).count.isLt
    refine ⟨_, execUnalloc_of_le set hn, rfl, onlyRing_setRing_respond _ _ _ _ _, ?_⟩
    rw [State.ok, State.respond_ring, State.setRing_ring_same, ← hs.ret_freeHead hn]
    exact ⟨rfl, (toNat_moved hn (by omega)).2⟩

/-- Settles O16: after the ALLOC the Pre-process group holds what the UNALLOC takes. -/
theorem allocUnallocInverse : Obligations.AllocUnallocInverse := by
  intro s ch n hs hn
  have hsum := hs.count_sum
  have hcount := (s.ring ch).count.isLt
  have hpre : n ≤ ((s.ring ch).allocated n).preCount := by
    have hadd : ((s.ring ch).preCount + n).toNat = _ := (toNat_moved hn (by omega)).2
    exact BitVec.le_def.2 (hadd ▸ Nat.le_add_left _ _)
  refine ⟨_, _, (s.ring ch).freeHead, execAlloc_of_le hn, rfl, execUnalloc_of_le (s.ring ch).freeHead ?_, rfl, ?_⟩
  · rwa [State.respond_ring, State.setRing_ring_same]
  · rw [State.ok, State.respond_ring, State.setRing_ring_same, State.respond_ring, State.setRing_ring_same,
      hs.unallocated_allocated hn]

end Commands

end Sys2Proof.Machine
end

section
/-! SUPPORT. Reads of descriptor words on one channel (spec/20_memory.md R88, R93, R96), which leave descriptor memory
alone, and what a command changes that reaches descriptors and then sets the bookkeeping and the channel's registers. -/

namespace Sys2Proof.Machine

/-! ## Reads -/

theorem DescriptorsOf.putLine {c : Channel} {s : State} (hc : s.cfg.cached = true) (l : CacheLine) :
    DescriptorsOf c s (s.putLine c l) := .setCache hc _


/-- Nothing differs but channel `c`'s copies and the count of draws, and with `CACHED` false nothing. -/
structure ReadsOf (c : Channel) (s t : State) : Prop where
  channel : DescriptorsOf c s t
  mem : t.mem = s.mem

section ReadsOf

variable {s t u : State} {c : Channel}

theorem ReadsOf.refl (c : Channel) (s : State) : ReadsOf c s s := ⟨.refl c s, rfl⟩

theorem ReadsOf.trans (h : ReadsOf c s t) (k : ReadsOf c t u) : ReadsOf c s u :=
  ⟨h.channel.trans k.channel, k.mem.trans h.mem⟩

theorem ReadsOf.cfg (h : ReadsOf c s t) : t.cfg = s.cfg := h.channel.frame.cfg

theorem ReadsOf.ring (h : ReadsOf c s t) : t.ring c = s.ring c := h.channel.frame.ring c

theorem ReadsOf.memWord (h : ReadsOf c s t) (bd : Word) (w : Nat) : t.memWord c bd w = s.memWord c bd w :=
  State.memWord_congr h.mem h.cfg h.ring bd w

theorem State.bdRead_readsOf (s : State) (c : Channel) (bd : Word) (w : Nat) : ReadsOf c s (s.bdRead c bd w).2 := by
  refine ⟨?_, s.bdRead_mem c bd w⟩
  unfold State.bdRead
  split_ifs with hc
  · have hdraw : DescriptorsOf c s s.drawBool.2 := .drawBool (Bool.and_eq_true_iff.1 hc).1
    split
    · exact .refl c s
    · simp only
      split_ifs
      · exact hdraw.trans (.putLine (s := s.drawBool.2) (Bool.and_eq_true_iff.1 hc).1 _)
      · exact hdraw
  · exact .refl c s

theorem State.invalidate_readsOf (s : State) (c : Channel) (bd : Word) : ReadsOf c s (s.invalidate c bd) := by
  refine ⟨?_, s.invalidate_mem c bd⟩
  unfold State.invalidate
  split_ifs with hc
  · exact .setCache hc _
  · exact .refl c s

end ReadsOf

/-! ## The frames of the commands -/

section Frames

variable {s t : State} {c : Channel}

/-- What a command changes that reaches descriptors and then sets the bookkeeping and the channel's registers. -/
theorem DescriptorsOf.onlyChannelMemory_updates (h : DescriptorsOf c s t) (r : Ring) (e : EngineChannel) (st : Status)
    (rs : List Word) : OnlyChannelMemory c s (((t.setRing c r).setEng c e).respond st rs) := by
  obtain ⟨hframe, hothers, hkept⟩ := h
  constructor
  · cases c with
    | tx =>
      rw [hframe, show t.rxCache = s.rxCache from hothers .rx (by decide)]
      rfl
    | rx =>
      rw [hframe, show t.txCache = s.txCache from hothers .tx (by decide)]
      rfl
  · intro hc
    simpa using hkept hc

/-- Where memory is as before, too. -/
theorem OnlyChannelMemory.onlyChannel (h : OnlyChannelMemory c s t) (hmem : t.mem = s.mem) : OnlyChannel c s t := by
  obtain ⟨heq, hkept⟩ := h
  refine ⟨heq.trans ?_, hkept⟩
  rw [hmem]
  cases c <;> rfl

/-- A command that only reads descriptors. -/
theorem ReadsOf.onlyCopies (h : ReadsOf c s t) (st : Status) (rs : List Word) : OnlyCopies c s (t.respond st rs) := by
  obtain ⟨heq, hkept⟩ :=
    (h.channel.onlyChannelMemory_updates (t.ring c) (t.eng c) st rs).onlyChannel (by simpa using h.mem)
  rw [State.setRing_self, State.setEng_self] at heq hkept
  refine ⟨heq.trans ?_, hkept⟩
  rw [State.respond_ring, State.respond_eng, h.ring, h.channel.frame.eng c, State.setRing_self, State.setEng_self]

end Frames

end Sys2Proof.Machine
end

section
/-! SUPPORT. TO_HW (spec/41_ownership.md R176, R178): the walk submits one descriptor after the other, each written
through the host's path and flushed, and stops at the first that packet validation turns away; a submission that is
whole is committed to the bookkeeping and, on a Started channel, to the engine (spec/45_engine_agent.md R262). -/

namespace Sys2Proof.Machine

theorem hasFlag_eq_false_iff (v m : Word) : hasFlag v m = false ↔ v &&& m = 0 := by simp [hasFlag]

/-! ## The bytes of one word -/

/-- R83: a byte of a word in memory, told by the word. -/
theorem Memory.wordByte_readWord (o : ByteOrder) (m : Memory) (a : Word) {i : Nat} (hi : i < 4) :
    wordByte (m.readWord o a) i = m.readByte (byteAddr a (byteLane o i)) := by
  simp only [wordByte, Memory.readWord]
  interval_cases i
  · exact BitVec.extractLsb'_append_eq_right
  · exact (BitVec.extractLsb'_append_eq_of_le (by omega)).trans BitVec.extractLsb'_append_eq_right
  · exact (BitVec.extractLsb'_append_eq_of_le (by omega)).trans
      ((BitVec.extractLsb'_append_eq_of_le (by omega)).trans BitVec.extractLsb'_append_eq_right)
  · exact (BitVec.extractLsb'_append_eq_of_le (by omega)).trans
      ((BitVec.extractLsb'_append_eq_of_le (by omega)).trans BitVec.extractLsb'_append_eq_left)

theorem byteLane_byteLane (o : ByteOrder) {i : Nat} (hi : i < 4) : byteLane o (byteLane o i) = i := by
  cases o
  · rfl
  · exact Nat.sub_sub_self (by omega)

/-- A word that reads as before has its four bytes as before. -/
theorem Memory.readByte_of_readWord {o : ByteOrder} {m m' : Memory} {a : Word} (h : m'.readWord o a = m.readWord o a)
    {i : Nat} (hi : i < 4) : m'.readByte (byteAddr a i) = m.readByte (byteAddr a i) := by
  have hlane := byteLane_lt o hi
  have hbyte := Memory.wordByte_readWord o m a hlane
  rwa [← h, Memory.wordByte_readWord o m' a hlane, byteLane_byteLane o hi] at hbyte

/-! ## One descriptor -/

section Submit

variable {s t u : State} {c : Channel} {bd : Word}

/-- R176 lines 8 to 10 and 15 to 17: new words for a descriptor that is submitted. -/
def State.submitPatch (s : State) (c : Channel) (sts : Word) : Patch :=
  if (s.ring c).isRx then (Patch.keep.set 3 (clearForSubmit sts)).set s.cfg.wdogWord s.cfg.wdogSentinel
  else Patch.keep.set 3 (clearForSubmit sts)

theorem wdogWord_bounds {cfg : Cfg} (h : cfg.wf = true) : 4 ≤ cfg.wdogWord ∧ cfg.wdogWord ≤ 7 := by
  obtain ⟨-, hw, -⟩ := (cfg_wf_iff cfg).1 h
  exact hw

theorem State.submitDescriptor_commits (s : State) (c : Channel) (bd sts : Word) (hc : s.cfg.wf = true) :
    Commits c bd (s.submitPatch c sts) s (s.submitDescriptor c bd sts) := by
  obtain ⟨-, hw⟩ := wdogWord_bounds hc
  have hst := (Patches.refl c bd s).bdWrite (w := 3) (by omega) (clearForSubmit sts)
  have hframe := s.bdWrite_frame c bd 3 (clearForSubmit sts)
  simp only [State.submitDescriptor, State.submitPatch, hframe.ring c, hframe.cfg]
  split_ifs
  · exact (hst.bdWrite (by omega) _).flush (State.noCleanCopy_bdWrite _ c bd (by omega) _)
  · exact hst.flush (s.noCleanCopy_bdWrite c bd (by omega) _)

/-- R176: the patch with the status word the host sees makes the words of a submitted descriptor. -/
theorem State.submitPatch_word (s : State) (c : Channel) (bd : Word) (hc : s.cfg.wf = true) (w : Nat) :
    (s.submitPatch c (s.hostWord c bd 3)).word w (s.hostWord c bd w) = s.submittedWord c bd w := by
  obtain ⟨hge, -⟩ := wdogWord_bounds hc
  unfold State.submitPatch State.submittedWord
  by_cases hrx : (s.ring c).isRx = true
  · rw [if_pos hrx, Patch.word_set, Patch.word_set, Patch.word_keep]
    by_cases h3 : w = 3
    · rw [if_neg (by omega), if_pos h3, if_pos h3]
      rfl
    · simp only [h3, hrx, if_false, true_and]
  · rw [if_neg hrx, Patch.word_set, Patch.word_keep]
    simp only [hrx, Bool.false_eq_true, false_and, if_false]
    rfl

/-- R93: word 8 is no part of a submission. -/
theorem State.submitPatch_word_eight (s : State) (c : Channel) (sts old : Word) (hc : s.cfg.wf = true) :
    (s.submitPatch c sts).word 8 old = old := by
  obtain ⟨-, hle⟩ := wdogWord_bounds hc
  unfold State.submitPatch
  split_ifs
  · rw [Patch.word_set, if_neg (by omega), Patch.word_set, if_neg (by omega), Patch.word_keep]
  · rw [Patch.word_set, if_neg (by omega), Patch.word_keep]

/-- R93: byte `b` of memory is one of the words 0 to 7 of the descriptor, those that a copy holds. -/
def State.CopiedByte (s : State) (c : Channel) (bd : Word) (b : Nat) : Prop :=
  ∃ i < 32, b = byteAddr (s.wordAddr c bd 0) i

/-- Accesses to descriptor `bd` that submit it: its words 0 to 7 are those of a submitted descriptor, in memory and as
the host sees them, and its word 8 is as before. -/
structure Submits (c : Channel) (bd : Word) (s t : State) : Prop where
  accesses : AccessesOf c bd (s.CopiedByte c bd) s t
  word : ∀ w < 8, t.memWord c bd w = s.submittedWord c bd w ∧ t.hostWord c bd w = s.submittedWord c bd w
  wordEight : t.hostWord c bd 8 = s.hostWord c bd 8

/-- Accesses that keep word 8 keep its bytes. -/
theorem AccessesOf.copiedBytes (h : AccessesOf c bd ((s.ring c).OwnByte bd) s t)
    (h8 : t.memWord c bd 8 = s.memWord c bd 8) : AccessesOf c bd (s.CopiedByte c bd) s t where
  channel := h.channel
  copies := h.copies
  bytes b hb := by
    by_cases hown : (s.ring c).OwnByte bd b
    · obtain ⟨i, hi, rfl⟩ := hown
      have hge : 32 ≤ i := by
        by_contra hlt
        refine hb ⟨i, by omega, ?_⟩
        rw [State.wordAddr, byteAddr_wordOffset, Nat.mul_zero, Nat.zero_add]
      simp only [State.memWord, State.wordAddr, h.cfg, h.ring] at h8
      have hbyte := Memory.readByte_of_readWord h8 (show i - 32 < 4 by omega)
      rwa [byteAddr_wordOffset, Nat.add_sub_cancel' hge] at hbyte
    · exact h.bytes b hown

/-- R176: a descriptor submitted with the status word the host sees. -/
theorem State.submitDescriptor_submits (s : State) (c : Channel) (bd : Word) (hc : s.cfg.wf = true) :
    Submits c bd s (s.submitDescriptor c bd (s.hostWord c bd 3)) := by
  have hx := s.submitDescriptor_commits c bd (s.hostWord c bd 3) hc
  have h8 := hx.word 8 le_rfl
  rw [s.submitPatch_word_eight c _ _ hc] at h8
  refine ⟨hx.accesses.copiedBytes ?_, fun w hw => ?_, h8⟩
  · rw [hx.inMemory 8 le_rfl, h8, State.hostWord_eight]
  · rw [hx.inMemory w hw.le, hx.word w hw.le, s.submitPatch_word c bd hc w]
    exact ⟨rfl, rfl⟩

/-- The other descriptors of a laid-out ring are as before. -/
theorem Submits.word_other (h : Submits c bd s t) (hl : (s.ring c).LaidOut) (hbd : (s.ring c).isBd bd = true) {d : Word}
    (hd : (s.ring c).isBd d = true) (hne : d ≠ bd) {w : Nat} (hw : w ≤ 8) :
    t.memWord c d w = s.memWord c d w ∧ t.hostWord c d w = s.hostWord c d w := by
  obtain ⟨k, hk, rfl⟩ := (hl.isBd_iff bd).1 hbd
  obtain ⟨j, hj, rfl⟩ := (hl.isBd_iff d).1 hd
  refine (h.accesses.mono fun b hb => hl.strideByte_of_ownByte ?_).word_other hl hj hk (fun he => hne (by rw [he])) hw
  obtain ⟨i, hi, rfl⟩ := hb
  refine ⟨i, by omega, ?_⟩
  rw [State.wordAddr, byteAddr_wordOffset, Nat.mul_zero, Nat.zero_add]

end Submit

/-! ## Descriptor after descriptor -/


/-- Different distances inside the ring lead to different descriptors. -/
theorem Ring.LaidOut.adv_ne {r : Ring} (h : r.LaidOut) {a : Word} (ha : r.isBd a = true) {j k : Nat}
    (hj : j < r.count.toNat) (hk : k < r.count.toNat) (hjk : j ≠ k) : r.adv a j ≠ r.adv a k := fun he => by
  have hmod : ∀ i, (r.idx a + i) % r.count.toNat < r.count.toNat := fun i => Nat.mod_lt _ h.count_pos
  rw [h.adv_eq ha hj.le, h.adv_eq ha hk.le] at he
  have hidx : r.idx a + j ≡ r.idx a + k [MOD r.count.toNat] := by
    rw [Nat.ModEq, ← h.idx_bdAddr (hmod j), he, h.idx_bdAddr (hmod k)]
  exact hjk ((Nat.ModEq.add_left_cancel' _ hidx).eq_of_lt_of_lt hj hk)

/-- The first `k` descriptors from `set` are submitted, and nothing else differs but copies and draws. -/
structure SubmitsUpTo (c : Channel) (set : Word) (k : Nat) (s t : State) : Prop where
  channel : DescriptorsOf c s t
  submitted : SubmittedPrefix c set k s t

section Prefix

variable {s t u : State} {c : Channel} {set : Word} {k : Nat}

theorem SubmitsUpTo.zero (c : Channel) (set : Word) (s : State) : SubmitsUpTo c set 0 s s :=
  ⟨.refl c s, fun _ hj => absurd hj (Nat.not_lt_zero _), fun _ _ _ _ _ => rfl, fun _ _ => rfl⟩

/-- Which descriptors are submitted is told by memory and the host's view. -/
theorem SubmittedPrefix.of_same_words (h : SubmittedPrefix c set k s t) (hmem : u.mem = t.mem)
    (hwords : ∀ bd w, u.memWord c bd w = t.memWord c bd w) (hhost : ∀ bd w, u.hostWord c bd w = t.hostWord c bd w) :
    SubmittedPrefix c set k s u := by
  simpa only [SubmittedPrefix, hmem, hwords, hhost] using h

theorem SubmittedPrefix.respond (h : SubmittedPrefix c set k s t) (st : Status) (rs : List Word) :
    SubmittedPrefix c set k s (t.respond st rs) :=
  h.of_same_words (t.respond_mem st rs) (t.memWord_respond st rs c) (t.hostWord_respond st rs c)

/-- R88: a read of a descriptor changes nothing that anyone sees. -/
theorem SubmitsUpTo.bdRead (h : SubmitsUpTo c set k s t) (bd : Word) (w : Nat) :
    SubmitsUpTo c set k s (t.bdRead c bd w).2 := by
  have hread := t.bdRead_readsOf c bd w
  exact ⟨h.channel.trans hread.channel,
    h.submitted.of_same_words hread.mem hread.memWord (t.bdRead_hostWord c bd w).2⟩

section Ring

variable (hc : s.cfg.wf = true) (hl : (s.ring c).LaidOut) (hset : (s.ring c).isBd set = true)
include hl hset

/-- The host sees the descriptors after the first `k` as before. -/
theorem SubmitsUpTo.hostWord_current (h : SubmitsUpTo c set k s t) (hk : k < (s.ring c).count.toNat) {w : Nat}
    (hw : w ≤ 8) : t.hostWord c ((s.ring c).adv set k) w = s.hostWord c ((s.ring c).adv set k) w := by
  obtain ⟨-, -, hother, -⟩ := h
  exact hother _ w (hl.isBd_adv hset hk.le) hw (.inr fun j hj => hl.adv_ne hset hk (by omega) (by omega))

include hc

/-- R176: the next descriptor submitted. -/
theorem SubmitsUpTo.submit (h : SubmitsUpTo c set k s t) (hk : k < (s.ring c).count.toNat) :
    SubmitsUpTo c set (k + 1) s
      (t.submitDescriptor c ((s.ring c).adv set k) (s.hostWord c ((s.ring c).adv set k) 3)) := by
  have hcur : ∀ w ≤ 8, _ := fun w hw => h.hostWord_current hl hset hk hw
  obtain ⟨hchannel, hword, hother, hbytes⟩ := h
  have hring := hchannel.frame.ring c
  have hcfg := hchannel.frame.cfg
  have hx := t.submitDescriptor_submits c ((s.ring c).adv set k) (hcfg ▸ hc)
  rw [hcur 3 (by omega)] at hx
  have hkeep : ∀ d, (s.ring c).isBd d = true → d ≠ (s.ring c).adv set k → ∀ w ≤ 8, _ := fun d hd hne w hw =>
    hx.word_other (hring ▸ hl) (hring ▸ hl.isBd_adv hset hk.le) (hring ▸ hd) hne hw
  refine ⟨hchannel.trans hx.accesses.channel, fun j hj w hw => ?_, fun d w hd hw hdw => ?_, fun b hb => ?_⟩
  · rcases Nat.lt_or_eq_of_le (Nat.le_of_lt_succ hj) with hlt | rfl
    · obtain ⟨hmem, hhost⟩ := hkeep _ (hl.isBd_adv hset (by omega)) (hl.adv_ne hset (by omega) hk hlt.ne) w hw.le
      rw [hmem, hhost]
      exact hword j hlt w hw
    · have hsub : t.submittedWord c ((s.ring c).adv set j) w = s.submittedWord c ((s.ring c).adv set j) w := by
        simp only [State.submittedWord, hring, hcfg, hcur 3 (by omega), hcur w hw.le]
      exact hsub ▸ hx.word w hw
  · by_cases hd' : d = (s.ring c).adv set k
    · have hw8 : w = 8 := hdw.resolve_right fun hne => hne k (Nat.lt_succ_self k) hd'
      subst hd' hw8
      exact hx.wordEight.trans (hcur 8 le_rfl)
    · rw [(hkeep d hd hd' w hw).2]
      exact hother d w hd hw (hdw.imp_right fun hne j hj => hne j (Nat.lt_succ_of_lt hj))
  · refine (hx.accesses.bytes b ?_).trans (hbytes b fun j hj => hb j (Nat.lt_succ_of_lt hj))
    rw [State.CopiedByte, State.wordAddr, hring]
    exact hb k (Nat.lt_succ_self k)

/-! ## The walk -/

/-- R176 lines 6 to 13: a descriptor with a length that is not the last is submitted, and the walk goes on. -/
theorem toHwWalk_succ (h : SubmitsUpTo c set k s t) (m : Nat) (hk : k + 1 < (s.ring c).count.toNat)
    (hlen : s.hostWord c ((s.ring c).adv set k) 2 ≠ 0) :
    ∃ u, SubmitsUpTo c set (k + 1) s u ∧
      toHwWalk c (m + 1) ((s.ring c).adv set k) (s.hostWord c ((s.ring c).adv set k) 3) t =
        toHwWalk c m ((s.ring c).adv set (k + 1)) (s.hostWord c ((s.ring c).adv set (k + 1)) 3) u := by
  have hsub := (h.bdRead ((s.ring c).adv set k) 2).submit hc hl hset (by omega)
  refine ⟨_, hsub.bdRead ((s.ring c).adv set (k + 1)) 3, ?_⟩
  have hnxt : (s.ring c).nxt ((s.ring c).adv set k) = (s.ring c).adv set (k + 1) := hl.adv_adv hset (by omega)
  simp only [toHwWalk]
  rw [(t.bdRead_hostWord c _ 2).1, h.hostWord_current hl hset (by omega) (by omega), if_neg hlen,
    hsub.channel.frame.ring c, hnxt, (State.bdRead_hostWord _ c _ 3).1, hsub.hostWord_current hl hset hk (by omega)]

/-- The walk over descriptors that have a length, none of them the last. -/
theorem toHwWalk_reaches (m : Nat) (hm : m < (s.ring c).count.toNat) (ht : SubmitsUpTo c set 0 s t) {j : Nat}
    (hj : j ≤ m) (hlen : s.LengthsSet c set j) :
    ∃ u, SubmitsUpTo c set j s u ∧
      toHwWalk c m set (s.hostWord c set 3) t =
        toHwWalk c (m - j) ((s.ring c).adv set j) (s.hostWord c ((s.ring c).adv set j) 3) u := by
  induction j with
  | zero => exact ⟨t, ht, by rw [hl.adv_zero hset, Nat.sub_zero]⟩
  | succ j ih =>
    obtain ⟨u, hu, hwalk⟩ := ih (by omega) fun i hi => hlen i (Nat.lt_succ_of_lt hi)
    obtain ⟨v, hv, hnext⟩ := toHwWalk_succ hc hl hset hu (m - (j + 1)) (by omega) (hlen j (Nat.lt_succ_self j))
    refine ⟨v, hv, ?_⟩
    rw [hwalk, ← hnext, show m - (j + 1) + 1 = m - j by omega]

/-- R176 lines 14 to 17: the last descriptor, with a length and the end of the packet. -/
theorem toHwWalk_last (h : SubmitsUpTo c set k s t) (hk : k < (s.ring c).count.toNat)
    (heop : s.hostWord c ((s.ring c).adv set k) 3 &&& 0x04000000 ≠ 0)
    (hlen : s.hostWord c ((s.ring c).adv set k) 2 ≠ 0) :
    ∃ u, SubmitsUpTo c set (k + 1) s u ∧
      toHwWalk c 0 ((s.ring c).adv set k) (s.hostWord c ((s.ring c).adv set k) 3) t =
        ⟨.ok, (s.ring c).adv set k, u⟩ := by
  refine ⟨_, (h.bdRead ((s.ring c).adv set k) 2).submit hc hl hset hk, ?_⟩
  simp only [toHwWalk]
  rw [if_neg ((hasFlag_eq_false_iff _ flagEop).not.2 heop), (t.bdRead_hostWord c _ 2).1,
    h.hostWord_current hl hset hk (by omega), if_neg hlen]

omit hc in
/-- R176, R178: where packet validation stops the walk. -/
theorem toHwWalk_stops (h : SubmitsUpTo c set k s t) (hk : k < (s.ring c).count.toNat) (m : Nat)
    (hbad : if m = 0 then
        s.hostWord c ((s.ring c).adv set k) 3 &&& 0x04000000 = 0 ∨ s.hostWord c ((s.ring c).adv set k) 2 = 0
      else s.hostWord c ((s.ring c).adv set k) 2 = 0) :
    ∃ u, SubmitsUpTo c set k s u ∧
      toHwWalk c m ((s.ring c).adv set k) (s.hostWord c ((s.ring c).adv set k) 3) t =
        ⟨if m = 0 ∧ s.hostWord c ((s.ring c).adv set k) 3 &&& 0x04000000 = 0 then .noEop else .zeroLen,
          (s.ring c).adv set k, u⟩ := by
  have hread := h.bdRead ((s.ring c).adv set k) 2
  have hlen : (t.bdRead c ((s.ring c).adv set k) 2).1 = _ :=
    (t.bdRead_hostWord c _ 2).1.trans (h.hostWord_current hl hset hk (by omega))
  cases m with
  | zero =>
    by_cases heop : s.hostWord c ((s.ring c).adv set k) 3 &&& 0x04000000 = 0
    · refine ⟨t, h, ?_⟩
      rw [toHwWalk, if_pos ((hasFlag_eq_false_iff _ flagEop).2 heop), if_pos ⟨rfl, heop⟩]
    · refine ⟨_, hread, ?_⟩
      simp only [toHwWalk]
      rw [if_neg ((hasFlag_eq_false_iff _ flagEop).not.2 heop), hlen,
        if_pos (hbad.resolve_left heop), if_neg (fun h => heop h.2)]
  | succ m =>
    refine ⟨_, hread, ?_⟩
    simp only [toHwWalk]
    rw [hlen, if_pos (show _ = (0 : Word) from hbad), if_neg (fun h => absurd h.1 (Nat.succ_ne_zero m))]

end Ring

end Prefix

/-! ## The command -/

section Command

variable {s : State} {ch : Channel} {n : Word}

/-- R176 lines 4 and 5: without `SOP` on the first descriptor. -/
theorem execToHw_of_noSop (hz : n ≠ 0) (hn : n ≤ (s.ring ch).preCount)
    (hsop : s.hostWord ch (s.ring ch).preHead 3 &&& 0x08000000 = 0) :
    execToHw ch n (s.ring ch).preHead s = .next ((s.bdRead ch (s.ring ch).preHead 3).2.respond .noSop []) := by
  simp only [execToHw]
  rw [if_neg hz, if_neg (not_or.2 ⟨not_not.2 rfl, BitVec.not_lt.2 hn⟩), (s.bdRead_hostWord ch _ 3).1,
    if_pos ((hasFlag_eq_false_iff _ flagSop).2 hsop)]
  rfl

/-- R176: with it, what the walk ends with decides. -/
theorem execToHw_of_walk (hz : n ≠ 0) (hn : n ≤ (s.ring ch).preCount)
    (hsop : s.hostWord ch (s.ring ch).preHead 3 &&& 0x08000000 ≠ 0) {w : Walk}
    (hw : toHwWalk ch (n.toNat - 1) (s.ring ch).preHead (s.hostWord ch (s.ring ch).preHead 3)
      (s.bdRead ch (s.ring ch).preHead 3).2 = w) :
    execToHw ch n (s.ring ch).preHead s =
      if w.status = .ok then .next (w.state.commitSubmission ch n w.cur).ok
      else .next (w.state.respond w.status []) := by
  simp only [execToHw]
  rw [if_neg hz, if_neg (not_or.2 ⟨not_not.2 rfl, BitVec.not_lt.2 hn⟩), (s.bdRead_hostWord ch _ 3).1,
    if_neg ((hasFlag_eq_false_iff _ flagSop).not.2 hsop), hw]
  rfl

/-- R262: the write of the tail pointer. -/
theorem State.writeTdesc_eq_kicked (s : State) (c : Channel) (v : Word) :
    s.writeTdesc c v = s.setEng c (kicked s.dmacr s.resetting (s.eng c) v) := by
  simp only [State.writeTdesc, kicked, tailPtrEnIn, Bool.and_eq_true, Bool.not_eq_true', beq_iff_eq, and_assoc]
  split_ifs <;> rfl

/-- The channel's registers after a submission that ends on descriptor `cur`. -/
def State.engSubmitted (s : State) (c : Channel) (cur : Word) : EngineChannel :=
  if (s.ring c).runState = .started then kicked s.dmacr s.resetting (s.eng c) ((s.ring c).phys cur) else s.eng c

/-- R176 lines 18 to 23. -/
theorem State.commitSubmission_eq (s : State) (c : Channel) (n cur : Word) :
    s.commitSubmission c n cur = (s.setRing c ((s.ring c).submitted n cur)).setEng c (s.engSubmitted c cur) := by
  have hsplit : s.commitSubmission c n cur =
      if (s.ring c).runState = .started then
        (s.setRing c ((s.ring c).submitted n cur)).writeTdesc c ((s.ring c).phys cur)
      else s.setRing c ((s.ring c).submitted n cur) := rfl
  rw [hsplit, State.engSubmitted]
  split_ifs
  · rw [State.writeTdesc_eq_kicked, State.setRing_dmacr, State.setRing_resetting, State.setRing_eng]
  · rw [← State.setRing_eng s c c ((s.ring c).submitted n cur), State.setEng_self]

/-- A word in memory is told by memory, the configuration and the ring's translation of addresses. -/
theorem State.memWord_of_phys {s t : State} {c : Channel} (hmem : t.mem = s.mem) (hcfg : t.cfg = s.cfg)
    (hphys : (t.ring c).phys = (s.ring c).phys) (bd : Word) (w : Nat) : t.memWord c bd w = s.memWord c bd w := by
  simp only [State.memWord, State.wordAddr, hmem, hcfg, hphys]

/-! Neither memory nor the host's view reads the cursors and counts. -/

theorem State.commitSubmission_mem (s : State) (c : Channel) (n cur : Word) :
    (s.commitSubmission c n cur).mem = s.mem := by
  rw [State.commitSubmission_eq, State.setEng_mem, State.setRing_mem]

theorem State.memWord_commitSubmission (s : State) (c : Channel) (n cur bd : Word) (w : Nat) :
    (s.commitSubmission c n cur).memWord c bd w = s.memWord c bd w := by
  refine State.memWord_of_phys (s.commitSubmission_mem c n cur) ?_ ?_ bd w
  · rw [State.commitSubmission_eq, State.setEng_cfg, State.setRing_cfg]
  · rw [State.commitSubmission_eq, State.setEng_ring, State.setRing_ring_same]
    rfl

theorem State.hostWord_commitSubmission (s : State) (c : Channel) (n cur bd : Word) (w : Nat) :
    (s.commitSubmission c n cur).hostWord c bd w = s.hostWord c bd w := by
  simp only [State.hostWord, State.memWord_commitSubmission]
  simp only [State.commitSubmission_eq, State.setEng_cfg, State.setRing_cfg, State.setEng_cacheOf,
    State.setRing_cacheOf]

theorem SubmittedPrefix.commitSubmission {t : State} {set : Word} {k : Nat} (h : SubmittedPrefix ch set k s t)
    (cur : Word) : SubmittedPrefix ch set k s (t.commitSubmission ch n cur) :=
  h.of_same_words (t.commitSubmission_mem ch n cur) (t.memWord_commitSubmission ch n cur)
    (t.hostWord_commitSubmission ch n cur)

/-- Settles O17: the walk reaches the last descriptor, submits it, and the submission is committed. -/
theorem toHwCompletes : Obligations.ToHwCompletes := by
  refine ⟨fun s ch set => rfl, fun s ch n hc hs hz hn hsop hlen heop => ?_⟩
  obtain ⟨hl, hp⟩ := hs.resolve_left fun hu => hz (eq_zero_of_le hu.preCount_eq hn)
  have hsum := hp.count_sum
  have hle := BitVec.le_def.1 hn
  have hpos : n.toNat - 1 + 1 = n.toNat := Nat.sub_add_cancel (by bv_omega)
  obtain ⟨u, hu, hwalk⟩ := toHwWalk_reaches hc hl hp.preHead_isBd (n.toNat - 1) (by omega)
    ((SubmitsUpTo.zero ch _ s).bdRead (s.ring ch).preHead 3) le_rfl fun j hj => hlen j (by omega)
  obtain ⟨v, hv, hlast⟩ := toHwWalk_last hc hl hp.preHead_isBd hu (by omega) heop (hlen _ (by omega))
  rw [hpos] at hv
  rw [Nat.sub_self, hlast] at hwalk
  have hframe := hv.channel.frame
  refine ⟨_, (execToHw_of_walk hz hn hsop hwalk).trans (if_pos rfl), rfl, ?_, ?_,
    (hv.submitted.commitSubmission _).respond _ _, ?_⟩
  · rw [State.ok, State.respond_ring, State.commitSubmission_eq, State.setEng_ring, State.setRing_ring_same,
      hframe.ring ch]
    rfl
  · rw [State.ok, State.respond_eng, State.commitSubmission_eq, State.setEng_eng_same, State.engSubmitted,
      hframe.ring ch, hframe.dmacr, hframe.resetting, hframe.eng ch]
  · rw [State.commitSubmission_eq]
    exact hv.channel.onlyChannelMemory_updates _ _ .ok []

/-- Settles O18: without `SOP` only a read is made; otherwise the walk reaches descriptor `j` and stops there. -/
theorem toHwValidationFailures : Obligations.ToHwValidationFailures := by
  constructor
  · intro s ch n hz hn hsop
    refine ⟨_, execToHw_of_noSop hz hn hsop, rfl, (s.bdRead_readsOf ch _ 3).onlyCopies _ _, fun bd w => ?_⟩
    rw [State.hostWord_respond, (s.bdRead_hostWord ch _ 3).2]
  · intro s ch n j hc hs hz hn hsop hj hlen hbad
    obtain ⟨hl, hp⟩ := hs.resolve_left fun hu => hz (eq_zero_of_le hu.preCount_eq hn)
    have hsum := hp.count_sum
    have hle := BitVec.le_def.1 hn
    have hlast : j + 1 = n.toNat ↔ n.toNat - 1 - j = 0 := by omega
    simp only [hlast] at hbad ⊢
    obtain ⟨u, hu, hwalk⟩ := toHwWalk_reaches hc hl hp.preHead_isBd (n.toNat - 1) (by omega)
      ((SubmitsUpTo.zero ch _ s).bdRead (s.ring ch).preHead 3) (by omega) hlen
    obtain ⟨v, hv, hstop⟩ := toHwWalk_stops hl hp.preHead_isBd hu (by omega) _ hbad
    rw [hstop] at hwalk
    have hframe := hv.channel.frame
    refine ⟨_, (execToHw_of_walk hz hn hsop hwalk).trans (if_neg ?_), ?_, ?_, ?_, ?_, ?_⟩
    · split_ifs <;> decide
    · rw [State.respond_response]
      split_ifs <;> rfl
    · rw [State.respond_ring, hframe.ring ch]
    · rw [State.respond_eng, hframe.eng ch]
    · exact hv.submitted.respond _ _
    · have hkeep := hv.channel.onlyChannelMemory_updates (v.ring ch) (v.eng ch)
      rw [State.setRing_self, State.setEng_self] at hkeep
      exact hkeep _ _

end Command

end Sys2Proof.Machine
end

section
/-! SUPPORT. FROM_HW (spec/41_ownership.md R180, R181): the walk reads descriptor memory past the copies, counts the
completed descriptors at the front of the Hardware group and how many of the last of them belong to a packet that is
not whole. -/

namespace Sys2Proof.Machine

/-! ## One descriptor -/

section Round

variable {s t : State} {c : Channel}

/-- R180 line 8: the length of the packet that is not whole, after descriptor `bd`. -/
def State.partialAfter (s : State) (c : Channel) (bd : Word) (part : Nat) : Nat :=
  if s.memWord c bd 3 &&& 0x04000000 = 0 then part + 1 else 0

/-- R96, R180 line 4: after the invalidation a read answers the word of memory. -/
theorem State.invalidate_bdRead (s : State) (c : Channel) (bd : Word) (w : Nat) :
    ((s.invalidate c bd).bdRead c bd w).1 = s.memWord c bd w ∧
      ∀ k, ((s.invalidate c bd).bdRead c bd w).2.hostWord c bd k = s.memWord c bd k := by
  obtain ⟨hword, hhost⟩ := (s.invalidate c bd).bdRead_hostWord c bd w
  exact ⟨hword.trans (s.hostWord_invalidate c bd w), fun k => (hhost bd k).trans (s.hostWord_invalidate c bd k)⟩

/-- R180 lines 4 to 12: one turn of the walk, by the words in descriptor memory. -/
theorem fromHwWalk_round (h : ReadsOf c s t) (m : Nat) (cur : Word) (cnt part : Nat) :
    ∃ u, ReadsOf c s u ∧
      (¬ s.completed c cur ∧ fromHwWalk c (m + 1) cur cnt part t = ⟨cnt, part, u⟩ ∨
        s.completed c cur ∧ fromHwWalk c (m + 1) cur cnt part t =
          if cur = (s.ring c).hwTail then ⟨cnt + 1, s.partialAfter c cur part, u⟩
          else fromHwWalk c m ((s.ring c).nxt cur) (cnt + 1) (s.partialAfter c cur part) u) := by
  obtain ⟨hword, hhost⟩ := t.invalidate_bdRead c cur 3
  have hread := (h.trans (t.invalidate_readsOf c cur)).trans (State.bdRead_readsOf _ c cur 3)
  simp only [h.memWord] at hword hhost
  have hpart : (if hasFlag (s.memWord c cur 3) flagEop then 0 else part + 1) = s.partialAfter c cur part := by
    simp only [State.partialAfter, ← hasFlag_eq_false_iff, ← Bool.not_eq_true, ite_not]
    rfl
  simp only [fromHwWalk]
  generalize (t.invalidate c cur).bdRead c cur 3 = st at hword hhost hread ⊢
  rw [hword, hread.ring, hread.cfg]
  by_cases hcmp : s.memWord c cur 3 &&& 0x10000000 = 0
  · exact ⟨st.2, hread, .inl ⟨fun hdone => hdone.1 hcmp, if_pos ((hasFlag_eq_false_iff _ flagCmp).2 hcmp)⟩⟩
  rw [if_neg ((hasFlag_eq_false_iff _ flagCmp).not.2 hcmp), hpart]
  by_cases hrx : (s.ring c).isRx = true
  · have hwdog := hread.trans (st.2.bdRead_readsOf c cur s.cfg.wdogWord)
    refine ⟨_, hwdog, ?_⟩
    rw [if_pos hrx, (st.2.bdRead_hostWord c cur s.cfg.wdogWord).1, hhost, hrx, Bool.true_and, hwdog.ring]
    by_cases hsent : s.memWord c cur s.cfg.wdogWord = s.cfg.wdogSentinel
    · exact .inl ⟨fun hdone => hdone.2 hrx hsent, if_pos (beq_iff_eq.2 hsent)⟩
    · exact .inr ⟨⟨hcmp, fun _ => hsent⟩, if_neg (by rwa [beq_iff_eq])⟩
  · refine ⟨st.2, hread, .inr ⟨⟨hcmp, fun h => absurd h hrx⟩, ?_⟩⟩
    rw [if_neg hrx, if_neg (by simp [hrx]), hread.ring]

end Round

/-! ## The walk -/

/-- R180: what the walk knows after `q` descriptors of the Hardware group: all are completed, the last `p` of them end
no packet, and the one before those ends one. -/
structure State.Scanned (s : State) (c : Channel) (q p : Nat) : Prop where
  completed : ∀ k < q, s.completed c ((s.ring c).adv (s.ring c).hwHead k)
  partial_le : p ≤ q
  no_end : ∀ k, q - p ≤ k → k < q → s.memWord c ((s.ring c).adv (s.ring c).hwHead k) 3 &&& 0x04000000 = 0
  last_end : 0 < q - p → s.memWord c ((s.ring c).adv (s.ring c).hwHead (q - p - 1)) 3 &&& 0x04000000 ≠ 0

/-- The same where the walk ends: at `limit`, at the end of the group, or before a descriptor that is not completed. -/
structure State.ScanEnds (s : State) (c : Channel) (limit q p : Nat) : Prop extends s.Scanned c q p where
  le_limit : q ≤ limit
  le_hwCount : q ≤ (s.ring c).hwCount.toNat
  ends : q = limit ∨ q = (s.ring c).hwCount.toNat ∨ ¬ s.completed c ((s.ring c).adv (s.ring c).hwHead q)

/-- R181: `cnt` is the length of the longest run of whole completed packets at the front of the Hardware group, within
`limit`. -/
structure State.LongestRun (s : State) (c : Channel) (limit cnt : Nat) : Prop where
  le_limit : cnt ≤ limit
  le_hwCount : cnt ≤ (s.ring c).hwCount.toNat
  completed : ∀ k < cnt, s.completed c ((s.ring c).adv (s.ring c).hwHead k)
  last_end : 0 < cnt → s.memWord c ((s.ring c).adv (s.ring c).hwHead (cnt - 1)) 3 &&& 0x04000000 ≠ 0
  longest : ∀ m, 0 < m → m ≤ limit → m ≤ (s.ring c).hwCount.toNat →
    (∀ k < m, s.completed c ((s.ring c).adv (s.ring c).hwHead k)) →
    s.memWord c ((s.ring c).adv (s.ring c).hwHead (m - 1)) 3 &&& 0x04000000 ≠ 0 → m ≤ cnt

section Scan

variable {s t : State} {c : Channel} {q p : Nat}

theorem State.Scanned.zero (s : State) (c : Channel) : s.Scanned c 0 0 :=
  ⟨fun _ h => absurd h (Nat.not_lt_zero _), le_rfl, fun _ _ h => absurd h (Nat.not_lt_zero _),
    fun h => absurd h (lt_irrefl 0)⟩

theorem State.Scanned.succ (h : s.Scanned c q p) (hdone : s.completed c ((s.ring c).adv (s.ring c).hwHead q)) :
    s.Scanned c (q + 1) (s.partialAfter c ((s.ring c).adv (s.ring c).hwHead q) p) := by
  obtain ⟨hcomp, hle, hno, hend⟩ := h
  have hcomp' : ∀ k < q + 1, s.completed c ((s.ring c).adv (s.ring c).hwHead k) := fun k hk => by
    rcases Nat.lt_or_eq_of_le (Nat.le_of_lt_succ hk) with hlt | rfl
    · exact hcomp k hlt
    · exact hdone
  unfold State.partialAfter
  split_ifs with heop
  · refine ⟨hcomp', by omega, fun k hge hk => ?_, ?_⟩
    · rcases Nat.lt_or_eq_of_le (Nat.le_of_lt_succ hk) with hlt | rfl
      · exact hno k (by omega) hlt
      · exact heop
    · rwa [Nat.add_sub_add_right]
  · exact ⟨hcomp', Nat.zero_le _, fun k hge hk => absurd hk (by omega), fun _ => heop⟩

/-- R181: the whole packets of what was counted are the longest run. -/
theorem State.ScanEnds.longestRun {limit : Nat} (h : s.ScanEnds c limit q p) : s.LongestRun c limit (q - p) where
  le_limit := (Nat.sub_le _ _).trans h.le_limit
  le_hwCount := (Nat.sub_le _ _).trans h.le_hwCount
  completed k hk := h.completed k (by omega)
  last_end := h.last_end
  longest m hpos hlimit hhw hcomp heop := by
    have hq : m ≤ q := by
      by_contra hlt
      rcases h.ends with he | he | hstop
      · omega
      · omega
      · exact hstop (hcomp q (by omega))
    by_contra hgt
    exact heop (h.no_end (m - 1) (by omega) (by omega))

/-- R180: the walk from the `q`-th descriptor of the group on. -/
theorem fromHwWalk_scans (hl : (s.ring c).LaidOut) (hp : (s.ring c).Partitioned) (m : Nat) (h : ReadsOf c s t)
    (hscan : s.Scanned c q p) (hq : q < (s.ring c).hwCount.toNat) :
    ∃ q' p' u, fromHwWalk c m ((s.ring c).adv (s.ring c).hwHead q) q p t = ⟨q', p', u⟩ ∧ ReadsOf c s u ∧
      s.ScanEnds c (q + m) q' p' := by
  have hsum := hp.count_sum
  induction m generalizing q p t with
  | zero => exact ⟨q, p, t, rfl, h, hscan, le_rfl, hq.le, .inl rfl⟩
  | succ m ih =>
    obtain ⟨u, hu, ⟨hnot, hwalk⟩ | ⟨hdone, hwalk⟩⟩ :=
      fromHwWalk_round h m ((s.ring c).adv (s.ring c).hwHead q) q p
    · exact ⟨q, p, u, hwalk, hu, hscan, Nat.le_add_right _ _, hq.le, .inr (.inr hnot)⟩
    have hnext := hscan.succ hdone
    by_cases hlast : q + 1 = (s.ring c).hwCount.toNat
    · have htail : (s.ring c).adv (s.ring c).hwHead q = (s.ring c).hwTail := by
        rw [hp.tail_is_last (by omega), ← hlast, Nat.add_sub_cancel]
      rw [if_pos htail] at hwalk
      exact ⟨_, _, u, hwalk, hu, hnext, by omega, hlast.le, .inr (.inl hlast)⟩
    · have htail : (s.ring c).adv (s.ring c).hwHead q ≠ (s.ring c).hwTail := by
        rw [hp.tail_is_last (by omega)]
        exact hl.adv_ne hp.hwHead_isBd (by omega) (by omega) (by omega)
      rw [if_neg htail, Ring.nxt, hl.adv_adv hp.hwHead_isBd (by omega)] at hwalk
      obtain ⟨q', p', v, hrest, hv, hends⟩ := ih hu hnext (by omega)
      exact ⟨q', p', v, hwalk.trans hrest, hv, by rwa [Nat.add_right_comm, Nat.add_assoc] at hends⟩

end Scan

/-! ## The command -/

section Command

variable {s : State} {ch : Channel}

/-- R180: a harvest of nothing leaves the bookkeeping. -/
theorem Ring.Sound.harvested_zero {r : Ring} (h : r.Sound) : r.harvested 0 = r := by
  have hhead : r.adv r.hwHead 0 = r.hwHead := by
    rcases h with hu | ⟨hl, hp⟩
    · rw [hu]
      rfl
    · exact hl.adv_zero hp.hwHead_isBd
  rw [Ring.harvested, hhead]
  simp

/-- R181: an empty group has an empty run. -/
theorem State.LongestRun.of_empty (limit : Nat) (h : (s.ring ch).hwCount = 0) : s.LongestRun ch limit 0 := by
  refine ⟨Nat.zero_le _, Nat.zero_le _, fun _ hk => absurd hk (Nat.not_lt_zero _), fun h => absurd h (lt_irrefl 0), ?_⟩
  intro m _ _ hm _ _
  rwa [h] at hm

/-- R180: the answer and the bookkeeping of FROM_HW, whether it returns descriptors or none. -/
theorem execFromHw_harvests (hs : (s.ring ch).Sound) (limit : Word) :
    ∃ u cnt, ReadsOf ch s u ∧ s.LongestRun ch limit.toNat cnt ∧
      execFromHw ch limit s = .next ((u.setRing ch ((s.ring ch).harvested cnt)).respond .ok
        [BitVec.ofNat 32 cnt, if cnt = 0 then 0 else (s.ring ch).hwHead]) := by
  have hnone : ∀ u, ReadsOf ch s u → u.setRing ch ((s.ring ch).harvested 0) = u := fun u hu => by
    rw [hs.harvested_zero, ← hu.ring, State.setRing_self]
  by_cases hz : (s.ring ch).hwCount = 0
  · refine ⟨s, 0, .refl ch s, .of_empty _ hz, ?_⟩
    rw [hnone s (.refl ch s)]
    exact if_pos hz
  obtain ⟨hl, hp⟩ := hs.resolve_left fun hu => hz hu.hwCount_eq
  obtain ⟨q, p, u, hwalk, hu, hends⟩ :=
    fromHwWalk_scans hl hp limit.toNat (.refl ch s) (.zero s ch) (show 0 < _ by bv_omega)
  rw [hl.adv_zero hp.hwHead_isBd] at hwalk
  rw [Nat.zero_add] at hends
  refine ⟨u, q - p, hu, hends.longestRun, ?_⟩
  simp only [execFromHw]
  rw [if_neg hz, hwalk]
  by_cases hcnt : q - p = 0
  · rw [hcnt, hnone u hu]
    rfl
  · rw [if_neg hcnt, if_neg hcnt]
    rfl

end Command

/-- Settles O19: the whole packets of what the walk counted are the longest run. -/
theorem fromHwHarvestsWholePackets : Obligations.FromHwHarvestsWholePackets := by
  intro s ch limit _ hs
  obtain ⟨u, cnt, hu, ⟨hlimit, hhw, hcomp, hend, hlongest⟩, hexec⟩ := execFromHw_harvests hs limit
  have hkeep := hu.channel.onlyChannelMemory_updates ((s.ring ch).harvested cnt) (u.eng ch)
  rw [← State.setRing_eng u ch ch ((s.ring ch).harvested cnt), State.setEng_self] at hkeep
  refine ⟨_, cnt, hexec, rfl, hlimit, hhw, hcomp, hend, hlongest, ?_, ?_, (hkeep _ _).onlyChannel ?_⟩
  · rw [State.respond_ring, State.setRing_ring_same]
    rfl
  · rw [State.respond_eng, State.setRing_eng, hu.channel.frame.eng ch]
  · rw [State.respond_mem, State.setRing_mem, hu.mem]

end Sys2Proof.Machine
end

section
/-! SUPPORT. START (spec/42_engine_control.md R200): the restart pointer written (spec/45_engine_agent.md R263), the tail kicked
where unharvested work is not complete (R262), and the channel Started. -/

namespace Sys2Proof.Machine

/-! ## The writes of the channel's registers -/

/-- R263: a channel after a write of `CDESC`. -/
def EngineChannel.cdescWritten (e : EngineChannel) (v : Word) : EngineChannel :=
  if e.engState = .run then e else { e with cdesc := v }

theorem State.regWrite_cdesc_eq (s : State) (c : Channel) (v : Word) :
    s.regWrite (.cdesc c) v = s.setEng c ((s.eng c).cdescWritten v) := by
  show s.writeCdesc c v = _
  unfold State.writeCdesc EngineChannel.cdescWritten
  split_ifs
  · rw [State.setEng_self]
  · rfl

/-- R200 lines 4 to 7: the channel after the re-kick. -/
def State.engRekicked (s : State) (c : Channel) (e : EngineChannel) : EngineChannel :=
  if (s.ring c).hwCount ≠ 0 ∧ s.memWord c (s.ring c).hwTail 3 &&& 0x10000000 = 0 then
    kicked s.dmacr s.resetting e ((s.ring c).phys (s.ring c).hwTail)
  else e

/-- R200 lines 4 to 7: the tail's status word is read past the copy, and nothing but the kick follows from it. -/
theorem State.rekick_reads (s : State) (c : Channel) :
    ∃ u, ReadsOf c s u ∧ s.rekick c = u.setEng c (s.engRekicked c (s.eng c)) := by
  simp only [State.rekick, State.engRekicked]
  by_cases hz : (s.ring c).hwCount = 0
  · exact ⟨s, .refl c s, by rw [if_pos hz, if_neg fun h => h.1 hz, State.setEng_self]⟩
  have hread := (s.invalidate_readsOf c (s.ring c).hwTail).trans (State.bdRead_readsOf _ c (s.ring c).hwTail 3)
  have heng := hread.channel.frame.eng c
  refine ⟨_, hread, ?_⟩
  rw [if_neg hz, (s.invalidate_bdRead c _ 3).1]
  by_cases hcmp : s.memWord c (s.ring c).hwTail 3 &&& 0x10000000 = 0
  · rw [if_neg (by simp [(hasFlag_eq_false_iff _ flagCmp).2 hcmp]), if_pos ⟨hz, hcmp⟩]
    show State.writeTdesc _ _ _ = _
    rw [State.writeTdesc_eq_kicked, hread.channel.frame.dmacr, hread.channel.frame.resetting, heng]
  · rw [if_pos (Bool.of_not_eq_false ((hasFlag_eq_false_iff _ flagCmp).not.2 hcmp)), if_neg fun h => hcmp h.2, ← heng,
      State.setEng_self]

/-- The tail and its status word are told without the channel's registers. -/
theorem State.engRekicked_setEng (s : State) (c : Channel) (e e' : EngineChannel) :
    (s.setEng c e).engRekicked c e' = s.engRekicked c e' := by
  have hword := State.memWord_congr (s.setEng_mem c e) (s.setEng_cfg c e) (s.setEng_ring c c e)
  simp only [State.engRekicked, State.setEng_ring, State.setEng_dmacr, State.setEng_resetting, hword]

/-! ## The command -/

theorem State.setRing_setEng (s : State) (c : Channel) (r : Ring) (e : EngineChannel) :
    (s.setEng c e).setRing c r = (s.setRing c r).setEng c e := by cases c <;> rfl

/-- The channel's registers may have changed before, too. -/
theorem OnlyChannel.of_setEng {c : Channel} {s t : State} {e : EngineChannel} (h : OnlyChannel c (s.setEng c e) t) :
    OnlyChannel c s t := by
  obtain ⟨heq, hkept⟩ := h
  refine ⟨heq.trans (by cases c <;> rfl), fun hc => ?_⟩
  simpa using hkept (by simpa using hc)

/-- R200 on a Stopped channel: one read of the tail's status word, then the bookkeeping and the channel's registers. -/
theorem execStart_of_stopped (s : State) (ch : Channel) (hc : (s.ring ch).count ≠ 0)
    (hr : (s.ring ch).runState = .stopped) :
    ∃ u, ReadsOf ch (s.setEng ch ((s.eng ch).cdescWritten (s.ring ch).restart)) u ∧
      execStart ch s = .next (((u.setRing ch { s.ring ch with runState := .started }).setEng ch
        (s.engRekicked ch ((s.eng ch).cdescWritten (s.ring ch).restart))).respond .ok []) := by
  obtain ⟨u, hu, hkick⟩ := (s.setEng ch ((s.eng ch).cdescWritten (s.ring ch).restart)).rekick_reads ch
  refine ⟨u, hu, ?_⟩
  simp only [execStart]
  rw [if_neg hc, if_neg (by rw [hr]; decide), s.regWrite_cdesc_eq, hkick, State.setRunState, State.setEng_ring, hu.ring,
    State.setEng_ring, State.setEng_eng_same, State.engRekicked_setEng, State.setRing_setEng]
  rfl

/-- Settles O22: the checks in their order, then the one path that starts the channel. -/
theorem startCompletes : Obligations.StartCompletes := by
  intro s ch
  refine ⟨fun hz => if_pos hz, fun hc hr => (if_neg hc).trans (if_pos hr), fun hc hr => ?_⟩
  obtain ⟨u, hu, hexec⟩ := execStart_of_stopped s ch hc hr
  refine ⟨_, _, hexec, rfl, ?_, rfl, ?_, ?_⟩
  · rw [State.respond_ring, State.setEng_ring, State.setRing_ring_same]
  · rw [State.respond_eng, State.setEng_eng_same]
    rfl
  · refine ((hu.channel.onlyChannelMemory_updates _ _ .ok []).onlyChannel ?_).of_setEng
    rw [State.respond_mem, State.setEng_mem, State.setRing_mem, hu.mem]

end Sys2Proof.Machine
end

section
/-! SUPPORT. PAUSE, RESUME and the busy-wait (spec/42_engine_control.md R203, R206, R207): what a write of the pause bits makes
of the engine, and the one poll of a command that waits. -/

namespace Sys2Proof.Machine

/-! ## The pause bits -/

/-- R276: a write of `DMACR` that keeps bit 0 starts no reset, and during one it is ignored. -/
theorem State.EngineSound.regWrite_dmacr_eq {s : State} (h : s.EngineSound) (v : Word)
    (hv : v.getLsbD 0 = s.dmacr.getLsbD 0) :
    s.regWrite .dmacr v = { s with dmacr := if s.resetting then s.dmacr else v } := by
  rw [← h.resetting_bit] at hv
  by_cases hr : s.resetting = true
  · rw [if_pos hr]
    exact if_pos hr
  · rw [if_neg hr]
    exact s.regWrite_dmacr_of_running (Bool.eq_false_iff.2 hr) v (hv.trans (Bool.eq_false_iff.2 hr))

/-- Both pause bits set, and the command waits. -/
def State.pauseWaiting (s : State) : State :=
  { s with
    dmacr := if s.resetting then s.dmacr else s.dmacr ||| 0x30000000
    waiting := some ⟨.pause, 0⟩
    response := [] }

theorem exec_pause_eq (s : State) (he : s.EngineSound) (hb : budgetSpent s.cfg 0 = false) :
    exec .pause s = .next s.pauseWaiting := by
  show Host.Outcome.next ((s.regWrite .dmacr (s.dmacr ||| pauseMask)).waitOn .pause 0) = _
  rw [he.regWrite_dmacr_eq _ (by simp [pauseMask])]
  exact congrArg Host.Outcome.next (State.waitOn_of_budget _ _ _ hb)

theorem exec_resume_eq (s : State) (he : s.EngineSound) :
    exec .resume s = .next { s with
      dmacr := if s.resetting then s.dmacr else s.dmacr &&& 0xCFFFFFFF
      txRing := { s.txRing with runState := .started }
      rxRing := { s.rxRing with runState := .started }
      response := [0] } := by
  show Host.Outcome.next (((s.regWrite .dmacr (s.dmacr &&& ~~~pauseMask)).setRunState .tx .started).setRunState .rx
    .started).ok = _
  rw [he.regWrite_dmacr_eq _ (by simp [pauseMask])]
  rfl

/-! ## One poll -/

/-- R203 line 3, R208 line 4: what the command waits for is there. -/
def State.waitOver (s : State) : WaitKind → Bool
  | .pause => s.wbPending.isNone
  | .reset => !s.dmacr.getLsbD 0

/-- The part of the command after its wait. -/
def State.finishWait (s : State) : WaitKind → State
  | .pause => s.finishPause
  | .reset => s.finishReset

/-- R64, R68: bit 14 of `IRQ`. -/
theorem irqView_wrqEmpty (e : EngineChannel) (b : Bool) : (irqView e b).getLsbD 14 = b := by
  simp [irqView, flagIf_getElem]

/-- R206: a poll ends the wait where it is over, and else counts. -/
theorem State.poll_eq (s : State) (w : Waiting) :
    s.poll w = if s.waitOver w.kind then s.finishWait w.kind else s.waitOn w.kind (w.polls + 1) := by
  obtain ⟨kind, polls⟩ := w
  cases kind with
  | pause =>
    have hbit : (s.irqValue .rx).getLsbD 14 = s.waitOver .pause := irqView_wrqEmpty _ _
    simp only [State.poll, State.regRead, hbit]
    rfl
  | reset =>
    simp only [State.poll, State.regRead, State.waitOver, Bool.not_eq_true', ← Bool.not_eq_true, ite_not]
    rfl

theorem step_of_waiting (s : State) (q : List Turn) (w : Waiting) (ha : s.Admitted) (hw : s.waiting = some w)
    (hq : s.ManagerNext q) : step s = .next (State.poll { s with sched := q } w) := by
  rw [step_of_managerNext s q ha hq, managerTurn_of_waiting { s with sched := q } w hw]

theorem State.waitOn_of_spent (s : State) (k : WaitKind) (polls : Nat) (hb : budgetSpent s.cfg polls = true) :
    s.waitOn k polls = s.timeOut := if_pos hb

theorem budgetSpent_eq_true {cfg : Cfg} {b polls : Nat} (hb : cfg.spinBudget = some b) (hle : b ≤ polls) :
    budgetSpent cfg polls = true := by
  simp [budgetSpent, hb, hle]

theorem budgetSpent_eq_false {cfg : Cfg} {polls : Nat} (h : ∀ b, cfg.spinBudget = some b → polls < b) :
    budgetSpent cfg polls = false := by
  unfold budgetSpent
  cases hb : cfg.spinBudget with
  | none => rfl
  | some b => simpa using h b hb

/-- Settles O23: the write of the pause bits, then the poll that finds no write-back pending. -/
theorem pauseResumeComplete : Obligations.PauseResumeComplete := by
  refine ⟨fun s q ha he hwb hb hq => ⟨_, exec_pause_eq s he hb, rfl, ?_⟩, exec_resume_eq⟩
  have hat : s.pauseWaiting.Admitted := ha.of_sameLayout (.of_rings rfl rfl rfl)
  have hover : State.waitOver { s.pauseWaiting with sched := q } .pause = true := Option.isNone_iff_eq_none.2 hwb
  rw [step_of_waiting s.pauseWaiting q ⟨.pause, 0⟩ hat rfl hq, State.poll_eq, if_pos hover]
  rfl

/-- R206: the step of a poll that finds the wait not over. -/
theorem step_of_wait_not_over (s : State) (q : List Turn) (w : Waiting) (ha : s.Admitted) (hw : s.waiting = some w)
    (hq : s.ManagerNext q) (hover : s.waitOver w.kind = false) :
    step s = .next (State.waitOn { s with sched := q } w.kind (w.polls + 1)) := by
  have hsame : State.waitOver { s with sched := q } w.kind = s.waitOver w.kind := by cases w.kind <;> rfl
  rw [step_of_waiting s q w ha hw hq, State.poll_eq, hsame, hover]
  rfl

/-- Settles O25: the poll finds the wait not over, and the budget decides. -/
theorem waitPolls : Obligations.WaitPolls := by
  rintro s q ⟨kind, polls⟩ ha hw hq hmiss
  have hover : s.waitOver kind = false := by
    cases kind with
    | pause => exact Option.isNone_eq_false_iff.2 (Option.isSome_iff_ne_none.2 hmiss)
    | reset => exact congrArg Bool.not hmiss
  have hstep := step_of_wait_not_over s q _ ha hw hq hover
  refine ⟨fun b hb hle => hstep.trans ?_, fun hlt => hstep.trans ?_⟩
  · exact congrArg Host.Outcome.next (State.waitOn_of_spent _ _ _ (budgetSpent_eq_true hb hle))
  · exact congrArg Host.Outcome.next (State.waitOn_of_budget _ _ _ (budgetSpent_eq_false hlt))

end Sys2Proof.Machine
end

section
/-! SUPPORT. The transitions of `run_state` (spec/42_engine_control.md R206, R210): what each shared operation makes of the rings,
that every command but CREATE, START and RESUME keeps both run states, and so do the turns of the agents other than the
manager, which touch no bookkeeping at all. -/

namespace Sys2Proof.Machine

/-! ## The rings after each shared operation -/

section Rings

variable (s : State) (c c' : Channel)

/-- The rings are two fields of the state. -/
theorem State.ring_congr {s t : State} (htx : t.txRing = s.txRing) (hrx : t.rxRing = s.rxRing) (c : Channel) :
    t.ring c = s.ring c := by
  cases c
  · exact htx
  · exact hrx

@[simp] theorem State.failWith_ring (st : Status) (k : Nat) : (s.failWith st k).ring c' = s.ring c' := s.respond_ring _ _ _

/-- R124: the status of a failure is its own. -/
theorem State.failWith_response_ne {st : Status} (h : st.code ≠ 0) (k : Nat) : (s.failWith st k).response ≠ [0] :=
  fun he => h (List.cons.inj he).1

@[simp] theorem State.ok_ring : s.ok.ring c' = s.ring c' := s.respond_ring _ _ _

@[simp] theorem State.regRead_ring (r : Reg) : (s.regRead r).2.ring c' = s.ring c' := by
  rw [s.regRead_frame r]
  exact State.ring_congr rfl rfl c'

@[simp] theorem State.regWrite_ring (r : Reg) (v : Word) : (s.regWrite r v).ring c' = s.ring c' :=
  (s.regWrite_frame r v).ring c'

@[simp] theorem State.bdRead_ring (bd : Word) (w : Nat) : (s.bdRead c bd w).2.ring c' = s.ring c' :=
  (s.bdRead_frame c bd w).ring c'

@[simp] theorem State.bdWrite_ring (bd : Word) (w : Nat) (v : Word) : (s.bdWrite c bd w v).ring c' = s.ring c' :=
  (s.bdWrite_frame c bd w v).ring c'

@[simp] theorem State.invalidate_ring (bd : Word) : (s.invalidate c bd).ring c' = s.ring c' :=
  (s.invalidate_frame c bd).ring c'

@[simp] theorem State.programCoalesce_ring (counter timer : Word) :
    (s.programCoalesce c counter timer).ring c' = s.ring c' :=
  (State.regWrite_ring _ c' _ _).trans (s.regRead_ring c' _)

@[simp] theorem State.rekick_ring : (s.rekick c).ring c' = s.ring c' := by
  simp only [State.rekick]
  split_ifs <;> simp

@[simp] theorem State.waitOn_ring (k : WaitKind) (polls : Nat) : (s.waitOn k polls).ring c' = s.ring c' := by
  unfold State.waitOn
  split_ifs
  · exact State.ring_congr rfl rfl c'
  · exact State.ring_congr rfl rfl c'

/-- A ring written with its run state kept. -/
theorem State.setRing_runState {r : Ring} (hr : r.runState = (s.ring c).runState) :
    ((s.setRing c r).ring c').runState = (s.ring c').runState := by
  by_cases hc : c' = c
  · rw [hc, State.setRing_ring_same, hr]
  · rw [s.setRing_ring_other c c' r hc]

theorem State.setRunState_runState (rs : RunState) :
    ((s.setRunState c rs).ring c').runState = if c = c' then rs else (s.ring c').runState := by
  unfold State.setRunState
  split_ifs with hc
  · rw [← hc, State.setRing_ring_same]
  · rw [s.setRing_ring_other c c' _ (Ne.symm hc)]

/-- R42: both channels marked. -/
theorem State.setRunState_both_runState (rs : RunState) :
    (((s.setRunState .tx rs).setRunState .rx rs).ring c').runState = rs := by cases c' <;> rfl

@[simp] theorem State.snapshotRestart_runState :
    ((s.snapshotRestart c).ring c').runState = (s.ring c').runState := by
  refine (State.setRing_runState _ c c' ?_).trans ?_
  · rw [State.regRead_ring]
  · rw [State.regRead_ring]

@[simp] theorem State.changeEnables_runState (f : Word → Word) :
    ((s.changeEnables c f).ring c').runState = (s.ring c').runState := by
  simp only [State.changeEnables]
  rw [State.setRing_runState, State.regWrite_ring, State.regRead_ring]
  rfl

/-- R150: a created ring is Stopped. -/
theorem State.createRing_runState (p v a n : Word) :
    ((s.createRing c p v a n).ring c').runState = if c = c' then .stopped else (s.ring c').runState := by
  rw [(s.createRing_frame c p v a n).ring c']
  split_ifs with hc
  · rw [← hc, State.setRing_ring_same]
    rfl
  · rw [s.setRing_ring_other c c' _ (Ne.symm hc)]

@[simp] theorem State.commitSubmission_runState (n cur : Word) :
    ((s.commitSubmission c n cur).ring c').runState = (s.ring c').runState := by
  rw [State.commitSubmission_eq, State.setEng_ring]
  exact s.setRing_runState c c' rfl

end Rings

/-! ## The commands that keep both run states -/

/-- Both run states are as before in the next state, if the answer is one. -/
def KeepsRunStates (s : State) (r : Result) : Prop :=
  ∀ t, r = .next t → ∀ c, (t.ring c).runState = (s.ring c).runState

theorem KeepsRunStates.next {s t : State} (h : ∀ c, (t.ring c).runState = (s.ring c).runState) :
    KeepsRunStates s (.next t) := by
  rintro _ ⟨⟩
  exact h

/-- A failing command keeps them. -/
theorem KeepsRunStates.fail (s : State) (st : Status) (k : Nat) : KeepsRunStates s (.next (s.failWith st k)) :=
  .next fun c => by rw [State.failWith_ring]

/-- A command that touches no bookkeeping keeps them. -/
theorem KeepsRunStates.respond {s t : State} (h : ∀ c, t.ring c = s.ring c) (st : Status) (rs : List Word) :
    KeepsRunStates s (.next (t.respond st rs)) :=
  .next fun c => by rw [State.respond_ring, h c]

/-- So does one that writes only its own channel's ring and keeps the run state there. -/
theorem KeepsRunStates.setRing {s t : State} (h : ∀ c, t.ring c = s.ring c) {ch : Channel} {r : Ring}
    (hr : r.runState = (s.ring ch).runState) (st : Status) (rs : List Word) :
    KeepsRunStates s (.next ((t.setRing ch r).respond st rs)) :=
  .next fun c => by rw [State.respond_ring, t.setRing_runState ch c (by rw [hr, h ch]), h c]

section Commands

variable (s : State) (ch : Channel)

theorem execBdRd_keepsRunStates (bd w : Word) : KeepsRunStates s (execBdRd ch bd w s) := by
  simp only [execBdRd]
  split_ifs
  · exact .fail s _ _
  · exact .fail s _ _
  · exact .respond (s.bdRead_ring ch · _ _) _ _

theorem execBdWr_keepsRunStates (bd w value : Word) : KeepsRunStates s (execBdWr ch bd w value s) := by
  simp only [execBdWr]
  split_ifs
  · exact .fail s _ _
  · exact .fail s _ _
  · exact .fail s _ _
  · exact .respond (s.bdWrite_ring ch · _ _ _) _ _

theorem execBdNext_keepsRunStates (bd : Word) : KeepsRunStates s (execBdNext ch bd s) := by
  simp only [execBdNext]
  split_ifs
  · exact .respond (fun _ => rfl) _ _
  · exact .fail s _ _

theorem execBdPrev_keepsRunStates (bd : Word) : KeepsRunStates s (execBdPrev ch bd s) := by
  simp only [execBdPrev]
  split_ifs
  · exact .respond (fun _ => rfl) _ _
  · exact .fail s _ _

theorem execRingStat_keepsRunStates (sel : Word) : KeepsRunStates s (execRingStat ch sel s) := by
  unfold execRingStat
  split
  · exact .respond (fun _ => rfl) _ _
  · exact .fail s _ _

theorem execRegRd_keepsRunStates (off : Word) : KeepsRunStates s (execRegRd off s) := by
  unfold execRegRd
  split
  · exact .fail s _ _
  · exact .respond (s.regRead_ring · _) _ _

theorem execRegWr_keepsRunStates (off value : Word) : KeepsRunStates s (execRegWr off value s) := by
  unfold execRegWr
  split
  · exact .fail s _ _
  · exact .respond (s.regWrite_ring · _ _) _ _

theorem execSetCoalesce_keepsRunStates (counter timer : Word) :
    KeepsRunStates s (execSetCoalesce ch counter timer s) := by
  unfold execSetCoalesce
  split_ifs
  · exact .respond (s.programCoalesce_ring ch · _ _) _ _
  · exact .fail s _ _

/-- IRQ_ENABLE and IRQ_DISABLE: the shadow is the only bookkeeping they write. -/
theorem changeEnables_keepsRunStates (f : Word → Word) : KeepsRunStates s (.next (s.changeEnables ch f).ok) :=
  .next fun c => by rw [State.ok_ring, State.changeEnables_runState]

theorem execPause_keepsRunStates : KeepsRunStates s (execPause s) :=
  .next fun c => by rw [State.waitOn_ring, State.regWrite_ring, State.regRead_ring]

theorem execReset_keepsRunStates : KeepsRunStates s (execReset s) :=
  .next fun c => by
    rw [State.waitOn_ring, State.regWrite_ring, State.snapshotRestart_runState, State.snapshotRestart_runState]

theorem execAlloc_keepsRunStates (n : Word) : KeepsRunStates s (execAlloc ch n s) := by
  simp only [execAlloc]
  split_ifs
  · exact .fail s _ _
  · exact .setRing (fun _ => rfl) (by rfl) _ _

theorem execUnalloc_keepsRunStates (n set : Word) : KeepsRunStates s (execUnalloc ch n set s) := by
  simp only [execUnalloc]
  split_ifs
  · exact .fail s _ _
  · exact .setRing (fun _ => rfl) (by rfl) _ _

theorem execFree_keepsRunStates (n set : Word) : KeepsRunStates s (execFree ch n set s) := by
  simp only [execFree]
  split_ifs
  · exact .respond (fun _ => rfl) _ _
  · exact .fail s _ _
  · exact .setRing (fun _ => rfl) (by rfl) _ _

theorem execToHw_keepsRunStates (n set : Word) : KeepsRunStates s (execToHw ch n set s) := by
  simp only [execToHw]
  have hwalk (c : Channel) := ((s.bdRead_frame ch set 3).trans
    (toHwWalk_frame ch (n.toNat - 1) set (s.bdRead ch set 3).1 (s.bdRead ch set 3).2)).ring c
  split_ifs
  · exact .respond (fun _ => rfl) _ _
  · exact .fail s _ _
  · exact .respond (s.bdRead_ring ch · _ _) _ _
  · exact .next fun c => by rw [State.ok_ring, State.commitSubmission_runState, hwalk]
  · exact .respond hwalk _ _

theorem execFromHw_keepsRunStates (limit : Word) : KeepsRunStates s (execFromHw ch limit s) := by
  simp only [execFromHw]
  have hwalk := (fromHwWalk_frame ch limit.toNat (s.ring ch).hwHead 0 0 s).1.ring
  split_ifs
  · exact .respond (fun _ => rfl) _ _
  · exact .respond hwalk _ _
  · exact .setRing hwalk (by rfl) _ _

theorem execClone_keepsRunStates (t0 t1 t2 t3 t4 t5 t6 t7 t8 : Word) :
    KeepsRunStates s (execClone ch t0 t1 t2 t3 t4 t5 t6 t7 t8 s) := by
  simp only [execClone]
  split_ifs
  · exact .fail s _ _
  · exact .fail s _ _
  · exact .respond (State.forEach_sameButDescriptors _ _ s
      fun k t => State.cloneDescriptor_frame ch t1 t2 t3 t4 t5 t6 t7 t8 k t).ring _ _

end Commands

/-! ## CREATE, START and RESUME -/

section Transitions

variable (s t : State) (ch c : Channel)

theorem createCheck_code_ne_zero {cfg : Cfg} {r : Ring} {p v a n : Word} {st : Status}
    (h : createCheck cfg r p v a n = some st) : st.code ≠ 0 := by
  unfold createCheck at h
  split_ifs at h <;> cases h <;> decide

theorem execCreate_runState (p v a n : Word) (h : execCreate ch p v a n s = .next t) :
    (t.ring c).runState = if ch = c ∧ t.response = [0] then .stopped else (s.ring c).runState := by
  unfold execCreate at h
  cases hcheck : createCheck s.cfg (s.ring ch) p v a n with
  | some st =>
    rw [hcheck] at h
    cases h
    rw [if_neg fun hok => s.failWith_response_ne (createCheck_code_ne_zero hcheck) 0 hok.2, State.failWith_ring]
  | none =>
    rw [hcheck] at h
    cases h
    rw [State.ok_ring, State.createRing_runState]
    simp only [State.ok, State.respond_response, Status.code, and_true]

theorem execStart_runState (h : execStart ch s = .next t) :
    (t.ring c).runState = if ch = c ∧ t.response = [0] then .started else (s.ring c).runState := by
  simp only [execStart] at h
  split_ifs at h with hc hr
  · cases h
    rw [if_neg fun hok => s.failWith_response_ne (by decide) 0 hok.2, State.failWith_ring]
  · cases h
    rw [State.ok_ring]
    split_ifs with hch
    · rw [← hch.1, hr]
    · rfl
  · cases h
    rw [State.ok_ring, State.setRunState_runState, State.rekick_ring, State.regWrite_ring]
    simp only [State.ok, State.respond_response, Status.code, and_true]

theorem execResume_runState (h : execResume s = .next t) : (t.ring c).runState = .started := by
  cases h
  rw [State.ok_ring, State.setRunState_both_runState]

end Transitions

/-- R210: the run states after each command. -/
theorem exec_runState (i : Instr) (s t : State) (c : Channel) : exec i s = .next t →
    (t.ring c).runState =
      (match i with
        | .create ch _ _ _ _ => if ch = c ∧ t.response = [0] then .stopped else (s.ring c).runState
        | .start ch => if ch = c ∧ t.response = [0] then .started else (s.ring c).runState
        | .resume => .started
        | _ => (s.ring c).runState) := by
  intro h
  cases i with
  | nop => exact KeepsRunStates.respond (fun _ => rfl) _ _ t h c
  | create ch p v a n => exact execCreate_runState s t ch c p v a n h
  | clone ch t0 t1 t2 t3 t4 t5 t6 t7 t8 => exact execClone_keepsRunStates s ch t0 t1 t2 t3 t4 t5 t6 t7 t8 t h c
  | alloc ch n => exact execAlloc_keepsRunStates s ch n t h c
  | unalloc ch n set => exact execUnalloc_keepsRunStates s ch n set t h c
  | toHw ch n set => exact execToHw_keepsRunStates s ch n set t h c
  | fromHw ch limit => exact execFromHw_keepsRunStates s ch limit t h c
  | free ch n set => exact execFree_keepsRunStates s ch n set t h c
  | start ch => exact execStart_runState s t ch c h
  | pause => exact execPause_keepsRunStates s t h c
  | resume => exact execResume_runState s t c h
  | reset => exact execReset_keepsRunStates s t h c
  | setCoalesce ch counter timer => exact execSetCoalesce_keepsRunStates s ch counter timer t h c
  | getCoalesce ch => exact KeepsRunStates.respond (s.regRead_ring · _) _ _ t h c
  | irqEnable ch mask => exact changeEnables_keepsRunStates s ch _ t h c
  | irqDisable ch mask => exact changeEnables_keepsRunStates s ch _ t h c
  | irqGet ch => exact KeepsRunStates.respond (s.regRead_ring · _) _ _ t h c
  | irqAck ch mask => exact KeepsRunStates.respond (s.regWrite_ring · _ _) _ _ t h c
  | bdRd ch bd w => exact execBdRd_keepsRunStates s ch bd w t h c
  | bdWr ch bd w value => exact execBdWr_keepsRunStates s ch bd w value t h c
  | bdNext ch bd => exact execBdNext_keepsRunStates s ch bd t h c
  | bdPrev ch bd => exact execBdPrev_keepsRunStates s ch bd t h c
  | ringStat ch sel => exact execRingStat_keepsRunStates s ch sel t h c
  | regRd off => exact execRegRd_keepsRunStates s off t h c
  | regWr off value => exact execRegWr_keepsRunStates s off value t h c

/-! ## The poll -/

section Poll

variable (s : State)

theorem State.regWrite_waiting (r : Reg) (v : Word) : (s.regWrite r v).waiting = s.waiting := by
  rw [s.regWrite_frame r v]

theorem State.regRead_waiting (r : Reg) : (s.regRead r).2.waiting = s.waiting := by
  rw [s.regRead_frame r]

/-- R206: no command waits after the part that follows the wait. -/
theorem State.finishWait_waiting (k : WaitKind) : (s.finishWait k).waiting = none := by
  cases k with
  | pause => rfl
  | reset =>
    simp only [State.finishWait, State.finishReset, State.ok, State.respond_waiting, State.setRunState,
      State.setRing_waiting, State.programCoalesce, State.acknowledgeAll, State.disableAll, State.regWrite_waiting,
      State.regRead_waiting]

theorem State.finishWait_response (k : WaitKind) : (s.finishWait k).response = [0] := by cases k <;> rfl

/-- R203 line 4, R208 lines 14 and 15. -/
theorem State.finishWait_runState (k : WaitKind) (c : Channel) : ((s.finishWait k).ring c).runState = .stopped := by
  cases k with
  | pause => exact (congrArg Ring.runState (State.ok_ring _ c)).trans (State.setRunState_both_runState _ c .stopped)
  | reset => exact (congrArg Ring.runState (State.ok_ring _ c)).trans (State.setRunState_both_runState _ c .stopped)

/-- R206: while the wait lasts there is no answer, and a time-out's is no success. -/
theorem State.waitOn_not_ok (k : WaitKind) (polls : Nat) :
    ¬ ((s.waitOn k polls).waiting = none ∧ (s.waitOn k polls).response = [0]) := by
  rintro ⟨hw, hr⟩
  unfold State.waitOn at hw hr
  split_ifs at hw hr
  exact State.failWith_response_ne _ (by decide) 0 hr

theorem State.poll_runState (w : Waiting) (c : Channel) :
    ((s.poll w).ring c).runState =
      if (s.poll w).waiting = none ∧ (s.poll w).response = [0] then .stopped else (s.ring c).runState := by
  rw [State.poll_eq]
  by_cases hover : s.waitOver w.kind = true
  · rw [if_pos hover, if_pos ⟨s.finishWait_waiting _, s.finishWait_response _⟩, State.finishWait_runState]
  · rw [if_neg hover, if_neg (s.waitOn_not_ok _ _), State.waitOn_ring]

end Poll

/-! ## The other agents -/

section Agents

variable (s : State) (c c' : Channel)

@[simp] theorem State.engWrite_ring (pa : Word) (w : Nat) (v : Word) : (s.engWrite pa w v).ring c' = s.ring c' :=
  (s.engWrite_frame pa w v).ring c'

@[simp] theorem State.haltWithError_ring : (s.haltWithError c).ring c' = s.ring c' := s.setEng_ring c c' _

@[simp] theorem State.inert_ring : (s.inert c).ring c' = s.ring c' := s.setEng_ring c c' _

@[simp] theorem State.advance_ring (d nx : Word) : (s.advance c d nx).ring c' = s.ring c' := s.setEng_ring c c' _

@[simp] theorem State.countUnit_ring (sts : Word) : (s.countUnit c sts).ring c' = s.ring c' := by
  rw [s.countUnit_frame c sts, State.setEng_ring]

@[simp] theorem State.delayEvent_ring : (s.delayEvent c).ring c' = s.ring c' := by
  rw [s.delayEvent_frame c, State.setEng_ring]

@[simp] theorem State.writeAccessory_ring (d : Word) (w : Nat) (v : Word) :
    (s.writeAccessory d w v).ring c' = s.ring c' := by
  unfold State.writeAccessory
  split_ifs <;> simp

@[simp] theorem State.sendComplete_ring (d nx st : Word) (err : Bool) :
    (s.sendComplete d nx st err).ring c' = s.ring c' := by
  simp only [State.sendComplete]
  split_ifs <;> simp

@[simp] theorem State.recvBegin_ring (d st : Word) (x : EngDraws) : (s.recvBegin d st x).ring c' = s.ring c' := by
  have hpend (t : State) : State.ring { t with wbPending := some d } c' = t.ring c' := State.ring_congr rfl rfl c'
  simp only [State.recvBegin, hpend]
  split_ifs <;> simp

theorem State.engStep_ring (x : EngDraws) : (s.engStep c x).ring c' = s.ring c' := by
  cases c with
  | tx =>
    simp only [State.engStep]
    split_ifs <;> simp
  | rx =>
    simp only [State.engStep]
    split_ifs <;> simp

theorem State.engRxFinish_ring (v : Word) : (s.engRxFinish v).ring c' = s.ring c' := by
  unfold State.engRxFinish
  cases s.wbPending with
  | none => rfl
  | some d =>
    simp only
    split_ifs
    · rfl
    · rw [State.advance_ring, State.countUnit_ring]
      exact State.ring_congr rfl rfl c'

theorem State.engineTurn_ring (e : EngineEvent) : (s.engineTurn e).ring c' = s.ring c' := by
  cases e with
  | step c x => exact s.engStep_ring c c' x
  | rxFinish v => exact s.engRxFinish_ring c' v
  | error c =>
    simp only [State.engineTurn, State.engError]
    split_ifs <;> simp
  | delay c =>
    simp only [State.engineTurn, State.engDelay]
    split_ifs <;> simp
  | resetDone =>
    simp only [State.engineTurn, State.engResetDone]
    split_ifs
    · exact State.ring_congr rfl rfl c'
    · rfl

theorem State.cacheTurn_ring (e : CacheEvent) : (s.cacheTurn e).ring c' = s.ring c' := by
  cases e with
  | writeBack c d =>
    simp only [State.cacheTurn, State.cacheWriteBack]
    split
    · split_ifs
      · exact ((s.writeBackLine_frame c _).trans (State.putLine_frame _ c _)).ring c'
      · rfl
    · rfl
  | evict c d =>
    simp only [State.cacheTurn, State.cacheEvict]
    split
    · split_ifs <;> simp
    · rfl

end Agents

section Host

variable (s t : State)

theorem hostRead_ring (addr : Word) (n : Nat) (c : Channel) (h : hostRead addr n s = .next t) : t.ring c = s.ring c := by
  unfold hostRead at h
  split_ifs at h
  · rcases s.narrowAccess_stops addr n with hstop | hstop <;> simp [hstop] at h
  · split at h
    · cases h
    · cases h
      refine (State.ring_congr rfl rfl c).trans ?_
      split_ifs
      · exact s.drawWord_ring c
      · exact s.bdRead_ring _ c _ _

theorem hostWrite_ring (addr : Word) (n : Nat) (v : Word) (c : Channel) (h : hostWrite addr n v s = .next t) :
    t.ring c = s.ring c := by
  unfold hostWrite at h
  split_ifs at h
  · rcases s.narrowAccess_stops addr n with hstop | hstop <;> simp [hstop] at h
  · split at h
    · cases h
    · split_ifs at h
      cases h
      exact s.bdWrite_ring _ c _ _ _

theorem hostTurn_ring (e : HostEvent) (c : Channel) (h : hostTurn s e = .next t) : t.ring c = s.ring c := by
  unfold hostTurn at h
  split_ifs at h
  · cases h
    rfl
  · cases e with
    | present ws =>
      cases h
      exact State.ring_congr rfl rfl c
    | directRead addr n => exact hostRead_ring s t addr n c h
    | directWrite addr n v => exact hostWrite_ring s t addr n v c h

end Host

/-! ## The step -/

section Step

variable {s t : State}

/-- A machine that steps was admitted. -/
theorem State.admitted_of_step (h : step s = .next t) : s.Admitted := by
  unfold step turn at h
  split_ifs at h with hwf hplatform
  exact s.admitted_of_checks (Bool.of_not_eq_false hwf) (Bool.of_not_eq_false hplatform)

theorem State.withSched_ring (s : State) (q : List Turn) (c : Channel) : State.ring { s with sched := q } c = s.ring c :=
  State.ring_congr rfl rfl c

theorem step_poll_runState {w : Waiting} {q : List Turn} (c : Channel) (hw : s.waiting = some w) (hq : s.ManagerNext q)
    (h : step s = .next t) :
    (t.ring c).runState = if t.waiting = none ∧ t.response = [0] then .stopped else (s.ring c).runState := by
  rw [step_of_waiting s q w (State.admitted_of_step h) hw hq] at h
  cases h
  rw [State.poll_runState, State.withSched_ring]

/-- No agent but the manager touches the bookkeeping. -/
theorem step_ring_of_other {x : Turn} {q : List Turn} (c : Channel) (hq : s.sched = x :: q) (hx : x ≠ .manager)
    (h : step s = .next t) : t.ring c = s.ring c := by
  have ha := State.admitted_of_step h
  rw [← s.withSched_ring q c]
  cases x with
  | manager => exact absurd rfl hx
  | engine e =>
    rw [step, turn_of_admitted s ha, hq] at h
    rw [State.guardedEngineTurn_next _ t e h, State.engineTurn_ring]
  | cache e =>
    rw [step_of_cacheNext s q e ha hq] at h
    cases h
    exact State.cacheTurn_ring _ c e
  | host e =>
    rw [step_of_hostNext s q e ha hq] at h
    exact hostTurn_ring _ t e c h

end Step

/-- Settles O26: by command, by the poll, and by the agents that touch no bookkeeping. -/
theorem runStateTransitions : Obligations.RunStateTransitions :=
  ⟨exec_runState, fun _ _ _ _ c => step_poll_runState c,
    fun _ _ _ _ c hq hx h => congrArg Ring.runState (step_ring_of_other c hq hx h)⟩

end Sys2Proof.Machine
end

section
/-! SUPPORT. SET_COALESCE and GET_COALESCE (spec/43_coalesce_irq.md R220, R222, R223): the fields of a word put together by
masks and shifts, the two fields and the low half of the word SET_COALESCE writes, and the channel after the write (R271). -/

namespace Sys2Proof.Machine

/-! ## Fields of a word -/

section Fields

variable {w k i n : ℕ}

/-- A field shifted to where it is read. -/
theorem extractLsb'_shiftLeft_same (x : BitVec w) (h : k + n ≤ w) : (x <<< k).extractLsb' k n = x.setWidth n := by
  ext j hj
  rw [BitVec.getElem_extractLsb', BitVec.getLsbD_shiftLeft, BitVec.getElem_setWidth, Nat.add_sub_cancel_left]
  simp [show k + j < w by omega]

/-- Nothing is shifted below the shift. -/
theorem extractLsb'_shiftLeft_below (x : BitVec w) (h : i + n ≤ k) : (x <<< k).extractLsb' i n = 0 := by
  ext j hj
  rw [BitVec.getElem_extractLsb', BitVec.getLsbD_shiftLeft]
  simp [show i + j < k by omega]

/-- Nothing lies above a shifted field of `m` bits. -/
theorem extractLsb'_shiftLeft_above {x : BitVec w} {m : ℕ} (hx : x.toNat < 2 ^ m) (h : k + m ≤ i) :
    (x <<< k).extractLsb' i n = 0 := by
  ext j hj
  have hbit : x.getLsbD (i + j - k) = false :=
    Nat.testBit_lt_two_pow (hx.trans_le (Nat.pow_le_pow_right two_pos (by omega)))
  rw [BitVec.getElem_extractLsb', BitVec.getLsbD_shiftLeft, hbit]
  simp

/-- A mask of the lowest `n` bits keeps the lowest `n` bits. -/
theorem and_lowMask (v : Word) (hn : n ≤ 32) :
    v &&& BitVec.ofNat 32 (2 ^ n - 1) = (v.extractLsb' 0 n).setWidth 32 := by
  have hpow : 2 ^ n ≤ 2 ^ 32 := Nat.pow_le_pow_right two_pos hn
  apply BitVec.eq_of_toNat_eq
  rw [BitVec.toNat_and, BitVec.toNat_ofNat, Nat.mod_eq_of_lt (by have := Nat.two_pow_pos n; omega),
    Nat.and_two_pow_sub_one_eq_mod, BitVec.toNat_setWidth, BitVec.extractLsb'_toNat, Nat.shiftRight_zero]
  exact (Nat.mod_eq_of_lt ((Nat.mod_lt _ (Nat.two_pow_pos n)).trans_le hpow)).symm

end Fields

/-- The mask of a whole byte. -/
theorem and_byteMask (x : BitVec 8) : x &&& 255#8 = x := BitVec.and_allOnes

/-- The mask of a whole half word. -/
theorem and_halfMask (x : BitVec 16) : x &&& 65535#16 = x := BitVec.and_allOnes

/-- A word of at most 255 is its low byte. -/
theorem setWidth_setWidth_byte {a : Word} (ha : a.toNat ≤ 255) : (a.setWidth 8).setWidth 32 = a := by
  apply BitVec.eq_of_toNat_eq
  simp only [BitVec.toNat_setWidth]
  omega

/-! ## The strobe -/

section Strobe

variable {v : Word}

theorem and_strobe_eq_zero_iff : v &&& strobe = 0 ↔ v.getLsbD 8 = false := by
  have hpow : strobe = BitVec.twoPow 32 8 := by decide
  rw [hpow, BitVec.and_twoPow]
  cases v.getLsbD 8 <;> decide

theorem and_not_strobe (hv : v &&& strobe = 0) : v &&& ~~~strobe = v :=
  calc v &&& ~~~strobe = v &&& ~~~strobe ||| v &&& strobe := by rw [hv]; exact BitVec.or_zero.symm
    _ = v &&& (~~~strobe ||| strobe) := (BitVec.and_or_distrib_left ..).symm
    _ = v := BitVec.and_allOnes

/-- R271: a value without the strobe is stored as it is, and loads nothing. -/
theorem EngineChannel.crWritten_of_strobe_clear (e : EngineChannel) (hv : v &&& strobe = 0) :
    e.crWritten v = { e with cr := v } := by
  rw [EngineChannel.crWritten, and_not_strobe hv, and_strobe_eq_zero_iff.1 hv]
  rfl

end Strobe

/-! ## The word SET_COALESCE writes -/

/-- `CR[15:0]`, which SET_COALESCE leaves. -/
def crLow (v : Word) : BitVec 16 := v.extractLsb' 0 16

/-- R220 lines 2 and 3: the count in its field, unless it is "no change". -/
def countEdited (cfg : Cfg) (v a : Word) : Word :=
  if a = cfg.noChange then v else (v &&& 0xFF00FFFF) ||| (a <<< 16)

/-- R220 lines 4 and 5: the timeout in its field, unless it is "no change". -/
def timeoutEdited (cfg : Cfg) (v b : Word) : Word :=
  if b = cfg.noChange then v else (v &&& 0x00FFFFFF) ||| (b <<< 24)

/-- R220 lines 2 to 5: both edits, without the strobe. -/
def coalesceEdited (cfg : Cfg) (v a b : Word) : Word := timeoutEdited cfg (countEdited cfg v a) b

section CoalesceWord

variable (cfg : Cfg) (v : Word) {a b : Word}

/-- R220 lines 6 and 7: the strobe goes with the edits, unless both operands are "no change". -/
theorem coalesceWord_eq :
    coalesceWord cfg v a b =
      if a = cfg.noChange ∧ b = cfg.noChange then coalesceEdited cfg v a b else coalesceEdited cfg v a b ||| strobe := by
  unfold coalesceWord coalesceEdited countEdited timeoutEdited
  by_cases ha : a = cfg.noChange
  · by_cases hb : b = cfg.noChange
    · simp [ha, hb]
    · simp [ha, hb]
  · simp [ha]

theorem fields_countEdited (ha : CoalesceAccepts cfg a) :
    crCount (countEdited cfg v a) = (if a = cfg.noChange then crCount v else a.setWidth 8) ∧
      crTimeout (countEdited cfg v a) = crTimeout v ∧ crLow (countEdited cfg v a) = crLow v := by
  unfold countEdited
  by_cases hn : a = cfg.noChange
  · simp only [if_pos hn, and_self]
  · have hbyte : a.toNat ≤ 255 := (ha.resolve_left hn).2
    have habove : (a <<< 16).extractLsb' 24 8 = 0 := extractLsb'_shiftLeft_above (m := 8) (by omega) (by omega)
    simp [hn, crCount, crTimeout, crLow, BitVec.extractLsb'_or, BitVec.extractLsb'_and, extractLsb'_shiftLeft_same,
      extractLsb'_shiftLeft_below, habove, and_byteMask, and_halfMask]

theorem fields_timeoutEdited :
    crCount (timeoutEdited cfg v b) = crCount v ∧
      crTimeout (timeoutEdited cfg v b) = (if b = cfg.noChange then crTimeout v else b.setWidth 8) ∧
      crLow (timeoutEdited cfg v b) = crLow v := by
  unfold timeoutEdited
  by_cases hn : b = cfg.noChange
  · simp only [if_pos hn, and_self]
  · simp [hn, crCount, crTimeout, crLow, BitVec.extractLsb'_or, BitVec.extractLsb'_and, extractLsb'_shiftLeft_same,
      extractLsb'_shiftLeft_below, and_byteMask, and_halfMask]

theorem fields_coalesceEdited (ha : CoalesceAccepts cfg a) :
    crCount (coalesceEdited cfg v a b) = (if a = cfg.noChange then crCount v else a.setWidth 8) ∧
      crTimeout (coalesceEdited cfg v a b) = (if b = cfg.noChange then crTimeout v else b.setWidth 8) ∧
      crLow (coalesceEdited cfg v a b) = crLow v := by
  obtain ⟨hcount, htimeout, hlow⟩ := fields_countEdited cfg v ha
  obtain ⟨hcount', htimeout', hlow'⟩ := fields_timeoutEdited cfg (countEdited cfg v a) (b := b)
  rw [coalesceEdited, hcount', htimeout', hlow', hcount, htimeout, hlow]
  exact ⟨rfl, rfl, rfl⟩

/-- R271: the strobe is not stored, so the edits are what is. -/
theorem coalesceWord_and_not_strobe :
    coalesceWord cfg v a b &&& ~~~strobe = coalesceEdited cfg v a b &&& ~~~strobe := by
  rw [coalesceWord_eq]
  split_ifs
  · rfl
  · rw [BitVec.and_or_distrib_right, BitVec.and_not_self]
    exact BitVec.or_zero

end CoalesceWord

theorem crCount_and_not_strobe (v : Word) : crCount (v &&& ~~~strobe) = crCount v :=
  BitVec.extractLsb'_and.trans (and_byteMask _)

theorem crTimeout_and_not_strobe (v : Word) : crTimeout (v &&& ~~~strobe) = crTimeout v :=
  BitVec.extractLsb'_and.trans (and_byteMask _)

theorem crCount_or_strobe (v : Word) : crCount (v ||| strobe) = crCount v :=
  BitVec.extractLsb'_or.trans BitVec.or_zero

/-- The strobe's bit lies in the low half. -/
theorem getLsbD_strobe_of_crLow {v v' : Word} (h : crLow v' = crLow v) : v'.getLsbD 8 = v.getLsbD 8 := by
  have hbit := congrArg (BitVec.getLsbD · 8) h
  simpa [crLow] using hbit

theorem and_lowHalf_of_crLow {v v' : Word} (h : crLow v' = crLow v) : v' &&& 0xFFFF = v &&& 0xFFFF :=
  (and_lowMask v' (n := 16) (by decide)).trans ((congrArg _ h).trans (and_lowMask v (n := 16) (by decide)).symm)

/-- R220, R271: the channel after SET_COALESCE, where the strobe was not stored before. -/
theorem EngineChannel.crWritten_coalesceWord (cfg : Cfg) (e : EngineChannel) {a b : Word} (hs : e.cr &&& strobe = 0)
    (ha : CoalesceAccepts cfg a) :
    e.crWritten (coalesceWord cfg e.cr a b) = { e with
      cr := coalesceEdited cfg e.cr a b
      coalCtr := if a = cfg.noChange ∧ b = cfg.noChange then e.coalCtr else crCount (coalesceEdited cfg e.cr a b) } := by
  obtain ⟨-, -, hlow⟩ := fields_coalesceEdited cfg e.cr (b := b) ha
  have hedited : coalesceEdited cfg e.cr a b &&& strobe = 0 :=
    and_strobe_eq_zero_iff.2 ((getLsbD_strobe_of_crLow hlow).trans (and_strobe_eq_zero_iff.1 hs))
  rw [coalesceWord_eq]
  split_ifs
  · exact e.crWritten_of_strobe_clear hedited
  · rw [EngineChannel.crWritten, BitVec.and_or_distrib_right, BitVec.and_not_self, and_not_strobe hedited,
      crCount_or_strobe, BitVec.getLsbD_or, show strobe.getLsbD 8 = true from rfl, Bool.or_true, if_pos rfl]
    congr 1
    exact BitVec.or_zero

/-! ## The commands -/

section Commands

variable {s : State} {ch : Channel} {a b : Word}

theorem coalesceOperandOk_iff {cfg : Cfg} : coalesceOperandOk cfg a = true ↔ CoalesceAccepts cfg a := by
  simp [coalesceOperandOk, CoalesceAccepts]

/-- R7: "no change" is no byte. -/
theorem ne_noChange_of_byte {cfg : Cfg} (hc : cfg.wf = true) (ha : a.toNat ≤ 255) : a ≠ cfg.noChange := by
  obtain ⟨-, -, hlt⟩ := (cfg_wf_iff cfg).1 hc
  rintro rfl
  omega

theorem exec_setCoalesce_of_accepts (ha : CoalesceAccepts s.cfg a) (hb : CoalesceAccepts s.cfg b) :
    exec (.setCoalesce ch a b) s =
      .next (s.setEng ch ((s.eng ch).crWritten (coalesceWord s.cfg (s.eng ch).cr a b))).ok :=
  if_pos (Bool.and_eq_true_iff.2 ⟨coalesceOperandOk_iff.2 ha, coalesceOperandOk_iff.2 hb⟩)

theorem exec_setCoalesce_of_not_accepts (h : ¬ (CoalesceAccepts s.cfg a ∧ CoalesceAccepts s.cfg b)) :
    exec (.setCoalesce ch a b) s = .next { s with response := [8] } :=
  if_neg fun hok => h ((Bool.and_eq_true_iff.1 hok).imp coalesceOperandOk_iff.1 coalesceOperandOk_iff.1)

/-- R222: a field of `CR` shifted down and masked. -/
theorem shifted_and_byteMask (v : Word) (k : ℕ) : (v >>> k) &&& 0xFF = (v.extractLsb' k 8).setWidth 32 := by
  have hfield : (v >>> k).extractLsb' 0 8 = v.extractLsb' k 8 := by
    ext j hj
    simp
  rw [← hfield]
  exact and_lowMask (v >>> k) (n := 8) (by decide)

theorem exec_getCoalesce_eq (s : State) (ch : Channel) :
    exec (.getCoalesce ch) s = .next { s with response :=
      [0, (crCount (s.eng ch).cr).setWidth 32, (crTimeout (s.eng ch).cr).setWidth 32] } := by
  rw [crCount, crTimeout, ← shifted_and_byteMask, ← shifted_and_byteMask]
  rfl

/-- A command that writes one channel's registers and answers changes nothing else. -/
theorem onlyEngine_setEng_respond (s : State) (c : Channel) (e : EngineChannel) (st : Status) (rs : List Word) :
    OnlyEngine c s ((s.setEng c e).respond st rs) := by
  rw [OnlyEngine, State.respond_eng, State.setEng_eng_same]
  rfl

theorem State.setEng_ok_eng (s : State) (c : Channel) (e : EngineChannel) : (s.setEng c e).ok.eng c = e :=
  ((s.setEng c e).respond_eng c _ _).trans (s.setEng_eng_same c e)

/-- Settles O27: the fields of the word written, which is stored without the strobe. -/
theorem coalesceCommandsComplete : Obligations.CoalesceCommandsComplete := by
  refine ⟨fun s ch a b hs ha hb => ?_, fun _ _ _ _ => exec_setCoalesce_of_not_accepts, exec_getCoalesce_eq⟩
  obtain ⟨hcount, htimeout, hlow⟩ := fields_coalesceEdited s.cfg (s.eng ch).cr (b := b) ha
  refine ⟨_, exec_setCoalesce_of_accepts ha hb, rfl, onlyEngine_setEng_respond _ _ _ _ _, ?_⟩
  rw [State.setEng_ok_eng, EngineChannel.crWritten_coalesceWord s.cfg (s.eng ch) hs ha]
  exact ⟨rfl, and_lowHalf_of_crLow hlow, hcount, htimeout, rfl⟩

/-- R223: the fields read back after an accepted SET_COALESCE. -/
theorem fields_stored_of_byte (e : EngineChannel) {cfg : Cfg} (hc : cfg.wf = true) (ha : CoalesceAccepts cfg a)
    (hale : a.toNat ≤ 255) (hble : b.toNat ≤ 255) :
    (crCount (e.crWritten (coalesceWord cfg e.cr a b)).cr).setWidth 32 = a ∧
      (crTimeout (e.crWritten (coalesceWord cfg e.cr a b)).cr).setWidth 32 = b := by
  obtain ⟨hcount, htimeout, -⟩ := fields_coalesceEdited cfg e.cr (b := b) ha
  rw [if_neg (ne_noChange_of_byte hc hale)] at hcount
  rw [if_neg (ne_noChange_of_byte hc hble)] at htimeout
  rw [EngineChannel.crWritten, coalesceWord_and_not_strobe, crCount_and_not_strobe, crTimeout_and_not_strobe, hcount,
    htimeout]
  exact ⟨setWidth_setWidth_byte hale, setWidth_setWidth_byte hble⟩

/-- R220: 0 is no coalescing operand. -/
theorem not_coalesceAccepts_zero {cfg : Cfg} (hc : cfg.wf = true) : ¬ CoalesceAccepts cfg 0 := by
  rintro (h | ⟨h, -⟩)
  · exact ne_noChange_of_byte hc (by decide) h
  · exact absurd h (by decide)

/-- Settles O28: the fields as stored are the operands, and a SET_COALESCE that fails leaves `CR`. -/
theorem coalesceRoundTrip : Obligations.CoalesceRoundTrip := by
  refine ⟨fun s ch a b hc hapos hale hbpos hble => ?_, fun s t ch a b ht hne => ?_, fun s ch hc => ?_⟩
  · have ha : CoalesceAccepts s.cfg a := .inr ⟨hapos, hale⟩
    refine ⟨_, exec_setCoalesce_of_accepts ha (.inr ⟨hbpos, hble⟩), rfl, fun u hu => ?_⟩
    obtain ⟨hcount, htimeout⟩ := fields_stored_of_byte (s.eng ch) hc ha hale hble
    rw [exec_getCoalesce_eq, hu, State.setEng_ok_eng, hcount, htimeout]
  · have hfail : ¬ (CoalesceAccepts s.cfg a ∧ CoalesceAccepts s.cfg b) := fun ⟨ha, hb⟩ => by
      cases (exec_setCoalesce_of_accepts ha hb).symm.trans ht
      exact hne rfl
    cases (exec_setCoalesce_of_not_accepts hfail).symm.trans ht
    refine ⟨_, _, exec_getCoalesce_eq s ch, exec_getCoalesce_eq _ ch, ?_⟩
    have heng : State.eng { s with response := [8] } ch = s.eng ch := s.respond_eng ch .coalesceRange []
    rw [heng]
  · exact ⟨_, exec_setCoalesce_of_not_accepts fun h => not_coalesceAccepts_zero hc h.1, rfl,
      s.respond_eng ch .coalesceRange []⟩

end Commands

end Sys2Proof.Machine
end

section
/-! SUPPORT. IRQ_ENABLE, IRQ_DISABLE, IRQ_GET and IRQ_ACK (spec/43_coalesce_irq.md R224 to R227): the enable bits in `CR` and in
the shadow, the acknowledged channel, and the fields of the status word (spec/10_state.md R64). -/

namespace Sys2Proof.Machine

/-! ## The enables -/

section Enables

variable {s : State} {ch : Channel}

/-- R224, R225: a change of the enables that sets no strobe is stored as it is, and in the shadow alike. -/
theorem State.changeEnables_eq (f : Word → Word) (hf : f (s.eng ch).cr &&& strobe = 0) :
    s.changeEnables ch f =
      (s.setEng ch { s.eng ch with cr := f (s.eng ch).cr }).setRing ch
        { s.ring ch with irqMask := f (s.ring ch).irqMask } := by
  have hwrite : s.regWrite (.cr ch) (f (s.eng ch).cr) = s.setEng ch { s.eng ch with cr := f (s.eng ch).cr } :=
    (s.writeCr_eq ch _).trans (congrArg (s.setEng ch) ((s.eng ch).crWritten_of_strobe_clear hf))
  rw [← hwrite, ← s.regWrite_ring ch (.cr ch) (f (s.eng ch).cr)]
  rfl

/-- A change of one channel's enables completes. -/
theorem changeEnables_completes (f : Word → Word) (hf : f (s.eng ch).cr &&& strobe = 0) :
    OnlyRegisters ch s (s.changeEnables ch f).ok ∧
      (s.changeEnables ch f).ok.eng ch = { s.eng ch with cr := f (s.eng ch).cr } ∧
      (s.changeEnables ch f).ok.ring ch = { s.ring ch with irqMask := f (s.ring ch).irqMask } := by
  rw [State.changeEnables_eq f hf]
  cases ch with
  | tx => exact ⟨rfl, rfl, rfl⟩
  | rx => exact ⟨rfl, rfl, rfl⟩

/-- The four enables lie apart from the strobe. -/
theorem allEnable_and_strobe (mask : Word) : mask &&& allEnable &&& strobe = 0 := by
  rw [BitVec.and_assoc]
  exact BitVec.and_zero

theorem setEnables_and_strobe {v : Word} (mask : Word) (hv : v &&& strobe = 0) :
    (v ||| (mask &&& allEnable)) &&& strobe = 0 := by
  rw [BitVec.and_or_distrib_right, hv, allEnable_and_strobe]
  rfl

theorem clearEnables_and_strobe {v : Word} (m : Word) (hv : v &&& strobe = 0) : v &&& ~~~m &&& strobe = 0 := by
  rw [BitVec.and_assoc, BitVec.and_comm (~~~m), ← BitVec.and_assoc, hv]
  exact BitVec.zero_and

end Enables

/-! ## The acknowledgement -/

/-- R64, R227: of the bits named, the three of the acknowledgement mask count. -/
theorem irqAcknowledge_masked (e : EngineChannel) (mask : Word) :
    irqAcknowledge e (mask &&& irqAckMask) = { e with
      coalEvt := e.coalEvt - (if mask.getLsbD 0 then 1 else 0)
      dlyEvt := e.dlyEvt - (if mask.getLsbD 1 then 1 else 0)
      errLatch := e.errLatch && !mask.getLsbD 2 } := by
  have hbit (i : ℕ) (hi : irqAckMask.getLsbD i = true) : (mask &&& irqAckMask).getLsbD i = mask.getLsbD i := by
    rw [BitVec.getLsbD_and, hi, Bool.and_true]
  rw [irqAcknowledge, hbit 0 rfl, hbit 1 rfl, hbit 2 rfl]
  congr 1
  · split_ifs <;> rfl
  · split_ifs <;> rfl
  · cases mask.getLsbD 2 <;> simp

/-- Settles O29: the two changes of the enables write no strobe, and an acknowledgement is one write of `IRQ`. -/
theorem interruptCommandsComplete : Obligations.InterruptCommandsComplete := by
  refine ⟨fun s ch mask hs => ⟨_, rfl, rfl, changeEnables_completes _ (setEnables_and_strobe mask hs)⟩,
    fun s ch mask hs => ⟨_, rfl, rfl, changeEnables_completes _ (clearEnables_and_strobe _ hs)⟩,
    fun s ch mask => ⟨_, rfl, rfl, onlyEngine_setEng_respond s ch _ _ _, ?_⟩⟩
  exact (s.setEng_ok_eng ch _).trans (irqAcknowledge_masked (s.eng ch) mask)

/-! ## The status word -/

section StatusWord

variable (e : EngineChannel) (b : Bool) {i n : ℕ}

/-- A flag shows only in the fields its mask meets. -/
theorem extractLsb'_flagIf (x : Bool) {m : Word} (hm : m.extractLsb' i n = 0) : (flagIf x m).extractLsb' i n = 0 := by
  cases x
  · exact BitVec.extractLsb'_zero
  · exact hm

/-- The part of the status word that holds no flag: the two counts in their fields. -/
def irqCounts (e : EngineChannel) : Word :=
  ((BitVec.ofNat 2 e.dlyEvt).setWidth 32 <<< 8) ||| ((BitVec.ofNat 4 e.coalEvt).setWidth 32 <<< 10)

/-- R64: a field where no flag lies is one of the counts' part. -/
theorem extractLsb'_irqView (h : (0x4007 : Word).extractLsb' i n = 0) :
    (irqView e b).extractLsb' i n = (irqCounts e).extractLsb' i n := by
  have hflag (x : Bool) (m : Word) (hm : 0x4007 &&& m = m) : (flagIf x m).extractLsb' i n = 0#n := by
    refine extractLsb'_flagIf x ?_
    rw [← hm, BitVec.extractLsb'_and, h]
    exact BitVec.zero_and
  rw [irqView, irqCounts]
  simp only [BitVec.extractLsb'_or]
  rw [hflag _ 0x1 rfl, hflag _ 0x2 rfl, hflag _ 0x4 rfl, hflag _ 0x4000 rfl]
  simp only [BitVec.or_zero, BitVec.zero_or]

/-- Bits 9:8. -/
theorem irqView_delayField : (irqView e b).extractLsb' 8 2 = BitVec.ofNat 2 e.dlyEvt := by
  rw [extractLsb'_irqView e b rfl, irqCounts, BitVec.extractLsb'_or, extractLsb'_shiftLeft_same _ (by decide),
    extractLsb'_shiftLeft_below _ (by decide), BitVec.setWidth_setWidth_of_le _ (by decide), BitVec.setWidth_eq]
  exact BitVec.or_zero

/-- A count shown in `m` bits is less than `2 ^ m`. -/
theorem toNat_setWidth_ofNat_lt (m k : ℕ) : ((BitVec.ofNat m k).setWidth 32).toNat < 2 ^ m := by
  rw [BitVec.toNat_setWidth]
  exact (Nat.mod_le _ _).trans_lt (BitVec.ofNat m k).isLt

/-- Bits 13:10. -/
theorem irqView_coalesceField : (irqView e b).extractLsb' 10 4 = BitVec.ofNat 4 e.coalEvt := by
  rw [extractLsb'_irqView e b rfl, irqCounts, BitVec.extractLsb'_or,
    extractLsb'_shiftLeft_above (toNat_setWidth_ofNat_lt _ _) (by decide), extractLsb'_shiftLeft_same _ (by decide),
    BitVec.setWidth_setWidth_of_le _ (by decide), BitVec.setWidth_eq]
  exact BitVec.zero_or

/-- Bits 7:3. -/
theorem irqView_reservedLow : (irqView e b).extractLsb' 3 5 = 0 := by
  rw [extractLsb'_irqView e b rfl, irqCounts, BitVec.extractLsb'_or, extractLsb'_shiftLeft_below _ (by decide),
    extractLsb'_shiftLeft_below _ (by decide)]
  rfl

/-- Bits 31:15. -/
theorem irqView_reservedHigh : (irqView e b).extractLsb' 15 17 = 0 := by
  rw [extractLsb'_irqView e b rfl, irqCounts, BitVec.extractLsb'_or,
    extractLsb'_shiftLeft_above (toNat_setWidth_ofNat_lt _ _) (by decide),
    extractLsb'_shiftLeft_above (toNat_setWidth_ofNat_lt _ _) (by decide)]
  rfl

end StatusWord

/-- R64, R68: only the receive channel has a write-back to wait for. -/
theorem State.wrqEmpty_iff (s : State) (c : Channel) : s.wrqEmpty c = true ↔ c = .tx ∨ s.wbPending = none := by
  cases c <;> simp [State.wrqEmpty]

/-- Settles O30: the status word field by field. -/
theorem irqGetCompletes : Obligations.IrqGetCompletes := by
  intro s ch
  obtain ⟨hcoal, hdly, herr⟩ := irqView_latches (s.eng ch) (s.wrqEmpty ch)
  refine ⟨s.irqValue ch, rfl, ?_, ?_, herr, irqView_reservedLow _ _, ?_, ?_, ?_, irqView_reservedHigh _ _⟩
  · rw [State.irqValue, hcoal, bne_iff_ne]
  · rw [State.irqValue, hdly, bne_iff_ne]
  · rw [State.irqValue, irqView_delayField, BitVec.toNat_ofNat]
  · rw [State.irqValue, irqView_coalesceField, BitVec.toNat_ofNat]
  · rw [State.irqValue, irqView_wrqEmpty, State.wrqEmpty_iff]

end Sys2Proof.Machine
end

section
/-! SUPPORT. The neighbours of a descriptor (spec/20_memory.md R102, R103) and its distance from a head, by which exactly one
ownership group holds it (spec/44_access.md R248). -/

namespace Sys2Proof.Machine

section LaidOut

variable {r : Ring}

/-! ## Neighbours -/

theorem Ring.bdAddr_succ (r : Ring) (k : Nat) : r.bdAddr (k + 1) = r.bdAddr k + r.separation := by
  rw [Ring.bdAddr, Ring.bdAddr, BitVec.ofNat_add, BitVec.add_mul, BitVec.one_mul, BitVec.add_assoc]

theorem Ring.LaidOut.bdAddr_inj (h : r.LaidOut) {j k : Nat} (hj : j < r.count.toNat) (hk : k < r.count.toNat) :
    r.bdAddr j = r.bdAddr k ↔ j = k :=
  ⟨fun he => by rw [← h.idx_bdAddr hj, he, h.idx_bdAddr hk], congrArg r.bdAddr⟩

/-- R102: one stride on, and around the end. -/
theorem Ring.LaidOut.nxt_eq (h : r.LaidOut) {a : Word} (ha : r.isBd a = true) :
    r.nxt a = if a = r.lastVirt then r.firstVirt else a + r.separation := by
  have hpos := h.count_pos
  obtain ⟨k, hk, rfl⟩ := (h.isBd_iff a).1 ha
  rw [Ring.nxt, h.adv_bdAddr hk hpos, h.lastVirt_eq]
  simp only [h.bdAddr_inj hk (Nat.sub_one_lt_of_lt hpos)]
  split_ifs with hlast
  · rw [hlast, Nat.sub_add_cancel hpos, Nat.mod_self, Ring.bdAddr_zero]
  · rw [Nat.mod_eq_of_lt (by omega), Ring.bdAddr_succ]

/-- R103: one stride back, and around the start. -/
theorem Ring.LaidOut.prv_eq (h : r.LaidOut) {a : Word} (ha : r.isBd a = true) :
    r.prv a = if a = r.firstVirt then r.lastVirt else a - r.separation := by
  have hpos := h.count_pos
  obtain ⟨k, hk, rfl⟩ := (h.isBd_iff a).1 ha
  rw [Ring.prv, h.ret_bdAddr hk hpos, ← r.bdAddr_zero]
  simp only [h.bdAddr_inj hk hpos]
  split_ifs with hfirst
  · rw [hfirst, Nat.zero_add, Nat.mod_eq_of_lt (Nat.sub_one_lt_of_lt hpos), h.lastVirt_eq]
  · obtain ⟨j, rfl⟩ := Nat.exists_eq_succ_of_ne_zero hfirst
    rw [show j.succ + r.count.toNat - 1 = j + r.count.toNat by omega, Nat.add_mod_right,
      Nat.mod_eq_of_lt (by omega), Nat.succ_eq_add_one, Ring.bdAddr_succ, BitVec.add_sub_cancel]

theorem Ring.LaidOut.isBd_nxt (h : r.LaidOut) {a : Word} (ha : r.isBd a = true) : r.isBd (r.nxt a) = true :=
  h.isBd_adv ha h.count_pos

theorem Ring.LaidOut.isBd_prv (h : r.LaidOut) {a : Word} (ha : r.isBd a = true) : r.isBd (r.prv a) = true :=
  h.isBd_ret ha h.count_pos

theorem Ring.LaidOut.prv_nxt (h : r.LaidOut) {a : Word} (ha : r.isBd a = true) : r.prv (r.nxt a) = a :=
  (h.ret_adv ha le_rfl h.count_pos).trans (h.adv_zero ha)

theorem Ring.LaidOut.nxt_prv (h : r.LaidOut) {a : Word} (ha : r.isBd a = true) : r.nxt (r.prv a) = a := by
  have hpos := h.count_pos
  rw [Ring.nxt, Ring.prv, h.ret_eq_adv ha hpos, h.adv_adv ha (by omega), Nat.sub_add_cancel hpos, h.adv_count ha]

/-! ## Distances -/

/-- R248: a distance is the difference of the indices modulo the count. -/
theorem Ring.LaidOut.distance_eq (h : r.LaidOut) (head a : Word) :
    (r.distance head a : Int) = ((r.idx a : Int) - r.idx head) % r.count.toNat :=
  Int.toNat_of_nonneg (Int.emod_nonneg _ (Int.natCast_ne_zero.2 h.count_pos.ne'))

theorem Ring.LaidOut.distance_lt (h : r.LaidOut) (head a : Word) : r.distance head a < r.count.toNat := by
  have hlt := Int.emod_lt_of_pos ((r.idx a : Int) - r.idx head) (Int.natCast_pos.2 h.count_pos)
  rw [← h.distance_eq] at hlt
  exact Int.ofNat_lt.1 hlt

/-- A head moved `m` on is `m` nearer, modulo the count. -/
theorem Ring.LaidOut.distance_adv (h : r.LaidOut) {head : Word} (hh : r.isBd head = true) (a : Word) {m : Nat}
    (hm : m ≤ r.count.toNat) :
    (r.distance (r.adv head m) a : Int) = ((r.distance head a : Int) - m) % r.count.toNat := by
  rw [h.distance_eq, h.distance_eq, h.adv_eq hh hm, h.idx_bdAddr (Nat.mod_lt _ h.count_pos), Int.natCast_emod,
    Int.natCast_add, Int.sub_emod_emod, Int.emod_sub_emod, Int.sub_sub]

/-- R46: the `n` descriptors from `m` on after a head are those at the distances `m` to `m + n - 1` from it. -/
theorem Ring.LaidOut.distance_adv_lt_iff (h : r.LaidOut) {head : Word} (hh : r.isBd head = true) (a : Word) {m n : Nat}
    (hmn : m + n ≤ r.count.toNat) :
    r.distance (r.adv head m) a < n ↔ m ≤ r.distance head a ∧ r.distance head a < m + n := by
  have hlt := h.distance_lt head a
  have hadv := h.distance_adv hh a (show m ≤ r.count.toNat by omega)
  rcases Nat.lt_or_ge (r.distance head a) m with hbefore | hafter
  · rw [← Int.add_emod_right, Int.emod_eq_of_lt (by omega) (by omega)] at hadv
    omega
  · rw [Int.emod_eq_of_lt (by omega) (by omega)] at hadv
    omega

/-! ## Groups -/

/-- R46: the heads of the other three groups, from the Post-process group's. -/
theorem Ring.Partitioned.heads_eq (hp : r.Partitioned) (h : r.LaidOut) :
    r.hwHead = r.adv r.postHead r.postCount.toNat ∧
      r.preHead = r.adv r.postHead (r.postCount.toNat + r.hwCount.toNat) ∧
      r.freeHead = r.adv r.postHead (r.postCount.toNat + r.hwCount.toNat + r.preCount.toNat) := by
  have hsum := hp.count_sum
  have hpre : r.preHead = r.adv r.postHead (r.postCount.toNat + r.hwCount.toNat) := by
    rw [← h.adv_adv hp.postHead_isBd (by omega), hp.post_to_hw, hp.hw_to_pre]
  refine ⟨hp.post_to_hw.symm, hpre, ?_⟩
  rw [← h.adv_adv hp.postHead_isBd (by omega), ← hpre, hp.pre_to_free]

/-- R46, R248: from the head of the Post-process group on, the other three groups are adjoining ranges of distances. -/
theorem Ring.Partitioned.distance_lt_iff (hp : r.Partitioned) (h : r.LaidOut) (a : Word) :
    (r.distance r.hwHead a < r.hwCount.toNat ↔ r.postCount.toNat ≤ r.distance r.postHead a ∧
      r.distance r.postHead a < r.postCount.toNat + r.hwCount.toNat) ∧
    (r.distance r.preHead a < r.preCount.toNat ↔ r.postCount.toNat + r.hwCount.toNat ≤ r.distance r.postHead a ∧
      r.distance r.postHead a < r.postCount.toNat + r.hwCount.toNat + r.preCount.toNat) ∧
    (r.distance r.freeHead a < r.freeCount.toNat ↔
      r.postCount.toNat + r.hwCount.toNat + r.preCount.toNat ≤ r.distance r.postHead a) := by
  have hsum := hp.count_sum
  have hlt := h.distance_lt r.postHead a
  have hbd := hp.postHead_isBd
  obtain ⟨hhw, hpre, hfree⟩ := hp.heads_eq h
  rw [hhw, hpre, hfree]
  refine ⟨h.distance_adv_lt_iff hbd a (by omega), h.distance_adv_lt_iff hbd a (by omega), ?_⟩
  rw [h.distance_adv_lt_iff hbd a (by omega)]
  omega

end LaidOut

/-- Settles O58: the four ranges of distances from the head of the Post-process group meet nowhere and leave none out. -/
theorem groupsPartition : Obligations.GroupsPartition := by
  intro r a h hp _
  obtain ⟨hhw, hpre, hfree⟩ := hp.distance_lt_iff h a
  simp only [Ring.group, hhw, hpre, hfree]
  split_ifs
  · simp only [true_iff, false_iff]; omega
  · simp only [true_iff, false_iff]; omega
  · simp only [true_iff, false_iff]; omega
  · simp only [true_iff, false_iff]; omega

end Sys2Proof.Machine
end

section
/-! SUPPORT. BD_RD, BD_WR, BD_NEXT and BD_PREV (spec/44_access.md R240 to R243) where their checks pass, and the bytes that a
write of one descriptor word leaves (spec/20_memory.md R88, R93). -/

namespace Sys2Proof.Machine

/-! ## One word written -/

section Write

variable {s : State} {c : Channel} {bd : Word} {w : Nat}

/-- R88, R93: a write reaches the four bytes of its word at most. -/
theorem State.bdWrite_bytesKept_word (v : Word) : BytesKeptOutside (s.wordAddr c bd w) 4 s (s.bdWrite c bd w v) := by
  by_cases h : s.cfg.cached = true ∧ w < 8
  · rw [State.bdWrite_of_cached h.1 h.2]
    exact .of_mem (s.putLine_mem c _)
  · rw [State.bdWrite_of_direct h]
    exact fun b hb => Memory.readByte_writeWord_other _ _ _ _ b hb

/-- R93: a write through the cache leaves memory. -/
theorem State.bdWrite_mem_of_cached (hc : s.cfg.cached = true) (hw : w < 8) (v : Word) :
    (s.bdWrite c bd w v).mem = s.mem := by
  rw [State.bdWrite_of_cached hc hw, State.putLine_mem]

/-- A write to one descriptor of a laid-out ring leaves the host's view of every other word of the ring's descriptors. -/
theorem State.hostWord_bdWrite_ne (hl : (s.ring c).LaidOut) (hbd : (s.ring c).isBd bd = true) (hw : w ≤ 8) (v : Word)
    {d : Word} {k : Nat} (hd : (s.ring c).isBd d = true) (hk : k ≤ 8) (hne : d ≠ bd ∨ k ≠ w) :
    (s.bdWrite c bd w v).hostWord c d k = s.hostWord c d k := by
  by_cases he : d = bd
  · subst he
    exact s.hostWord_bdWrite_other c d v hw hk (hne.resolve_left fun hf => hf rfl)
  · have hacc := s.bdWrite_accessesOf c bd hw v
    obtain ⟨i, hi, rfl⟩ := (hl.isBd_iff bd).1 hbd
    obtain ⟨j, hj, rfl⟩ := (hl.isBd_iff d).1 hd
    have hji : j ≠ i := fun e => he (congrArg _ e)
    exact ((hacc.mono fun _ => hl.strideByte_of_ownByte).word_other hl hj hi hji hk).2

end Write

/-- A sound ring with a descriptor is laid out. -/
theorem Ring.Sound.laidOut_of_isBd {r : Ring} (h : r.Sound) {bd : Word} (hbd : r.isBd bd = true) : r.LaidOut := by
  rcases h with hu | ⟨hl, -⟩
  · simp [Ring.isBd, hu.count_eq] at hbd
  · exact hl

/-! ## The commands -/

section Commands

variable {s : State} {ch : Channel} {bd w : Word}

/-- R240, R241: the first check of BD_RD and BD_WR. -/
theorem badHandle_iff : ((s.ring ch).isBd bd = false ∨ wordIndexOk w = false) ↔
    ((s.ring ch).isBd bd = false ∨ 8 < w.toNat) := by
  simp [wordIndexOk]

theorem not_badHandle (hbd : (s.ring ch).isBd bd = true) (hw : w.toNat ≤ 8) :
    ¬ ((s.ring ch).isBd bd = false ∨ wordIndexOk w = false) := by
  simp [wordIndexOk, hbd, hw]

theorem exec_bdRd_of_readable (hbd : (s.ring ch).isBd bd = true) (hw : w.toNat ≤ 8) (hg : (s.ring ch).group bd ≠ .hw) :
    exec (.bdRd ch bd w) s =
      .next ((s.bdRead ch bd w.toNat).2.respond .ok [(s.bdRead ch bd w.toNat).1]) :=
  (if_neg (not_badHandle hbd hw)).trans (if_neg hg)

theorem exec_bdWr_of_writable (value : Word) (hbd : (s.ring ch).isBd bd = true) (hw : w.toNat ≤ 8)
    (hg : (s.ring ch).group bd = .pre) (hz : w ≠ 0) :
    exec (.bdWr ch bd w value) s = .next (s.bdWrite ch bd w.toNat value).ok :=
  (if_neg (not_badHandle hbd hw)).trans ((if_neg (not_not.2 hg)).trans (if_neg hz))

theorem exec_bdNext_of_isBd (hbd : (s.ring ch).isBd bd = true) :
    exec (.bdNext ch bd) s = .next { s with response := [0, (s.ring ch).nxt bd] } := if_pos hbd

theorem exec_bdPrev_of_isBd (hbd : (s.ring ch).isBd bd = true) :
    exec (.bdPrev ch bd) s = .next { s with response := [0, (s.ring ch).prv bd] } := if_pos hbd

end Commands

/-- Settles O33: the read answers the host's view and is the command's only access. -/
theorem bdReadCompletes : Obligations.BdReadCompletes := by
  intro s ch bd w hbd hw hg
  obtain ⟨hval, hview⟩ := s.bdRead_hostWord ch bd w.toNat
  refine ⟨_, exec_bdRd_of_readable hbd hw hg, ?_, (s.bdRead_readsOf ch bd _).onlyCopies _ _, fun d k => ?_⟩
  · rw [State.respond_response, hval]
    rfl
  · rw [State.hostWord_respond, hview]

/-- Settles O34: the write is the command's only access, and the descriptors of a laid-out ring share no byte. -/
theorem bdWriteCompletes : Obligations.BdWriteCompletes := by
  intro s ch bd w value hs hbd hw hg hz
  have hl := hs.laidOut_of_isBd hbd
  have hacc := s.bdWrite_accessesOf ch bd hw value
  have hframe := hacc.channel.frame
  refine ⟨_, exec_bdWr_of_writable value hbd hw hg hz, rfl, ?_, fun d k hd hk hne => ?_, State.bdWrite_bytesKept_word value,
    fun hc hlt => State.bdWrite_mem_of_cached hc hlt value, hframe.ring ch, hframe.eng ch, ?_⟩
  · rw [State.ok, State.hostWord_respond, State.hostWord_bdWrite_same]
  · rw [State.ok, State.hostWord_respond, State.hostWord_bdWrite_ne hl hbd hw value hd hk hne]
  · refine DescriptorsOf.onlyChannelMemory (r := s.ring ch) ?_ _ _
    rw [State.setRing_self]
    exact hacc.channel

/-- Settles O35: the neighbours of a descriptor are descriptors, which the other command takes back. -/
theorem bdNextPrevComplete : Obligations.BdNextPrevComplete := by
  intro s ch bd h hbd
  have hnx := h.isBd_nxt hbd
  have hpv := h.isBd_prv hbd
  have hback := exec_bdPrev_of_isBd hnx
  have hforth := exec_bdNext_of_isBd hpv
  rw [h.prv_nxt hbd] at hback
  rw [h.nxt_prv hbd] at hforth
  exact ⟨_, _, h.nxt_eq hbd, h.prv_eq hbd, exec_bdNext_of_isBd hbd, exec_bdPrev_of_isBd hbd, hnx, hpv, hback, hforth⟩

end Sys2Proof.Machine
end

section
/-! SUPPORT. RING_STAT, REG_RD and NOP, and the checks of the access commands (spec/44_access.md R240 to R247): the fields of a
ring by their selectors, and the registers by their offsets (spec/10_state.md R59 to R65). -/

namespace Sys2Proof.Machine

/-! ## Selectors -/

/-- R244: every selector up to 19 names a field. -/
theorem Ring.exists_field (r : Ring) {sel : Word} (h : sel.toNat ≤ 19) : ∃ v, r.field sel = some v :=
  ⟨_, List.getElem?_eq_getElem (Nat.lt_succ_of_le h)⟩

theorem Ring.field_eq_none (r : Ring) {sel : Word} (h : 19 < sel.toNat) : r.field sel = none :=
  List.getElem?_eq_none h

theorem exec_ringStat_of_field {s : State} {ch : Channel} {sel v : Word} (h : (s.ring ch).field sel = some v) :
    exec (.ringStat ch sel) s = .next { s with response := [0, v] } := by
  simp only [exec, execRingStat, h]
  rfl

theorem exec_ringStat_of_none {s : State} {ch : Channel} {sel : Word} (h : (s.ring ch).field sel = none) :
    exec (.ringStat ch sel) s = .next { s with response := [17, 0] } := by
  simp only [exec, execRingStat, h]
  rfl

theorem RunState.code_eq (x : RunState) : x.code = if x = .started then 1 else 0 := by
  cases x <;> rfl

/-- Settles O37: a selector in range names one field, which the response holds. -/
theorem ringStatReadsEveryField : Obligations.RingStatReadsEveryField := by
  intro s ch sel hsel
  obtain ⟨v, hv⟩ := (s.ring ch).exists_field hsel
  have names (k x : Word) (hk : (s.ring ch).field k = some x) : sel = k → v = x := by
    rintro rfl
    exact Option.some.inj (hv.symm.trans hk)
  refine ⟨v, exec_ringStat_of_field hv, names 0 _ rfl, names 1 _ rfl, fun h2 => ?_, names 3 _ rfl, names 4 _ rfl,
    names 5 _ rfl, names 6 _ rfl, names 7 _ rfl, names 8 _ rfl, names 9 _ rfl, names 10 _ rfl, names 11 _ rfl,
    names 12 _ rfl, names 13 _ rfl, names 14 _ rfl, names 15 _ rfl, names 16 _ rfl, fun h17 => ?_, names 18 _ rfl,
    names 19 _ rfl⟩
  · rw [names 2 _ rfl h2, BitVec.toNat_setWidth]
  · rw [names 17 _ rfl h17, RunState.code_eq]

/-! ## Register offsets -/

/-- R59: the offset of a register leads to it. -/
theorem Reg.ofOffset_offset (x : Reg) : Reg.ofOffset x.offset = some x := by
  cases x with
  | dmacr => rfl
  | _ c => cases c <;> rfl

/-- R59: the registers are words from 0 to 0x40. -/
theorem Reg.offset_aligned_le (x : Reg) : x.offset.toNat % 4 = 0 ∧ x.offset.toNat ≤ 0x40 := by
  cases x with
  | dmacr => decide
  | _ c => cases c <;> decide

/-- R245, R246: no other offset names a register. -/
theorem Reg.ofOffset_eq_none {off : Word} (h : off.toNat % 4 ≠ 0 ∨ 0x40 < off.toNat) : Reg.ofOffset off = none := by
  refine List.find?_eq_none.2 fun x _ hx => ?_
  obtain ⟨haligned, hle⟩ := x.offset_aligned_le
  rw [beq_iff_eq.1 hx] at haligned hle
  omega

theorem exec_regRd_offset (s : State) (x : Reg) :
    exec (.regRd x.offset) s = .next ((s.regRead x).2.respond .ok [(s.regRead x).1]) := by
  simp only [exec, execRegRd, x.ofOffset_offset]

theorem exec_regRd_of_none (s : State) {off : Word} (h : Reg.ofOffset off = none) :
    exec (.regRd off) s = .next { s with response := [17, 0] } := by
  simp only [exec, execRegRd, h]
  rfl

theorem exec_regWr_of_none (s : State) {off : Word} (value : Word) (h : Reg.ofOffset off = none) :
    exec (.regWr off value) s = .next { s with response := [17] } := by
  simp only [exec, execRegWr, h]
  rfl

/-- R65: bit 1 of the status register is `BUSY`, whatever the draw. -/
theorem srView_busy (e : EngineChannel) (draw : Word) : (srView e draw).getLsbD 1 = true ↔ e.engState = .run := by
  rw [srView, BitVec.getLsbD_or, BitVec.getLsbD_and, show (~~~(2 : Word)).getLsbD 1 = false from rfl, Bool.and_false,
    Bool.false_or]
  cases e.engState <;> decide

/-- Settles O38, register by register. -/
theorem regReadEveryRegister : Obligations.RegReadEveryRegister := by
  refine ⟨fun s c base hbase => ?_, fun s => exec_regRd_offset s .dmacr⟩
  have hchan : base = chanBase c := hbase.trans (by cases c <;> rfl)
  subst hchan
  have hndesc := exec_regRd_offset s (.ndesc c)
  rw [show (Reg.ndesc c).offset = chanBase c from BitVec.add_zero _] at hndesc
  refine ⟨exec_regRd_offset s (.cdesc c), exec_regRd_offset s (.tdesc c), exec_regRd_offset s (.cr c),
    exec_regRd_offset s (.irq c), ⟨_, srView_busy _ _, exec_regRd_offset s (.sr c)⟩, fun off hoff => ?_⟩
  simp only [List.mem_cons, List.not_mem_nil, or_false] at hoff
  obtain rfl | rfl | rfl := hoff
  · exact ⟨_, hndesc⟩
  · exact ⟨_, exec_regRd_offset s (.bufa c)⟩
  · exact ⟨_, exec_regRd_offset s (.bufl c)⟩

/-! ## The checks, and NOP -/

/-- Settles O36: each check stands before the command's access. -/
theorem accessFailures : Obligations.AccessFailures := by
  refine ⟨fun s ch bd w value h => ?_, fun s ch bd w hbd hw hg => ?_, fun s ch bd w value hbd hw h => ?_,
    fun s ch bd hbd => ?_, fun s ch sel hsel => ?_, fun s off value h => ?_⟩
  · exact ⟨if_pos (badHandle_iff.2 h), if_pos (badHandle_iff.2 h)⟩
  · exact (if_neg (not_badHandle hbd hw)).trans (if_pos hg)
  · refine (if_neg (not_badHandle hbd hw)).trans ?_
    by_cases hg : (s.ring ch).group bd = .pre
    · exact (if_neg (not_not.2 hg)).trans (if_pos (h.resolve_left fun hne => hne hg))
    · exact if_pos hg
  · exact ⟨if_neg (by simp [hbd]), if_neg (by simp [hbd])⟩
  · exact exec_ringStat_of_none ((s.ring ch).field_eq_none hsel)
  · exact ⟨exec_regRd_of_none s (Reg.ofOffset_eq_none h), exec_regWr_of_none s value (Reg.ofOffset_eq_none h)⟩

/-- Settles O32: the word 0 is NOP's encoding, which decodes to it. -/
theorem nopCompletes : Obligations.NopCompletes :=
  ⟨fun _ => rfl, rfl, fun rest => decodeOfEncode .nop rest rfl⟩

end Sys2Proof.Machine
end

section
/-! SUPPORT. REG_WR (spec/44_access.md R246): the write of each engine register as what it makes of one channel, the kick
(spec/45_engine_agent.md R262), and the software reset from its start to `EngResetDone` (R276, R277). -/

namespace Sys2Proof.Machine

/-! ## The command -/

section Command

variable {s : State} {c : Channel} {v : Word}

theorem exec_regWr_offset (s : State) (x : Reg) (v : Word) :
    exec (.regWr x.offset v) s = .next (s.regWrite x v).ok := by
  simp only [exec, execRegWr, x.ofOffset_offset]

/-- REG_WR of a register of one channel completes and changes that channel only. -/
theorem exec_regWr_of_setEng {x : Reg} {e : EngineChannel} (h : s.regWrite x v = s.setEng c e) :
    ∃ t, exec (.regWr x.offset v) s = .next t ∧ t.response = [0] ∧ OnlyEngine c s t ∧ t.eng c = e := by
  refine ⟨_, exec_regWr_offset s x v, rfl, ?_, ?_⟩
  · rw [h]
    exact onlyEngine_setEng_respond s c e .ok []
  · rw [h, State.setEng_ok_eng]

/-- R60, R65, R66: the registers that no write changes. -/
theorem exec_regWr_readOnly (s : State) (c : Channel) (v : Word) :
    ∀ x ∈ [Reg.ndesc c, .bufa c, .bufl c, .sr c], exec (.regWr x.offset v) s = .next { s with response := [0] } := by
  intro x hx
  rw [exec_regWr_offset]
  simp only [List.mem_cons, List.not_mem_nil, or_false] at hx
  obtain rfl | rfl | rfl | rfl := hx <;> rfl

end Command

/-! ## One channel after a write -/

/-- R64: of the value written, the three latch bits count. -/
theorem irqAcknowledge_eq (e : EngineChannel) (v : Word) :
    irqAcknowledge e v = { e with
      coalEvt := e.coalEvt - (if v.getLsbD 0 then 1 else 0)
      dlyEvt := e.dlyEvt - (if v.getLsbD 1 then 1 else 0)
      errLatch := e.errLatch && !v.getLsbD 2 } := by
  have hmask : irqAcknowledge e v = irqAcknowledge e (v &&& irqAckMask) := by
    simp [irqAcknowledge, irqAckMask]
  rw [hmask, irqAcknowledge_masked]

/-- R263: a write of `CDESC` moves a channel that does not run. -/
theorem EngineChannel.cdescWritten_eq (e : EngineChannel) (v : Word) :
    e.cdescWritten v = { e with cdesc := if e.engState = .run then e.cdesc else v } := by
  unfold EngineChannel.cdescWritten
  split_ifs <;> rfl

section Kick

variable (dmacr : Word) (resetting : Bool) (e : EngineChannel) (v : Word)

/-- R262: the kick stores the tail, and else changes at most the run state. -/
theorem kicked_eq : kicked dmacr resetting e v =
    { e with tdesc := v, engState := (kicked dmacr resetting e v).engState } := by
  unfold kicked
  split_ifs <;> rfl

theorem kicked_engState : (kicked dmacr resetting e v).engState =
    if dmacr.getLsbD 2 = true ∧ resetting = false ∧ e.engState = .idle then .run else e.engState := by
  unfold kicked
  split_ifs <;> rfl

theorem kicked_engState_ne_iff : (kicked dmacr resetting e v).engState ≠ e.engState ↔
    dmacr.getLsbD 2 = true ∧ resetting = false ∧ e.engState = .idle := by
  rw [kicked_engState]
  split_ifs with h
  · have ⟨_, _, hidle⟩ := h
    exact iff_of_true (by rw [hidle]; decide) h
  · exact iff_of_false (fun hne => hne rfl) h

theorem kicked_engState_of_ne (h : (kicked dmacr resetting e v).engState ≠ e.engState) :
    (kicked dmacr resetting e v).engState = .run := by
  rw [kicked_engState, if_pos ((kicked_engState_ne_iff dmacr resetting e v).1 h)]

end Kick

/-! ## The statements -/

/-- Settles O39: one channel after each write, and the registers that no write changes. -/
theorem regWriteControlRegisters : Obligations.RegWriteControlRegisters := by
  intro s c base v hbase
  have hchan : base = chanBase c := hbase.trans (by cases c <;> rfl)
  subst hchan
  have hirq : s.regWrite (.irq c) v = s.setEng c (irqAcknowledge (s.eng c) v) := rfl
  rw [irqAcknowledge_eq] at hirq
  refine ⟨exec_regWr_of_setEng (x := .cr c) (s.writeCr_eq c v), exec_regWr_of_setEng hirq, fun off hoff => ?_⟩
  have hro := exec_regWr_readOnly s c v
  have hndesc : (Reg.ndesc c).offset = chanBase c := BitVec.add_zero _
  simp only [List.forall_mem_cons, hndesc] at hro
  obtain ⟨hnd, hba, hbl, hsr, -⟩ := hro
  simp only [List.mem_cons, List.not_mem_nil, or_false] at hoff
  obtain rfl | rfl | rfl | rfl := hoff
  · exact hnd
  · exact hba
  · exact hbl
  · exact hsr

/-- Settles O40: the kick of R262, and the position of a channel that does not run. -/
theorem regWritePointers : Obligations.RegWritePointers := by
  intro s c base v hbase
  have hchan : base = chanBase c := hbase.trans (by cases c <;> rfl)
  subst hchan
  have hcdesc := s.regWrite_cdesc_eq c v
  rw [EngineChannel.cdescWritten_eq] at hcdesc
  refine ⟨?_, exec_regWr_of_setEng hcdesc⟩
  obtain ⟨t, hexec, hresp, honly, heng⟩ := exec_regWr_of_setEng (x := .tdesc c) (s.writeTdesc_eq_kicked c v)
  refine ⟨t, hexec, hresp, honly, ?_⟩
  rw [heng]
  exact ⟨kicked_eq _ _ _ _, kicked_engState_ne_iff _ _ _ _, kicked_engState_of_ne _ _ _ _⟩

/-- R276: what `SwResetStart` sets and what it leaves. -/
theorem State.swResetStart_eq (s : State) : s.swResetStart =
    { s with dmacr := 1, resetting := true, wbPending := none, txEng := s.swResetStart.txEng
             rxEng := s.swResetStart.rxEng, drawCtr := s.swResetStart.drawCtr } := s.swResetStart_frame

/-- Settles O41: the three cases of the write of `DMACR`, and the engine's end of the reset. -/
theorem softwareReset : Obligations.SoftwareReset := by
  refine ⟨fun s v hr => ?_, fun s v hr hv => ?_, fun s v hr hv => ?_, fun s q h => ?_⟩
  · have hwrite : s.regWrite .dmacr v = s := if_pos hr
    exact (exec_regWr_offset s .dmacr v).trans (by rw [hwrite]; rfl)
  · exact (exec_regWr_offset s .dmacr v).trans (by rw [s.regWrite_dmacr_of_running hr v hv]; rfl)
  · have hwrite : s.regWrite .dmacr v = s.swResetStart := (if_neg (by simp [hr])).trans (if_pos hv)
    refine ⟨s.swResetStart.ok, (exec_regWr_offset s .dmacr v).trans (by rw [hwrite]), fun c => ?_,
      congrArg State.ok s.swResetStart_eq⟩
    obtain ⟨cd, td, he⟩ := s.swResetStart_eng c
    rw [State.ok, State.respond_eng, he]
  · exact step_of_engineReady s q .resetDone h

end Sys2Proof.Machine
end

section
/-! SUPPORT. The parts of the engine's steps as what they make of one channel's registers (spec/45_engine_agent.md R265 to R275):
the count of a unit, the events, the halt and the advance, each with what it keeps. -/

namespace Sys2Proof.Machine

namespace EngineChannel

/-! ## One channel -/

/-- R265, R267, R270, R274: the error latched and the channel halted. -/
def halted (e : EngineChannel) : EngineChannel := { e with errLatch := true, engState := .halt }

/-- R274: a coalesce event counted, or at the counter's maximum lost or turned into an error. -/
def coalesced (cfg : Cfg) (lossy : Bool) (e : EngineChannel) : EngineChannel :=
  if e.coalEvt < 2 ^ cfg.coalEvtBits - 1 then { e with coalEvt := e.coalEvt + 1 }
  else if lossy then e
  else e.halted

/-- R274: a delay event counted, or at the counter's maximum lost or turned into an error. -/
def delayed (cfg : Cfg) (lossy : Bool) (e : EngineChannel) : EngineChannel :=
  if e.dlyEvt < 2 ^ cfg.dlyEvtBits - 1 then { e with dlyEvt := e.dlyEvt + 1 }
  else if lossy then e
  else e.halted

/-- R272: a completion counted toward the threshold. -/
def counted (cfg : Cfg) (lossy : Bool) (sts : Word) (e : EngineChannel) : EngineChannel :=
  if isUnit cfg.coalesceUnit sts then
    if e.coalCtr ≤ 1 then { e.coalesced cfg lossy with coalCtr := crCount e.cr, dlyArmed := false }
    else { e with coalCtr := e.coalCtr - 1, dlyArmed := true }
  else e

/-- R266: the position moved from `d` to `nx`. -/
def advanced (d nx : Word) (e : EngineChannel) : EngineChannel :=
  { e with cdesc := nx, engState := if e.engState = .run ∧ d = e.tdesc then .idle else e.engState }

section Kept

variable (cfg : Cfg) (lossy : Bool) (sts d nx : Word) (e : EngineChannel)

theorem coalesced_cr : (e.coalesced cfg lossy).cr = e.cr := by
  unfold coalesced
  split_ifs <;> rfl

/-- R272, R274: the channel after a completion, below the threshold and at it. -/
theorem counted_eq : e.counted cfg lossy sts =
    if isUnit cfg.coalesceUnit sts = false then e
    else if 1 < e.coalCtr.toNat then { e with coalCtr := e.coalCtr - 1, dlyArmed := true }
    else if e.coalEvt < 2 ^ cfg.coalEvtBits - 1 then
      { e with coalEvt := e.coalEvt + 1, coalCtr := crCount e.cr, dlyArmed := false }
    else if lossy then { e with coalCtr := crCount e.cr, dlyArmed := false }
    else { e with errLatch := true, engState := .halt, coalCtr := crCount e.cr, dlyArmed := false } := by
  have hle : e.coalCtr ≤ 1 ↔ ¬ 1 < e.coalCtr.toNat := by
    rw [BitVec.le_def, not_lt]
    rfl
  unfold counted
  cases isUnit cfg.coalesceUnit sts with
  | false => rfl
  | true =>
    simp only [hle, ite_not, coalesced, if_true, Bool.true_eq_false, if_false]
    split_ifs <;> rfl

/-- Counting leaves the tail and `CR`. -/
theorem counted_registers : (e.counted cfg lossy sts).tdesc = e.tdesc ∧ (e.counted cfg lossy sts).cr = e.cr := by
  rw [counted_eq]
  split_ifs <;> exact ⟨rfl, rfl⟩

/-- R274: counting leaves the run state, or halts. -/
theorem counted_engState :
    (e.counted cfg lossy sts).engState = e.engState ∨ (e.counted cfg lossy sts).engState = .halt := by
  rw [counted_eq]
  split_ifs
  iterate 4 exact .inl rfl
  exact .inr rfl

/-- R266: a channel that runs or is halted, after an advance. -/
theorem advanced_of_active (h : e.engState ≠ .idle) : e.advanced d nx =
    { e with
      cdesc := nx
      engState := if e.engState = .halt then .halt else if d = e.tdesc then .idle else .run } := by
  unfold advanced
  cases hs : e.engState with
  | idle => exact absurd hs h
  | run => simp
  | halt => simp

end Kept

end EngineChannel

/-! ## The state -/

section Parts

variable (s : State) (c : Channel)

theorem State.haltWithError_eq : s.haltWithError c = s.setEng c (s.eng c).halted := rfl

theorem State.advance_eq (d nx : Word) : s.advance c d nx = s.setEng c ((s.eng c).advanced d nx) := by
  simp [State.advance, EngineChannel.advanced]

theorem State.coalesceEvent_eq :
    s.coalesceEvent c = s.setEng c ((s.eng c).coalesced s.cfg (ovfErrDisIn s.dmacr c)) := by
  simp only [State.coalesceEvent, EngineChannel.coalesced]
  split_ifs
  · rfl
  · exact (s.setEng_self c).symm
  · rfl

theorem State.delayEvent_eq : s.delayEvent c = s.setEng c ((s.eng c).delayed s.cfg (ovfErrDisIn s.dmacr c)) := by
  simp only [State.delayEvent, EngineChannel.delayed]
  split_ifs
  · rfl
  · exact (s.setEng_self c).symm
  · rfl

/-- R272: what is counted is told by the configuration, `DMACR` and the channel. -/
theorem State.countUnit_eq (sts : Word) :
    s.countUnit c sts = s.setEng c ((s.eng c).counted s.cfg (ovfErrDisIn s.dmacr c) sts) := by
  simp only [State.countUnit, EngineChannel.counted, State.coalesceEvent_eq]
  split_ifs
  · rw [State.setEng_eng_same, State.setEng_setEng, EngineChannel.coalesced_cr]
  · rfl
  · exact (s.setEng_self c).symm

theorem State.countUnit_eng (sts : Word) :
    (s.countUnit c sts).eng c = (s.eng c).counted s.cfg (ovfErrDisIn s.dmacr c) sts := by
  rw [State.countUnit_eq, State.setEng_eng_same]

end Parts

/-! ## The statement -/

/-- Settles O43: the channel's registers, case by case as R272 and R274 list them. -/
theorem coalesceUnitCounting : Obligations.CoalesceUnitCounting := by
  intro s c sts unit hunit
  have hu : isUnit s.cfg.coalesceUnit sts = unit := by
    rw [Bool.eq_iff_iff, hunit]
    cases s.cfg.coalesceUnit <;> simp [isUnit, hasFlag, flagEop, flagIoe]
  refine ⟨?_, s.countUnit_frame c sts⟩
  rw [s.countUnit_eng, EngineChannel.counted_eq, hu]
  cases c <;> rfl

end Sys2Proof.Machine
end

section
/-! SUPPORT. The engine's steps as one equation each (spec/45_engine_agent.md R264 to R275): when a fetch completes a descriptor,
the words written to it, and what the step makes of its channel. -/

namespace Sys2Proof.Machine

/-! ## The words of the descriptor -/

section Words

variable (s : State) (d : Word)

/-- R89: the nine words of a descriptor share no byte. -/
theorem State.engRead_engWrite {w k : Nat} (v : Word) (hw : w ≤ 8) (hk : k ≤ 8) :
    (s.engWrite d w v).engRead d k = if k = w then v else s.engRead d k := by
  unfold State.engRead State.engWrite
  split_ifs with h
  · rw [h]
    exact Memory.readWord_writeWord_same _ _ _ v
  · refine Memory.readWord_writeWord_other _ _ _ v _ ?_ ?_
    · simp only [wordOffset]
      bv_omega
    · simp only [wordOffset]
      bv_omega

/-- A word is told by memory and the byte order. -/
theorem State.engRead_congr {s t : State} (hmem : t.mem = s.mem) (hcfg : t.cfg = s.cfg) (d : Word) (w : Nat) :
    t.engRead d w = s.engRead d w := by
  rw [State.engRead, State.engRead, hmem, hcfg]

theorem State.engWrite_bytesKept (w : Nat) (v : Word) : BytesKeptOutside (d + wordOffset w) 4 s (s.engWrite d w v) :=
  fun b hb => Memory.readByte_writeWord_other _ _ _ _ b hb

/-- R267: the watchdog word is left for phase 2. -/
theorem State.engRead_writeAccessory {w k : Nat} (v : Word) (hw : w ≤ 8) (hk : k ≤ 8) :
    (s.writeAccessory d w v).engRead d k = if k = w ∧ w ≠ s.cfg.wdogWord then v else s.engRead d k := by
  unfold State.writeAccessory
  split_ifs with hwd h h
  · exact absurd hwd h.2
  · rfl
  · rw [State.engRead_engWrite s d v hw hk, if_pos h.1]
  · rw [State.engRead_engWrite s d v hw hk, if_neg fun hkw => h ⟨hkw, hwd⟩]

@[simp] theorem State.writeAccessory_cfg (w : Nat) (v : Word) : (s.writeAccessory d w v).cfg = s.cfg := by
  unfold State.writeAccessory
  split_ifs <;> rfl

end Words

/-! ## Writes inside the descriptor -/

/-- R278: byte `b` is one of the bytes 8 to 31 of the descriptor at `d`, its words 2 to 7. -/
def BodyByte (d : Word) (b : Nat) : Prop := ∃ i, 8 ≤ i ∧ i < 32 ∧ b = byteAddr d i

/-- Nothing but memory differs, and of it only words 2 to 7 of the descriptor at `d`. -/
structure WritesBody (d : Word) (s t : State) : Prop where
  only : t = { s with mem := t.mem }
  kept : ∀ b, ¬ BodyByte d b → t.mem.readByte b = s.mem.readByte b

section Body

variable {s t : State} {d : Word}

theorem WritesBody.refl (d : Word) (s : State) : WritesBody d s s := ⟨rfl, fun _ _ => rfl⟩

theorem WritesBody.engWrite (h : WritesBody d s t) {w : Nat} (hw : 2 ≤ w ∧ w ≤ 7) (v : Word) :
    WritesBody d s (t.engWrite d w v) where
  only := by
    rw [h.only]
    rfl
  kept b hb := by
    refine (t.engWrite_bytesKept d w v b fun i hi hbi => hb ?_).trans (h.kept b hb)
    rw [byteAddr_wordOffset] at hbi
    exact ⟨4 * w + i, by omega, by omega, hbi⟩

theorem WritesBody.writeAccessory (h : WritesBody d s t) {w : Nat} (hw : 2 ≤ w ∧ w ≤ 7) (v : Word) :
    WritesBody d s (t.writeAccessory d w v) := by
  unfold State.writeAccessory
  split_ifs
  · exact h
  · exact h.engWrite hw v

theorem WritesBody.bytesKept (h : WritesBody d s t) : BytesKeptOutside d 32 s t := fun b hb =>
  h.kept b fun ⟨i, _, hi, hbi⟩ => hb i hi hbi

end Body

/-- R267: the words of phase 1 of a receive completion. -/
def State.recvWords (s : State) (d st : Word) (x : EngDraws) : State :=
  ((((((s.writeAccessory d 4 x.acc4).writeAccessory d 5 x.acc5).writeAccessory d 6 x.acc6).writeAccessory d 7
    x.acc7).engWrite d 2 x.len).engWrite d 3 (recvStatus st x))

section Receive

variable (s : State) (d st : Word) (x : EngDraws)

theorem State.recvWords_writesBody : WritesBody d s (s.recvWords d st x) :=
  ((((((WritesBody.refl d s).writeAccessory (by decide) _).writeAccessory (by decide) _).writeAccessory (by decide)
    _).writeAccessory (by decide) _).engWrite (by decide) _).engWrite (by decide) _

/-- R267: words 2 and 3 and the accessory words but the watchdog word, the others as before. -/
theorem State.engRead_recvWords {w : Nat} (hw : w ≤ 8) : (s.recvWords d st x).engRead d w =
    if w = 2 then x.len
    else if w = 3 then recvStatus st x
    else if 4 ≤ w ∧ w < 8 ∧ w ≠ s.cfg.wdogWord then [x.acc4, x.acc5, x.acc6, x.acc7].getD (w - 4) 0
    else s.engRead d w := by
  unfold State.recvWords
  simp only [State.engRead_engWrite, State.engRead_writeAccessory, State.writeAccessory_cfg, hw, Nat.reduceLeDiff]
  interval_cases w <;> simp

theorem State.recvBegin_eq : s.recvBegin d st x =
    { (s.recvWords d st x).setEng .rx (if x.err then s.rxEng.halted else s.rxEng) with wbPending := some d } := by
  have heng : (s.recvWords d st x).eng .rx = s.rxEng := by
    rw [(s.recvWords_writesBody d st x).only]
    rfl
  show { (if x.err then (s.recvWords d st x).haltWithError .rx else s.recvWords d st x) with wbPending := some d } = _
  rw [State.haltWithError_eq, heng]
  split_ifs
  · rfl
  · rw [← heng, State.setEng_self]

end Receive

/-! ## The steps -/

section Steps

variable (s : State) (c : Channel) (x : EngDraws)

/-- R260: the guard of `EngStep`. -/
theorem State.stepEnabled_iff : s.stepEnabled c = true ↔
    (s.eng c).engState = .run ∧ s.resetting = false ∧ (c = .rx → s.wbPending = none) ∧ pausedIn s.dmacr c = false ∧
      (s.ring c).isPhysBd (s.eng c).cdesc = true := by
  simp only [State.stepEnabled, Bool.and_eq_true, s.engineActive_iff c, Bool.not_eq_true', State.paused, and_assoc]

/-- R260: a step whose guard does not hold is no step of the engine (assumption 5). -/
theorem State.engStep_of_not_enabled (h : s.stepEnabled c = false) : s.engStep c x = s := if_neg (by simp [h])

variable {s c}

/-- R269: a fetched descriptor that is completed. -/
theorem State.engStep_of_completed (h : s.stepEnabled c = true) (hcmp : s.engRead (s.eng c).cdesc 3 &&& flagCmp ≠ 0) :
    s.engStep c x = s.setEng c { s.eng c with engState := .idle } := by
  have hflag : hasFlag (s.engRead (s.eng c).cdesc 3) flagCmp = true := bne_iff_ne.2 hcmp
  exact (if_pos h).trans (if_pos hflag)

theorem not_hasFlag {v m : Word} (h : v &&& m = 0) : ¬ hasFlag v m = true := by
  rw [(hasFlag_eq_false_iff v m).2 h]
  exact Bool.false_ne_true

/-- R265, R266: a send completion. -/
theorem State.engStep_send (h : s.stepEnabled .tx = true) (hcmp : s.engRead s.txEng.cdesc 3 &&& flagCmp = 0) :
    s.engStep .tx x = s.sendComplete s.txEng.cdesc (s.engRead s.txEng.cdesc 0) (s.engRead s.txEng.cdesc 3) x.err := by
  exact (if_pos h).trans (if_neg (not_hasFlag hcmp))

/-- R267: phase 1 of a receive completion. -/
theorem State.engStep_receive (h : s.stepEnabled .rx = true) (hcmp : s.engRead s.rxEng.cdesc 3 &&& flagCmp = 0)
    (hlen : x.len ≤ s.engRead s.rxEng.cdesc 2) :
    s.engStep .rx x = s.recvBegin s.rxEng.cdesc (s.engRead s.rxEng.cdesc 3) x := by
  exact (if_pos h).trans ((if_neg (not_hasFlag hcmp)).trans (if_pos hlen))

/-- R264: a drawn length beyond the buffer is no step of the engine (assumption 5). -/
theorem State.engStep_of_long (h : s.stepEnabled .rx = true) (hcmp : s.engRead s.rxEng.cdesc 3 &&& flagCmp = 0)
    (hlen : ¬ x.len ≤ s.engRead s.rxEng.cdesc 2) : s.engStep .rx x = s := by
  exact (if_pos h).trans ((if_neg (not_hasFlag hcmp)).trans (if_neg hlen))

end Steps

/-! ## A send completion -/

/-- R265, R266: the send channel after a completion. -/
def EngineChannel.sent (cfg : Cfg) (lossy : Bool) (sts d nx : Word) (err : Bool) (e : EngineChannel) : EngineChannel :=
  (if err then (e.counted cfg lossy sts).halted else e.counted cfg lossy sts).advanced d nx

theorem State.sendComplete_eq (s : State) (d nx st : Word) (err : Bool) : s.sendComplete d nx st err =
    (s.engWrite d 3 (sendStatus st err)).setEng .tx
      (s.txEng.sent s.cfg (ovfErrDisIn s.dmacr .tx) (sendStatus st err) d nx err) := by
  simp only [State.sendComplete, State.countUnit_eq, State.haltWithError_eq, EngineChannel.sent]
  split_ifs
  · simp only [State.advance_eq, State.setEng_eng_same, State.setEng_setEng]
    rfl
  · simp only [State.advance_eq, State.setEng_eng_same, State.setEng_setEng]
    rfl

/-- R265, R266: a running channel counts, halts on an error, and otherwise idles at the tail or goes on. -/
theorem EngineChannel.sent_of_run (cfg : Cfg) (lossy : Bool) (sts d nx : Word) (err : Bool) (e : EngineChannel)
    (h : e.engState = .run) : e.sent cfg lossy sts d nx err =
      { e.counted cfg lossy sts with
        cdesc := nx
        errLatch := (e.counted cfg lossy sts).errLatch || err
        engState := if err = true ∨ (e.counted cfg lossy sts).engState = .halt then .halt
          else if d = e.tdesc then .idle else .run } := by
  obtain ⟨htail, -⟩ := e.counted_registers cfg lossy sts
  have hactive : (e.counted cfg lossy sts).engState ≠ .idle := by
    rcases e.counted_engState cfg lossy sts with hs | hs
    · rw [hs, h]
      decide
    · rw [hs]
      decide
  unfold EngineChannel.sent
  cases err with
  | true =>
    rw [if_pos rfl, EngineChannel.advanced_of_active _ _ _ (by simp [EngineChannel.halted])]
    simp [EngineChannel.halted]
  | false =>
    rw [if_neg Bool.false_ne_true, EngineChannel.advanced_of_active _ _ _ hactive, htail]
    simp [htail]

/-! ## Phase 2 of a receive completion -/

/-- R266, R268: the receive channel after phase 2, whose status word is the one in memory. -/
def State.receivedChannel (s : State) (d : Word) : EngineChannel :=
  (s.rxEng.counted s.cfg (ovfErrDisIn s.dmacr .rx) (s.engRead d 3)).advanced d (s.engRead d 0)

theorem State.countUnit_advance_rx (s : State) (d : Word) :
    (s.countUnit .rx (s.engRead d 3)).advance .rx d ((s.countUnit .rx (s.engRead d 3)).engRead d 0) =
      s.setEng .rx (s.receivedChannel d) := by
  have hread := State.engRead_congr (s.setEng_mem .rx (s.rxEng.counted s.cfg (ovfErrDisIn s.dmacr .rx) (s.engRead d 3)))
    (s.setEng_cfg .rx _) d 0
  rw [State.countUnit_eq]
  refine (congrArg _ hread).trans ?_
  rw [State.advance_eq, State.setEng_eng_same, State.setEng_setEng]
  rfl

/-- R7, R268: the watchdog word is one of words 4 to 7, so phase 2 reads the status and `next` words as they were. -/
theorem State.engRxFinish_eq (s : State) (d v : Word) (hc : s.cfg.wf = true) (hp : s.wbPending = some d)
    (hr : s.resetting = false) (hv : v ≠ s.cfg.wdogSentinel) : s.engRxFinish v =
      { (s.engWrite d s.cfg.wdogWord v).setEng .rx (s.receivedChannel d) with wbPending := none } := by
  obtain ⟨hge, hle⟩ := wdogWord_bounds hc
  have hread (k : Nat) (hk : k ≤ 3) : (s.engWrite d s.cfg.wdogWord v).engRead d k = s.engRead d k := by
    rw [s.engRead_engWrite d v (by omega) (by omega), if_neg (by omega)]
  have hchannel : (s.engWrite d s.cfg.wdogWord v).receivedChannel d = s.receivedChannel d := by
    rw [State.receivedChannel, State.receivedChannel, hread 3 le_rfl, hread 0 (by omega)]
    rfl
  have hgo : ¬ (s.resetting || v == s.cfg.wdogSentinel) = true := by simp [hr, hv]
  simp only [State.engRxFinish, hp]
  rw [if_neg hgo, ← hchannel]
  exact State.countUnit_advance_rx { s.engWrite d s.cfg.wdogWord v with wbPending := none } d

end Sys2Proof.Machine
end

section
/-! SUPPORT. The engine's events through a step of the machine (spec/45_engine_agent.md R264 to R275), and what no step of the
engine writes (R278). -/

namespace Sys2Proof.Machine

/-! ## The schedule is no part of what an event reads -/

theorem State.withSched_eng (s : State) (q : List Turn) (c : Channel) : State.eng { s with sched := q } c = s.eng c := by
  cases c <;> rfl

theorem State.withSched_setEng (s : State) (q : List Turn) (c : Channel) (e : EngineChannel) :
    State.setEng { s with sched := q } c e = { s.setEng c e with sched := q } := by
  cases c <;> rfl

theorem State.withSched_stepEnabled (s : State) (q : List Turn) (c : Channel) :
    State.stepEnabled { s with sched := q } c = s.stepEnabled c := by
  cases c <;> rfl

/-! ## Completions -/

/-- Settles O42: a send completion is one written word and the counted, advanced channel. -/
theorem sendCompletion : Obligations.SendCompletion := by
  intro s q x sts h hrun hr hpause hbd hcmp hsts
  have hstatus : sendStatus (s.engRead s.txEng.cdesc 3) x.err = sts := hsts.symm
  have hen : State.stepEnabled { s with sched := q } .tx = true :=
    (s.stepEnabled_iff .tx).2 ⟨hrun, hr, by simp, hpause, hbd⟩
  have hstep := step_of_engineReady s q _ h
  rw [State.engineTurn, State.engStep_send x hen hcmp, State.sendComplete_eq] at hstep
  have hcount : (s.countUnit .tx sts).txEng = s.txEng.counted s.cfg (ovfErrDisIn s.dmacr .tx) sts := s.countUnit_eng .tx sts
  refine ⟨_, _, hstep, rfl, ?_, ?_, ?_, rfl, rfl, rfl⟩
  · refine (s.engRead_engWrite s.txEng.cdesc _ (w := 3) (k := 3) (by omega) (by omega)).trans ?_
    rw [if_pos rfl, ← hstatus]
    rfl
  · exact s.engWrite_bytesKept s.txEng.cdesc 3 _
  · rw [hcount, ← hstatus]
    exact EngineChannel.sent_of_run _ _ _ _ _ _ _ hrun

/-- Words 2 to 7 of a descriptor, one channel and the pending write-back are within the frame of a step. -/
theorem WritesBody.onlyEngineStep {d : Word} {s t : State} {q : List Turn} (h : WritesBody d { s with sched := q } t)
    (c : Channel) (e : EngineChannel) (p : Option Word) : OnlyEngineStep c s { t.setEng c e with wbPending := p } := by
  obtain ⟨m, rfl⟩ : ∃ m, t = { s with sched := q, mem := m } := ⟨t.mem, h.only⟩
  cases c <;> rfl

/-- Settles O44: phase 1 is the words of R267, the pending write-back and the halt on an error. -/
theorem receiveBegin : Obligations.ReceiveBegin := by
  intro s q x h hrun hr hwb hpause hbd hcmp hlen
  have hen : State.stepEnabled { s with sched := q } .rx = true :=
    (s.stepEnabled_iff .rx).2 ⟨hrun, hr, fun _ => hwb, hpause, hbd⟩
  have hstep : step s = .next
      { (State.recvWords { s with sched := q } s.rxEng.cdesc (s.engRead s.rxEng.cdesc 3) x).setEng .rx
          (if x.err then s.rxEng.halted else s.rxEng) with wbPending := some s.rxEng.cdesc } :=
    (step_of_engineReady s q _ h).trans
      (congrArg _ ((State.engStep_receive x hen hcmp hlen).trans (State.recvBegin_eq _ _ _ x)))
  have hbody := State.recvWords_writesBody { s with sched := q } s.rxEng.cdesc (s.engRead s.rxEng.cdesc 3) x
  have hword (w : ℕ) (hw : w < 9) := State.engRead_recvWords { s with sched := q } s.rxEng.cdesc
    (s.engRead s.rxEng.cdesc 3) x (Nat.le_of_lt_succ hw)
  generalize State.recvWords { s with sched := q } s.rxEng.cdesc (s.engRead s.rxEng.cdesc 3) x = u at hstep hbody hword
  exact ⟨_, hstep, hword, hbody.bytesKept, rfl, rfl, congrArg State.sched hbody.only, hbody.onlyEngineStep .rx _ _⟩

/-- Settles O45: phase 2 is the watchdog word, the empty queue and the counted, advanced channel. -/
theorem receiveFinish : Obligations.ReceiveFinish := by
  intro s q d v h hp hr hv
  obtain ⟨-, hle⟩ := wdogWord_bounds h.admitted.cfg
  have hstep := step_of_engineReady s q _ h
  rw [State.engineTurn, State.engRxFinish_eq { s with sched := q } d v h.admitted.cfg hp hr hv] at hstep
  have hcount : (s.countUnit .rx (s.engRead d 3)).rxEng =
      s.rxEng.counted s.cfg (ovfErrDisIn s.dmacr .rx) (s.engRead d 3) := s.countUnit_eng .rx _
  obtain ⟨htail, -⟩ := s.rxEng.counted_registers s.cfg (ovfErrDisIn s.dmacr .rx) (s.engRead d 3)
  refine ⟨_, hstep, ?_, s.engWrite_bytesKept d s.cfg.wdogWord v, rfl, ?_, rfl, rfl⟩
  · refine (s.engRead_engWrite d v (w := s.cfg.wdogWord) (k := s.cfg.wdogWord) (by omega) (by omega)).trans (if_pos rfl)
  · rw [hcount, ← htail]
    rfl

/-! ## The other events -/

/-- R273, R274: a delay event, after which the delay is disarmed. -/
theorem EngineChannel.delayed_disarmed (cfg : Cfg) (lossy : Bool) (e : EngineChannel) :
    { e.delayed cfg lossy with dlyArmed := false } =
      if e.dlyEvt < 2 ^ cfg.dlyEvtBits - 1 then { e with dlyEvt := e.dlyEvt + 1, dlyArmed := false }
      else if lossy then { e with dlyArmed := false }
      else { e with errLatch := true, engState := .halt, dlyArmed := false } := by
  unfold EngineChannel.delayed
  split_ifs <;> rfl

/-- R273, R274: a delay event counted on a channel whose delay is armed, which it disarms. -/
theorem State.engDelay_of_armed (s : State) (c : Channel) (ha : (s.eng c).dlyArmed = true) (hr : s.resetting = false) :
    s.engDelay c =
      s.setEng c { (s.eng c).delayed s.cfg (ovfErrDisIn s.dmacr c) with dlyArmed := false } := by
  simp only [State.engDelay, State.delayEvent_eq]
  rw [if_pos (by simp [ha, hr]), State.setEng_eng_same, State.setEng_setEng]

/-- Settles O46, event by event. -/
theorem otherEngineEvents : Obligations.OtherEngineEvents := by
  have hqueue (s : State) (c : Channel) (h : c = .tx ∨ s.wbPending = none) : c = .rx → s.wbPending = none := fun hc =>
    h.resolve_left (by simp [hc])
  refine ⟨fun s q c x h hrun hr hwb hpause hbd hcmp => ?_, fun s q c x h hpause => ?_, fun s q c h hrun hr hwb => ?_,
    fun s q c h ha hr => ?_⟩
  · have hen : State.stepEnabled { s with sched := q } c = true := by
      rw [State.withSched_stepEnabled, State.stepEnabled_iff]
      exact ⟨hrun, hr, hqueue s c hwb, by cases c <;> exact hpause, hbd⟩
    rw [step_of_engineReady s q _ h, State.engineTurn, State.engStep_of_completed x hen, State.withSched_eng,
      State.withSched_setEng]
    rw [State.withSched_eng]
    exact hcmp
  · have hen : State.stepEnabled { s with sched := q } c = false := by
      rw [State.withSched_stepEnabled, ← Bool.not_eq_true, State.stepEnabled_iff]
      rintro ⟨-, -, -, hgo, -⟩
      cases c <;> exact absurd (hgo.symm.trans hpause) Bool.false_ne_true
    rw [step_of_engineReady s q _ h, State.engineTurn, State.engStep_of_not_enabled _ c x hen]
  · have hact : State.engineActive { s with sched := q } c = true := by
      rw [State.engineActive_iff, State.withSched_eng]
      exact ⟨hrun, hr, hqueue s c hwb⟩
    rw [step_of_engineReady s q _ h, State.engineTurn, State.engError, if_pos hact, State.haltWithError_eq,
      State.withSched_eng, State.withSched_setEng]
    rfl
  · rw [step_of_engineReady s q _ h, State.engineTurn, State.engDelay_of_armed { s with sched := q } c (by rwa [State.withSched_eng]) hr,
      State.withSched_eng, State.withSched_setEng, EngineChannel.delayed_disarmed]
    cases c <;> rfl

/-! ## What a step of the engine is made of -/

/-- R278: the bytes of memory that an event may write: words 2 to 7 of the descriptor it is on. -/
def State.OwnByte (s : State) : EngineEvent → Nat → Prop
  | .step c _, b => BodyByte (s.eng c).cdesc b
  | .rxFinish _, b => ∃ d, s.wbPending = some d ∧ BodyByte d b
  | .error _, _ | .delay _, _ | .resetDone, _ => False

/-- Bytes of memory, the pending write-back and one channel change; the channel's `CR` stays, and so does a halt. -/
def EngineActs (own : Nat → Prop) (c : Channel) (s t : State) : Prop :=
  ∃ m e p, (∀ b, ¬ own b → Memory.readByte m b = s.mem.readByte b) ∧ e.cr = (s.eng c).cr ∧
    ((s.eng c).engState = .halt → e.engState = .halt) ∧ t = { s.setEng c e with mem := m, wbPending := p }

section Acts

variable {own : Nat → Prop} {s t : State} {c : Channel} {d : Word}

/-- A step that changes one channel alone. -/
theorem EngineActs.setEng {e : EngineChannel} (hcr : e.cr = (s.eng c).cr)
    (hhalt : (s.eng c).engState = .halt → e.engState = .halt) : EngineActs own c s (s.setEng c e) :=
  ⟨s.mem, e, s.wbPending, fun _ _ => rfl, hcr, hhalt, by cases c <;> rfl⟩

theorem EngineActs.refl (c : Channel) (s : State) : EngineActs own c s s := by
  have h : EngineActs own c s (s.setEng c (s.eng c)) := .setEng rfl id
  rwa [State.setEng_self] at h

/-- A step that writes words 2 to 7 of the descriptor it is on. -/
theorem EngineActs.of_writesBody (h : WritesBody d s t) (hown : ∀ b, BodyByte d b → own b) {e : EngineChannel}
    (hcr : e.cr = (s.eng c).cr) (hhalt : (s.eng c).engState = .halt → e.engState = .halt) (p : Option Word) :
    EngineActs own c s { t.setEng c e with wbPending := p } := by
  obtain ⟨honly, hkept⟩ := h
  refine ⟨t.mem, e, p, fun b hb => hkept b fun hbody => hb (hown b hbody), hcr, hhalt, ?_⟩
  generalize t.mem = m at honly
  rw [honly]
  cases c <;> rfl

end Acts

namespace EngineChannel

variable (cfg : Cfg) (lossy : Bool) (sts d nx : Word) (e : EngineChannel)

theorem counted_halt (h : e.engState = .halt) : (e.counted cfg lossy sts).engState = .halt :=
  (e.counted_engState cfg lossy sts).elim (fun hs => hs.trans h) id

theorem advanced_halt (h : e.engState = .halt) : (e.advanced d nx).engState = .halt := by
  simp [advanced, h]

theorem delayed_cr : (e.delayed cfg lossy).cr = e.cr := by
  unfold delayed
  split_ifs <;> rfl

theorem delayed_halt (h : e.engState = .halt) : (e.delayed cfg lossy).engState = .halt := by
  unfold delayed
  split_ifs
  · exact h
  · exact h
  · rfl

theorem sent_cr (err : Bool) : (e.sent cfg lossy sts d nx err).cr = e.cr := by
  obtain ⟨-, hcr⟩ := e.counted_registers cfg lossy sts
  unfold sent
  split_ifs <;> exact hcr

end EngineChannel

section Events

variable (s : State) (c : Channel)

/-- R264: a channel that takes a step runs. -/
theorem State.engStep_acts (x : EngDraws) : EngineActs (s.OwnByte (.step c x)) c s (s.engStep c x) := by
  by_cases hen : s.stepEnabled c = true
  · obtain ⟨hrun, -⟩ := (s.stepEnabled_iff c).1 hen
    have hhalt (e : EngineChannel) : (s.eng c).engState = .halt → e.engState = .halt := fun h => by simp [hrun] at h
    by_cases hcmp : s.engRead (s.eng c).cdesc 3 &&& flagCmp = 0
    · cases c with
      | tx =>
        rw [State.engStep_send x hen hcmp, State.sendComplete_eq]
        exact EngineActs.of_writesBody ((WritesBody.refl _ s).engWrite (by decide) _) (fun _ => id)
          (EngineChannel.sent_cr _ _ _ _ _ _ _) (hhalt _) s.wbPending
      | rx =>
        by_cases hlen : x.len ≤ s.engRead s.rxEng.cdesc 2
        · rw [State.engStep_receive x hen hcmp hlen, State.recvBegin_eq]
          refine .of_writesBody (s.recvWords_writesBody _ _ x) (fun _ => id) ?_ (hhalt _) _
          split_ifs <;> rfl
        · rw [State.engStep_of_long x hen hcmp hlen]
          exact .refl .rx s
    · rw [State.engStep_of_completed x hen hcmp]
      exact .setEng rfl (hhalt _)
  · rw [State.engStep_of_not_enabled s c x (Bool.eq_false_iff.2 hen)]
    exact .refl c s

/-- R268: phase 2 leaves a halted channel halted. -/
theorem State.engRxFinish_acts (hc : s.cfg.wf = true) (v : Word) :
    EngineActs (s.OwnByte (.rxFinish v)) .rx s (s.engRxFinish v) := by
  cases hp : s.wbPending with
  | none =>
    have hstay : s.engRxFinish v = s := by simp only [State.engRxFinish, hp]
    rw [hstay]
    exact .refl .rx s
  | some d =>
    by_cases hgo : s.resetting = false ∧ v ≠ s.cfg.wdogSentinel
    · obtain ⟨hr, hv⟩ := hgo
      obtain ⟨hge, hle⟩ := wdogWord_bounds hc
      obtain ⟨-, hcr⟩ := s.rxEng.counted_registers s.cfg (ovfErrDisIn s.dmacr .rx) (s.engRead d 3)
      rw [s.engRxFinish_eq d v hc hp hr hv]
      exact .of_writesBody ((WritesBody.refl d s).engWrite ⟨by omega, hle⟩ v) (fun b hb => ⟨d, hp, hb⟩) hcr
        (fun h => EngineChannel.advanced_halt _ _ _ (EngineChannel.counted_halt _ _ _ _ h)) none
    · have hstay : s.engRxFinish v = s := by
        simp only [State.engRxFinish, hp]
        refine if_pos ?_
        rw [Bool.or_eq_true, beq_iff_eq, or_iff_not_imp_left, Bool.not_eq_true]
        exact fun hr => not_not.1 fun hv => hgo ⟨hr, hv⟩
      rw [hstay]
      exact .refl .rx s

theorem State.engError_acts : EngineActs (s.OwnByte (.error c)) c s (s.engError c) := by
  unfold State.engError
  split_ifs
  · exact .setEng rfl fun _ => rfl
  · exact .refl c s

theorem State.engDelay_acts : EngineActs (s.OwnByte (.delay c)) c s (s.engDelay c) := by
  by_cases hgo : (s.eng c).dlyArmed = true ∧ s.resetting = false
  · obtain ⟨ha, hr⟩ := hgo
    rw [s.engDelay_of_armed c ha hr]
    exact .setEng (EngineChannel.delayed_cr _ _ _) (EngineChannel.delayed_halt _ _ _)
  · have hstay : s.engDelay c = s := if_neg (by simpa using hgo)
    rw [hstay]
    exact .refl c s

/-- Every event but the end of a reset acts on one channel. -/
theorem State.engineTurn_acts (hc : s.cfg.wf = true) (e : EngineEvent) (he : e ≠ .resetDone) :
    ∃ c, EngineActs (s.OwnByte e) c s (s.engineTurn e) := by
  cases e with
  | step c x => exact ⟨c, s.engStep_acts c x⟩
  | rxFinish v => exact ⟨.rx, s.engRxFinish_acts hc v⟩
  | error c => exact ⟨c, s.engError_acts c⟩
  | delay c => exact ⟨c, s.engDelay_acts c⟩
  | resetDone => exact absurd rfl he

end Events

/-! ## What no step of the engine writes -/

/-- R278: what no step of the engine changes; memory changes in the bytes `own` only. -/
structure EngineFrame (own : Nat → Prop) (s t : State) : Prop where
  channel : ∀ c, t.ring c = s.ring c ∧ (t.eng c).cr = (s.eng c).cr ∧ t.cacheOf c = s.cacheOf c
  cfg : t.cfg = s.cfg
  stream : t.stream = s.stream
  response : t.response = s.response
  waiting : t.waiting = s.waiting
  bytes : ∀ b, ¬ own b → t.mem.readByte b = s.mem.readByte b

theorem EngineActs.frame {own : Nat → Prop} {s t : State} {c : Channel} (h : EngineActs own c s t) :
    EngineFrame own s t := by
  obtain ⟨m, e, p, hm, hcr, -, rfl⟩ := h
  cases c with
  | tx => exact ⟨fun | .tx => ⟨rfl, hcr, rfl⟩ | .rx => ⟨rfl, rfl, rfl⟩, rfl, rfl, rfl, rfl, hm⟩
  | rx => exact ⟨fun | .tx => ⟨rfl, rfl, rfl⟩ | .rx => ⟨rfl, hcr, rfl⟩, rfl, rfl, rfl, rfl, hm⟩

theorem State.engineTurn_frame (s : State) (hc : s.cfg.wf = true) (e : EngineEvent) :
    EngineFrame (s.OwnByte e) s (s.engineTurn e) := by
  by_cases he : e = .resetDone
  · subst he
    simp only [State.engineTurn, State.engResetDone]
    split_ifs
    · exact ⟨fun | .tx => ⟨rfl, rfl, rfl⟩ | .rx => ⟨rfl, rfl, rfl⟩, rfl, rfl, rfl, rfl, fun _ _ => rfl⟩
    · exact ⟨fun _ => ⟨rfl, rfl, rfl⟩, rfl, rfl, rfl, rfl, fun _ _ => rfl⟩
  · obtain ⟨c, h⟩ := s.engineTurn_acts hc e he
    exact h.frame

/-- A step that the schedule gives to the engine. -/
theorem step_of_engineNext {s t : State} {e : EngineEvent} {q : List Turn} (hq : s.sched = .engine e :: q)
    (h : step s = .next t) : t = State.engineTurn { s with sched := q } e := by
  rw [step, turn_of_admitted s (State.admitted_of_step h), hq] at h
  exact State.guardedEngineTurn_next _ t e h

/-- Settles O47: the frame of the engine's turn. -/
theorem engineNeverWrites : Obligations.EngineNeverWrites := by
  intro s t e q hq h
  have hc := (State.admitted_of_step h).cfg
  obtain ⟨hchannel, hcfg, hstream, hresponse, hwaiting, hbytes⟩ := State.engineTurn_frame { s with sched := q } hc e
  rw [← step_of_engineNext hq h] at hchannel hcfg hstream hresponse hwaiting hbytes
  refine ⟨fun c => ?_, hcfg, hstream, hresponse, hwaiting, fun b hb => hbytes b fun hown => ?_⟩
  · cases c
    · exact hchannel .tx
    · exact hchannel .rx
  · cases e with
    | step c x =>
      obtain ⟨i, hge, hlt, hbi⟩ := hown
      rw [State.withSched_eng] at hbi
      exact hb _ rfl i hge hlt hbi
    | rxFinish v =>
      obtain ⟨d, hp, i, hge, hlt, hbi⟩ := hown
      exact hb d hp i hge hlt hbi
    | error c => exact hown
    | delay c => exact hown
    | resetDone => exact hown

end Sys2Proof.Machine
end

section
/-! SUPPORT. How a channel leaves `HALT` (spec/45_engine_agent.md R270, R276, spec/10_state.md R67): the register writes are all
that the manager does to the engine, and of them only the start of a software reset leaves a halt. -/

namespace Sys2Proof.Machine

/-! ## Halted channels -/

/-- A halted channel stays halted or a software reset starts, which the manager does not end and in which an idle channel
stays idle. -/
structure KeepsHalt (s t : State) : Prop where
  /-- R277: only `EngResetDone` ends a reset -/
  resetting : s.resetting = true → t.resetting = true
  /-- R262: no kick starts a channel during a reset -/
  idle : s.resetting = true → ∀ c, (s.eng c).engState = .idle → (t.eng c).engState = .idle
  /-- R270, R276 -/
  halt : ∀ c, (s.eng c).engState = .halt →
    (t.eng c).engState = .halt ∨ s.resetting = false ∧ t.resetting = true ∧ (t.eng c).engState = .idle

/-- The next state, if the answer is one, keeps halts. -/
def AnswersKeepHalt (s : State) (r : Result) : Prop := ∀ t, r = .next t → KeepsHalt s t

section Kept

variable {s t u : State}

theorem KeepsHalt.trans (h : KeepsHalt s t) (k : KeepsHalt t u) : KeepsHalt s u where
  resetting hr := k.resetting (h.resetting hr)
  idle hr c hi := k.idle (h.resetting hr) c (h.idle hr c hi)
  halt c hh := by
    rcases h.halt c hh with ht | ⟨hs, ht, hi⟩
    · rcases k.halt c ht with hu | ⟨htr, hu⟩
      · exact .inl hu
      · refine .inr ⟨Bool.eq_false_iff.2 fun hr => ?_, hu⟩
        rw [h.resetting hr] at htr
        cases htr
    · exact .inr ⟨hs, k.resetting ht, k.idle ht c hi⟩

/-- The run states and `resetting` are all that a halt is told by. -/
theorem KeepsHalt.of_same (heng : ∀ c, (t.eng c).engState = (s.eng c).engState) (hr : t.resetting = s.resetting) :
    KeepsHalt s t where
  resetting := hr.trans
  idle _ c := (heng c).trans
  halt c hh := .inl ((heng c).trans hh)

theorem KeepsHalt.refl (s : State) : KeepsHalt s s := .of_same (fun _ => rfl) rfl

/-- The fields are two: so it is where an update touches neither the engine's channels nor `resetting`. -/
theorem KeepsHalt.of_fields (htx : t.txEng = s.txEng) (hrx : t.rxEng = s.rxEng) (hr : t.resetting = s.resetting) :
    KeepsHalt s t :=
  .of_same (fun | .tx => congrArg _ htx | .rx => congrArg _ hrx) hr

theorem KeepsHalt.answers (h : KeepsHalt s t) : AnswersKeepHalt s (.next t) := fun _ he => Host.Outcome.next.inj he ▸ h

theorem AnswersKeepHalt.of_kept {r : Result} (h : KeepsHalt s t) (hr : AnswersKeepHalt t r) : AnswersKeepHalt s r :=
  fun u hu => h.trans (hr u hu)

/-- One channel's registers replaced: an idle one stays idle in a reset, and a halted one halted. -/
theorem KeepsHalt.setEng (s : State) (c : Channel) {e : EngineChannel}
    (hidle : s.resetting = true → (s.eng c).engState = .idle → e.engState = .idle)
    (hhalt : (s.eng c).engState = .halt → e.engState = .halt) : KeepsHalt s (s.setEng c e) where
  resetting hr := (s.setEng_resetting c e).trans hr
  idle hr c' hi := by
    by_cases hc : c' = c
    · subst hc
      rw [State.setEng_eng_same]
      exact hidle hr hi
    · rwa [s.setEng_eng_other c c' e hc]
  halt c' hh := by
    by_cases hc : c' = c
    · subst hc
      rw [State.setEng_eng_same]
      exact .inl (hhalt hh)
    · rw [s.setEng_eng_other c c' e hc]
      exact .inl hh

/-! ## Register writes -/

/-- R276: the start of a software reset leaves every channel idle. -/
theorem KeepsHalt.swResetStart (s : State) (hr : s.resetting = false) : KeepsHalt s s.swResetStart := by
  have hidle (c : Channel) : (s.swResetStart.eng c).engState = .idle := by
    obtain ⟨v, w, he⟩ := s.swResetStart_eng c
    rw [he]
  exact ⟨fun _ => rfl, fun _ c _ => hidle c, fun c _ => .inr ⟨hr, rfl, hidle c⟩⟩

theorem KeepsHalt.writeDmacr (s : State) (v : Word) : KeepsHalt s (s.writeDmacr v) := by
  unfold State.writeDmacr
  split_ifs with hr
  · exact .refl s
  · exact .swResetStart s (Bool.eq_false_iff.2 hr)
  · exact .of_fields rfl rfl rfl

/-- R262: the kick neither starts a halted channel nor, in a reset, an idle one. -/
theorem KeepsHalt.writeTdesc (s : State) (c : Channel) (v : Word) : KeepsHalt s (s.writeTdesc c v) := by
  rw [State.writeTdesc_eq_kicked]
  refine .setEng s c (fun hr hi => ?_) fun hh => ?_
  · rw [kicked_engState, if_neg (by simp [hr]), hi]
  · rw [kicked_engState, if_neg (by simp [hh]), hh]

theorem KeepsHalt.writeCdesc (s : State) (c : Channel) (v : Word) : KeepsHalt s (s.writeCdesc c v) := by
  unfold State.writeCdesc
  split_ifs
  · exact .refl s
  · exact .setEng s c (fun _ => id) id

theorem KeepsHalt.regWrite (h : KeepsHalt s t) (r : Reg) (v : Word) : KeepsHalt s (t.regWrite r v) := by
  refine h.trans ?_
  cases r with
  | ndesc | bufa | bufl | sr => exact .refl t
  | cdesc c => exact .writeCdesc t c v
  | tdesc c => exact .writeTdesc t c v
  | cr c => exact .setEng t c (fun _ => id) id
  | irq c => exact .setEng t c (fun _ => id) id
  | dmacr => exact .writeDmacr t v

/-! ## What does not touch the engine -/

theorem KeepsHalt.descriptors (h : KeepsHalt s t) (hf : SameButDescriptors t u) : KeepsHalt s u :=
  h.trans (.of_same (fun c => congrArg _ (hf.eng c)) hf.resetting)

theorem KeepsHalt.setRing (h : KeepsHalt s t) (c : Channel) (r : Ring) : KeepsHalt s (t.setRing c r) :=
  h.trans (.of_same (fun c' => congrArg _ (t.setRing_eng c c' r)) (t.setRing_resetting c r))

theorem KeepsHalt.respond (h : KeepsHalt s t) (st : Status) (rs : List Word) : KeepsHalt s (t.respond st rs) :=
  h.trans (.of_fields rfl rfl rfl)

theorem KeepsHalt.regRead (h : KeepsHalt s t) (r : Reg) : KeepsHalt s (t.regRead r).2 := by
  rw [t.regRead_frame r]
  exact h.trans (.of_fields rfl rfl rfl)

theorem KeepsHalt.bdRead (h : KeepsHalt s t) (c : Channel) (bd : Word) (w : Nat) : KeepsHalt s (t.bdRead c bd w).2 :=
  h.descriptors (t.bdRead_frame c bd w)

theorem KeepsHalt.bdWrite (h : KeepsHalt s t) (c : Channel) (bd : Word) (w : Nat) (v : Word) :
    KeepsHalt s (t.bdWrite c bd w v) := h.descriptors (t.bdWrite_frame c bd w v)

theorem KeepsHalt.setRunState (h : KeepsHalt s t) (c : Channel) (rs : RunState) : KeepsHalt s (t.setRunState c rs) :=
  h.setRing c _

theorem KeepsHalt.waitOn (h : KeepsHalt s t) (k : WaitKind) (polls : Nat) : KeepsHalt s (t.waitOn k polls) := by
  unfold State.waitOn
  split_ifs
  · exact h.trans (.of_fields rfl rfl rfl)
  · exact h.trans (.of_fields rfl rfl rfl)

theorem KeepsHalt.programCoalesce (h : KeepsHalt s t) (c : Channel) (counter timer : Word) :
    KeepsHalt s (t.programCoalesce c counter timer) := (h.regRead (.cr c)).regWrite (.cr c) _

theorem KeepsHalt.changeEnables (h : KeepsHalt s t) (c : Channel) (f : Word → Word) :
    KeepsHalt s (t.changeEnables c f) := ((h.regRead (.cr c)).regWrite (.cr c) _).setRing c _

theorem KeepsHalt.snapshotRestart (h : KeepsHalt s t) (c : Channel) : KeepsHalt s (t.snapshotRestart c) :=
  (h.regRead (.cdesc c)).setRing c _

theorem KeepsHalt.disableAll (h : KeepsHalt s t) (c : Channel) : KeepsHalt s (t.disableAll c) :=
  ((h.regRead (.cr c)).regWrite (.cr c) _).setRing c _

theorem KeepsHalt.acknowledgeAll (h : KeepsHalt s t) (c : Channel) : KeepsHalt s (t.acknowledgeAll c) :=
  (h.regRead (.irq c)).regWrite (.irq c) _

theorem KeepsHalt.rekick (h : KeepsHalt s t) (c : Channel) : KeepsHalt s (t.rekick c) := by
  simp only [State.rekick]
  have hread := (h.descriptors (t.invalidate_frame c (t.ring c).hwTail)).bdRead c (t.ring c).hwTail 3
  split_ifs
  · exact h
  · exact hread
  · exact hread.regWrite _ _

theorem KeepsHalt.commitSubmission (h : KeepsHalt s t) (c : Channel) (n cur : Word) :
    KeepsHalt s (t.commitSubmission c n cur) := by
  simp only [State.commitSubmission]
  split_ifs
  · exact (h.setRing c _).regWrite _ _
  · exact h.setRing c _

end Kept

/-! ## The commands -/

section Commands

variable (s : State) (ch : Channel)

/-- A command that fails, or answers at once, touches no engine. -/
theorem AnswersKeepHalt.respond (st : Status) (rs : List Word) : AnswersKeepHalt s (.next (s.respond st rs)) :=
  ((KeepsHalt.refl s).respond st rs).answers

theorem execBdRd_keepsHalt (bd w : Word) : AnswersKeepHalt s (execBdRd ch bd w s) := by
  simp only [execBdRd]
  split_ifs
  · exact .respond s _ _
  · exact .respond s _ _
  · exact (((KeepsHalt.refl s).bdRead ch bd _).respond _ _).answers

theorem execBdWr_keepsHalt (bd w value : Word) : AnswersKeepHalt s (execBdWr ch bd w value s) := by
  simp only [execBdWr]
  split_ifs
  · exact .respond s _ _
  · exact .respond s _ _
  · exact .respond s _ _
  · exact (((KeepsHalt.refl s).bdWrite ch bd _ value).respond _ _).answers

theorem execBdNext_keepsHalt (bd : Word) : AnswersKeepHalt s (execBdNext ch bd s) := by
  simp only [execBdNext]
  split_ifs
  · exact .respond s _ _
  · exact .respond s _ _

theorem execBdPrev_keepsHalt (bd : Word) : AnswersKeepHalt s (execBdPrev ch bd s) := by
  simp only [execBdPrev]
  split_ifs
  · exact .respond s _ _
  · exact .respond s _ _

theorem execRingStat_keepsHalt (sel : Word) : AnswersKeepHalt s (execRingStat ch sel s) := by
  unfold execRingStat
  split
  · exact .respond s _ _
  · exact .respond s _ _

theorem execRegRd_keepsHalt (off : Word) : AnswersKeepHalt s (execRegRd off s) := by
  unfold execRegRd
  split
  · exact .respond s _ _
  · exact (((KeepsHalt.refl s).regRead _).respond _ _).answers

theorem execRegWr_keepsHalt (off value : Word) : AnswersKeepHalt s (execRegWr off value s) := by
  unfold execRegWr
  split
  · exact .respond s _ _
  · exact (((KeepsHalt.refl s).regWrite _ value).respond _ _).answers

theorem execSetCoalesce_keepsHalt (counter timer : Word) : AnswersKeepHalt s (execSetCoalesce ch counter timer s) := by
  unfold execSetCoalesce
  split_ifs
  · exact (((KeepsHalt.refl s).programCoalesce ch counter timer).respond _ _).answers
  · exact .respond s _ _

theorem execStart_keepsHalt : AnswersKeepHalt s (execStart ch s) := by
  simp only [execStart]
  split_ifs
  · exact .respond s _ _
  · exact .respond s _ _
  · exact (((((KeepsHalt.refl s).regWrite (.cdesc ch) _).rekick ch).setRunState ch _).respond _ _).answers

theorem execPause_keepsHalt : AnswersKeepHalt s (execPause s) :=
  ((((KeepsHalt.refl s).regRead .dmacr).regWrite .dmacr _).waitOn _ _).answers

theorem execResume_keepsHalt : AnswersKeepHalt s (execResume s) :=
  ((((((KeepsHalt.refl s).regRead .dmacr).regWrite .dmacr _).setRunState .tx _).setRunState .rx _).respond _ _).answers

theorem execReset_keepsHalt : AnswersKeepHalt s (execReset s) :=
  (((((KeepsHalt.refl s).snapshotRestart .tx).snapshotRestart .rx).regWrite .dmacr _).waitOn _ _).answers

theorem execAlloc_keepsHalt (n : Word) : AnswersKeepHalt s (execAlloc ch n s) := by
  simp only [execAlloc]
  split_ifs
  · exact .respond s _ _
  · exact (((KeepsHalt.refl s).setRing ch _).respond _ _).answers

theorem execUnalloc_keepsHalt (n set : Word) : AnswersKeepHalt s (execUnalloc ch n set s) := by
  simp only [execUnalloc]
  split_ifs
  · exact .respond s _ _
  · exact (((KeepsHalt.refl s).setRing ch _).respond _ _).answers

theorem execFree_keepsHalt (n set : Word) : AnswersKeepHalt s (execFree ch n set s) := by
  simp only [execFree]
  split_ifs
  · exact .respond s _ _
  · exact .respond s _ _
  · exact (((KeepsHalt.refl s).setRing ch _).respond _ _).answers

theorem execToHw_keepsHalt (n set : Word) : AnswersKeepHalt s (execToHw ch n set s) := by
  simp only [execToHw]
  have hread := (KeepsHalt.refl s).bdRead ch set 3
  have hwalk := hread.descriptors (toHwWalk_frame ch (n.toNat - 1) set (s.bdRead ch set 3).1 (s.bdRead ch set 3).2)
  split_ifs
  · exact .respond s _ _
  · exact .respond s _ _
  · exact (hread.respond _ _).answers
  · exact ((hwalk.commitSubmission ch n _).respond _ _).answers
  · exact (hwalk.respond _ _).answers

theorem execFromHw_keepsHalt (limit : Word) : AnswersKeepHalt s (execFromHw ch limit s) := by
  simp only [execFromHw]
  have hwalk := (KeepsHalt.refl s).descriptors (fromHwWalk_frame ch limit.toNat (s.ring ch).hwHead 0 0 s).1
  split_ifs
  · exact .respond s _ _
  · exact (hwalk.respond _ _).answers
  · exact ((hwalk.setRing ch _).respond _ _).answers

theorem execCreate_keepsHalt (p v a n : Word) : AnswersKeepHalt s (execCreate ch p v a n s) := by
  unfold execCreate
  split
  · exact .respond s _ _
  · exact ((((KeepsHalt.refl s).setRing ch _).descriptors (s.createRing_frame ch p v a n)).respond _ _).answers

theorem execClone_keepsHalt (t0 t1 t2 t3 t4 t5 t6 t7 t8 : Word) :
    AnswersKeepHalt s (execClone ch t0 t1 t2 t3 t4 t5 t6 t7 t8 s) := by
  simp only [execClone]
  split_ifs
  · exact .respond s _ _
  · exact .respond s _ _
  · have hloop := State.forEach_sameButDescriptors (s.ring ch).count.toNat
      (State.cloneDescriptor ch t1 t2 t3 t4 t5 t6 t7 t8) s (fun k t => State.cloneDescriptor_frame ch _ _ _ _ _ _ _ _ k t)
    exact (((KeepsHalt.refl s).descriptors hloop).respond _ _).answers

/-- No command leaves a halt but by the start of a software reset. -/
theorem exec_keepsHalt (i : Instr) : AnswersKeepHalt s (exec i s) := by
  have h := KeepsHalt.refl s
  cases i with
  | nop => exact .respond s _ _
  | create ch p v a n => exact execCreate_keepsHalt s ch p v a n
  | clone ch t0 t1 t2 t3 t4 t5 t6 t7 t8 => exact execClone_keepsHalt s ch t0 t1 t2 t3 t4 t5 t6 t7 t8
  | alloc ch n => exact execAlloc_keepsHalt s ch n
  | unalloc ch n set => exact execUnalloc_keepsHalt s ch n set
  | toHw ch n set => exact execToHw_keepsHalt s ch n set
  | fromHw ch limit => exact execFromHw_keepsHalt s ch limit
  | free ch n set => exact execFree_keepsHalt s ch n set
  | start ch => exact execStart_keepsHalt s ch
  | pause => exact execPause_keepsHalt s
  | resume => exact execResume_keepsHalt s
  | reset => exact execReset_keepsHalt s
  | setCoalesce ch counter timer => exact execSetCoalesce_keepsHalt s ch counter timer
  | getCoalesce ch => exact ((h.regRead (.cr ch)).respond _ _).answers
  | irqEnable ch mask => exact ((h.changeEnables ch _).respond _ _).answers
  | irqDisable ch mask => exact ((h.changeEnables ch _).respond _ _).answers
  | irqGet ch => exact ((h.regRead (.irq ch)).respond _ _).answers
  | irqAck ch mask => exact ((h.regWrite (.irq ch) _).respond _ _).answers
  | bdRd ch bd w => exact execBdRd_keepsHalt s ch bd w
  | bdWr ch bd w value => exact execBdWr_keepsHalt s ch bd w value
  | bdNext ch bd => exact execBdNext_keepsHalt s ch bd
  | bdPrev ch bd => exact execBdPrev_keepsHalt s ch bd
  | ringStat ch sel => exact execRingStat_keepsHalt s ch sel
  | regRd off => exact execRegRd_keepsHalt s off
  | regWr off value => exact execRegWr_keepsHalt s off value

end Commands

/-! ## The manager's turn -/

section Manager

variable {s t : State}

theorem KeepsHalt.finishPause (h : KeepsHalt s t) : KeepsHalt s t.finishPause := by
  have hq : KeepsHalt s { t with waiting := none } := h.trans (.of_fields rfl rfl rfl)
  exact ((hq.setRunState .tx _).setRunState .rx _).respond _ _

theorem KeepsHalt.finishReset (h : KeepsHalt s t) : KeepsHalt s t.finishReset := by
  have hq : KeepsHalt s { t with waiting := none } := h.trans (.of_fields rfl rfl rfl)
  have hoff := (((hq.disableAll .tx).disableAll .rx).acknowledgeAll .tx).acknowledgeAll .rx
  have hcr := ((hoff.regWrite .dmacr resetDefault).programCoalesce .tx 1 1).programCoalesce .rx 1 1
  exact ((hcr.setRunState .tx _).setRunState .rx _).respond _ _

theorem State.poll_keepsHalt (s : State) (w : Waiting) : KeepsHalt s (s.poll w) := by
  rw [State.poll_eq]
  split_ifs
  · cases w.kind with
    | pause => exact (KeepsHalt.refl s).finishPause
    | reset => exact (KeepsHalt.refl s).finishReset
  · exact (KeepsHalt.refl s).waitOn _ _

theorem managerTurn_keepsHalt (s : State) : AnswersKeepHalt s (managerTurn s) := by
  rcases hw : s.waiting with _ | w
  · rcases hd : decode s.stream with ⟨i, rest⟩ | why
    · rw [managerTurn_of_instr s i rest hw hd]
      split_ifs
      · exact .of_kept (t := { s with stream := rest }) (.of_fields rfl rfl rfl) (exec_keepsHalt _ i)
      · exact fun _ he => by simp at he
    · rw [managerTurn_of_rejected s why hw hd]
      refine KeepsHalt.answers ?_
      unfold State.rejectCommand
      split_ifs
      · exact .of_fields rfl rfl rfl
      · exact .refl s
  · rw [managerTurn_of_waiting s w hw]
    exact (s.poll_keepsHalt w).answers

end Manager

/-! ## The other agents -/

theorem EngineActs.keepsHalt {own : Nat → Prop} {s t : State} {c : Channel} (h : EngineActs own c s t) (c' : Channel)
    (hh : (s.eng c').engState = .halt) : (t.eng c').engState = .halt := by
  obtain ⟨m, e, p, -, -, hhalt, rfl⟩ := h
  show ((s.setEng c e).eng c').engState = .halt
  by_cases hc : c' = c
  · subst hc
    rw [State.setEng_eng_same]
    exact hhalt hh
  · rwa [s.setEng_eng_other c c' e hc]

/-- R270: no step of the engine leaves a halt. -/
theorem State.engineTurn_keepsHalt (s : State) (hc : s.cfg.wf = true) (e : EngineEvent) (c : Channel)
    (hh : (s.eng c).engState = .halt) : ((s.engineTurn e).eng c).engState = .halt := by
  by_cases he : e = .resetDone
  · subst he
    simp only [State.engineTurn, State.engResetDone]
    split_ifs
    · cases c <;> exact hh
    · exact hh
  · obtain ⟨c', h⟩ := s.engineTurn_acts hc e he
    exact h.keepsHalt c hh

theorem State.cacheTurn_keepsHalt (s : State) (e : CacheEvent) : KeepsHalt s (s.cacheTurn e) := by
  cases e with
  | writeBack c d =>
    simp only [State.cacheTurn, State.cacheWriteBack]
    split
    · split_ifs
      · exact (KeepsHalt.refl s).descriptors ((s.writeBackLine_frame c _).trans (State.putLine_frame _ c _))
      · exact .refl s
    · exact .refl s
  | evict c d =>
    simp only [State.cacheTurn, State.cacheEvict]
    split
    · split_ifs
      · exact (KeepsHalt.refl s).descriptors (s.setCache_frame c _)
      · exact .refl s
    · exact .refl s

theorem State.narrowAccess_keepsHalt (s : State) (addr : Word) (n : Nat) :
    AnswersKeepHalt s (s.narrowAccess addr n) := fun t ht => by
  rcases s.narrowAccess_stops addr n with h | h <;> simp [h] at ht

theorem hostRead_keepsHalt (addr : Word) (n : Nat) (s : State) : AnswersKeepHalt s (hostRead addr n s) := by
  unfold hostRead
  split_ifs
  · exact s.narrowAccess_keepsHalt addr n
  · split
    · exact fun _ he => by simp at he
    · next c bd w _ =>
      have h : KeepsHalt s (if (s.ring c).group bd = .hw then s.drawWord else s.bdRead c bd w).2 := by
        split_ifs
        · exact .of_fields rfl rfl rfl
        · exact (KeepsHalt.refl s).bdRead c bd w
      exact KeepsHalt.answers (h.trans (.of_fields rfl rfl rfl))

theorem hostWrite_keepsHalt (addr : Word) (n : Nat) (v : Word) (s : State) :
    AnswersKeepHalt s (hostWrite addr n v s) := by
  unfold hostWrite
  split_ifs
  · exact s.narrowAccess_keepsHalt addr n
  · split
    · exact fun _ he => by simp at he
    · next c bd w _ =>
      split_ifs
      · exact ((KeepsHalt.refl s).bdWrite c bd w v).answers
      · exact fun _ he => by simp at he

theorem hostTurn_keepsHalt (s : State) (e : HostEvent) : AnswersKeepHalt s (hostTurn s e) := by
  unfold hostTurn
  split_ifs
  · exact (KeepsHalt.refl s).answers
  · cases e with
    | present ws => exact KeepsHalt.answers (.of_fields rfl rfl rfl)
    | directRead addr n => exact hostRead_keepsHalt addr n s
    | directWrite addr n v => exact hostWrite_keepsHalt addr n v s

/-! ## The step -/

/-- A step of any agent but the engine. -/
theorem step_keepsHalt {s t : State} (h : step s = .next t) (hq : ∀ e q, s.sched ≠ .engine e :: q) : KeepsHalt s t := by
  have ha := State.admitted_of_step h
  have hsched (q : List Turn) : KeepsHalt s { s with sched := q } := .of_fields rfl rfl rfl
  cases hs : s.sched with
  | nil =>
    rw [step_of_managerNext s [] ha (.inr ⟨hs, rfl⟩)] at h
    exact (hsched []).trans (managerTurn_keepsHalt _ t h)
  | cons x q =>
    cases x with
    | manager =>
      rw [step_of_managerNext s q ha (.inl hs)] at h
      exact (hsched q).trans (managerTurn_keepsHalt _ t h)
    | engine e => exact absurd hs (hq e q)
    | cache e =>
      rw [step_of_cacheNext s q e ha hs] at h
      cases h
      exact (hsched q).trans (State.cacheTurn_keepsHalt _ e)
    | host e =>
      rw [step_of_hostNext s q e ha hs] at h
      exact (hsched q).trans (hostTurn_keepsHalt _ e t h)

/-- Settles O48: the engine's own steps leave no halt, and the manager's only by the start of a software reset. -/
theorem haltLeftOnlyByReset : Obligations.HaltLeftOnlyByReset := by
  intro s t c h hh
  by_cases hq : ∃ e q, s.sched = .engine e :: q
  · obtain ⟨e, q, hq⟩ := hq
    rw [step_of_engineNext hq h]
    refine .inl (State.engineTurn_keepsHalt { s with sched := q } (State.admitted_of_step h).cfg e c ?_)
    rwa [State.withSched_eng]
  · exact (step_keepsHalt h fun e q he => hq ⟨e, q, he⟩).halt c hh

end Sys2Proof.Machine
end

section
/-! SUPPORT. The interrupt line (spec/60_exceptions.md R305) by the latched sources, and what a failing command leaves (R300,
R303): every command answers a next state, and one that fails its checks has set nothing but the response. -/

namespace Sys2Proof.Machine

/-! ## The interrupt line -/

/-- Settles O31: bits 0 to 2 of `IRQ` are the three latches, so R305's formula reads the pending sources. -/
theorem interruptLine : Obligations.InterruptLine := by
  intro s c
  obtain ⟨hcoal, hdly, herr⟩ := irqView_latches (s.eng c) (s.wrqEmpty c)
  refine ⟨?_, rfl⟩
  simp only [State.irqLine, irqLineOf, State.irqValue, hcoal, hdly, herr, Bool.and_eq_true, Bool.or_eq_true, bne_iff_ne,
    or_assoc]

/-! ## Failures -/

/-- R303: the answer is a next state; where its status is a failure and none of TO_HW's packet validation (C1), only the
response differs. -/
def AnswersAtomically (s : State) (a : Result) : Prop :=
  ∃ t, a = .next t ∧ (t.response.head? ≠ some 0 → t.response ≠ [] → t.response.head? ≠ some 11 →
    t.response.head? ≠ some 12 → t.response.head? ≠ some 13 → t = { s with response := t.response })

namespace AnswersAtomically

variable {s : State} {a b : Result} {p : Prop} [Decidable p]

theorem ok (s t : State) (results : List Word) : AnswersAtomically s (.next (t.respond .ok results)) :=
  ⟨_, rfl, fun h => absurd rfl h⟩

theorem fail (s : State) (st : Status) (n : Nat) : AnswersAtomically s (.next (s.failWith st n)) :=
  ⟨_, rfl, fun _ _ _ _ _ => rfl⟩

/-- R176: the statuses of validation, which may follow descriptors already rewritten (C1). -/
theorem validation (s t : State) {st : Status} (n : Nat) (h : st ∈ [Status.ok, .noSop, .noEop, .zeroLen]) :
    AnswersAtomically s (.next (t.failWith st n)) := by
  refine ⟨_, rfl, fun h0 _ h11 h12 h13 => ?_⟩
  simp only [List.mem_cons, List.not_mem_nil, or_false] at h
  obtain rfl | rfl | rfl | rfl := h
  · exact absurd rfl h0
  · exact absurd rfl h11
  · exact absurd rfl h12
  · exact absurd rfl h13

theorem ite (ha : AnswersAtomically s a) (hb : AnswersAtomically s b) : AnswersAtomically s (if p then a else b) := by
  split_ifs
  · exact ha
  · exact hb

/-- R304: a check that stands before the effect. -/
theorem check {st : Status} {n : Nat} (hb : AnswersAtomically s b) :
    AnswersAtomically s (if p then .next (s.failWith st n) else b) := ite (fail s st n) hb

end AnswersAtomically

section Commands

variable (s : State) (ch : Channel)

theorem execCreate_atomic (p v a n : Word) : AnswersAtomically s (execCreate ch p v a n s) := by
  unfold execCreate
  split
  · exact .fail s _ _
  · exact .ok s _ _

theorem execToHw_atomic (n set : Word) : AnswersAtomically s (execToHw ch n set s) := by
  have hwalk (m : Nat) (cur sts : Word) (t : State) :
      (toHwWalk ch m cur sts t).status ∈ [Status.ok, .noSop, .noEop, .zeroLen] := by
    have hsub : [Status.ok, .noEop, .zeroLen] ⊆ [Status.ok, .noSop, .noEop, .zeroLen] := by decide
    exact hsub (toHwWalk_status ch m cur sts t)
  exact .ite (.ok s _ _) (.check (.ite (.validation s _ 0 (by decide))
    (.ite (.ok s _ _) (.validation s _ 0 (hwalk _ _ _ _)))))

theorem execRingStat_atomic (sel : Word) : AnswersAtomically s (execRingStat ch sel s) := by
  unfold execRingStat
  split
  · exact .ok s _ _
  · exact .fail s _ _

theorem execRegRd_atomic (off : Word) : AnswersAtomically s (execRegRd off s) := by
  unfold execRegRd
  split
  · exact .fail s _ _
  · exact .ok s _ _

theorem execRegWr_atomic (off value : Word) : AnswersAtomically s (execRegWr off value s) := by
  unfold execRegWr
  split
  · exact .fail s _ _
  · exact .ok s _ _

/-- R303, command by command: a check that fails stands before the effect. -/
theorem exec_atomic (i : Instr) (hp : i ≠ .pause) (hr : i ≠ .reset) : AnswersAtomically s (exec i s) := by
  cases i with
  | pause => exact absurd rfl hp
  | reset => exact absurd rfl hr
  | nop | resume | getCoalesce | irqEnable | irqDisable | irqGet | irqAck => exact .ok s _ _
  | create ch p v a n => exact execCreate_atomic s ch p v a n
  | clone => exact .check (.check (.ok s _ _))
  | alloc | unalloc => exact .check (.ok s _ _)
  | toHw ch n set => exact execToHw_atomic s ch n set
  | fromHw => exact .ite (.ok s _ _) (.ite (.ok s _ _) (.ok s _ _))
  | free => exact .ite (.ok s _ _) (.check (.ok s _ _))
  | start => exact .check (.ite (.ok s _ _) (.ok s _ _))
  | setCoalesce | bdNext | bdPrev => exact .ite (.ok s _ _) (.fail s _ _)
  | bdRd => exact .check (.check (.ok s _ _))
  | bdWr => exact .check (.check (.check (.ok s _ _)))
  | ringStat ch sel => exact execRingStat_atomic s ch sel
  | regRd off => exact execRegRd_atomic s off
  | regWr off value => exact execRegWr_atomic s off value

end Commands

/-- Settles O50: PAUSE and RESET always answer the state of their wait, and every other command fails before its effect. -/
theorem failureAtomicity : Obligations.FailureAtomicity := by
  intro i s
  by_cases hp : i = .pause
  · exact ⟨_, by rw [hp]; rfl, fun _ _ _ _ _ hne => absurd hp hne⟩
  by_cases hr : i = .reset
  · exact ⟨_, by rw [hr]; rfl, fun _ _ _ _ _ _ hne => absurd hr hne⟩
  obtain ⟨t, ht, hfail⟩ := exec_atomic s i hp hr
  exact ⟨t, ht, fun h0 hne h11 h12 h13 _ _ => hfail h0 hne h11 h12 h13⟩

end Sys2Proof.Machine
end

section
/-! SUPPORT. Noninterference between the channels (spec/60_exceptions.md R320): a change of the state that one channel neither
sees nor undoes passes through every operation on that channel, and so through every command on it. -/

namespace Sys2Proof.Machine

/-- R320: a change of the state that reaches nothing a command on channel `ch` reads or writes. -/
structure ApartFrom (ch : Channel) (P : State → State) : Prop where
  cfg : ∀ s, (P s).cfg = s.cfg
  dmacr : ∀ s, (P s).dmacr = s.dmacr
  resetting : ∀ s, (P s).resetting = s.resetting
  wbPending : ∀ s, (P s).wbPending = s.wbPending
  mem : ∀ s, (P s).mem = s.mem
  ring : ∀ s, (P s).ring ch = s.ring ch
  eng : ∀ s, (P s).eng ch = s.eng ch
  cacheOf : ∀ s, (P s).cacheOf ch = s.cacheOf ch
  setRing : ∀ s r, (P s).setRing ch r = P (s.setRing ch r)
  setEng : ∀ s e, (P s).setEng ch e = P (s.setEng ch e)
  setCache : ∀ s l, (P s).setCache ch l = P (s.setCache ch l)
  setMem : ∀ s m, { P s with mem := m } = P { s with mem := m }
  drawWord : ∀ s, (P s).drawWord = (s.drawWord.1, P s.drawWord.2)
  drawBool : ∀ s, (P s).drawBool = (s.drawBool.1, P s.drawBool.2)
  respond : ∀ s st rs, (P s).respond st rs = P (s.respond st rs)

/-- The other channel's ring, engine registers and cached copies replaced. -/
theorem apartFrom_of_otherChannel {c ch : Channel} (h : c ≠ ch) (r : Ring) (e : EngineChannel) (l : List CacheLine) :
    ApartFrom ch fun s => ((s.setRing c r).setEng c e).setCache c l := by
  cases c <;> cases ch
  case tx.tx | rx.rx => exact absurd rfl h
  all_goals constructor <;> intros <;> rfl

/-- The second answer is the first with the change made to its next state. -/
def AnswersAlike (P : State → State) (a b : Result) : Prop := ∃ t, a = .next t ∧ b = .next (P t)

theorem answersAlike (P : State → State) (t : State) : AnswersAlike P (.next t) (.next (P t)) := ⟨t, rfl, rfl⟩

/-- A loop passes on what each of its rounds does. -/
theorem State.forEach_apart {P : State → State} {f : Nat → State → State} (h : ∀ k s, f k (P s) = P (f k s)) (n : Nat)
    (s : State) : State.forEach n f (P s) = P (State.forEach n f s) := by
  induction n with
  | zero => rfl
  | succ k ih => simp only [State.forEach, ih, h]

/-- The walk's end with a change made to its state. -/
def Walk.mapState (P : State → State) (w : Walk) : Walk := { w with state := P w.state }

/-- The harvest with a change made to its state. -/
def Harvest.mapState (P : State → State) (w : Harvest) : Harvest := { w with state := P w.state }

theorem Reg.cdesc_mem_ofChannel (c : Channel) : Reg.cdesc c ∈ Reg.ofChannel c := by simp [Reg.ofChannel]

theorem Reg.tdesc_mem_ofChannel (c : Channel) : Reg.tdesc c ∈ Reg.ofChannel c := by simp [Reg.ofChannel]

theorem Reg.cr_mem_ofChannel (c : Channel) : Reg.cr c ∈ Reg.ofChannel c := by simp [Reg.ofChannel]

theorem Reg.irq_mem_ofChannel (c : Channel) : Reg.irq c ∈ Reg.ofChannel c := by simp [Reg.ofChannel]

/-! ## Operations on the channel -/

namespace ApartFrom

variable {ch : Channel} {P : State → State} (h : ApartFrom ch P) (s : State)
include h

/-! ## Descriptor words -/

theorem memWord (bd : Word) (w : Nat) : (P s).memWord ch bd w = s.memWord ch bd w :=
  State.memWord_congr (h.mem s) (h.cfg s) (h.ring s) bd w

theorem setMemWord (bd : Word) (w : Nat) (v : Word) : (P s).setMemWord ch bd w v = P (s.setMemWord ch bd w v) := by
  have haddr : (P s).wordAddr ch bd w = s.wordAddr ch bd w := by simp only [State.wordAddr, h.ring]
  rw [State.setMemWord, h.setMem, h.mem, h.cfg, haddr]
  rfl

theorem cleanCopy (bd : Word) : (P s).cleanCopy ch bd = s.cleanCopy ch bd := by
  simp only [State.cleanCopy, h.memWord]

theorem putLine (l : CacheLine) : (P s).putLine ch l = P (s.putLine ch l) := by
  simp only [State.putLine, h.cacheOf, h.setCache]

theorem bdRead (bd : Word) (w : Nat) : (P s).bdRead ch bd w = ((s.bdRead ch bd w).1, P (s.bdRead ch bd w).2) := by
  simp only [State.bdRead, h.cfg, h.cacheOf, h.memWord, h.cleanCopy, h.drawBool, h.putLine]
  cases cacheFind (s.cacheOf ch) bd with
  | some l => split_ifs <;> rfl
  | none => split_ifs <;> rfl

theorem bdWrite (bd : Word) (w : Nat) (v : Word) : (P s).bdWrite ch bd w v = P (s.bdWrite ch bd w v) := by
  simp only [State.bdWrite, h.cfg, h.cacheOf, h.cleanCopy, h.putLine, h.setMemWord, apply_ite P]

theorem writeBackLine (l : CacheLine) : (P s).writeBackLine ch l = P (s.writeBackLine ch l) :=
  State.forEach_apart (fun _ t => h.setMemWord t _ _ _) 8 s

theorem flush (bd : Word) : (P s).flush ch bd = P (s.flush ch bd) := by
  simp only [State.flush, h.cfg, h.cacheOf]
  split_ifs
  · cases cacheFind (s.cacheOf ch) bd with
    | none => rfl
    | some l =>
      simp only [h.writeBackLine, h.putLine, ← apply_ite P, h.drawBool, h.cacheOf, h.setCache]
  · rfl

theorem invalidate (bd : Word) : (P s).invalidate ch bd = P (s.invalidate ch bd) := by
  simp only [State.invalidate, h.cfg, h.cacheOf, h.setCache, apply_ite P]

/-! ## Engine registers -/

theorem irqValue : (P s).irqValue ch = s.irqValue ch := by
  have hq : (P s).wrqEmpty ch = s.wrqEmpty ch := by
    cases ch with
    | tx => rfl
    | rx => exact congrArg Option.isNone (h.wbPending s)
  rw [State.irqValue, State.irqValue, h.eng, hq]

theorem regRead {x : Reg} (hx : x ∈ Reg.ofChannel ch) : (P s).regRead x = ((s.regRead x).1, P (s.regRead x).2) := by
  simp only [Reg.ofChannel, List.mem_cons, List.not_mem_nil, or_false] at hx
  obtain rfl | rfl | rfl | rfl | rfl | rfl | rfl | rfl := hx <;>
    simp only [State.regRead, h.drawWord, h.eng, h.irqValue]

theorem regWrite {x : Reg} (hx : x ∈ Reg.ofChannel ch) (v : Word) : (P s).regWrite x v = P (s.regWrite x v) := by
  simp only [Reg.ofChannel, List.mem_cons, List.not_mem_nil, or_false] at hx
  obtain rfl | rfl | rfl | rfl | rfl | rfl | rfl | rfl := hx <;>
    simp only [State.regWrite, State.writeCdesc, State.writeTdesc, State.writeCr, State.writeIrq, h.eng, h.dmacr,
      h.resetting, h.setEng, apply_ite P]

/-! ## Shared parts of the commands -/

theorem ok : (P s).ok = P s.ok := h.respond s _ _

theorem failWith (st : Status) (n : Nat) : (P s).failWith st n = P (s.failWith st n) := h.respond s _ _

theorem zeroRing : (P s).zeroRing ch = P (s.zeroRing ch) := by
  have hwords (bd : Word) (t : State) : State.forEach 8 (fun w s => s.bdWrite ch bd w 0) (P t) =
      P (State.forEach 8 (fun w s => s.bdWrite ch bd w 0) t) := State.forEach_apart (fun _ u => h.bdWrite u _ _ _) 8 t
  by_cases hc : s.cfg.cached = true
  · have hc' : (P s).cfg.cached = true := by rwa [h.cfg]
    simp only [State.zeroRing, if_pos hc, if_pos hc', h.ring]
    refine State.forEach_apart (fun k t => ?_) _ s
    rw [hwords, h.setMem, h.mem]
  · have hc' : ¬ (P s).cfg.cached = true := by rwa [h.cfg]
    simp only [State.zeroRing, if_neg hc, if_neg hc', h.ring]
    rw [h.setMem, h.mem]

theorem initDescriptor (k : Nat) : State.initDescriptor ch k (P s) = P (State.initDescriptor ch k s) := by
  simp only [State.initDescriptor, h.ring, h.bdWrite, h.flush]

theorem createRing (p v a n : Word) : (P s).createRing ch p v a n = P (s.createRing ch p v a n) := by
  simp only [State.createRing, State.initLastDescriptor, h.ring, h.setRing, h.zeroRing,
    State.forEach_apart (fun k t => h.initDescriptor t k), h.bdWrite, h.flush]

theorem cloneDescriptor (t1 t2 t3 t4 t5 t6 t7 t8 : Word) (k : Nat) :
    State.cloneDescriptor ch t1 t2 t3 t4 t5 t6 t7 t8 k (P s) =
      P (State.cloneDescriptor ch t1 t2 t3 t4 t5 t6 t7 t8 k s) := by
  simp only [State.cloneDescriptor, h.ring, h.bdWrite, h.flush]

theorem submitDescriptor (cur sts : Word) : (P s).submitDescriptor ch cur sts = P (s.submitDescriptor ch cur sts) := by
  simp only [State.submitDescriptor, h.bdWrite, h.ring, h.cfg, ← apply_ite P, h.flush]

theorem toHwWalk_mapState (m : Nat) (cur sts : Word) :
    toHwWalk ch m cur sts (P s) = (toHwWalk ch m cur sts s).mapState P := by
  induction m generalizing cur sts s with
  | zero =>
    simp only [toHwWalk, h.bdRead, h.submitDescriptor]
    split_ifs <;> rfl
  | succ m ih =>
    simp only [toHwWalk, h.bdRead, h.submitDescriptor, h.ring, ih]
    split_ifs <;> rfl

theorem commitSubmission (n cur : Word) : (P s).commitSubmission ch n cur = P (s.commitSubmission ch n cur) := by
  simp only [State.commitSubmission, h.ring, h.setRing, h.regWrite _ (Reg.tdesc_mem_ofChannel ch), apply_ite P]

theorem fromHwWalk_mapState (m : Nat) (cur : Word) (cnt part : Nat) :
    fromHwWalk ch m cur cnt part (P s) = (fromHwWalk ch m cur cnt part s).mapState P := by
  induction m generalizing cur cnt part s with
  | zero => rfl
  | succ m ih =>
    have hwdog (b : Bool) (x : Word × State) (t : State) : (if b then (x.1, P x.2) else (0, P t)) =
        ((if b then x else (0, t)).1, P (if b then x else (0, t)).2) := by cases b <;> rfl
    simp only [fromHwWalk, h.invalidate, h.bdRead, h.ring, h.cfg, hwdog, ih]
    split_ifs <;> rfl

theorem rekick : (P s).rekick ch = P (s.rekick ch) := by
  simp only [State.rekick, h.ring, h.invalidate, h.bdRead, h.regWrite _ (Reg.tdesc_mem_ofChannel ch), apply_ite P]

theorem setRunState (rs : RunState) : (P s).setRunState ch rs = P (s.setRunState ch rs) := by
  simp only [State.setRunState, h.ring, h.setRing]

theorem programCoalesce (counter timer : Word) :
    (P s).programCoalesce ch counter timer = P (s.programCoalesce ch counter timer) := by
  simp only [State.programCoalesce, h.regRead s (Reg.cr_mem_ofChannel ch), h.regWrite _ (Reg.cr_mem_ofChannel ch),
    h.cfg]

theorem changeEnables (f : Word → Word) : (P s).changeEnables ch f = P (s.changeEnables ch f) := by
  simp only [State.changeEnables, h.regRead s (Reg.cr_mem_ofChannel ch), h.regWrite _ (Reg.cr_mem_ofChannel ch),
    h.ring, h.setRing]

/-! ## The commands -/

theorem execCreate_alike (p v a n : Word) : AnswersAlike P (execCreate ch p v a n s) (execCreate ch p v a n (P s)) := by
  simp only [execCreate, h.cfg, h.ring, h.failWith, h.createRing, h.ok]
  split
  · exact answersAlike P _
  · exact answersAlike P _

theorem execClone_alike (t0 t1 t2 t3 t4 t5 t6 t7 t8 : Word) : AnswersAlike P (execClone ch t0 t1 t2 t3 t4 t5 t6 t7 t8 s)
    (execClone ch t0 t1 t2 t3 t4 t5 t6 t7 t8 (P s)) := by
  simp only [execClone, h.ring, h.failWith, h.ok,
    State.forEach_apart (fun k t => h.cloneDescriptor t t1 t2 t3 t4 t5 t6 t7 t8 k)]
  split_ifs
  · exact answersAlike P _
  · exact answersAlike P _
  · exact answersAlike P _

theorem execAlloc_alike (n : Word) : AnswersAlike P (execAlloc ch n s) (execAlloc ch n (P s)) := by
  simp only [execAlloc, h.ring, h.failWith, h.setRing, h.respond]
  split_ifs
  · exact answersAlike P _
  · exact answersAlike P _

theorem execUnalloc_alike (n set : Word) : AnswersAlike P (execUnalloc ch n set s) (execUnalloc ch n set (P s)) := by
  simp only [execUnalloc, h.ring, h.failWith, h.setRing, h.ok]
  split_ifs
  · exact answersAlike P _
  · exact answersAlike P _

theorem execToHw_alike (n set : Word) : AnswersAlike P (execToHw ch n set s) (execToHw ch n set (P s)) := by
  simp only [execToHw, h.ring, h.failWith, h.ok, h.bdRead, h.toHwWalk_mapState, Walk.mapState, h.commitSubmission]
  split_ifs
  · exact answersAlike P _
  · exact answersAlike P _
  · exact answersAlike P _
  · exact answersAlike P _
  · exact answersAlike P _

theorem execFromHw_alike (limit : Word) : AnswersAlike P (execFromHw ch limit s) (execFromHw ch limit (P s)) := by
  simp only [execFromHw, h.ring, h.fromHwWalk_mapState, Harvest.mapState, h.setRing, h.respond]
  split_ifs
  · exact answersAlike P _
  · exact answersAlike P _
  · exact answersAlike P _

theorem execFree_alike (n set : Word) : AnswersAlike P (execFree ch n set s) (execFree ch n set (P s)) := by
  simp only [execFree, h.ring, h.failWith, h.setRing, h.ok]
  split_ifs
  · exact answersAlike P _
  · exact answersAlike P _
  · exact answersAlike P _

theorem execStart_alike : AnswersAlike P (execStart ch s) (execStart ch (P s)) := by
  simp only [execStart, h.ring, h.failWith, h.ok, h.regWrite s (Reg.cdesc_mem_ofChannel ch), h.rekick, h.setRunState]
  split_ifs
  · exact answersAlike P _
  · exact answersAlike P _
  · exact answersAlike P _

theorem execSetCoalesce_alike (counter timer : Word) :
    AnswersAlike P (execSetCoalesce ch counter timer s) (execSetCoalesce ch counter timer (P s)) := by
  simp only [execSetCoalesce, h.cfg, h.failWith, h.ok, h.programCoalesce]
  split_ifs
  · exact answersAlike P _
  · exact answersAlike P _

theorem execGetCoalesce_alike : AnswersAlike P (execGetCoalesce ch s) (execGetCoalesce ch (P s)) := by
  simp only [execGetCoalesce, h.regRead s (Reg.cr_mem_ofChannel ch), h.respond]
  exact answersAlike P _

theorem execIrqGet_alike : AnswersAlike P (execIrqGet ch s) (execIrqGet ch (P s)) := by
  simp only [execIrqGet, h.regRead s (Reg.irq_mem_ofChannel ch), h.respond]
  exact answersAlike P _

theorem execIrqAck_alike (mask : Word) : AnswersAlike P (execIrqAck ch mask s) (execIrqAck ch mask (P s)) := by
  simp only [execIrqAck, h.regWrite s (Reg.irq_mem_ofChannel ch), h.ok]
  exact answersAlike P _

/-- IRQ_ENABLE and IRQ_DISABLE. -/
theorem changeEnables_alike (f : Word → Word) :
    AnswersAlike P (.next (s.changeEnables ch f).ok) (.next ((P s).changeEnables ch f).ok) := by
  rw [h.changeEnables, h.ok]
  exact answersAlike P _

theorem execBdRd_alike (bd w : Word) : AnswersAlike P (execBdRd ch bd w s) (execBdRd ch bd w (P s)) := by
  simp only [execBdRd, h.ring, h.failWith, h.bdRead, h.respond]
  split_ifs
  · exact answersAlike P _
  · exact answersAlike P _
  · exact answersAlike P _

theorem execBdWr_alike (bd w value : Word) :
    AnswersAlike P (execBdWr ch bd w value s) (execBdWr ch bd w value (P s)) := by
  simp only [execBdWr, h.ring, h.failWith, h.bdWrite, h.ok]
  split_ifs
  · exact answersAlike P _
  · exact answersAlike P _
  · exact answersAlike P _
  · exact answersAlike P _

theorem execBdNext_alike (bd : Word) : AnswersAlike P (execBdNext ch bd s) (execBdNext ch bd (P s)) := by
  simp only [execBdNext, h.ring, h.failWith, h.respond]
  split_ifs
  · exact answersAlike P _
  · exact answersAlike P _

theorem execBdPrev_alike (bd : Word) : AnswersAlike P (execBdPrev ch bd s) (execBdPrev ch bd (P s)) := by
  simp only [execBdPrev, h.ring, h.failWith, h.respond]
  split_ifs
  · exact answersAlike P _
  · exact answersAlike P _

theorem execRingStat_alike (sel : Word) : AnswersAlike P (execRingStat ch sel s) (execRingStat ch sel (P s)) := by
  simp only [execRingStat, h.ring, h.failWith, h.respond]
  split
  · exact answersAlike P _
  · exact answersAlike P _

end ApartFrom

/-- R320: a command with channel scope answers alike before and after a change apart from its channel. -/
theorem exec_alike {i : Instr} {P : State → State} (hscope : i.raw.opcode.scope = .channel)
    (h : ApartFrom i.raw.ch P) (s : State) : AnswersAlike P (exec i s) (exec i (P s)) := by
  cases i with
  | nop | pause | resume | reset | regRd | regWr => cases hscope
  | create ch p v a n => exact h.execCreate_alike s p v a n
  | clone ch t0 t1 t2 t3 t4 t5 t6 t7 t8 => exact h.execClone_alike s t0 t1 t2 t3 t4 t5 t6 t7 t8
  | alloc ch n => exact h.execAlloc_alike s n
  | unalloc ch n set => exact h.execUnalloc_alike s n set
  | toHw ch n set => exact h.execToHw_alike s n set
  | fromHw ch limit => exact h.execFromHw_alike s limit
  | free ch n set => exact h.execFree_alike s n set
  | start ch => exact h.execStart_alike s
  | setCoalesce ch counter timer => exact h.execSetCoalesce_alike s counter timer
  | getCoalesce ch => exact h.execGetCoalesce_alike s
  | irqEnable ch mask => exact h.changeEnables_alike s _
  | irqDisable ch mask => exact h.changeEnables_alike s _
  | irqGet ch => exact h.execIrqGet_alike s
  | irqAck ch mask => exact h.execIrqAck_alike s mask
  | bdRd ch bd w => exact h.execBdRd_alike s bd w
  | bdWr ch bd w value => exact h.execBdWr_alike s bd w value
  | bdNext ch bd => exact h.execBdNext_alike s bd
  | bdPrev ch bd => exact h.execBdPrev_alike s bd
  | ringStat ch sel => exact h.execRingStat_alike s sel

/-- Settles O49: the replacement of the other channel's parts is apart from the command's own channel. -/
theorem channelIndependence : Obligations.ChannelIndependence :=
  fun _ s _ r e l hscope hc => exec_alike hscope (apartFrom_of_otherChannel hc r e l) s

end Sys2Proof.Machine
end

section
/-! SUPPORT. Direct host accesses (spec/70_reset_and_hazards.md R342, spec/20_memory.md R80, R83, R90): when an access meets a
ring's region, and one equation for each way a read or a write ends (U8, U14, assumption 12). -/

namespace Sys2Proof.Machine

/-! ## Where an access lies -/

/-- R83: an access is narrow or misaligned, or it is one aligned word. -/
theorem wordAccess_eq_false_iff (addr : Word) (n : Nat) : wordAccess addr n = false ↔ n ≠ 4 ∨ addr.toNat % 4 ≠ 0 := by
  rw [wordAccess, Bool.and_eq_false_iff, beq_eq_false_iff_ne, beq_eq_false_iff_ne]

theorem wordAccess_word {addr : Word} (ha : addr.toNat % 4 = 0) : wordAccess addr 4 = true := by simp [wordAccess, ha]

/-- R80: an access meets a created ring's region where one of its bytes lies in it; an access of no bytes
counts as an access of one. -/
theorem Ring.touchedBy_iff {r : Ring} (hc : r.count ≠ 0) (hl : r.length.toNat ≠ 0) (addr : Word) (n : Nat) :
    r.touchedBy addr n = true ↔ ∃ i < max n 1, inRegion r.firstVirt r.length.toNat (byteAddr addr i) = true := by
  have hzero : (r.firstVirt - addr).toNat = 0 → (addr - r.firstVirt).toNat = 0 := by bv_omega
  simp only [exists_byte_inRegion_iff, Ring.touchedBy, Bool.and_eq_true, Bool.or_eq_true, bne_iff_ne, decide_eq_true_eq,
    hc, true_and, ne_eq, not_false_eq_true]
  omega

theorem Ring.length_ne_zero_of_inRegion {r : Ring} {b : Nat}
    (h : inRegion r.firstVirt r.length.toNat b = true) : r.length.toNat ≠ 0 :=
  Nat.ne_zero_of_lt (of_decide_eq_true h)

/-- A sound ring is not met by an access that has no byte in its region. -/
theorem Ring.Sound.touchedBy_eq_false {r : Ring} (h : r.Sound) {addr : Word} {n : Nat} (hn : 0 < n)
    (hout : ∀ i < n, inRegion r.firstVirt r.length.toNat (byteAddr addr i) = false) : r.touchedBy addr n = false := by
  rcases h with hu | ⟨hl, -⟩
  · simp [Ring.touchedBy, hu.count_eq]
  · have hlen : r.length.toNat ≠ 0 := by
      rw [hl.length_eq]
      exact Nat.mul_ne_zero (Nat.ne_zero_of_lt hl.separation_ge) hl.count_pos.ne'
    rw [← Bool.not_eq_true, Ring.touchedBy_iff hl.count_ne_zero hlen, Nat.max_eq_left hn]
    rintro ⟨i, hi, hin⟩
    simp [hout i hi] at hin

section Access

variable {s : State} {addr bd : Word} {n w : Nat} {c : Channel}

/-! ## An access that is not one aligned word -/

/-- R83, U14: refused at a ring's region. -/
theorem State.narrowAccess_of_touched (h : (s.ring c).touchedBy addr n = true) :
    s.narrowAccess addr n = .refused .hostNarrowAccess :=
  if_pos (Bool.or_eq_true_iff.2 (match c, h with
    | .tx, h => .inl h
    | .rx, h => .inr h))

/-- Assumption 12: elsewhere it faults. -/
theorem State.narrowAccess_of_untouched (h : ∀ c, (s.ring c).touchedBy addr n = false) :
    s.narrowAccess addr n = .fault .hostUnmapped :=
  if_neg (by simp [show s.txRing.touchedBy addr n = false from h .tx, show s.rxRing.touchedBy addr n = false from h .rx])

theorem hostTurn_of_narrow (hwait : s.waiting = none) (hna : n ≠ 4 ∨ addr.toNat % 4 ≠ 0) (v : Word) :
    hostTurn s (.directRead addr n) = s.narrowAccess addr n ∧
      hostTurn s (.directWrite addr n v) = s.narrowAccess addr n := by
  have hword := (wordAccess_eq_false_iff addr n).2 hna
  simp [hostTurn, hostRead, hostWrite, hwait, hword]

/-! ## An aligned word -/

/-- Assumption 12: a word that is no descriptor's faults. -/
theorem hostTurn_of_unmapped (hwait : s.waiting = none) (ha : addr.toNat % 4 = 0) (hloc : s.locate addr = none)
    (v : Word) : hostTurn s (.directRead addr 4) = .fault .hostUnmapped ∧
      hostTurn s (.directWrite addr 4 v) = .fault .hostUnmapped := by
  simp [hostTurn, hostRead, hostWrite, hwait, wordAccess_word ha, hloc]

variable (hwait : s.waiting = none) (ha : addr.toNat % 4 = 0) (hloc : s.locate addr = some (c, bd, w))

include hwait ha hloc

/-- R342: the host reads a word outside the Hardware group as a command does. -/
theorem hostTurn_read_of_ne_hw (hg : (s.ring c).group bd ≠ .hw) :
    hostTurn s (.directRead addr 4) = .next { (s.bdRead c bd w).2 with hostData := s.hostWord c bd w } := by
  rw [← (s.bdRead_hostWord c bd w).1]
  simp [hostTurn, hostRead, hwait, wordAccess_word ha, hloc, hg]

/-- U8: a violating read gives a drawn word. -/
theorem hostTurn_read_of_hw (hg : (s.ring c).group bd = .hw) :
    hostTurn s (.directRead addr 4) = .next { s.drawWord.2 with hostData := s.drawWord.1 } := by
  simp [hostTurn, hostRead, hwait, wordAccess_word ha, hloc, hg]

/-- R342: the host writes words 1 to 8 of a Pre-process descriptor as a command does. -/
theorem hostTurn_write_of_pre (hg : (s.ring c).group bd = .pre) (hw : w ≠ 0) (v : Word) :
    hostTurn s (.directWrite addr 4 v) = .next (s.bdWrite c bd w v) := by
  simp [hostTurn, hostWrite, hwait, wordAccess_word ha, hloc, hg, hw]

/-- U8: a violating write is refused. -/
theorem hostTurn_write_of_violation (hv : (s.ring c).group bd ≠ .pre ∨ w = 0) (v : Word) :
    hostTurn s (.directWrite addr 4 v) = .refused .hostOwnershipWrite := by
  have hno : ¬ ((s.ring c).group bd = .pre ∧ w ≠ 0) := by rwa [not_and_or, not_not]
  simp [hostTurn, hostWrite, hwait, wordAccess_word ha, hloc, hno]

end Access

/-! ## The statement -/

theorem State.eng_congr {s t : State} (htx : t.txEng = s.txEng) (hrx : t.rxEng = s.rxEng) (c : Channel) :
    t.eng c = s.eng c :=
  match c with
  | .tx => htx
  | .rx => hrx

/-- Settles O9: each clause is one of the equations above; the reads and writes they name keep the rings and the engine. -/
theorem hostDirectAccess : Obligations.HostDirectAccess := by
  intro s hwait
  refine ⟨fun c bd w hloc ha hg => ?read, fun addr c bd w hloc ha hg => ?readHardware,
    fun c bd w v hloc ha hg hw => ?write, fun addr n v c i hna hc hi hin => ?narrow,
    fun addr v c bd w hloc ha hv => hostTurn_write_of_violation hwait ha hloc hv v,
    fun addr v hloc ha => hostTurn_of_unmapped hwait ha hloc v, fun addr n v hs hn hna hout => ?outside⟩
  case read =>
    have hturn := hostTurn_read_of_ne_hw hwait ha hloc hg
    exact ⟨_, hturn, rfl, s.bdRead_mem c bd w, fun c' =>
      ⟨hostTurn_ring s _ _ c' hturn, (State.eng_congr rfl rfl c').trans ((s.bdRead_frame c bd w).eng c')⟩⟩
  case readHardware => exact ⟨_, hostTurn_read_of_hw hwait ha hloc hg⟩
  case write =>
    exact ⟨_, hostTurn_write_of_pre hwait ha hloc hg hw v, s.hostWord_bdWrite_same c bd w v, fun c' =>
      ⟨(s.bdWrite_frame c bd w v).ring c', (s.bdWrite_frame c bd w v).eng c'⟩⟩
  case narrow =>
    have htouch : (s.ring c).touchedBy addr n = true :=
      (Ring.touchedBy_iff hc (Ring.length_ne_zero_of_inRegion hin) addr n).2 ⟨i, by omega, hin⟩
    rw [← State.narrowAccess_of_touched htouch]
    exact hostTurn_of_narrow hwait hna v
  case outside =>
    rw [← State.narrowAccess_of_untouched fun c => (hs c).touchedBy_eq_false hn (hout c)]
    exact hostTurn_of_narrow hwait hna v

end Sys2Proof.Machine
end
